-- ==== Sys2Proof/Word.lean ====
section
/-! DEFINITION. The word types of Z8CORE (`00_scope.md` R6): 8-bit data, 16-bit addresses, the 4-bit and 2-bit
fields of instruction bytes, and the 6-bit interrupt masks. -/

namespace Sys2Proof

/-- A byte: register slots, memory bytes, instruction bytes (`00_scope.md` R6). -/
abbrev Byte := BitVec 8

/-- A 16-bit value: pc, PROGRAM and DATA addresses, register pairs (`00_scope.md` R6). -/
abbrev Word := BitVec 16

/-- A 4-bit field: a working-register number or a nibble of a byte (`00_scope.md` R9, R10). -/
abbrev Nib := BitVec 4

/-- A predication count, 0 to 3 (`10_state.md` R48). -/
abbrev Count := BitVec 2

/-- A mask of the six interrupt sources, bit i for source i (`10_state.md` R30). -/
abbrev Irq6 := BitVec 6

end Sys2Proof
end

