-- ==== Sys2Proof/Machine/Bits.lean ====
section
/-! DEFINITION. The bit-field, byte-order and sign-extension helpers every later file uses (`00_scope.md` R10, R11). -/

namespace Sys2Proof

/-- The high nibble `b[7:4]` (`00_scope.md` R10). -/
def hiNib (b : Byte) : Nib := b.extractLsb' 4 4

/-- The low nibble `b[3:0]` (`00_scope.md` R10). -/
def loNib (b : Byte) : Nib := b.extractLsb' 0 4

/-- `{h, l}`: a byte from two nibbles, the more significant first (`00_scope.md` R10). -/
def ofNibs (h l : Nib) : Byte := h ++ l

/-- The more significant byte `w[15:8]`. -/
def hiByte (w : Word) : Byte := w.extractLsb' 8 8

/-- The less significant byte `w[7:0]`. -/
def loByte (w : Word) : Byte := w.extractLsb' 0 8

/-- `{h, l}`: a 16-bit value from two bytes, the more significant first (`20_memory.md` R76). -/
def ofBytes (h l : Byte) : Word := h ++ l

/-- `sext_16(b)` (`00_scope.md` R11). -/
def sext16 (b : Byte) : Word := b.signExtend 16

/-- Bit `i` of a byte, as `b[i]` (`00_scope.md` R10). -/
def bit (b : Byte) (i : Nat) : Bool := b.getLsbD i

/-- `b` with bit `i` set to `v` and every other bit kept. -/
def putBit (b : Byte) (i : Nat) (v : Bool) : Byte :=
  if v then b ||| (1#8 <<< i) else b &&& ~~~(1#8 <<< i)

/-- A condition as the bit 0 or 1 of a sum. -/
def bitNat (v : Bool) : Nat := if v then 1 else 0

/-- The register address `W(n) = 0xE0 | n` of working register n (`10_state.md` R25). -/
def wreg (n : Nib) : Byte := ofNibs 0xE#4 n

end Sys2Proof
end

