-- ==== Sys2Proof/Config.lean ====
section
/-! DEFINITION. The configuration of a machine (`00_scope.md` R7, R8), as plain data, and the free behaviour of a device
the spec does not describe. Every field the spec leaves OPEN is a field here; a statement over every state is a
statement over every configuration, since `State.cfg` carries it (log 1). -/

namespace Sys2Proof

/-- `Config.placement` (`00_scope.md` R7). -/
inductive Placement where
  | directMapped
  | fullyAssociative
deriving DecidableEq, Repr

/-- `Config.writePolicy` (`00_scope.md` R7). -/
inductive WritePolicy where
  | writeBack
  | writeThrough
deriving DecidableEq, Repr

/-- The read-or-write indicator of a device callback (`10_state.md` R30). -/
inductive Access where
  | read
  | write
deriving DecidableEq, Repr

/-- The cost table (`00_scope.md` R8): every field a natural number, every value OPEN. `mode` holds `cost.mode[m]` for
m in 2..7 at index m - 2. -/
structure CostTable where
  op : Vector Nat 256
  mode : Vector Nat 6
  cc : Nat
  irqPushPc : Nat
  irqPushFlags : Nat
  irqCleanup : Nat
  skip : Nat
  wait : Nat
deriving DecidableEq, Repr

/-- One timer of the reference timer (`60_exceptions.md` R372, `RefTimer.S`). -/
structure TimerChannel where
  t : Byte
  pre : Byte
  cnt : Nat
  running : Bool
deriving DecidableEq, Repr

/-- The private state of a device (`10_state.md` R30, R50), which also says which device it is: the reference timer of
`60_exceptions.md` R372, or any other device, numbered, whose private state is a natural number (log 9). -/
inductive DevState where
  | refTimer (t0 t1 : TimerChannel)
  | external (id priv : Nat)
deriving DecidableEq, Repr

/-- A device as configured (`10_state.md` R30): the slots it backs, their initial stored bytes in the same order (a slot
with no byte listed starts at 0x00), and its private state at launch. Its callbacks are those of its `DevState`. -/
structure Device where
  slots : List Byte
  init : List Byte
  s0 : DevState
deriving DecidableEq, Repr

/-- The configuration record (`00_scope.md` R7). `Config.policy` is no field: `10_state.md` R24 fixes it from the slot
ranges and `devices` (log 8). -/
structure Config where
  numLines : Nat
  placement : Placement
  writePolicy : WritePolicy
  devices : List Device
  cost : CostTable
  ceiling : Option Nat
deriving DecidableEq, Repr

/-- The access policy of a slot (`10_state.md` R22); `deviceBacked i` names the i-th device of `Config.devices`. -/
inductive SlotPolicy where
  | readWrite
  | readOnly
  | deviceBacked (i : Nat)
  | windowedPointer
deriving DecidableEq, Repr

/-- FREE VALUE (log 9): what `onAccess` of device `id` in private state `priv` answers for an access of kind `k` to
`slot` whose stored byte is `b`: the new private state, the new stored byte, the sources to mark pending
(`10_state.md` R30, R31). The spec leaves which devices exist and what they do to the platform, so nothing
constrains it. -/
opaque Config.externalAccess (id priv : Nat) (slot : Byte) (k : Access) (b : Byte) : Nat × Byte × Irq6

/-- FREE VALUE (log 9): what `onTick` of device `id` in private state `priv` answers when `k` cycles have passed and its
slots hold `view`: the new private state, the new stored byte of each of its slots, the sources to mark pending
(`10_state.md` R30, R32). -/
opaque Config.externalTick (id priv k : Nat) (view : List (Byte × Byte)) : Nat × (Byte → Byte) × Irq6

/-- The cost table of `95_test_vectors.md` (conventions): every cost 0 and `cost.wait` 1 (log 2). -/
def CostTable.reference : CostTable where
  op := Vector.replicate 256 0
  mode := Vector.replicate 6 0
  cc := 0
  irqPushPc := 0
  irqPushFlags := 0
  irqCleanup := 0
  skip := 0
  wait := 1

/-- DESIGN CHOICE (log 2): the configuration `State.reset` carries, the one of `95_test_vectors.md` (conventions):
N = 32, fully associative, write-back, the reference cost table, no ceiling, no devices. -/
def Config.reference : Config where
  numLines := 32
  placement := .fullyAssociative
  writePolicy := .writeBack
  devices := []
  cost := CostTable.reference
  ceiling := none

end Sys2Proof
end

