-- ==== Sys2Proof/Machine/State.lean ====
section
/-! DEFINITION. The state of Z8CORE as plain data (`10_state.md` R20), the reasons a step stops, and the state after launch
that `State.reset` stands for (R55). FLAGS, the stack pointer, RP and the interrupt registers have one home: their slot of
`regs` (R35). -/

namespace Sys2Proof.Machine

/-- A bus memory of 65536 bytes (`20_memory.md` R60) as a list of (address, byte) cells, addresses strictly rising, no
cell holding what an unlisted address reads as (log 4). -/
abbrev Memory := List Host.Cell

/-- The reasons of a model-level fault (`60_exceptions.md` R331). Raising one ends the step with `run` Faulted and every
earlier write kept (`40_cycle_and_alu.md` R133). -/
inductive FaultReason where
  /-- code 1: the fetch of an illegal first byte, in an instruction cycle or a predication skip -/
  | illegalOpcode
  /-- code 2: a windowed register access while the low nibble of RP is 0xE or 0xF -/
  | forbiddenRP
  /-- code 3: a register pair at an odd address -/
  | oddRegisterPair
  /-- code 4: a PROGRAM access at address 0xFFFF -/
  | sentinelAddress
  /-- code 5: the poll needs the group order of a reserved IPR code -/
  | reservedIPR
deriving DecidableEq, Repr

/-- Why `step` answers no next state: the machine is quiescent, "no step exists" (`40_cycle_and_alu.md` R130). Safe: the
model stops where the spec has no step (log 7). No meaning of an instruction answers one. -/
inductive Fault where
  /-- raised by `step` alone, in run state Faulted: the fault of an earlier step stands (R133). Safe. -/
  | quiescentFaulted (r : FaultReason)
  /-- raised by `step` alone, in run state Stopped: the run has ended (R134). Safe. -/
  | quiescentStopped
  /-- raised by `step` alone, in run state Exhausted: the cycle ceiling was reached (R132, R134). Safe. -/
  | quiescentExhausted
deriving DecidableEq, Repr

/-- Why an instruction is given no meaning. -/
inductive Refusal where
  /-- answered by `exec` alone, for an instruction not modelled; no arm answers it. Safe. -/
  | notModelled (mnemonic : String)
deriving DecidableEq, Repr

/-- The run state (`10_state.md` R49). -/
inductive RunState where
  | running
  | waiting
  | stopped
  | exhausted
  | faulted (r : FaultReason)
deriving DecidableEq, Repr

/-- A cache line: one byte of PROGRAM memory (`10_state.md` R46). Tag 0xFFFF is the empty line. -/
structure CacheLine where
  tag : Word
  data : Byte
  dirty : Bool
  rank : Nat
deriving DecidableEq, Repr

/-- The predication context (`10_state.md` R48). -/
structure PredContext where
  tcnt : Count
  fcnt : Count
  cond : Bool
  snap : Byte
deriving DecidableEq, Repr

/-- The state record (`10_state.md` R20). `cfg` is the configuration the machine runs under, which no step changes
(log 1). -/
structure State where
  cfg : Config
  regs : Vector Byte 256
  pc : Word
  prog : Memory
  data : Memory
  lines : List CacheLine
  pred : PredContext
  run : RunState
  cycles : Nat
  lastTick : Nat
  dev : List DevState
deriving DecidableEq, Repr

/-- Register memory after launch from an image of zeros: 0x00 in slots 0x00 to 0x7F, 0xFF in the fixed ReadOnly slots 0x80
to 0xDF, 0x00 in slots 0xE0 to 0xFF (`10_state.md` R55; the zeros are a DESIGN CHOICE, log 3). -/
def State.resetRegs : Vector Byte 256 :=
  ⟨⟨List.replicate 128 0x00 ++ List.replicate 96 0xFF ++ List.replicate 32 0x00⟩, by
    simp only [List.size_toArray, List.length_append, List.length_replicate]⟩

/-- The empty cache of `n` lines, line i of rank i (`10_state.md` R55). -/
def State.emptyLines (n : Nat) : List CacheLine :=
  (List.range n).map fun i => { tag := 0xFFFF, data := 0x00, dirty := false, rank := i }

/-- The machine right after launch (`70_reset_and_hazards.md` R390) of the reference configuration (log 2) from an image
of zeros (log 3, log 4) with entry 0x0100 (log 5). -/
def State.reset : State where
  cfg := Config.reference
  regs := State.resetRegs
  pc := 0x0100
  prog := []
  data := []
  lines := State.emptyLines Config.reference.numLines
  pred := { tcnt := 0, fcnt := 0, cond := false, snap := 0x00 }
  run := .running
  cycles := 0
  lastTick := 0
  dev := []

end Sys2Proof.Machine
end

