-- ==== Sys2Proof/Machine/Memory.lean ====
section
/-! DEFINITION. The bus memories (`20_memory.md` R60, R62): reading and writing one byte of a cell list kept in canonical
form, and the form itself. -/

namespace Sys2Proof.Machine

/-- What an address no cell lists reads as: `RESET_FILL` = 0x00 (`70_reset_and_hazards.md` R392; DESIGN CHOICE, log 4). -/
def Memory.fill : Byte := 0x00

/-- The byte at key `a`: of the first cell that lists it, `Memory.fill` when none does. -/
def Memory.readKey (m : Memory) (a : Nat) : Byte :=
  match m with
  | [] => Memory.fill
  | (b, v) :: rest => if b = a then v else Memory.readKey rest a

/-- The cells of `m` with `v` at key `a`; writing `Memory.fill` leaves no cell at `a`. -/
def Memory.writeKey (m : Memory) (a : Nat) (v : Byte) : Memory :=
  match m with
  | [] => if v = Memory.fill then [] else [(a, v)]
  | (b, w) :: rest =>
    if a < b then (if v = Memory.fill then (b, w) :: rest else (a, v) :: (b, w) :: rest)
    else if a = b then (if v = Memory.fill then rest else (a, v) :: rest)
    else (b, w) :: Memory.writeKey rest a v

/-- `BusRead`: the byte at a 16-bit address (`20_memory.md` R62). -/
def Memory.read (m : Memory) (a : Word) : Byte := Memory.readKey m a.toNat

/-- `BusWrite`: the memory with byte `v` at a 16-bit address (`20_memory.md` R62). -/
def Memory.write (m : Memory) (a : Word) (v : Byte) : Memory := Memory.writeKey m a.toNat v

/-- The canonical form: keys strictly rising and inside the 65536-byte space, no cell holding `Memory.fill`. -/
def Memory.wf (m : Memory) : Bool :=
  match m with
  | [] => true
  | [(a, v)] => decide (a < 65536) && decide (v ≠ Memory.fill)
  | (a, v) :: (b, w) :: rest =>
    decide (a < b) && decide (v ≠ Memory.fill) && Memory.wf ((b, w) :: rest)

end Sys2Proof.Machine
end

