-- ==== Sys2Proof/Machine/Cache.lean ====
section
/-! DEFINITION. The program-memory cache controller (`20_memory.md` R65 to R74) as functions of the configuration, the
lines and the PROGRAM bus memory. -/

namespace Sys2Proof.Machine

/-- The tag of an empty line, an address no access reaches (`10_state.md` R46, `20_memory.md` R70). -/
def sentinel : Word := 0xFFFF

/-- An access kind with the byte a write carries (`20_memory.md` R66). -/
inductive CacheOp where
  | read
  | write (v : Byte)
deriving DecidableEq, Repr

/-- A line that holds a byte the bus does not have yet (`20_memory.md` R66, R74). -/
def CacheLine.needsFlush (l : CacheLine) : Bool := l.tag ≠ sentinel && l.dirty

/-- `Select` (`20_memory.md` R65): the line's index and whether it hits. With ranks a permutation a fully associative
cache always has a line of rank 0. -/
def cacheSelect (cfg : Config) (lines : List CacheLine) (addr : Word) : Nat × Bool :=
  match cfg.placement with
  | .directMapped =>
    let i := addr.toNat % cfg.numLines
    (i, (lines[i]?.map (·.tag)) = some addr)
  | .fullyAssociative =>
    match lines.findIdx? (fun l => l.tag = addr) with
    | some i => (i, true)
    | none => (lines.findIdx (fun l => l.rank = 0), false)

/-- `Promote` (`20_memory.md` R67), with `n` the number of lines. -/
def cachePromote (n : Nat) (lines : List CacheLine) (i : Nat) : List CacheLine :=
  match lines[i]? with
  | none => lines
  | some l =>
    (lines.map fun k => if l.rank < k.rank then { k with rank := k.rank - 1 } else k).set i { l with rank := n - 1 }

/-- The line an access leaves at its index before the promotion (`20_memory.md` R66): on a read miss filled from the bus
clean, on a write holding the new byte, dirty as the write policy says. -/
def cacheInstall (wp : WritePolicy) (prog : Memory) (addr : Word) (op : CacheOp) (hit : Bool) (l : CacheLine) :
    CacheLine :=
  match op with
  | .read => if hit then l else { l with tag := addr, data := Memory.read prog addr, dirty := false }
  | .write v =>
    match wp with
    | .writeBack => { l with tag := addr, data := v, dirty := true }
    | .writeThrough => if hit then { l with data := v } else { l with tag := addr, data := v, dirty := false }

/-- `CacheAccess` at an address other than 0xFFFF (`20_memory.md` R66): the byte returned, the lines and the PROGRAM bus
memory after it. A configuration and lines of different lengths, which no launch gives, can select no line; the access
is then answered by the bus alone (log 10). -/
def cacheAccess (cfg : Config) (lines : List CacheLine) (prog : Memory) (addr : Word) (op : CacheOp) :
    Byte × List CacheLine × Memory :=
  let (i, hit) := cacheSelect cfg lines addr
  match lines[i]? with
  | none =>
    match op with
    | .read => (Memory.read prog addr, lines, prog)
    | .write v => (v, lines, Memory.write prog addr v)
  | some l =>
    let flushed := if !hit && l.needsFlush then Memory.write prog l.tag l.data else prog
    let l' := cacheInstall cfg.writePolicy flushed addr op hit l
    let mirrored :=
      match op, cfg.writePolicy with
      | .write v, .writeThrough => Memory.write flushed addr v
      | _, _ => flushed
    (l'.data, cachePromote cfg.numLines (lines.set i l') i, mirrored)

/-- The bus after every occupied dirty line is written to it in index order (`20_memory.md` R74). -/
def cacheFlushBus (lines : List CacheLine) (prog : Memory) : Memory :=
  lines.foldl (fun m l => if l.needsFlush then Memory.write m l.tag l.data else m) prog

/-- The lines after `FlushAll`: those written to the bus are clean (`20_memory.md` R74). -/
def cacheFlushLines (lines : List CacheLine) : List CacheLine :=
  lines.map fun l => if l.needsFlush then { l with dirty := false } else l

/-- `ProgView(a)`: the byte the core reads at PROGRAM address `a` (`20_memory.md` R73). R73 defines it for the addresses
other than 0xFFFF. DEDUCED (log 17): at 0xFFFF, which no core access reaches and which is the tag of an empty line, it is the
bus byte, so that R95's "`prog[a] = ProgView(a)` for every a" holds there too. -/
def cacheView (lines : List CacheLine) (prog : Memory) (a : Word) : Byte :=
  if a = sentinel then Memory.read prog a
  else
    match lines.find? (fun l => l.tag = a) with
    | some l => l.data
    | none => Memory.read prog a

end Sys2Proof.Machine
end

