-- ==== Sys2Proof/Machine/Device.lean ====
section
/-! DEFINITION. The callbacks of a device (`10_state.md` R30 to R32): those of the reference timer as `60_exceptions.md`
R372 writes them, and those of any other device, which are free (log 9). -/

namespace Sys2Proof.Machine

/-- `reload(i)`, in cycles (`60_exceptions.md` R372). -/
def timerReload (c : TimerChannel) : Nat :=
  let p := (c.pre.extractLsb' 2 6).toNat
  (if p = 0 then 64 else p) * (if c.t = 0 then 256 else c.t.toNat)

/-- The write of `b` to TMR as timer `i` sees it: bit 2i loads, bit 2i + 1 enables (`60_exceptions.md` R372). -/
def timerControl (c : TimerChannel) (i : Nat) (b : Byte) : TimerChannel :=
  let load := bit b (2 * i)
  let en := bit b (2 * i + 1)
  { c with
    cnt := if load || (en && c.cnt = 0) then timerReload c else c.cnt
    running := en }

/-- `RefTimer.onAccess` (`60_exceptions.md` R372): the two timers, the stored byte. It raises no source. -/
def timerAccess (t0 t1 : TimerChannel) (slot : Byte) (k : Access) (b : Byte) : TimerChannel × TimerChannel × Byte :=
  match k with
  | .read => (t0, t1, b)
  | .write =>
    if slot = 0xF4 then ({ t0 with t := b }, t1, b)
    else if slot = 0xF5 then ({ t0 with pre := b }, t1, b)
    else if slot = 0xF2 then (t0, { t1 with t := b }, b)
    else if slot = 0xF3 then (t0, { t1 with pre := b }, b)
    else if slot = 0xF1 then (timerControl t0 0 b, timerControl t1 1 b, b &&& 0xFA#8)
    else (t0, t1, b)

/-- Whether `k` elapsed cycles bring the countdown to zero (`60_exceptions.md` R372). -/
def timerExpires (c : TimerChannel) (k : Nat) : Bool := c.running && decide (0 < k) && decide (c.cnt ≤ k)

/-- A timer after `k` cycles: counting on, reloaded (continuous, PRE bit 0) or stopped (single pass)
(`60_exceptions.md` R372). -/
def timerTick (c : TimerChannel) (k : Nat) : TimerChannel :=
  if timerExpires c k then
    if bit c.pre 0 then { c with cnt := timerReload c - ((k - c.cnt) % timerReload c) }
    else { c with cnt := 0, running := false }
  else if c.running then { c with cnt := c.cnt - k } else c

/-- TMR after a tick: the enable bit of timer `i` drops when it expires in single-pass mode (`60_exceptions.md` R372). -/
def timerTickControl (c : TimerChannel) (i k : Nat) (tmr : Byte) : Byte :=
  if timerExpires c k && !bit c.pre 0 then putBit tmr (2 * i + 1) false else tmr

/-- The byte an association list gives a slot; 0x00 for a slot it does not list. -/
def viewAt (view : List (Byte × Byte)) (slot : Byte) : Byte := (view.lookup slot).getD 0

/-- `onAccess` (`10_state.md` R30, R31): the device after an access, its stored byte, the sources it raises. -/
def deviceOnAccess (d : DevState) (slot : Byte) (k : Access) (b : Byte) : DevState × Byte × Irq6 :=
  match d with
  | .refTimer t0 t1 =>
    let (t0', t1', b') := timerAccess t0 t1 slot k b
    (.refTimer t0' t1', b', 0)
  | .external id priv =>
    let (priv', b', irq) := Config.externalAccess id priv slot k b
    (.external id priv', b', irq)

/-- `onTick` (`10_state.md` R30, R32): the device after `k` cycles, the new stored byte of each of its slots, the sources
it raises. Timer 0 raises source 4, timer 1 source 5 (`60_exceptions.md` R372). -/
def deviceOnTick (d : DevState) (k : Nat) (view : List (Byte × Byte)) : DevState × (Byte → Byte) × Irq6 :=
  match d with
  | .refTimer t0 t1 =>
    (.refTimer (timerTick t0 k) (timerTick t1 k),
     fun a => if a = 0xF1 then timerTickControl t1 1 k (timerTickControl t0 0 k (viewAt view 0xF1)) else viewAt view a,
     (if timerExpires t0 k then 0x10#6 else 0) ||| (if timerExpires t1 k then 0x20#6 else 0))
  | .external id priv =>
    let (priv', view', irq) := Config.externalTick id priv k view
    (.external id priv', view', irq)

/-- `d.init(a)` (`10_state.md` R30): the initial stored byte of slot `a`. -/
def deviceInit (d : Device) (a : Byte) : Byte := viewAt (d.slots.zip d.init) a

/-- The reference timer as a configured device (`60_exceptions.md` R372), from the initial bytes of TMR, T1, PRE1, T0 and
PRE0. -/
def refTimer (tmr t1 pre1 t0 pre0 : Byte) : Device where
  slots := [0xF1, 0xF2, 0xF3, 0xF4, 0xF5]
  init := [tmr, t1, pre1, t0, pre0]
  s0 := .refTimer { t := t0, pre := pre0, cnt := 0, running := false } { t := t1, pre := pre1, cnt := 0, running := false }

/-- The policy of a slot (`10_state.md` R22 to R24): fixed by its range, and in the ranges a device may back, by the first
configured device that lists it (log 8). -/
def slotPolicy (devices : List Device) (a : Byte) : SlotPolicy :=
  if 0x80#8 ≤ a ∧ a ≤ 0xDF#8 then .readOnly
  else if 0xE0#8 ≤ a ∧ a ≤ 0xEF#8 then .windowedPointer
  else if 0xF8#8 ≤ a then .readWrite
  else match devices.findIdx? (fun d => d.slots.contains a) with
    | some i => .deviceBacked i
    | none => .readWrite

end Sys2Proof.Machine
end

