-- ==== Sys2Proof/Syntax.lean ====
section
/-! DEFINITION. The instructions of Z8CORE: one constructor per row of `spec/opcode_table.json` (129 rows), with the operand
fields of its encoding (`30_encoding.md` R102, R103). In a constructor's name W stands for a working register r (a
4-bit number), R for an 8-bit register address, RR for a register pair, IM for an immediate, and I before one of them
for the indirection @. Arguments are written destination first, whatever the order of the encoded bytes. -/

namespace Sys2Proof

/-- The sixteen condition codes (`40_cycle_and_alu.md` R150), in the order of their 4-bit code. -/
inductive CC where
  /-- F, code 0x0: never -/
  | never
  /-- LT, code 0x1: (S xor V) = 1 -/
  | lt
  /-- LE, code 0x2: (Z or (S xor V)) = 1 -/
  | le
  /-- ULE, code 0x3: (C or Z) = 1 -/
  | ule
  /-- OV, code 0x4: V = 1 -/
  | ov
  /-- MI, code 0x5: S = 1 -/
  | mi
  /-- Z, EQ, code 0x6: Z = 1 -/
  | eq
  /-- C, ULT, code 0x7: C = 1 -/
  | ult
  /-- T, code 0x8: always -/
  | always
  /-- GE, code 0x9: (S xor V) = 0 -/
  | ge
  /-- GT, code 0xA: (Z or (S xor V)) = 0 -/
  | gt
  /-- UGT, code 0xB: C = 0 and Z = 0 -/
  | ugt
  /-- NOV, code 0xC: V = 0 -/
  | nov
  /-- PL, code 0xD: S = 0 -/
  | pl
  /-- NZ, NE, code 0xE: Z = 0 -/
  | ne
  /-- NC, UGE, code 0xF: C = 0 -/
  | uge
deriving DecidableEq, Repr

/-- The instructions. The docstring of each constructor names its row and its rule. -/
inductive Instr where
  /-- DEC R: register `r` (`43_single_operand.md` R234, format F2) -/
  | decR (r : Byte)
  /-- DEC @R: the register whose address register `r` holds (`43_single_operand.md` R234, format F2) -/
  | decIR (r : Byte)
  /-- RLC R: register `r` (`43_single_operand.md` R235, format F2) -/
  | rlcR (r : Byte)
  /-- RLC @R: the register whose address register `r` holds (`43_single_operand.md` R235, format F2) -/
  | rlcIR (r : Byte)
  /-- INC R: register `r` (`43_single_operand.md` R236, format F2) -/
  | incR (r : Byte)
  /-- INC @R: the register whose address register `r` holds (`43_single_operand.md` R236, format F2) -/
  | incIR (r : Byte)
  /-- JP @RR: jump through the register pair at address `rr` (`43_single_operand.md` R232, format F2) -/
  | jpIRR (rr : Byte)
  /-- SRP #IM: set the register pointer from the high nibble of `im` (`43_single_operand.md` R233, format F3) -/
  | srp (im : Byte)
  /-- DA R: register `r` (`43_single_operand.md` R237, format F2) -/
  | daR (r : Byte)
  /-- DA @R: the register whose address register `r` holds (`43_single_operand.md` R237, format F2) -/
  | daIR (r : Byte)
  /-- POP R: register `r` (`43_single_operand.md` R238, format F2) -/
  | popR (r : Byte)
  /-- POP @R: the register whose address register `r` holds (`43_single_operand.md` R238, format F2) -/
  | popIR (r : Byte)
  /-- COM R: register `r` (`43_single_operand.md` R239, format F2) -/
  | comR (r : Byte)
  /-- COM @R: the register whose address register `r` holds (`43_single_operand.md` R239, format F2) -/
  | comIR (r : Byte)
  /-- PUSH R: register `r` (`43_single_operand.md` R240, format F2) -/
  | pushR (r : Byte)
  /-- PUSH @R: the register whose address register `r` holds (`43_single_operand.md` R240, format F2) -/
  | pushIR (r : Byte)
  /-- DECW RR: the register pair at address `rr` (`43_single_operand.md` R241, format F2) -/
  | decwRR (rr : Byte)
  /-- DECW @R: the register pair whose address register `r` holds (`43_single_operand.md` R241, format F2) -/
  | decwIR (r : Byte)
  /-- RL R: register `r` (`43_single_operand.md` R242, format F2) -/
  | rlR (r : Byte)
  /-- RL @R: the register whose address register `r` holds (`43_single_operand.md` R242, format F2) -/
  | rlIR (r : Byte)
  /-- INCW RR: the register pair at address `rr` (`43_single_operand.md` R243, format F2) -/
  | incwRR (rr : Byte)
  /-- INCW @R: the register pair whose address register `r` holds (`43_single_operand.md` R243, format F2) -/
  | incwIR (r : Byte)
  /-- CLR R: register `r` (`43_single_operand.md` R244, format F2) -/
  | clrR (r : Byte)
  /-- CLR @R: the register whose address register `r` holds (`43_single_operand.md` R244, format F2) -/
  | clrIR (r : Byte)
  /-- RRC R: register `r` (`43_single_operand.md` R245, format F2) -/
  | rrcR (r : Byte)
  /-- RRC @R: the register whose address register `r` holds (`43_single_operand.md` R245, format F2) -/
  | rrcIR (r : Byte)
  /-- SRA R: register `r` (`43_single_operand.md` R246, format F2) -/
  | sraR (r : Byte)
  /-- SRA @R: the register whose address register `r` holds (`43_single_operand.md` R246, format F2) -/
  | sraIR (r : Byte)
  /-- RR R: register `r` (`43_single_operand.md` R247, format F2) -/
  | rrR (r : Byte)
  /-- RR @R: the register whose address register `r` holds (`43_single_operand.md` R247, format F2) -/
  | rrIR (r : Byte)
  /-- SWAP R: register `r` (`43_single_operand.md` R248, format F2) -/
  | swapR (r : Byte)
  /-- SWAP @R: the register whose address register `r` holds (`43_single_operand.md` R248, format F2) -/
  | swapIR (r : Byte)
  /-- ADD r,r: working register `d` with working register `w` (`42_two_operand.md` R192, format F4) -/
  | addWW (d : Nib) (w : Nib)
  /-- ADD r,@r: working register `d` with the register whose address working register `w` holds (`42_two_operand.md` R192, format F4) -/
  | addWIW (d : Nib) (w : Nib)
  /-- ADD R,R: register `d` with register `r` (encoded source first) (`42_two_operand.md` R192, format F5) -/
  | addRR (d : Byte) (r : Byte)
  /-- ADD R,@R: register `d` with the register whose address register `r` holds (encoded source first) (`42_two_operand.md` R192, format F5) -/
  | addRIR (d : Byte) (r : Byte)
  /-- ADD R,#IM: register `d` with the immediate `im` (`42_two_operand.md` R192, format F6) -/
  | addRIM (d : Byte) (im : Byte)
  /-- ADD @R,#IM: the register whose address register `d` holds, with the immediate `im` (`42_two_operand.md` R192, format F6) -/
  | addIRIM (d : Byte) (im : Byte)
  /-- ADC r,r: working register `d` with working register `w` (`42_two_operand.md` R193, format F4) -/
  | adcWW (d : Nib) (w : Nib)
  /-- ADC r,@r: working register `d` with the register whose address working register `w` holds (`42_two_operand.md` R193, format F4) -/
  | adcWIW (d : Nib) (w : Nib)
  /-- ADC R,R: register `d` with register `r` (encoded source first) (`42_two_operand.md` R193, format F5) -/
  | adcRR (d : Byte) (r : Byte)
  /-- ADC R,@R: register `d` with the register whose address register `r` holds (encoded source first) (`42_two_operand.md` R193, format F5) -/
  | adcRIR (d : Byte) (r : Byte)
  /-- ADC R,#IM: register `d` with the immediate `im` (`42_two_operand.md` R193, format F6) -/
  | adcRIM (d : Byte) (im : Byte)
  /-- ADC @R,#IM: the register whose address register `d` holds, with the immediate `im` (`42_two_operand.md` R193, format F6) -/
  | adcIRIM (d : Byte) (im : Byte)
  /-- SUB r,r: working register `d` with working register `w` (`42_two_operand.md` R194, format F4) -/
  | subWW (d : Nib) (w : Nib)
  /-- SUB r,@r: working register `d` with the register whose address working register `w` holds (`42_two_operand.md` R194, format F4) -/
  | subWIW (d : Nib) (w : Nib)
  /-- SUB R,R: register `d` with register `r` (encoded source first) (`42_two_operand.md` R194, format F5) -/
  | subRR (d : Byte) (r : Byte)
  /-- SUB R,@R: register `d` with the register whose address register `r` holds (encoded source first) (`42_two_operand.md` R194, format F5) -/
  | subRIR (d : Byte) (r : Byte)
  /-- SUB R,#IM: register `d` with the immediate `im` (`42_two_operand.md` R194, format F6) -/
  | subRIM (d : Byte) (im : Byte)
  /-- SUB @R,#IM: the register whose address register `d` holds, with the immediate `im` (`42_two_operand.md` R194, format F6) -/
  | subIRIM (d : Byte) (im : Byte)
  /-- SBC r,r: working register `d` with working register `w` (`42_two_operand.md` R195, format F4) -/
  | sbcWW (d : Nib) (w : Nib)
  /-- SBC r,@r: working register `d` with the register whose address working register `w` holds (`42_two_operand.md` R195, format F4) -/
  | sbcWIW (d : Nib) (w : Nib)
  /-- SBC R,R: register `d` with register `r` (encoded source first) (`42_two_operand.md` R195, format F5) -/
  | sbcRR (d : Byte) (r : Byte)
  /-- SBC R,@R: register `d` with the register whose address register `r` holds (encoded source first) (`42_two_operand.md` R195, format F5) -/
  | sbcRIR (d : Byte) (r : Byte)
  /-- SBC R,#IM: register `d` with the immediate `im` (`42_two_operand.md` R195, format F6) -/
  | sbcRIM (d : Byte) (im : Byte)
  /-- SBC @R,#IM: the register whose address register `d` holds, with the immediate `im` (`42_two_operand.md` R195, format F6) -/
  | sbcIRIM (d : Byte) (im : Byte)
  /-- OR r,r: working register `d` with working register `w` (`42_two_operand.md` R196, format F4) -/
  | orWW (d : Nib) (w : Nib)
  /-- OR r,@r: working register `d` with the register whose address working register `w` holds (`42_two_operand.md` R196, format F4) -/
  | orWIW (d : Nib) (w : Nib)
  /-- OR R,R: register `d` with register `r` (encoded source first) (`42_two_operand.md` R196, format F5) -/
  | orRR (d : Byte) (r : Byte)
  /-- OR R,@R: register `d` with the register whose address register `r` holds (encoded source first) (`42_two_operand.md` R196, format F5) -/
  | orRIR (d : Byte) (r : Byte)
  /-- OR R,#IM: register `d` with the immediate `im` (`42_two_operand.md` R196, format F6) -/
  | orRIM (d : Byte) (im : Byte)
  /-- OR @R,#IM: the register whose address register `d` holds, with the immediate `im` (`42_two_operand.md` R196, format F6) -/
  | orIRIM (d : Byte) (im : Byte)
  /-- AND r,r: working register `d` with working register `w` (`42_two_operand.md` R197, format F4) -/
  | andWW (d : Nib) (w : Nib)
  /-- AND r,@r: working register `d` with the register whose address working register `w` holds (`42_two_operand.md` R197, format F4) -/
  | andWIW (d : Nib) (w : Nib)
  /-- AND R,R: register `d` with register `r` (encoded source first) (`42_two_operand.md` R197, format F5) -/
  | andRR (d : Byte) (r : Byte)
  /-- AND R,@R: register `d` with the register whose address register `r` holds (encoded source first) (`42_two_operand.md` R197, format F5) -/
  | andRIR (d : Byte) (r : Byte)
  /-- AND R,#IM: register `d` with the immediate `im` (`42_two_operand.md` R197, format F6) -/
  | andRIM (d : Byte) (im : Byte)
  /-- AND @R,#IM: the register whose address register `d` holds, with the immediate `im` (`42_two_operand.md` R197, format F6) -/
  | andIRIM (d : Byte) (im : Byte)
  /-- TCM r,r: working register `d` with working register `w` (`42_two_operand.md` R198, format F4) -/
  | tcmWW (d : Nib) (w : Nib)
  /-- TCM r,@r: working register `d` with the register whose address working register `w` holds (`42_two_operand.md` R198, format F4) -/
  | tcmWIW (d : Nib) (w : Nib)
  /-- TCM R,R: register `d` with register `r` (encoded source first) (`42_two_operand.md` R198, format F5) -/
  | tcmRR (d : Byte) (r : Byte)
  /-- TCM R,@R: register `d` with the register whose address register `r` holds (encoded source first) (`42_two_operand.md` R198, format F5) -/
  | tcmRIR (d : Byte) (r : Byte)
  /-- TCM R,#IM: register `d` with the immediate `im` (`42_two_operand.md` R198, format F6) -/
  | tcmRIM (d : Byte) (im : Byte)
  /-- TCM @R,#IM: the register whose address register `d` holds, with the immediate `im` (`42_two_operand.md` R198, format F6) -/
  | tcmIRIM (d : Byte) (im : Byte)
  /-- TM r,r: working register `d` with working register `w` (`42_two_operand.md` R200, format F4) -/
  | tmWW (d : Nib) (w : Nib)
  /-- TM r,@r: working register `d` with the register whose address working register `w` holds (`42_two_operand.md` R200, format F4) -/
  | tmWIW (d : Nib) (w : Nib)
  /-- TM R,R: register `d` with register `r` (encoded source first) (`42_two_operand.md` R200, format F5) -/
  | tmRR (d : Byte) (r : Byte)
  /-- TM R,@R: register `d` with the register whose address register `r` holds (encoded source first) (`42_two_operand.md` R200, format F5) -/
  | tmRIR (d : Byte) (r : Byte)
  /-- TM R,#IM: register `d` with the immediate `im` (`42_two_operand.md` R200, format F6) -/
  | tmRIM (d : Byte) (im : Byte)
  /-- TM @R,#IM: the register whose address register `d` holds, with the immediate `im` (`42_two_operand.md` R200, format F6) -/
  | tmIRIM (d : Byte) (im : Byte)
  /-- CP r,r: working register `d` with working register `w` (`42_two_operand.md` R199, format F4) -/
  | cpWW (d : Nib) (w : Nib)
  /-- CP r,@r: working register `d` with the register whose address working register `w` holds (`42_two_operand.md` R199, format F4) -/
  | cpWIW (d : Nib) (w : Nib)
  /-- CP R,R: register `d` with register `r` (encoded source first) (`42_two_operand.md` R199, format F5) -/
  | cpRR (d : Byte) (r : Byte)
  /-- CP R,@R: register `d` with the register whose address register `r` holds (encoded source first) (`42_two_operand.md` R199, format F5) -/
  | cpRIR (d : Byte) (r : Byte)
  /-- CP R,#IM: register `d` with the immediate `im` (`42_two_operand.md` R199, format F6) -/
  | cpRIM (d : Byte) (im : Byte)
  /-- CP @R,#IM: the register whose address register `d` holds, with the immediate `im` (`42_two_operand.md` R199, format F6) -/
  | cpIRIM (d : Byte) (im : Byte)
  /-- XOR r,r: working register `d` with working register `w` (`42_two_operand.md` R201, format F4) -/
  | xorWW (d : Nib) (w : Nib)
  /-- XOR r,@r: working register `d` with the register whose address working register `w` holds (`42_two_operand.md` R201, format F4) -/
  | xorWIW (d : Nib) (w : Nib)
  /-- XOR R,R: register `d` with register `r` (encoded source first) (`42_two_operand.md` R201, format F5) -/
  | xorRR (d : Byte) (r : Byte)
  /-- XOR R,@R: register `d` with the register whose address register `r` holds (encoded source first) (`42_two_operand.md` R201, format F5) -/
  | xorRIR (d : Byte) (r : Byte)
  /-- XOR R,#IM: register `d` with the immediate `im` (`42_two_operand.md` R201, format F6) -/
  | xorRIM (d : Byte) (im : Byte)
  /-- XOR @R,#IM: the register whose address register `d` holds, with the immediate `im` (`42_two_operand.md` R201, format F6) -/
  | xorIRIM (d : Byte) (im : Byte)
  /-- LD r,@r: working register `d` from the register whose address working register `w` holds (`42_two_operand.md` R204, format F4) -/
  | ldWIW (d : Nib) (w : Nib)
  /-- LD @r,r: the register whose address working register `d` holds, from working register `w` (`42_two_operand.md` R205, format F4) -/
  | ldIWW (d : Nib) (w : Nib)
  /-- LD R,R: register `d` from register `r` (encoded source first) (`42_two_operand.md` R206, format F5) -/
  | ldRR (d : Byte) (r : Byte)
  /-- LD R,@R: register `d` from the register whose address register `r` holds (encoded source first) (`42_two_operand.md` R207, format F5) -/
  | ldRIR (d : Byte) (r : Byte)
  /-- LD R,#IM: register `d` from the immediate `im` (`42_two_operand.md` R208, format F6) -/
  | ldRIM (d : Byte) (im : Byte)
  /-- LD @R,#IM: the register whose address register `d` holds, from the immediate `im` (`42_two_operand.md` R209, format F6) -/
  | ldIRIM (d : Byte) (im : Byte)
  /-- LD @R,R: the register whose address register `d` holds, from register `r` (encoded source first) (`42_two_operand.md` R210, format F5) -/
  | ldIRR (d : Byte) (r : Byte)
  /-- LDE r,@rr: working register `d` from DATA memory at the address in working pair `p` (`44_memory_indexed_calls.md` R271, format F4) -/
  | ldeLoad (d : Nib) (p : Nib)
  /-- LDE @rr,r: working register `d` to DATA memory at the address in working pair `p` (`44_memory_indexed_calls.md` R272, format F4) -/
  | ldeStore (d : Nib) (p : Nib)
  /-- LDEI @r,@rr: the register whose address working register `d` holds from DATA memory at the address in working pair `p`, then both pointers plus one (`44_memory_indexed_calls.md` R273, format F4) -/
  | ldeiLoad (d : Nib) (p : Nib)
  /-- LDEI @rr,@r: the register whose address working register `d` holds to DATA memory at the address in working pair `p`, then both pointers plus one (`44_memory_indexed_calls.md` R274, format F4) -/
  | ldeiStore (d : Nib) (p : Nib)
  /-- LDC r,@rr: working register `d` from PROGRAM memory at the address in working pair `p` (`44_memory_indexed_calls.md` R275, format F4) -/
  | ldcLoad (d : Nib) (p : Nib)
  /-- LDC @rr,r: working register `d` to PROGRAM memory at the address in working pair `p` (`44_memory_indexed_calls.md` R276, format F4) -/
  | ldcStore (d : Nib) (p : Nib)
  /-- LDCI @r,@rr: the register whose address working register `d` holds from PROGRAM memory at the address in working pair `p`, then both pointers plus one (`44_memory_indexed_calls.md` R277, format F4) -/
  | ldciLoad (d : Nib) (p : Nib)
  /-- LDCI @rr,@r: the register whose address working register `d` holds to PROGRAM memory at the address in working pair `p`, then both pointers plus one (`44_memory_indexed_calls.md` R278, format F4) -/
  | ldciStore (d : Nib) (p : Nib)
  /-- LD r,X(r): working register `d` from the register at `off` plus working register `x` (`44_memory_indexed_calls.md` R279, format F7) -/
  | ldWX (d : Nib) (x : Nib) (off : Byte)
  /-- LD X(r),r: working register `d` to the register at `off` plus working register `x` (`44_memory_indexed_calls.md` R280, format F7) -/
  | ldXW (d : Nib) (x : Nib) (off : Byte)
  /-- CALL @RR: call through the register pair at address `rr` (`44_memory_indexed_calls.md` R282, format F2) -/
  | callIRR (rr : Byte)
  /-- CALL DA: call the address `da` (`44_memory_indexed_calls.md` R281, format F11) -/
  | callDA (da : Word)
  /-- LD r,R: working register `d` from register `r` (`41_short_forms.md` R161, format F8) -/
  | ldWR (d : Nib) (r : Byte)
  /-- LD R,r: register `d` from working register `w` (`41_short_forms.md` R162, format F8) -/
  | ldRW (d : Byte) (w : Nib)
  /-- DJNZ r,RA: decrement working register `w`, jump by `ra` when it is not zero (`41_short_forms.md` R163, format F8) -/
  | djnz (w : Nib) (ra : Byte)
  /-- JR cc,RA: jump by `ra` when `cc` holds (`41_short_forms.md` R164, format F9) -/
  | jr (cc : CC) (ra : Byte)
  /-- LD r,#IM: working register `d` from the immediate `im` (`41_short_forms.md` R165, format F8) -/
  | ldWIM (d : Nib) (im : Byte)
  /-- JP cc,DA: jump to `da` when `cc` holds (`41_short_forms.md` R166, format F10) -/
  | jp (cc : CC) (da : Word)
  /-- INC r: increment working register `w` (`41_short_forms.md` R167, format F1) -/
  | incW (w : Nib)
  /-- IF cc,t,f: begin a predicated block of `t` true and `f` false instructions (`45_predicated_execution.md` R301, format F12) -/
  | ifPred (cc : CC) (t : Count) (f : Count)
  /-- STOP: end the run (`41_short_forms.md` R170, format F0) -/
  | stop
  /-- HALT: wait for an interrupt (`41_short_forms.md` R171, format F0) -/
  | halt
  /-- DI: disable interrupts (`41_short_forms.md` R172, format F0) -/
  | di
  /-- EI: enable interrupts (`41_short_forms.md` R173, format F0) -/
  | ei
  /-- RET: return (`41_short_forms.md` R174, format F0) -/
  | ret
  /-- IRET: return from interrupt (`41_short_forms.md` R175, format F0) -/
  | iret
  /-- RCF: clear carry (`41_short_forms.md` R176, format F0) -/
  | rcf
  /-- SCF: set carry (`41_short_forms.md` R177, format F0) -/
  | scf
  /-- CCF: complement carry (`41_short_forms.md` R178, format F0) -/
  | ccf
  /-- NOP: no operation (`41_short_forms.md` R179, format F0) -/
  | nop
deriving DecidableEq, Repr

end Sys2Proof
end

