-- ==== Sys2Proof/Machine/Flags.lean ====
section
/-! DEFINITION. The FLAGS byte, the ALU primitives with the flags they compute, and the condition codes
(`10_state.md` R36, R37; `40_cycle_and_alu.md` R140 to R151), as functions on bytes. -/

namespace Sys2Proof.Machine

/-- C, bit 7 of FLAGS (`10_state.md` R36). -/
def flagC (f : Byte) : Bool := bit f 7
/-- Z, bit 6 of FLAGS. -/
def flagZ (f : Byte) : Bool := bit f 6
/-- S, bit 5 of FLAGS. -/
def flagS (f : Byte) : Bool := bit f 5
/-- V, bit 4 of FLAGS. -/
def flagV (f : Byte) : Bool := bit f 4
/-- D, bit 3 of FLAGS. -/
def flagD (f : Byte) : Bool := bit f 3
/-- H, bit 2 of FLAGS. -/
def flagH (f : Byte) : Bool := bit f 2

/-- The flag bits an operation writes: `none` leaves the bit as it is (`10_state.md` R37). -/
structure FlagBits where
  c : Option Bool := none
  z : Option Bool := none
  s : Option Bool := none
  v : Option Bool := none
  d : Option Bool := none
  h : Option Bool := none
deriving DecidableEq, Repr

/-- One bit of FLAGS written or left (`10_state.md` R36). -/
def putFlag (i : Nat) (x : Option Bool) (f : Byte) : Byte :=
  match x with
  | none => f
  | some v => putBit f i v

/-- FLAGS with the bits of an update written, bits 1 and 0 never among them (`10_state.md` R36). -/
def applyFlags (u : FlagBits) (f : Byte) : Byte :=
  putFlag 7 u.c (putFlag 6 u.z (putFlag 5 u.s (putFlag 4 u.v (putFlag 3 u.d (putFlag 2 u.h f)))))

/-- `AddPrim` (`40_cycle_and_alu.md` R140, R143 to R145). -/
def addPrim (a b : Byte) (cin : Bool) : Byte × FlagBits :=
  let t := a.toNat + b.toNat + bitNat cin
  let r := BitVec.ofNat 8 t
  (r, { c := some (t.testBit 8), z := some (r == 0), s := some (bit r 7), v := some (bit a 7 != bit r 7)
        d := some false, h := some (bit r 4 != bit a 4) })

/-- `SubPrim` (`40_cycle_and_alu.md` R141, R143 to R145). -/
def subPrim (a b : Byte) (cin : Bool) : Byte × FlagBits :=
  let t := a.toNat + (b ^^^ 0xFF#8).toNat + (1 - bitNat cin)
  let r := BitVec.ofNat 8 t
  (r, { c := some (!t.testBit 8), z := some (r == 0), s := some (bit r 7), v := some (bit a 7 != bit r 7)
        d := some true, h := some (bit r 4 == bit a 4) })

/-- The computation of CP: that of `SubPrim(a, src, 0)` restricted to C, Z, S, V (`42_two_operand.md` R199). -/
def comparePrim (a b : Byte) : Byte × FlagBits :=
  let (r, u) := subPrim a b false
  (r, { u with d := none, h := none })

/-- `LogicFlags(r)` (`40_cycle_and_alu.md` R147). -/
def logicFlags (r : Byte) : FlagBits := { z := some (r == 0), s := some (bit r 7), v := some false }

/-- `IncFlags(r)` (`40_cycle_and_alu.md` R148). -/
def incFlags (r : Byte) : FlagBits := { z := some (r == 0), s := some (bit r 7), v := some (r == 0x80#8) }

/-- `DecFlags(r)` (`40_cycle_and_alu.md` R148). -/
def decFlags (r : Byte) : FlagBits := { z := some (r == 0), s := some (bit r 7), v := some (r == 0x7F#8) }

/-- `IncwFlags(w)` (`40_cycle_and_alu.md` R148). -/
def incwFlags (w : Word) : FlagBits :=
  { z := some (w == 0), s := some (w.getLsbD 15), v := some (w == 0x8000#16) }

/-- `DecwFlags(w)` (`40_cycle_and_alu.md` R148). -/
def decwFlags (w : Word) : FlagBits :=
  { z := some (w == 0), s := some (w.getLsbD 15), v := some (w == 0x7FFF#16) }

/-- The ten operations of the two-operand family (`42_two_operand.md` R192 to R201). -/
inductive AluOp where
  | add | adc | sub | sbc | or | and | tcm | tm | cp | xor
deriving DecidableEq, Repr

/-- `op(a, src)` of each operation: the result and the flag bits, `f` the FLAGS byte before any flag is written
(`42_two_operand.md` R192 to R201). -/
def aluEval (op : AluOp) (a src f : Byte) : Byte × FlagBits :=
  match op with
  | .add => addPrim a src false
  | .adc => addPrim a src (flagC f)
  | .sub => subPrim a src false
  | .sbc => subPrim a src (flagC f)
  | .or => (a ||| src, logicFlags (a ||| src))
  | .and => (a &&& src, logicFlags (a &&& src))
  | .tcm => ((a ^^^ 0xFF#8) &&& src, logicFlags ((a ^^^ 0xFF#8) &&& src))
  | .tm => (a &&& src, logicFlags (a &&& src))
  | .cp => comparePrim a src
  | .xor => (a ^^^ src, logicFlags (a ^^^ src))

/-- Whether the operation writes its destination (`42_two_operand.md` R192 to R201). -/
def aluWrites (op : AluOp) : Bool :=
  match op with
  | .tcm | .tm | .cp => false
  | .add | .adc | .sub | .sbc | .or | .and | .xor => true

/-- The flags the five rotates and shifts have in common: Z and S of the result, C the bit moved out
(`40_cycle_and_alu.md` R149). -/
def rotateFlags (r : Byte) (c v : Bool) : FlagBits :=
  { c := some c, z := some (r == 0), s := some (bit r 7), v := some v }

/-- DEC (`43_single_operand.md` R234). -/
def opDec (d _f : Byte) : Byte × FlagBits := (d - 1, decFlags (d - 1))

/-- INC (`43_single_operand.md` R236, `41_short_forms.md` R167). -/
def opInc (d _f : Byte) : Byte × FlagBits := (d + 1, incFlags (d + 1))

/-- COM (`43_single_operand.md` R239). -/
def opCom (d _f : Byte) : Byte × FlagBits := (d ^^^ 0xFF#8, logicFlags (d ^^^ 0xFF#8))

/-- RL (`40_cycle_and_alu.md` R149, `43_single_operand.md` R242). -/
def opRl (d _f : Byte) : Byte × FlagBits :=
  let r := putBit (d <<< 1) 0 (bit d 7)
  (r, rotateFlags r (bit d 7) (bit d 7 != bit r 7))

/-- RLC (`40_cycle_and_alu.md` R149, `43_single_operand.md` R235). -/
def opRlc (d f : Byte) : Byte × FlagBits :=
  let r := putBit (d <<< 1) 0 (flagC f)
  (r, rotateFlags r (bit d 7) (bit d 7 != bit r 7))

/-- RR (`40_cycle_and_alu.md` R149, `43_single_operand.md` R247). -/
def opRr (d _f : Byte) : Byte × FlagBits :=
  let r := putBit (d >>> 1) 7 (bit d 0)
  (r, rotateFlags r (bit d 0) (bit d 7 != bit r 7))

/-- RRC (`40_cycle_and_alu.md` R149, `43_single_operand.md` R245). -/
def opRrc (d f : Byte) : Byte × FlagBits :=
  let r := putBit (d >>> 1) 7 (flagC f)
  (r, rotateFlags r (bit d 0) (bit d 7 != bit r 7))

/-- SRA (`40_cycle_and_alu.md` R149, `43_single_operand.md` R246). -/
def opSra (d _f : Byte) : Byte × FlagBits :=
  let r := (d >>> 1) ||| (d &&& 0x80#8)
  (r, rotateFlags r (bit d 0) false)

/-- SWAP (`43_single_operand.md` R248). -/
def opSwap (d _f : Byte) : Byte × FlagBits :=
  let r := ofNibs (loNib d) (hiNib d)
  (r, { z := some (r == 0), s := some (bit r 7) })

/-- The correction of a decimal adjust and the carry after it (`40_cycle_and_alu.md` R146). -/
def decimalCorrection (d f : Byte) : Byte × Bool :=
  let hi := (hiNib d).toNat
  let lo := (loNib d).toNat
  if flagD f then
    ((if flagH f then 0xFA#8 else 0) + (if flagC f then 0xA0#8 else 0), flagC f)
  else
    let low6 := flagH f || decide (9 < lo)
    let high6 := flagC f || decide (9 < hi) || (decide (hi = 9) && decide (9 < lo))
    ((if low6 then 0x06#8 else 0) + (if high6 then 0x60#8 else 0), high6)

/-- DA: `DecimalAdjust` (`40_cycle_and_alu.md` R146, `43_single_operand.md` R237). -/
def opDa (d f : Byte) : Byte × FlagBits :=
  let (corr, cn) := decimalCorrection d f
  let r := d + corr
  (r, { c := some cn, z := some (r == 0), s := some (bit r 7) })

/-- The condition-code table over the flag bits (`40_cycle_and_alu.md` R150). -/
def condHolds (cc : CC) (f : Byte) : Bool :=
  match cc with
  | .never => false
  | .lt => flagS f != flagV f
  | .le => flagZ f || (flagS f != flagV f)
  | .ule => flagC f || flagZ f
  | .ov => flagV f
  | .mi => flagS f
  | .eq => flagZ f
  | .ult => flagC f
  | .always => true
  | .ge => !(flagS f != flagV f)
  | .gt => !(flagZ f || (flagS f != flagV f))
  | .ugt => !flagC f && !flagZ f
  | .nov => !flagV f
  | .pl => !flagS f
  | .ne => !flagZ f
  | .uge => !flagC f

end Sys2Proof.Machine
end

