-- ==== Sys2Proof/Machine/Ops.lean ====
section
/-! DEFINITION. The named operations over registers, memory, the stack and the program counter (`00_scope.md` R12), taking
an interrupt and returning from one. An operation that can raise a fault is an `M`: it answers a value and a state, or
the fault and the state AS AT THE RAISE (`40_cycle_and_alu.md` R133). -/

namespace Sys2Proof.Machine

/-- A computation of the pseudocode: a value and the state after it, or a fault and the state as at the raise. -/
abbrev M := EStateM FaultReason State

/-- What an instruction's meaning answers. -/
abbrev Out := Host.Outcome State Fault Refusal

/-- `run <- Faulted(x)` (`40_cycle_and_alu.md` R133). -/
def State.raise (s : State) (r : FaultReason) : State := { s with run := .faulted r }

/-- A computation run to its end: a raised fault leaves the state as at the raise with `run` Faulted (R133, log 7). -/
def M.finish (m : M Unit) (s : State) : Out :=
  match m s with
  | .ok _ s' => .next s'
  | .error r s' => .next (s'.raise r)

/-- Charge `k` cycles (`00_scope.md` R8, R12). -/
def State.charge (s : State) (k : Nat) : State := { s with cycles := s.cycles + k }

/-! ### Registers -/

/-- The slot of each special register the core uses (`10_state.md` R35). -/
def slotP01M : Byte := 0xF8
/-- Interrupt priority (`10_state.md` R42). -/
def slotIPR : Byte := 0xF9
/-- Interrupt pending (`10_state.md` R41). -/
def slotIRQ : Byte := 0xFA
/-- Interrupt mask (`10_state.md` R40). -/
def slotIMR : Byte := 0xFB
/-- Flags (`10_state.md` R36). -/
def slotFLAGS : Byte := 0xFC
/-- Register pointer (`10_state.md` R38). -/
def slotRP : Byte := 0xFD
/-- Stack pointer, high byte (`10_state.md` R39). -/
def slotSPH : Byte := 0xFE
/-- Stack pointer, low byte (`10_state.md` R39). -/
def slotSPL : Byte := 0xFF

/-- `reg[a]`: the raw stored byte of slot `a` (`10_state.md` R21). -/
def State.reg (s : State) (a : Byte) : Byte := s.regs[a.toNat]'a.isLt

/-- `reg[a] <- v`, raw (`10_state.md` R21). -/
def State.setReg (s : State) (a v : Byte) : State := { s with regs := s.regs.set a.toNat v a.isLt }

/-- `Resolve(a)` for a stored RP byte (`10_state.md` R25, R28): the slot an address reaches, `none` where the window is
forbidden. -/
def resolve (rp a : Byte) : Option Byte :=
  if hiNib a = 0xE#4 then
    (if loNib rp = 0xE#4 ∨ loNib rp = 0xF#4 then none else some (ofNibs (loNib rp) (loNib a)))
  else some a

/-- `reg[0xFA] <- reg[0xFA] | (irq & 0x3F)` (`10_state.md` R26, R27, R32). -/
def State.markPending (s : State) (irq : Irq6) : State :=
  s.setReg slotIRQ (s.reg slotIRQ ||| irq.setWidth 8)

/-- The policy of slot `a` in this machine (`10_state.md` R22). -/
def State.policy (s : State) (a : Byte) : SlotPolicy := slotPolicy s.cfg.devices a

/-- The callback of device `i` on an access to its slot `p` (`10_state.md` R26, R27). A device with no private state in
`dev`, which no launch gives, is passed over (log 10). -/
def State.deviceAccess (s : State) (i : Nat) (p : Byte) (k : Access) : State :=
  match s.dev[i]? with
  | none => s
  | some d =>
    let (d', b', irq) := deviceOnAccess d p k (s.reg p)
    (State.setReg { s with dev := s.dev.set i d' } p b').markPending irq

/-- A read of slot `p` after resolution, by its policy; of a device-backed slot the stored byte after the callback ran
(`10_state.md` R26). Resolution never gives a windowed slot. -/
def State.slotRead (s : State) (p : Byte) : Byte × State :=
  match s.policy p with
  | .readWrite | .readOnly | .windowedPointer => (s.reg p, s)
  | .deviceBacked i =>
    let s' := s.deviceAccess i p .read
    (s'.reg p, s')

/-- A write of slot `p` after resolution, by its policy (`10_state.md` R27). Resolution never gives a windowed slot. -/
def State.slotWrite (s : State) (p v : Byte) : State :=
  match s.policy p with
  | .readWrite => s.setReg p v
  | .readOnly | .windowedPointer => s
  | .deviceBacked i => (s.setReg p v).deviceAccess i p .write

/-- `RegRead(a)` (`10_state.md` R26). -/
def regRead (a : Byte) : M Byte := fun s =>
  match resolve (s.reg slotRP) a with
  | none => .error .forbiddenRP s
  | some p => .ok (s.slotRead p).1 (s.slotRead p).2

/-- `RegWrite(a, v)` (`10_state.md` R27). -/
def regWrite (a v : Byte) : M Unit := fun s =>
  match resolve (s.reg slotRP) a with
  | none => .error .forbiddenRP s
  | some p => .ok () (s.slotWrite p v)

/-- `PairRead(a)`, high byte read first (`10_state.md` R34). -/
def pairRead (a : Byte) : M Word := do
  if bit a 0 then throw .oddRegisterPair
  let h ← regRead a
  let l ← regRead (a + 1)
  return ofBytes h l

/-- `PairWrite(a, w)`, high byte written first (`10_state.md` R34). -/
def pairWrite (a : Byte) (w : Word) : M Unit := do
  if bit a 0 then throw .oddRegisterPair
  regWrite a (hiByte w)
  regWrite (a + 1) (loByte w)

/-- FLAGS, read raw (`10_state.md` R36). -/
def State.flags (s : State) : Byte := s.reg slotFLAGS

/-- A raw read-modify-write of FLAGS (`10_state.md` R36, `40_cycle_and_alu.md` R139). -/
def State.updateFlags (s : State) (u : FlagBits) : State := s.setReg slotFLAGS (applyFlags u s.flags)

/-- `Cond(cc)`: bills its cost and answers the table (`40_cycle_and_alu.md` R151). -/
def condition (cc : CC) : M Bool := fun s => .ok (condHolds cc s.flags) (s.charge s.cfg.cost.cc)

/-! ### Memory -/

/-- A PROGRAM access through the cache (`20_memory.md` R63, R64, R66), the sentinel address refused (R70). -/
def programAccess (a : Word) (op : CacheOp) : M Byte := fun s =>
  if a = sentinel then .error .sentinelAddress s
  else
    let (v, lines, prog) := cacheAccess s.cfg s.lines s.prog a op
    .ok v { s with lines := lines, prog := prog }

/-- `MemRead(PROGRAM, a, 1)` (`20_memory.md` R63). -/
def programRead (a : Word) : M Byte := programAccess a .read

/-- `MemWrite(PROGRAM, a, 1, v)` (`20_memory.md` R64). -/
def programWrite (a : Word) (v : Byte) : M Unit := do
  let _ ← programAccess a (.write v)

/-- `MemRead(DATA, a, 1)`, directly on the bus (`20_memory.md` R63). -/
def dataRead (a : Word) : M Byte := fun s => .ok (Memory.read s.data a) s

/-- `MemWrite(DATA, a, 1, v)`, directly on the bus (`20_memory.md` R64). -/
def dataWrite (a : Word) (v : Byte) : M Unit := fun s => .ok () { s with data := Memory.write s.data a v }

/-- `ProgView(a)` (`20_memory.md` R73, R95; its value at 0xFFFF is the model's, log 17). -/
def State.progView (s : State) (a : Word) : Byte := cacheView s.lines s.prog a

/-- `FlushAll()` (`20_memory.md` R74). -/
def State.flushAll (s : State) : State :=
  { s with prog := cacheFlushBus s.lines s.prog, lines := cacheFlushLines s.lines }

/-- `Fetch()`: one byte from PROGRAM at pc, then pc advances (`20_memory.md` R78). -/
def fetch : M Byte := do
  let s ← get
  let b ← programRead s.pc
  modify fun t => { t with pc := s.pc + 1 }
  return b

/-- `n` bytes fetched in address order (`20_memory.md` R80). -/
def fetchMany (n : Nat) : M (List Byte) :=
  match n with
  | 0 => pure []
  | n + 1 => do
    let b ← fetch
    let rest ← fetchMany n
    return b :: rest

/-! ### The stack -/

/-- The stack-mode bit: true selects the internal stack (`10_state.md` R39). -/
def State.internalStack (s : State) : Bool := bit (s.reg slotP01M) 2

/-- The 16-bit stack pointer `{reg[0xFE], reg[0xFF]}` (`10_state.md` R39). -/
def State.sp (s : State) : Word := ofBytes (s.reg slotSPH) (s.reg slotSPL)

/-- A raw update of the 16-bit stack pointer (`20_memory.md` R82, R83). -/
def State.setSp (s : State) (w : Word) : State := (s.setReg slotSPH (hiByte w)).setReg slotSPL (loByte w)

/-- `Push(v)` (`20_memory.md` R82). -/
def push (v : Byte) : M Unit := do
  let s ← get
  if s.internalStack then
    let p := s.reg slotSPL - 1
    set (s.setReg slotSPL p)
    regWrite p v
  else
    let sp := s.sp - 1
    set (s.setSp sp)
    dataWrite sp v

/-- `Pop()` (`20_memory.md` R83). -/
def pop : M Byte := do
  let s ← get
  if s.internalStack then
    let v ← regRead (s.reg slotSPL)
    modify fun t => t.setReg slotSPL (t.reg slotSPL + 1)
    return v
  else
    let v ← dataRead s.sp
    modify fun t => t.setSp (s.sp + 1)
    return v

/-- The two pushes of a return address: the pc high byte, then the low byte (`20_memory.md` R84). -/
def pushPc : M Unit := do
  let s ← get
  push (hiByte s.pc)
  push (loByte s.pc)

/-- The two pops of a return address: the low byte, then the high byte (`20_memory.md` R84). -/
def popPc : M Word := do
  let l ← pop
  let h ← pop
  return ofBytes h l

/-! ### Control transfer and interrupts -/

/-- `PredZero()` (`45_predicated_execution.md` R304): counts and condition zeroed, the snapshot left. -/
def PredContext.zero (p : PredContext) : PredContext := { p with tcnt := 0, fcnt := 0, cond := false }

/-- A taken control transfer: pc overwritten and the predication context zeroed (`41_short_forms.md` R169). -/
def State.jump (s : State) (t : Word) : State := { s with pc := t, pred := s.pred.zero }

/-- TAKING AN INTERRUPT of source `i`: `Service(i)` (`60_exceptions.md` R352 to R354). -/
def service (i : Fin 6) : M Unit := do
  pushPc
  modify fun s => s.charge s.cfg.cost.irqPushPc
  let h ← programRead (BitVec.ofNat 16 (2 * i.val))
  let l ← programRead (BitVec.ofNat 16 (2 * i.val + 1))
  modify fun s => { s with pc := ofBytes h l }
  modify fun s => s.setReg slotIMR (s.reg slotIMR &&& 0x7F#8)
  let s ← get
  push s.flags
  modify fun s => s.charge s.cfg.cost.irqPushFlags
  modify fun s => s.setReg slotIRQ (putBit (s.reg slotIRQ) i.val false)
  modify fun s => s.charge s.cfg.cost.irqCleanup
  modify fun s => { s with pred := s.pred.zero, run := if s.run = .waiting then .running else s.run }

/-- RETURNING FROM AN INTERRUPT: the effect of IRET (`41_short_forms.md` R175, `60_exceptions.md` R357). -/
def returnFromInterrupt : M Unit := do
  let f ← pop
  modify fun s => s.setReg slotFLAGS f
  let t ← popPc
  modify fun s => (State.setReg { s with pc := t } slotIMR (s.reg slotIMR ||| 0x80#8))
  modify fun s => { s with pred := s.pred.zero }

/-! ### Placing an instruction -/

/-- PROGRAM byte `a` replaced in what the core reads: on the bus, and in the line that holds `a` if one does. -/
def State.pokeProgram (s : State) (a : Word) (v : Byte) : State :=
  { s with
    prog := Memory.write s.prog a v
    lines := s.lines.map fun l => if l.tag = a ∧ a ≠ sentinel then { l with data := v } else l }

end Sys2Proof.Machine
end

