-- ==== Sys2Proof/Machine/Interrupt.lean ====
section
/-! DEFINITION. The interrupt poll: the active set, the selection by priority, and the entry it makes
(`60_exceptions.md` R344 to R348). -/

namespace Sys2Proof.Machine

/-- `Active()`: `IMR & IRQ & 0x3F` under the global enable (`60_exceptions.md` R345). -/
def State.active (s : State) : Irq6 :=
  if bit (s.reg slotIMR) 7 then (s.reg slotIMR &&& s.reg slotIRQ).setWidth 6 else 0

/-- The group order of an IPR code: the winners of the groups A = (5, 3), B = (2, 0), C = (1, 4), first to last; `none`
for the reserved codes 0 and 7 (`60_exceptions.md` R347, R348; `10_state.md` R42). -/
def groupOrder {α : Type} (g : Nat) (a b c : α) : Option (List α) :=
  match g with
  | 1 => some [c, a, b]
  | 2 => some [a, b, c]
  | 3 => some [a, c, b]
  | 4 => some [b, c, a]
  | 5 => some [c, b, a]
  | 6 => some [b, a, c]
  | _ => none

/-- The order code `{ipr[4], ipr[3], ipr[0]}` (`60_exceptions.md` R346). -/
def orderCode (ipr : Byte) : Nat := 4 * bitNat (bit ipr 4) + 2 * bitNat (bit ipr 3) + bitNat (bit ipr 0)

/-- `pick(hi, lo, act)` (`60_exceptions.md` R348). -/
def pickSource (hi lo : Fin 6) (act : Irq6) : Option (Fin 6) :=
  if act.getLsbD hi.val then some hi else if act.getLsbD lo.val then some lo else none

/-- `Winner(A, ipr, act)` (`60_exceptions.md` R348). -/
def winnerA (ipr : Byte) (act : Irq6) : Option (Fin 6) := if bit ipr 5 then pickSource 3 5 act else pickSource 5 3 act

/-- `Winner(B, ipr, act)` (`60_exceptions.md` R348). -/
def winnerB (ipr : Byte) (act : Irq6) : Option (Fin 6) := if bit ipr 2 then pickSource 0 2 act else pickSource 2 0 act

/-- `Winner(C, ipr, act)` (`60_exceptions.md` R348). -/
def winnerC (ipr : Byte) (act : Irq6) : Option (Fin 6) := if bit ipr 1 then pickSource 4 1 act else pickSource 1 4 act

/-- The active sources in number order. -/
def activeSources (act : Irq6) : List (Fin 6) := [0, 1, 2, 3, 4, 5].filter fun i : Fin 6 => act.getLsbD i.val

/-- `Select(act)` (`60_exceptions.md` R346): a single active source directly, else the first group winner in the
configured order; `none` where that order is reserved (R347). -/
def selectSource (act : Irq6) (ipr : Byte) : Option (Fin 6) :=
  match activeSources act with
  | [i] => some i
  | _ =>
    match groupOrder (orderCode ipr) (winnerA ipr act) (winnerB ipr act) (winnerC ipr act) with
    | none => none
    | some winners => winners.findSome? id

/-- `Poll()` (`60_exceptions.md` R344). -/
def poll : M Unit := do
  let s ← get
  if s.active ≠ 0 then
    match selectSource s.active (s.reg slotIPR) with
    | none => throw .reservedIPR
    | some i => service i

end Sys2Proof.Machine
end

