-- ==== Sys2Proof/Decode.lean ====
section
/-! DEFINITION. The decoder and, after it, the encoder (`30_encoding.md`). The decoder follows the dispatch of R100 by the
low nibble and then the high nibble of the first byte, cell by cell as the map R106 has it; it is total on any bytes
and rejects by name. -/

namespace Sys2Proof

/-- The condition code of a 4-bit field (`40_cycle_and_alu.md` R150). -/
def CC.ofCode (c : Nib) : CC :=
  match c.toNat with
  | 0 => .never
  | 1 => .lt
  | 2 => .le
  | 3 => .ule
  | 4 => .ov
  | 5 => .mi
  | 6 => .eq
  | 7 => .ult
  | 8 => .always
  | 9 => .ge
  | 10 => .gt
  | 11 => .ugt
  | 12 => .nov
  | 13 => .pl
  | 14 => .ne
  | _ => .uge

/-- The 4-bit code of a condition (`40_cycle_and_alu.md` R150). -/
def CC.code (c : CC) : Nib :=
  match c with
  | .never => 0x0#4
  | .lt => 0x1#4
  | .le => 0x2#4
  | .ule => 0x3#4
  | .ov => 0x4#4
  | .mi => 0x5#4
  | .eq => 0x6#4
  | .ult => 0x7#4
  | .always => 0x8#4
  | .ge => 0x9#4
  | .gt => 0xA#4
  | .ugt => 0xB#4
  | .nov => 0xC#4
  | .pl => 0xD#4
  | .ne => 0xE#4
  | .uge => 0xF#4

/-- The 22 illegal first bytes (`30_encoding.md` R112). -/
def illegalOpcodes : List Byte :=
  [0x1F, 0x2F, 0x3F, 0x4F, 0x5F, 0x84, 0x85, 0x86, 0x87, 0x94, 0x95, 0x96, 0x97, 0xC4, 0xC5, 0xC6, 0xD5, 0xE2, 0xF2,
   0xF4, 0xF6, 0xF7]

/-- A first byte no dispatch rule gives an instruction (`30_encoding.md` R112). -/
def isIllegal (b0 : Byte) : Bool := illegalOpcodes.contains b0

/-- `OperandWidth(b0)`, how many bytes follow the opcode byte, `none` where the size table has no entry
(`30_encoding.md` R101, R114). -/
def operandWidth (b0 : Byte) : Option Nat :=
  if isIllegal b0 then none
  else match (loNib b0).toNat with
    | 14 => some 0
    | 15 => some (if b0 = 0x0F then 1 else 0)
    | 4 | 5 | 6 | 7 => some (if b0 = 0xD4 then 1 else 2)
    | 13 => some 2
    | _ => some 1

/-- Column 0 of the map R106: single-operand forms with the operand in register b1, and JP @RR (R107). -/
def decodeColumn0 (hi : Nat) (b1 : Byte) : Option Instr :=
  match hi with
  | 0 => some (.decR b1)
  | 1 => some (.rlcR b1)
  | 2 => some (.incR b1)
  | 3 => some (.jpIRR b1)
  | 4 => some (.daR b1)
  | 5 => some (.popR b1)
  | 6 => some (.comR b1)
  | 7 => some (.pushR b1)
  | 8 => some (.decwRR b1)
  | 9 => some (.rlR b1)
  | 10 => some (.incwRR b1)
  | 11 => some (.clrR b1)
  | 12 => some (.rrcR b1)
  | 13 => some (.sraR b1)
  | 14 => some (.rrR b1)
  | 15 => some (.swapR b1)
  | _ => none

/-- Column 1 of the map R106: single-operand forms with the operand behind register b1, and SRP (R107). -/
def decodeColumn1 (hi : Nat) (b1 : Byte) : Option Instr :=
  match hi with
  | 0 => some (.decIR b1)
  | 1 => some (.rlcIR b1)
  | 2 => some (.incIR b1)
  | 3 => some (.srp b1)
  | 4 => some (.daIR b1)
  | 5 => some (.popIR b1)
  | 6 => some (.comIR b1)
  | 7 => some (.pushIR b1)
  | 8 => some (.decwIR b1)
  | 9 => some (.rlIR b1)
  | 10 => some (.incwIR b1)
  | 11 => some (.clrIR b1)
  | 12 => some (.rrcIR b1)
  | 13 => some (.sraIR b1)
  | 14 => some (.rrIR b1)
  | 15 => some (.swapIR b1)
  | _ => none

/-- Column 2 of the map R106: op r,r and the plain memory loads (R108, R111). -/
def decodeColumn2 (hi : Nat) (b1 : Byte) : Option Instr :=
  match hi with
  | 0 => some (.addWW (hiNib b1) (loNib b1))
  | 1 => some (.adcWW (hiNib b1) (loNib b1))
  | 2 => some (.subWW (hiNib b1) (loNib b1))
  | 3 => some (.sbcWW (hiNib b1) (loNib b1))
  | 4 => some (.orWW (hiNib b1) (loNib b1))
  | 5 => some (.andWW (hiNib b1) (loNib b1))
  | 6 => some (.tcmWW (hiNib b1) (loNib b1))
  | 7 => some (.tmWW (hiNib b1) (loNib b1))
  | 8 => some (.ldeLoad (hiNib b1) (loNib b1))
  | 9 => some (.ldeStore (hiNib b1) (loNib b1))
  | 10 => some (.cpWW (hiNib b1) (loNib b1))
  | 11 => some (.xorWW (hiNib b1) (loNib b1))
  | 12 => some (.ldcLoad (hiNib b1) (loNib b1))
  | 13 => some (.ldcStore (hiNib b1) (loNib b1))
  | _ => none

/-- Column 3 of the map R106: op r,@r, LD r,@r, LD @r,r and the auto-increment memory loads (R108, R111). -/
def decodeColumn3 (hi : Nat) (b1 : Byte) : Option Instr :=
  match hi with
  | 0 => some (.addWIW (hiNib b1) (loNib b1))
  | 1 => some (.adcWIW (hiNib b1) (loNib b1))
  | 2 => some (.subWIW (hiNib b1) (loNib b1))
  | 3 => some (.sbcWIW (hiNib b1) (loNib b1))
  | 4 => some (.orWIW (hiNib b1) (loNib b1))
  | 5 => some (.andWIW (hiNib b1) (loNib b1))
  | 6 => some (.tcmWIW (hiNib b1) (loNib b1))
  | 7 => some (.tmWIW (hiNib b1) (loNib b1))
  | 8 => some (.ldeiLoad (hiNib b1) (loNib b1))
  | 9 => some (.ldeiStore (hiNib b1) (loNib b1))
  | 10 => some (.cpWIW (hiNib b1) (loNib b1))
  | 11 => some (.xorWIW (hiNib b1) (loNib b1))
  | 12 => some (.ldciLoad (hiNib b1) (loNib b1))
  | 13 => some (.ldciStore (hiNib b1) (loNib b1))
  | 14 => some (.ldWIW (hiNib b1) (loNib b1))
  | 15 => some (.ldIWW (hiNib b1) (loNib b1))
  | _ => none

/-- Column 4 of the map R106: op R,R, LD R,R and CALL @RR; b1 is the source, b2 the destination (R102 F5). -/
def decodeColumn4 (hi : Nat) (b1 b2 : Byte) : Option Instr :=
  match hi with
  | 0 => some (.addRR b2 b1)
  | 1 => some (.adcRR b2 b1)
  | 2 => some (.subRR b2 b1)
  | 3 => some (.sbcRR b2 b1)
  | 4 => some (.orRR b2 b1)
  | 5 => some (.andRR b2 b1)
  | 6 => some (.tcmRR b2 b1)
  | 7 => some (.tmRR b2 b1)
  | 10 => some (.cpRR b2 b1)
  | 11 => some (.xorRR b2 b1)
  | 13 => some (.callIRR b1)
  | 14 => some (.ldRR b2 b1)
  | _ => none

/-- Column 5 of the map R106: op R,@R, LD R,@R and LD @R,R; b1 is the source, b2 the destination (R102 F5). -/
def decodeColumn5 (hi : Nat) (b1 b2 : Byte) : Option Instr :=
  match hi with
  | 0 => some (.addRIR b2 b1)
  | 1 => some (.adcRIR b2 b1)
  | 2 => some (.subRIR b2 b1)
  | 3 => some (.sbcRIR b2 b1)
  | 4 => some (.orRIR b2 b1)
  | 5 => some (.andRIR b2 b1)
  | 6 => some (.tcmRIR b2 b1)
  | 7 => some (.tmRIR b2 b1)
  | 10 => some (.cpRIR b2 b1)
  | 11 => some (.xorRIR b2 b1)
  | 14 => some (.ldRIR b2 b1)
  | 15 => some (.ldIRR b2 b1)
  | _ => none

/-- Column 6 of the map R106: op R,#IM, LD R,#IM and CALL DA; b1 is the destination (R102 F6). -/
def decodeColumn6 (hi : Nat) (b1 b2 : Byte) : Option Instr :=
  match hi with
  | 0 => some (.addRIM b1 b2)
  | 1 => some (.adcRIM b1 b2)
  | 2 => some (.subRIM b1 b2)
  | 3 => some (.sbcRIM b1 b2)
  | 4 => some (.orRIM b1 b2)
  | 5 => some (.andRIM b1 b2)
  | 6 => some (.tcmRIM b1 b2)
  | 7 => some (.tmRIM b1 b2)
  | 10 => some (.cpRIM b1 b2)
  | 11 => some (.xorRIM b1 b2)
  | 13 => some (.callDA (ofBytes b1 b2))
  | 14 => some (.ldRIM b1 b2)
  | _ => none

/-- Column 7 of the map R106: op @R,#IM, LD @R,#IM and the indexed loads (R102 F6, F7). -/
def decodeColumn7 (hi : Nat) (b1 b2 : Byte) : Option Instr :=
  match hi with
  | 0 => some (.addIRIM b1 b2)
  | 1 => some (.adcIRIM b1 b2)
  | 2 => some (.subIRIM b1 b2)
  | 3 => some (.sbcIRIM b1 b2)
  | 4 => some (.orIRIM b1 b2)
  | 5 => some (.andIRIM b1 b2)
  | 6 => some (.tcmIRIM b1 b2)
  | 7 => some (.tmIRIM b1 b2)
  | 10 => some (.cpIRIM b1 b2)
  | 11 => some (.xorIRIM b1 b2)
  | 12 => some (.ldWX (hiNib b1) (loNib b1) b2)
  | 13 => some (.ldXW (hiNib b1) (loNib b1) b2)
  | 14 => some (.ldIRIM b1 b2)
  | _ => none

/-- Column F of the map R106: the no-operand group and IF (R110). -/
def decodeColumnF (hi : Nat) (b1 : Byte) : Option Instr :=
  match hi with
  | 0 => some (.ifPred (CC.ofCode (hiNib b1)) (b1.extractLsb' 2 2) (b1.extractLsb' 0 2))
  | 6 => some .stop
  | 7 => some .halt
  | 8 => some .di
  | 9 => some .ei
  | 10 => some .ret
  | 11 => some .iret
  | 12 => some .rcf
  | 13 => some .scf
  | 14 => some .ccf
  | 15 => some .nop
  | _ => none

/-- The instruction of the bytes b0, b1, b2, the bytes past its length ignored: dispatch by the low nibble
(`30_encoding.md` R100). In columns 8, 9, A, C and E the high nibble is the working register, in B and D the condition
(R109). -/
def decodeOpcode (b0 b1 b2 : Byte) : Option Instr :=
  let hi := hiNib b0
  match (loNib b0).toNat with
  | 0 => decodeColumn0 hi.toNat b1
  | 1 => decodeColumn1 hi.toNat b1
  | 2 => decodeColumn2 hi.toNat b1
  | 3 => decodeColumn3 hi.toNat b1
  | 4 => decodeColumn4 hi.toNat b1 b2
  | 5 => decodeColumn5 hi.toNat b1 b2
  | 6 => decodeColumn6 hi.toNat b1 b2
  | 7 => decodeColumn7 hi.toNat b1 b2
  | 8 => some (.ldWR hi b1)
  | 9 => some (.ldRW b1 hi)
  | 10 => some (.djnz hi b1)
  | 11 => some (.jr (CC.ofCode hi) b1)
  | 12 => some (.ldWIM hi b1)
  | 13 => some (.jp (CC.ofCode hi) (ofBytes b1 b2))
  | 14 => some (.incW hi)
  | _ => decodeColumnF hi.toNat b1

/-- Why bytes are no instruction. -/
inductive DecodeError where
  /-- the first byte is one of the 22 illegal values (`30_encoding.md` R112) -/
  | illegalOpcode (b0 : Byte)
  /-- fewer bytes than the instruction's length (`30_encoding.md` R101) -/
  | truncated
deriving DecidableEq, Repr

/-- The decoder: an instruction at the head of a byte list and the bytes after it, or the named reason there is none
(`30_encoding.md` R100 to R119). -/
def decode (bytes : List Byte) : Except DecodeError (Instr × List Byte) :=
  match bytes with
  | [] => .error .truncated
  | b0 :: rest =>
    match operandWidth b0 with
    | none => .error (.illegalOpcode b0)
    | some n =>
      if rest.length < n then .error .truncated
      else match decodeOpcode b0 (rest.getD 0 0) (rest.getD 1 0) with
        | some i => .ok (i, rest.drop n)
        | none => .error (.illegalOpcode b0)

/-- The instruction the decoder reads from a table word: bit 0 is the least significant bit of the first byte and a
later byte's bits count on from it; the bits from `nbits` up are 0. -/
def decodeTableWord (nbits w : Nat) : Option Instr :=
  let v := w % 2 ^ nbits
  match decode [BitVec.ofNat 8 v, BitVec.ofNat 8 (v / 256), BitVec.ofNat 8 (v / 65536)] with
  | .ok (i, _) => some i
  | .error _ => none

/-- The encoder: the bytes of an instruction in address order, from the formats of `30_encoding.md` R102 and the map
R106. -/
def encode (i : Instr) : List Byte :=
  match i with
  | .decR r => [0x00#8, r]
  | .decIR r => [0x01#8, r]
  | .rlcR r => [0x10#8, r]
  | .rlcIR r => [0x11#8, r]
  | .incR r => [0x20#8, r]
  | .incIR r => [0x21#8, r]
  | .jpIRR rr => [0x30#8, rr]
  | .srp im => [0x31#8, im]
  | .daR r => [0x40#8, r]
  | .daIR r => [0x41#8, r]
  | .popR r => [0x50#8, r]
  | .popIR r => [0x51#8, r]
  | .comR r => [0x60#8, r]
  | .comIR r => [0x61#8, r]
  | .pushR r => [0x70#8, r]
  | .pushIR r => [0x71#8, r]
  | .decwRR rr => [0x80#8, rr]
  | .decwIR r => [0x81#8, r]
  | .rlR r => [0x90#8, r]
  | .rlIR r => [0x91#8, r]
  | .incwRR rr => [0xA0#8, rr]
  | .incwIR r => [0xA1#8, r]
  | .clrR r => [0xB0#8, r]
  | .clrIR r => [0xB1#8, r]
  | .rrcR r => [0xC0#8, r]
  | .rrcIR r => [0xC1#8, r]
  | .sraR r => [0xD0#8, r]
  | .sraIR r => [0xD1#8, r]
  | .rrR r => [0xE0#8, r]
  | .rrIR r => [0xE1#8, r]
  | .swapR r => [0xF0#8, r]
  | .swapIR r => [0xF1#8, r]
  | .addWW d w => [0x02#8, ofNibs d w]
  | .addWIW d w => [0x03#8, ofNibs d w]
  | .addRR d r => [0x04#8, r, d]
  | .addRIR d r => [0x05#8, r, d]
  | .addRIM d im => [0x06#8, d, im]
  | .addIRIM d im => [0x07#8, d, im]
  | .adcWW d w => [0x12#8, ofNibs d w]
  | .adcWIW d w => [0x13#8, ofNibs d w]
  | .adcRR d r => [0x14#8, r, d]
  | .adcRIR d r => [0x15#8, r, d]
  | .adcRIM d im => [0x16#8, d, im]
  | .adcIRIM d im => [0x17#8, d, im]
  | .subWW d w => [0x22#8, ofNibs d w]
  | .subWIW d w => [0x23#8, ofNibs d w]
  | .subRR d r => [0x24#8, r, d]
  | .subRIR d r => [0x25#8, r, d]
  | .subRIM d im => [0x26#8, d, im]
  | .subIRIM d im => [0x27#8, d, im]
  | .sbcWW d w => [0x32#8, ofNibs d w]
  | .sbcWIW d w => [0x33#8, ofNibs d w]
  | .sbcRR d r => [0x34#8, r, d]
  | .sbcRIR d r => [0x35#8, r, d]
  | .sbcRIM d im => [0x36#8, d, im]
  | .sbcIRIM d im => [0x37#8, d, im]
  | .orWW d w => [0x42#8, ofNibs d w]
  | .orWIW d w => [0x43#8, ofNibs d w]
  | .orRR d r => [0x44#8, r, d]
  | .orRIR d r => [0x45#8, r, d]
  | .orRIM d im => [0x46#8, d, im]
  | .orIRIM d im => [0x47#8, d, im]
  | .andWW d w => [0x52#8, ofNibs d w]
  | .andWIW d w => [0x53#8, ofNibs d w]
  | .andRR d r => [0x54#8, r, d]
  | .andRIR d r => [0x55#8, r, d]
  | .andRIM d im => [0x56#8, d, im]
  | .andIRIM d im => [0x57#8, d, im]
  | .tcmWW d w => [0x62#8, ofNibs d w]
  | .tcmWIW d w => [0x63#8, ofNibs d w]
  | .tcmRR d r => [0x64#8, r, d]
  | .tcmRIR d r => [0x65#8, r, d]
  | .tcmRIM d im => [0x66#8, d, im]
  | .tcmIRIM d im => [0x67#8, d, im]
  | .tmWW d w => [0x72#8, ofNibs d w]
  | .tmWIW d w => [0x73#8, ofNibs d w]
  | .tmRR d r => [0x74#8, r, d]
  | .tmRIR d r => [0x75#8, r, d]
  | .tmRIM d im => [0x76#8, d, im]
  | .tmIRIM d im => [0x77#8, d, im]
  | .cpWW d w => [0xA2#8, ofNibs d w]
  | .cpWIW d w => [0xA3#8, ofNibs d w]
  | .cpRR d r => [0xA4#8, r, d]
  | .cpRIR d r => [0xA5#8, r, d]
  | .cpRIM d im => [0xA6#8, d, im]
  | .cpIRIM d im => [0xA7#8, d, im]
  | .xorWW d w => [0xB2#8, ofNibs d w]
  | .xorWIW d w => [0xB3#8, ofNibs d w]
  | .xorRR d r => [0xB4#8, r, d]
  | .xorRIR d r => [0xB5#8, r, d]
  | .xorRIM d im => [0xB6#8, d, im]
  | .xorIRIM d im => [0xB7#8, d, im]
  | .ldWIW d w => [0xE3#8, ofNibs d w]
  | .ldIWW d w => [0xF3#8, ofNibs d w]
  | .ldRR d r => [0xE4#8, r, d]
  | .ldRIR d r => [0xE5#8, r, d]
  | .ldRIM d im => [0xE6#8, d, im]
  | .ldIRIM d im => [0xE7#8, d, im]
  | .ldIRR d r => [0xF5#8, r, d]
  | .ldeLoad d p => [0x82#8, ofNibs d p]
  | .ldeStore d p => [0x92#8, ofNibs d p]
  | .ldeiLoad d p => [0x83#8, ofNibs d p]
  | .ldeiStore d p => [0x93#8, ofNibs d p]
  | .ldcLoad d p => [0xC2#8, ofNibs d p]
  | .ldcStore d p => [0xD2#8, ofNibs d p]
  | .ldciLoad d p => [0xC3#8, ofNibs d p]
  | .ldciStore d p => [0xD3#8, ofNibs d p]
  | .ldWX d x off => [0xC7#8, ofNibs d x, off]
  | .ldXW d x off => [0xD7#8, ofNibs d x, off]
  | .callIRR rr => [0xD4#8, rr]
  | .callDA da => [0xD6#8, hiByte da, loByte da]
  | .ldWR d r => [ofNibs d 0x8#4, r]
  | .ldRW d w => [ofNibs w 0x9#4, d]
  | .djnz w ra => [ofNibs w 0xA#4, ra]
  | .jr cc ra => [ofNibs cc.code 0xB#4, ra]
  | .ldWIM d im => [ofNibs d 0xC#4, im]
  | .jp cc da => [ofNibs cc.code 0xD#4, hiByte da, loByte da]
  | .incW w => [ofNibs w 0xE#4]
  | .ifPred cc t f => [0x0F#8, cc.code ++ t ++ f]
  | .stop => [0x6F#8]
  | .halt => [0x7F#8]
  | .di => [0x8F#8]
  | .ei => [0x9F#8]
  | .ret => [0xAF#8]
  | .iret => [0xBF#8]
  | .rcf => [0xCF#8]
  | .scf => [0xDF#8]
  | .ccf => [0xEF#8]
  | .nop => [0xFF#8]

end Sys2Proof
end

