-- ==== Sys2Proof/Machine/Operands.lean ====
section
/-! DEFINITION. Operand resolution: the six modes of the two-operand family, the two modes of the single-operand family,
and the common shapes that use them (`40_cycle_and_alu.md` R137 to R139, `42_two_operand.md` R190, `43_single_operand.md`
R230). The instruction's bytes are fetched before (log 13). -/

namespace Sys2Proof.Machine

/-- The operands of a two-operand form, destination first (`40_cycle_and_alu.md` R137). -/
inductive TwoOperands where
  /-- m = 2: r,r -/
  | ww (d w : Nib)
  /-- m = 3: r,@r -/
  | wiw (d w : Nib)
  /-- m = 4: R,R -/
  | rr (d r : Byte)
  /-- m = 5: R,@R -/
  | rir (d r : Byte)
  /-- m = 6: R,#IM -/
  | rim (d im : Byte)
  /-- m = 7: @R,#IM -/
  | irim (d im : Byte)
deriving DecidableEq, Repr

/-- The index of `cost.mode[m]` in the table, m - 2 (`00_scope.md` R8). -/
def TwoOperands.modeIndex (o : TwoOperands) : Fin 6 :=
  match o with
  | .ww _ _ => 0
  | .wiw _ _ => 1
  | .rr _ _ => 2
  | .rir _ _ => 3
  | .rim _ _ => 4
  | .irim _ _ => 5

/-- `cost.mode[m]` charged, `k` the index m - 2 (`40_cycle_and_alu.md` R137). -/
def chargeMode (k : Fin 6) : M Unit := modify fun s => s.charge (s.cfg.cost.mode.get k)

/-- A register read through a pointer register: `RegRead(RegRead(a))` (`40_cycle_and_alu.md` R137). -/
def regReadIndirect (a : Byte) : M Byte := do
  let p ← regRead a
  regRead p

/-- `FetchOperands(m)`: the destination's address before resolution and the source value (`40_cycle_and_alu.md` R137). -/
def fetchOperands (o : TwoOperands) : M (Byte × Byte) := do
  chargeMode o.modeIndex
  match o with
  | .ww d w => do
    let v ← regRead (wreg w)
    return (wreg d, v)
  | .wiw d w => do
    let v ← regReadIndirect (wreg w)
    return (wreg d, v)
  | .rr d r => do
    let v ← regRead r
    return (d, v)
  | .rir d r => do
    let v ← regReadIndirect r
    return (d, v)
  | .rim d im => return (d, im)
  | .irim d im => do
    let p ← regRead d
    return (p, im)

/-- The operand of a single-operand form (`40_cycle_and_alu.md` R138). -/
inductive OneOperand where
  /-- lo = 0: the register (or pair) at the address -/
  | direct (r : Byte)
  /-- lo = 1: the register (or pair) whose address the register holds -/
  | indirect (r : Byte)
deriving DecidableEq, Repr

/-- `FetchSingle(lo)`: the operand's address (`40_cycle_and_alu.md` R138). -/
def fetchSingle (o : OneOperand) : M Byte :=
  match o with
  | .direct r => pure r
  | .indirect r => regRead r

/-- The common shape of an ALU instruction (`42_two_operand.md` R190). -/
def aluInstruction (op : AluOp) (o : TwoOperands) : M Unit := do
  let (dst, src) ← fetchOperands o
  let a ← regRead dst
  let s ← get
  let (r, u) := aluEval op a src s.flags
  if aluWrites op then regWrite dst r
  modify fun t => t.updateFlags u

/-- The common shape of a load of row E (`42_two_operand.md` R203 to R209). -/
def loadInstruction (o : TwoOperands) : M Unit := do
  let (dst, src) ← fetchOperands o
  regWrite dst src

/-- A store through a pointer register: the value is read, then the pointer, then the destination is written
(`42_two_operand.md` R205, R210). `k` is the index of the mode constant charged. -/
def storeIndirect (k : Fin 6) (ptr src : Byte) : M Unit := do
  chargeMode k
  let v ← regRead src
  let p ← regRead ptr
  regWrite p v

/-- A read-modify-write of the register at address `p` (`43_single_operand.md` R230). -/
def modifyRegister (f : Byte → Byte → Byte × FlagBits) (p : Byte) : M Unit := do
  let d ← regRead p
  let s ← get
  let (r, u) := f d s.flags
  regWrite p r
  modify fun t => t.updateFlags u

/-- The common shape of a single-operand instruction (`43_single_operand.md` R230). -/
def singleInstruction (f : Byte → Byte → Byte × FlagBits) (o : OneOperand) : M Unit := do
  let p ← fetchSingle o
  modifyRegister f p

/-- The common shape of DECW and INCW (`43_single_operand.md` R241, R243). -/
def wordInstruction (f : Word → Word) (flags : Word → FlagBits) (o : OneOperand) : M Unit := do
  let p ← fetchSingle o
  let w ← pairRead p
  pairWrite p (f w)
  modify fun t => t.updateFlags (flags (f w))

/-- PUSH (`43_single_operand.md` R240). -/
def pushInstruction (o : OneOperand) : M Unit := do
  let p ← fetchSingle o
  let v ← regRead p
  push v

/-- POP (`43_single_operand.md` R238). -/
def popInstruction (o : OneOperand) : M Unit := do
  let p ← fetchSingle o
  let v ← pop
  regWrite p v

/-- CLR (`43_single_operand.md` R244). -/
def clearInstruction (o : OneOperand) : M Unit := do
  let p ← fetchSingle o
  regWrite p 0x00

/-- A subroutine call to `t`: the return address pushed, then the transfer (`44_memory_indexed_calls.md` R281, R282). -/
def callTo (t : Word) : M Unit := do
  pushPc
  modify fun s => s.jump t

/-- The last two writes of an auto-increment load or store: both pointers plus one, the register pointer first
(`44_memory_indexed_calls.md` R273, R274, R277, R278). -/
def advancePointers (d p : Nib) (r : Byte) (a : Word) : M Unit := do
  regWrite (wreg d) (r + 1)
  pairWrite (wreg p) (a + 1)

end Sys2Proof.Machine
end

