-- ==== Sys2Proof/Machine/Predication.lean ====
section
/-! DEFINITION. Predicated execution: the IF instruction and the end-of-cycle machine (`45_predicated_execution.md` R301 to
R308). -/

namespace Sys2Proof.Machine

/-- `Restore()`: FLAGS replaced by the snapshot, all eight bits (`45_predicated_execution.md` R306). -/
def State.restoreFlags (s : State) : State := s.setReg slotFLAGS s.pred.snap

/-- `tcnt` less one. -/
def State.countTrue (s : State) : State := { s with pred := { s.pred with tcnt := s.pred.tcnt - 1 } }

/-- `fcnt` less one. -/
def State.countFalse (s : State) : State := { s with pred := { s.pred with fcnt := s.pred.fcnt - 1 } }

/-- `SkipOne()`: the opcode read through the cache, pc moved past the instruction, its operand bytes unread
(`45_predicated_execution.md` R308; an illegal opcode faults, log 12). -/
def skipOne : M Unit := do
  let b ← fetch
  match operandWidth b with
  | none => throw .illegalOpcode
  | some n => modify fun s => { s with pc := s.pc + BitVec.ofNat 16 n, cycles := s.cycles + s.cfg.cost.skip }

/-- `n` skips, the count of the skipped part taken down by one after each (`45_predicated_execution.md` R305). -/
def skipMany (count : State → State) (n : Nat) : M Unit :=
  match n with
  | 0 => pure ()
  | n + 1 => do
    skipOne
    modify count
    skipMany count n

/-- The skip of a part that has become due, and the one restore after it (`45_predicated_execution.md` R305). -/
def skipPart (count : State → State) (n : Nat) : M Unit := do
  skipMany count n
  modify State.restoreFlags

/-- `PredBookkeeping(wasIF)` (`45_predicated_execution.md` R305). -/
def predBookkeeping (wasIf : Bool) : M Unit := do
  let s ← get
  if s.pred.cond then
    if s.pred.tcnt ≠ 0 ∧ wasIf = false then
      modify fun s => s.countTrue.restoreFlags
    let s ← get
    if s.pred.tcnt = 0 ∧ s.pred.fcnt ≠ 0 then
      skipPart State.countFalse s.pred.fcnt.toNat
  else
    if s.pred.tcnt ≠ 0 then
      skipPart State.countTrue s.pred.tcnt.toNat
    else if s.pred.fcnt ≠ 0 ∧ wasIf = false then
      modify fun s => s.countFalse.restoreFlags

/-- IF cc,t,f: begin a predicated block of `t` true and `f` false instructions (`45_predicated_execution.md` R301). -/
def execIfPred (cc : CC) (t' f : Count) (s : State) : Out :=
  M.finish (do
    let c ← condition cc
    modify fun t => { t with pred := { tcnt := t', fcnt := f, cond := c, snap := t.flags } }) s

end Sys2Proof.Machine
end

