-- ==== Sys2Proof/Machine/Cycle.lean ====
section
/-! DEFINITION. The phases of a step around the execution of an instruction: fetch and decode, the end of the cycle, the
device tick, the waiting step and the cycle ceiling (`40_cycle_and_alu.md` R130 to R135, `60_exceptions.md` R360). -/

namespace Sys2Proof.Machine

/-! ### The device tick -/

/-- The slots of a device written with the bytes its tick answers (`40_cycle_and_alu.md` R135). -/
def State.writeSlots (s : State) (slots : List Byte) (view : Byte → Byte) : State :=
  slots.foldl (fun t a => t.setReg a (view a)) s

/-- The tick of the device `d` at place `i`, `k` cycles passed (`10_state.md` R32). -/
def State.tickDevice (s : State) (i k : Nat) (d : Device) : State :=
  match s.dev[i]? with
  | none => s
  | some st =>
    let (st', view', irq) := deviceOnTick st k (d.slots.map fun a => (a, s.reg a))
    (State.writeSlots { s with dev := s.dev.set i st' } d.slots view').markPending irq

/-- The ticks of the devices from place `i` on, in list order (`40_cycle_and_alu.md` R135). -/
def State.tickFrom (s : State) (i k : Nat) (devices : List Device) : State :=
  match devices with
  | [] => s
  | d :: rest => State.tickFrom (s.tickDevice i k d) (i + 1) k rest

/-- `Tick()` (`40_cycle_and_alu.md` R135). -/
def State.tick (s : State) : State :=
  State.tickFrom { s with lastTick := s.cycles } 0 (s.cycles - s.lastTick) s.cfg.devices

/-! ### Fetch and decode -/

/-- The mode constant an opcode's operand routine charges before it fetches: of the two-operand family alone
(`40_cycle_and_alu.md` R137, `42_two_operand.md` R190, R203). -/
def modeConstant (cost : CostTable) (b0 : Byte) : Nat :=
  let hi := (hiNib b0).toNat
  let lo := (loNib b0).toNat
  if 2 ≤ lo ∧ lo ≤ 7 ∧ hi ≠ 8 ∧ hi ≠ 9 ∧ hi ≠ 12 ∧ hi ≠ 13 then cost.mode.toList.getD (lo - 2) 0 else 0

/-- The `n` operand bytes of an opcode. A fault among them leaves the mode constant charged, which the operand routine
bills first (`40_cycle_and_alu.md` R137; log 13). -/
def fetchOperandBytes (b0 : Byte) (n : Nat) : M (List Byte) := fun s =>
  match fetchMany n s with
  | .ok bytes s' => .ok bytes s'
  | .error r s' => .error r (s'.charge (modeConstant s.cfg.cost b0))

/-- Fetch and decode (`40_cycle_and_alu.md` R131): the first byte, its legality, its cost, the bytes that follow. -/
def fetchInstr : M Instr := do
  let b0 ← fetch
  match operandWidth b0 with
  | none => throw .illegalOpcode
  | some n =>
    modify fun s => s.charge (s.cfg.cost.op[b0.toNat]'b0.isLt)
    let rest ← fetchOperandBytes b0 n
    match decodeOpcode b0 (rest.getD 0 0) (rest.getD 1 0) with
    | some i => return i
    | none => throw .illegalOpcode

/-! ### The end of a cycle -/

/-- The instruction whose own cycle the bookkeeping treats apart (`45_predicated_execution.md` R305). -/
def isIf (i : Instr) : Bool :=
  match i with
  | .ifPred _ _ _ => true
  | _ => false

/-- The phases after `Execute`: bookkeeping, tick, poll, and the flush of a stopped machine (`40_cycle_and_alu.md`
R131). -/
def endOfCycle (wasIf : Bool) : M Unit := do
  predBookkeeping wasIf
  modify State.tick
  poll
  modify fun s => if s.run = .stopped then s.flushAll else s

/-- Whether `run` is Faulted (`10_state.md` R49). -/
def RunState.isFaulted (r : RunState) : Bool :=
  match r with
  | .faulted _ => true
  | .running | .waiting | .stopped | .exhausted => false

/-- The rest of an instruction cycle after `Execute(i)`: nothing when it raised a fault (R133), else its last phases. -/
def closeCycle (i : Instr) (o : Out) : Out :=
  match o with
  | .next s => if s.run.isFaulted then .next s else M.finish (endOfCycle (isIf i)) s
  | .fault r => .fault r
  | .refused r => .refused r

/-- `WaitingStep()` (`60_exceptions.md` R360). -/
def waitingStep : M Unit := do
  modify fun s => s.charge s.cfg.cost.wait
  modify State.tick
  poll

/-- Whether the cycle ceiling is reached (`40_cycle_and_alu.md` R132). -/
def State.ceilingReached (s : State) : Bool :=
  match s.cfg.ceiling with
  | none => false
  | some c => decide (c ≤ s.cycles)

/-- The step at the ceiling: the cache flushed, the run Exhausted (`40_cycle_and_alu.md` R130, R132). -/
def State.exhaust (s : State) : State := { s.flushAll with run := .exhausted }

end Sys2Proof.Machine
end

