-- ==== Sys2Proof/Machine/MemoryCalls.lean ====
section
/-! DEFINITION. Memory loads and stores, indexed loads and subroutine calls (`44_memory_indexed_calls.md` R271 to R282). One definition for each row of the opcode table;
where one is a single line, the rule is the shared operation it names. -/

namespace Sys2Proof.Machine

/-- A plain load: the pair gives the address, the byte goes to working register `d` (R271, R275). -/
def memoryLoad (read : Word → M Byte) (d p : Nib) : M Unit := do
  let a ← pairRead (wreg p)
  let v ← read a
  regWrite (wreg d) v

/-- A plain store of working register `d` (R272, R276). -/
def memoryStore (write : Word → Byte → M Unit) (d p : Nib) : M Unit := do
  let v ← regRead (wreg d)
  let a ← pairRead (wreg p)
  write a v

/-- An auto-increment load into the register whose address `d` holds (R273, R277). -/
def memoryLoadIncrement (read : Word → M Byte) (d p : Nib) : M Unit := do
  let a ← pairRead (wreg p)
  let r ← regRead (wreg d)
  let v ← read a
  regWrite r v
  advancePointers d p r a

/-- An auto-increment store of the register whose address `d` holds (R274, R278). -/
def memoryStoreIncrement (write : Word → Byte → M Unit) (d p : Nib) : M Unit := do
  let r ← regRead (wreg d)
  let v ← regRead r
  let a ← pairRead (wreg p)
  write a v
  advancePointers d p r a

/-- LDE r,@rr: working register `d` from DATA memory at the address in working pair `p` (`44_memory_indexed_calls.md` R271). -/
def execLdeLoad (d : Nib) (p : Nib) (s : State) : Out :=
  M.finish (memoryLoad dataRead d p) s

/-- LDE @rr,r: working register `d` to DATA memory at the address in working pair `p` (`44_memory_indexed_calls.md` R272). -/
def execLdeStore (d : Nib) (p : Nib) (s : State) : Out :=
  M.finish (memoryStore dataWrite d p) s

/-- LDEI @r,@rr: the register whose address working register `d` holds from DATA memory at the address in working pair `p`, then both pointers plus one (`44_memory_indexed_calls.md` R273). -/
def execLdeiLoad (d : Nib) (p : Nib) (s : State) : Out :=
  M.finish (memoryLoadIncrement dataRead d p) s

/-- LDEI @rr,@r: the register whose address working register `d` holds to DATA memory at the address in working pair `p`, then both pointers plus one (`44_memory_indexed_calls.md` R274). -/
def execLdeiStore (d : Nib) (p : Nib) (s : State) : Out :=
  M.finish (memoryStoreIncrement dataWrite d p) s

/-- LDC r,@rr: working register `d` from PROGRAM memory at the address in working pair `p` (`44_memory_indexed_calls.md` R275). -/
def execLdcLoad (d : Nib) (p : Nib) (s : State) : Out :=
  M.finish (memoryLoad programRead d p) s

/-- LDC @rr,r: working register `d` to PROGRAM memory at the address in working pair `p` (`44_memory_indexed_calls.md` R276). -/
def execLdcStore (d : Nib) (p : Nib) (s : State) : Out :=
  M.finish (memoryStore programWrite d p) s

/-- LDCI @r,@rr: the register whose address working register `d` holds from PROGRAM memory at the address in working pair `p`, then both pointers plus one (`44_memory_indexed_calls.md` R277). -/
def execLdciLoad (d : Nib) (p : Nib) (s : State) : Out :=
  M.finish (memoryLoadIncrement programRead d p) s

/-- LDCI @rr,@r: the register whose address working register `d` holds to PROGRAM memory at the address in working pair `p`, then both pointers plus one (`44_memory_indexed_calls.md` R278). -/
def execLdciStore (d : Nib) (p : Nib) (s : State) : Out :=
  M.finish (memoryStoreIncrement programWrite d p) s

/-- LD r,X(r): working register `d` from the register at `off` plus working register `x` (`44_memory_indexed_calls.md` R279). -/
def execLdWX (d : Nib) (x : Nib) (off : Byte) (s : State) : Out :=
  M.finish (do
    let i ← regRead (wreg x)
    let v ← regRead (off + i)
    regWrite (wreg d) v) s

/-- LD X(r),r: working register `d` to the register at `off` plus working register `x` (`44_memory_indexed_calls.md` R280). -/
def execLdXW (d : Nib) (x : Nib) (off : Byte) (s : State) : Out :=
  M.finish (do
    let v ← regRead (wreg d)
    let i ← regRead (wreg x)
    regWrite (off + i) v) s

/-- CALL @RR: call through the register pair at address `rr` (`44_memory_indexed_calls.md` R282). -/
def execCallIRR (rr : Byte) (s : State) : Out :=
  M.finish (do
    let t ← pairRead rr
    callTo t) s

/-- CALL DA: call the address `da` (`44_memory_indexed_calls.md` R281). -/
def execCallDA (da : Word) (s : State) : Out :=
  M.finish (callTo da) s

end Sys2Proof.Machine
end

