-- ==== Sys2Proof/Machine/ShortForms.lean ====
section
/-! DEFINITION. The short forms, low nibble 8 to F, but for IF (`41_short_forms.md` R161 to R179). One definition for each row of the opcode table;
where one is a single line, the rule is the shared operation it names. -/

namespace Sys2Proof.Machine

/-- LD between two registers: the source read, then the destination written (`41_short_forms.md` R161, R162). -/
def moveRegister (dst src : Byte) : M Unit := do
  let v ← regRead src
  regWrite dst v

/-- LD r,R: working register `d` from register `r` (`41_short_forms.md` R161). -/
def execLdWR (d : Nib) (r : Byte) (s : State) : Out :=
  M.finish (moveRegister (wreg d) r) s

/-- LD R,r: register `d` from working register `w` (`41_short_forms.md` R162). -/
def execLdRW (d : Byte) (w : Nib) (s : State) : Out :=
  M.finish (moveRegister d (wreg w)) s

/-- DJNZ r,RA: decrement working register `w`, jump by `ra` when it is not zero (`41_short_forms.md` R163). -/
def execDjnz (w : Nib) (ra : Byte) (s : State) : Out :=
  M.finish (do
    let v ← regRead (wreg w)
    regWrite (wreg w) (v - 1)
    if v - 1 ≠ 0 then modify fun t => t.jump (t.pc + sext16 ra)) s

/-- JR cc,RA: jump by `ra` when `cc` holds (`41_short_forms.md` R164). -/
def execJr (cc : CC) (ra : Byte) (s : State) : Out :=
  M.finish (do
    let c ← condition cc
    if c then modify fun t => t.jump (t.pc + sext16 ra)) s

/-- LD r,#IM: working register `d` from the immediate `im` (`41_short_forms.md` R165). -/
def execLdWIM (d : Nib) (im : Byte) (s : State) : Out :=
  M.finish (regWrite (wreg d) im) s

/-- JP cc,DA: jump to `da` when `cc` holds (`41_short_forms.md` R166). -/
def execJp (cc : CC) (da : Word) (s : State) : Out :=
  M.finish (do
    let c ← condition cc
    if c then modify fun t => t.jump da) s

/-- INC r: increment working register `w` (`41_short_forms.md` R167). -/
def execIncW (w : Nib) (s : State) : Out :=
  M.finish (modifyRegister opInc (wreg w)) s

/-- STOP: end the run (`41_short_forms.md` R170). -/
def execStop (s : State) : Out :=
  M.finish (modify fun t => { t with run := .stopped }) s

/-- HALT: wait for an interrupt (`41_short_forms.md` R171). -/
def execHalt (s : State) : Out :=
  M.finish (modify fun t => { t with run := .waiting }) s

/-- DI: disable interrupts (`41_short_forms.md` R172). -/
def execDi (s : State) : Out :=
  M.finish (modify fun t => t.setReg slotIMR (t.reg slotIMR &&& 0x7F#8)) s

/-- EI: enable interrupts (`41_short_forms.md` R173). -/
def execEi (s : State) : Out :=
  M.finish (modify fun t => t.setReg slotIMR (t.reg slotIMR ||| 0x80#8)) s

/-- RET: return (`41_short_forms.md` R174). -/
def execRet (s : State) : Out :=
  M.finish (do
    let a ← popPc
    modify fun t => t.jump a) s

/-- IRET: return from interrupt (`41_short_forms.md` R175). -/
def execIret (s : State) : Out :=
  M.finish returnFromInterrupt s

/-- RCF: clear carry (`41_short_forms.md` R176). -/
def execRcf (s : State) : Out :=
  M.finish (modify fun t => t.updateFlags { c := some false }) s

/-- SCF: set carry (`41_short_forms.md` R177). -/
def execScf (s : State) : Out :=
  M.finish (modify fun t => t.updateFlags { c := some true }) s

/-- CCF: complement carry (`41_short_forms.md` R178). -/
def execCcf (s : State) : Out :=
  M.finish (modify fun t => t.updateFlags { c := some (!flagC t.flags) }) s

/-- NOP: no operation (`41_short_forms.md` R179). -/
def execNop (s : State) : Out :=
  M.finish (pure () : M Unit) s

end Sys2Proof.Machine
end

