-- ==== Sys2Proof/Machine/SingleOperand.lean ====
section
/-! DEFINITION. The single-operand forms, low nibble 0 and 1 (`43_single_operand.md` R232 to R248). One definition for each row of the opcode table;
where one is a single line, the rule is the shared operation it names. -/

namespace Sys2Proof.Machine

/-- DEC R: register `r` (`43_single_operand.md` R234). -/
def execDecR (r : Byte) (s : State) : Out :=
  M.finish (singleInstruction opDec (.direct r)) s

/-- DEC @R: the register whose address register `r` holds (`43_single_operand.md` R234). -/
def execDecIR (r : Byte) (s : State) : Out :=
  M.finish (singleInstruction opDec (.indirect r)) s

/-- RLC R: register `r` (`43_single_operand.md` R235). -/
def execRlcR (r : Byte) (s : State) : Out :=
  M.finish (singleInstruction opRlc (.direct r)) s

/-- RLC @R: the register whose address register `r` holds (`43_single_operand.md` R235). -/
def execRlcIR (r : Byte) (s : State) : Out :=
  M.finish (singleInstruction opRlc (.indirect r)) s

/-- INC R: register `r` (`43_single_operand.md` R236). -/
def execIncR (r : Byte) (s : State) : Out :=
  M.finish (singleInstruction opInc (.direct r)) s

/-- INC @R: the register whose address register `r` holds (`43_single_operand.md` R236). -/
def execIncIR (r : Byte) (s : State) : Out :=
  M.finish (singleInstruction opInc (.indirect r)) s

/-- JP @RR: jump through the register pair at address `rr` (`43_single_operand.md` R232). -/
def execJpIRR (rr : Byte) (s : State) : Out :=
  M.finish (do
    let t ← pairRead rr
    modify fun t' => t'.jump t) s

/-- SRP #IM: set the register pointer from the high nibble of `im` (`43_single_operand.md` R233). -/
def execSrp (im : Byte) (s : State) : Out :=
  M.finish (modify fun t => t.setReg slotRP (im >>> 4)) s

/-- DA R: register `r` (`43_single_operand.md` R237). -/
def execDaR (r : Byte) (s : State) : Out :=
  M.finish (singleInstruction opDa (.direct r)) s

/-- DA @R: the register whose address register `r` holds (`43_single_operand.md` R237). -/
def execDaIR (r : Byte) (s : State) : Out :=
  M.finish (singleInstruction opDa (.indirect r)) s

/-- POP R: register `r` (`43_single_operand.md` R238). -/
def execPopR (r : Byte) (s : State) : Out :=
  M.finish (popInstruction (.direct r)) s

/-- POP @R: the register whose address register `r` holds (`43_single_operand.md` R238). -/
def execPopIR (r : Byte) (s : State) : Out :=
  M.finish (popInstruction (.indirect r)) s

/-- COM R: register `r` (`43_single_operand.md` R239). -/
def execComR (r : Byte) (s : State) : Out :=
  M.finish (singleInstruction opCom (.direct r)) s

/-- COM @R: the register whose address register `r` holds (`43_single_operand.md` R239). -/
def execComIR (r : Byte) (s : State) : Out :=
  M.finish (singleInstruction opCom (.indirect r)) s

/-- PUSH R: register `r` (`43_single_operand.md` R240). -/
def execPushR (r : Byte) (s : State) : Out :=
  M.finish (pushInstruction (.direct r)) s

/-- PUSH @R: the register whose address register `r` holds (`43_single_operand.md` R240). -/
def execPushIR (r : Byte) (s : State) : Out :=
  M.finish (pushInstruction (.indirect r)) s

/-- DECW RR: the register pair at address `rr` (`43_single_operand.md` R241). -/
def execDecwRR (rr : Byte) (s : State) : Out :=
  M.finish (wordInstruction (· - 1) decwFlags (.direct rr)) s

/-- DECW @R: the register pair whose address register `r` holds (`43_single_operand.md` R241). -/
def execDecwIR (r : Byte) (s : State) : Out :=
  M.finish (wordInstruction (· - 1) decwFlags (.indirect r)) s

/-- RL R: register `r` (`43_single_operand.md` R242). -/
def execRlR (r : Byte) (s : State) : Out :=
  M.finish (singleInstruction opRl (.direct r)) s

/-- RL @R: the register whose address register `r` holds (`43_single_operand.md` R242). -/
def execRlIR (r : Byte) (s : State) : Out :=
  M.finish (singleInstruction opRl (.indirect r)) s

/-- INCW RR: the register pair at address `rr` (`43_single_operand.md` R243). -/
def execIncwRR (rr : Byte) (s : State) : Out :=
  M.finish (wordInstruction (· + 1) incwFlags (.direct rr)) s

/-- INCW @R: the register pair whose address register `r` holds (`43_single_operand.md` R243). -/
def execIncwIR (r : Byte) (s : State) : Out :=
  M.finish (wordInstruction (· + 1) incwFlags (.indirect r)) s

/-- CLR R: register `r` (`43_single_operand.md` R244). -/
def execClrR (r : Byte) (s : State) : Out :=
  M.finish (clearInstruction (.direct r)) s

/-- CLR @R: the register whose address register `r` holds (`43_single_operand.md` R244). -/
def execClrIR (r : Byte) (s : State) : Out :=
  M.finish (clearInstruction (.indirect r)) s

/-- RRC R: register `r` (`43_single_operand.md` R245). -/
def execRrcR (r : Byte) (s : State) : Out :=
  M.finish (singleInstruction opRrc (.direct r)) s

/-- RRC @R: the register whose address register `r` holds (`43_single_operand.md` R245). -/
def execRrcIR (r : Byte) (s : State) : Out :=
  M.finish (singleInstruction opRrc (.indirect r)) s

/-- SRA R: register `r` (`43_single_operand.md` R246). -/
def execSraR (r : Byte) (s : State) : Out :=
  M.finish (singleInstruction opSra (.direct r)) s

/-- SRA @R: the register whose address register `r` holds (`43_single_operand.md` R246). -/
def execSraIR (r : Byte) (s : State) : Out :=
  M.finish (singleInstruction opSra (.indirect r)) s

/-- RR R: register `r` (`43_single_operand.md` R247). -/
def execRrR (r : Byte) (s : State) : Out :=
  M.finish (singleInstruction opRr (.direct r)) s

/-- RR @R: the register whose address register `r` holds (`43_single_operand.md` R247). -/
def execRrIR (r : Byte) (s : State) : Out :=
  M.finish (singleInstruction opRr (.indirect r)) s

/-- SWAP R: register `r` (`43_single_operand.md` R248). -/
def execSwapR (r : Byte) (s : State) : Out :=
  M.finish (singleInstruction opSwap (.direct r)) s

/-- SWAP @R: the register whose address register `r` holds (`43_single_operand.md` R248). -/
def execSwapIR (r : Byte) (s : State) : Out :=
  M.finish (singleInstruction opSwap (.indirect r)) s

end Sys2Proof.Machine
end

