-- ==== Sys2Proof/Machine/TwoOperand.lean ====
section
/-! DEFINITION. The two-operand forms, low nibble 2 to 7: ten ALU operations in six modes, seven loads (`42_two_operand.md` R192 to R210). One definition for each row of the opcode table;
where one is a single line, the rule is the shared operation it names. -/

namespace Sys2Proof.Machine

/-- ADD r,r: working register `d` with working register `w` (`42_two_operand.md` R192). -/
def execAddWW (d : Nib) (w : Nib) (s : State) : Out :=
  M.finish (aluInstruction .add (.ww d w)) s

/-- ADD r,@r: working register `d` with the register whose address working register `w` holds (`42_two_operand.md` R192). -/
def execAddWIW (d : Nib) (w : Nib) (s : State) : Out :=
  M.finish (aluInstruction .add (.wiw d w)) s

/-- ADD R,R: register `d` with register `r` (encoded source first) (`42_two_operand.md` R192). -/
def execAddRR (d : Byte) (r : Byte) (s : State) : Out :=
  M.finish (aluInstruction .add (.rr d r)) s

/-- ADD R,@R: register `d` with the register whose address register `r` holds (encoded source first) (`42_two_operand.md` R192). -/
def execAddRIR (d : Byte) (r : Byte) (s : State) : Out :=
  M.finish (aluInstruction .add (.rir d r)) s

/-- ADD R,#IM: register `d` with the immediate `im` (`42_two_operand.md` R192). -/
def execAddRIM (d : Byte) (im : Byte) (s : State) : Out :=
  M.finish (aluInstruction .add (.rim d im)) s

/-- ADD @R,#IM: the register whose address register `d` holds, with the immediate `im` (`42_two_operand.md` R192). -/
def execAddIRIM (d : Byte) (im : Byte) (s : State) : Out :=
  M.finish (aluInstruction .add (.irim d im)) s

/-- ADC r,r: working register `d` with working register `w` (`42_two_operand.md` R193). -/
def execAdcWW (d : Nib) (w : Nib) (s : State) : Out :=
  M.finish (aluInstruction .adc (.ww d w)) s

/-- ADC r,@r: working register `d` with the register whose address working register `w` holds (`42_two_operand.md` R193). -/
def execAdcWIW (d : Nib) (w : Nib) (s : State) : Out :=
  M.finish (aluInstruction .adc (.wiw d w)) s

/-- ADC R,R: register `d` with register `r` (encoded source first) (`42_two_operand.md` R193). -/
def execAdcRR (d : Byte) (r : Byte) (s : State) : Out :=
  M.finish (aluInstruction .adc (.rr d r)) s

/-- ADC R,@R: register `d` with the register whose address register `r` holds (encoded source first) (`42_two_operand.md` R193). -/
def execAdcRIR (d : Byte) (r : Byte) (s : State) : Out :=
  M.finish (aluInstruction .adc (.rir d r)) s

/-- ADC R,#IM: register `d` with the immediate `im` (`42_two_operand.md` R193). -/
def execAdcRIM (d : Byte) (im : Byte) (s : State) : Out :=
  M.finish (aluInstruction .adc (.rim d im)) s

/-- ADC @R,#IM: the register whose address register `d` holds, with the immediate `im` (`42_two_operand.md` R193). -/
def execAdcIRIM (d : Byte) (im : Byte) (s : State) : Out :=
  M.finish (aluInstruction .adc (.irim d im)) s

/-- SUB r,r: working register `d` with working register `w` (`42_two_operand.md` R194). -/
def execSubWW (d : Nib) (w : Nib) (s : State) : Out :=
  M.finish (aluInstruction .sub (.ww d w)) s

/-- SUB r,@r: working register `d` with the register whose address working register `w` holds (`42_two_operand.md` R194). -/
def execSubWIW (d : Nib) (w : Nib) (s : State) : Out :=
  M.finish (aluInstruction .sub (.wiw d w)) s

/-- SUB R,R: register `d` with register `r` (encoded source first) (`42_two_operand.md` R194). -/
def execSubRR (d : Byte) (r : Byte) (s : State) : Out :=
  M.finish (aluInstruction .sub (.rr d r)) s

/-- SUB R,@R: register `d` with the register whose address register `r` holds (encoded source first) (`42_two_operand.md` R194). -/
def execSubRIR (d : Byte) (r : Byte) (s : State) : Out :=
  M.finish (aluInstruction .sub (.rir d r)) s

/-- SUB R,#IM: register `d` with the immediate `im` (`42_two_operand.md` R194). -/
def execSubRIM (d : Byte) (im : Byte) (s : State) : Out :=
  M.finish (aluInstruction .sub (.rim d im)) s

/-- SUB @R,#IM: the register whose address register `d` holds, with the immediate `im` (`42_two_operand.md` R194). -/
def execSubIRIM (d : Byte) (im : Byte) (s : State) : Out :=
  M.finish (aluInstruction .sub (.irim d im)) s

/-- SBC r,r: working register `d` with working register `w` (`42_two_operand.md` R195). -/
def execSbcWW (d : Nib) (w : Nib) (s : State) : Out :=
  M.finish (aluInstruction .sbc (.ww d w)) s

/-- SBC r,@r: working register `d` with the register whose address working register `w` holds (`42_two_operand.md` R195). -/
def execSbcWIW (d : Nib) (w : Nib) (s : State) : Out :=
  M.finish (aluInstruction .sbc (.wiw d w)) s

/-- SBC R,R: register `d` with register `r` (encoded source first) (`42_two_operand.md` R195). -/
def execSbcRR (d : Byte) (r : Byte) (s : State) : Out :=
  M.finish (aluInstruction .sbc (.rr d r)) s

/-- SBC R,@R: register `d` with the register whose address register `r` holds (encoded source first) (`42_two_operand.md` R195). -/
def execSbcRIR (d : Byte) (r : Byte) (s : State) : Out :=
  M.finish (aluInstruction .sbc (.rir d r)) s

/-- SBC R,#IM: register `d` with the immediate `im` (`42_two_operand.md` R195). -/
def execSbcRIM (d : Byte) (im : Byte) (s : State) : Out :=
  M.finish (aluInstruction .sbc (.rim d im)) s

/-- SBC @R,#IM: the register whose address register `d` holds, with the immediate `im` (`42_two_operand.md` R195). -/
def execSbcIRIM (d : Byte) (im : Byte) (s : State) : Out :=
  M.finish (aluInstruction .sbc (.irim d im)) s

/-- OR r,r: working register `d` with working register `w` (`42_two_operand.md` R196). -/
def execOrWW (d : Nib) (w : Nib) (s : State) : Out :=
  M.finish (aluInstruction .or (.ww d w)) s

/-- OR r,@r: working register `d` with the register whose address working register `w` holds (`42_two_operand.md` R196). -/
def execOrWIW (d : Nib) (w : Nib) (s : State) : Out :=
  M.finish (aluInstruction .or (.wiw d w)) s

/-- OR R,R: register `d` with register `r` (encoded source first) (`42_two_operand.md` R196). -/
def execOrRR (d : Byte) (r : Byte) (s : State) : Out :=
  M.finish (aluInstruction .or (.rr d r)) s

/-- OR R,@R: register `d` with the register whose address register `r` holds (encoded source first) (`42_two_operand.md` R196). -/
def execOrRIR (d : Byte) (r : Byte) (s : State) : Out :=
  M.finish (aluInstruction .or (.rir d r)) s

/-- OR R,#IM: register `d` with the immediate `im` (`42_two_operand.md` R196). -/
def execOrRIM (d : Byte) (im : Byte) (s : State) : Out :=
  M.finish (aluInstruction .or (.rim d im)) s

/-- OR @R,#IM: the register whose address register `d` holds, with the immediate `im` (`42_two_operand.md` R196). -/
def execOrIRIM (d : Byte) (im : Byte) (s : State) : Out :=
  M.finish (aluInstruction .or (.irim d im)) s

/-- AND r,r: working register `d` with working register `w` (`42_two_operand.md` R197). -/
def execAndWW (d : Nib) (w : Nib) (s : State) : Out :=
  M.finish (aluInstruction .and (.ww d w)) s

/-- AND r,@r: working register `d` with the register whose address working register `w` holds (`42_two_operand.md` R197). -/
def execAndWIW (d : Nib) (w : Nib) (s : State) : Out :=
  M.finish (aluInstruction .and (.wiw d w)) s

/-- AND R,R: register `d` with register `r` (encoded source first) (`42_two_operand.md` R197). -/
def execAndRR (d : Byte) (r : Byte) (s : State) : Out :=
  M.finish (aluInstruction .and (.rr d r)) s

/-- AND R,@R: register `d` with the register whose address register `r` holds (encoded source first) (`42_two_operand.md` R197). -/
def execAndRIR (d : Byte) (r : Byte) (s : State) : Out :=
  M.finish (aluInstruction .and (.rir d r)) s

/-- AND R,#IM: register `d` with the immediate `im` (`42_two_operand.md` R197). -/
def execAndRIM (d : Byte) (im : Byte) (s : State) : Out :=
  M.finish (aluInstruction .and (.rim d im)) s

/-- AND @R,#IM: the register whose address register `d` holds, with the immediate `im` (`42_two_operand.md` R197). -/
def execAndIRIM (d : Byte) (im : Byte) (s : State) : Out :=
  M.finish (aluInstruction .and (.irim d im)) s

/-- TCM r,r: working register `d` with working register `w` (`42_two_operand.md` R198). -/
def execTcmWW (d : Nib) (w : Nib) (s : State) : Out :=
  M.finish (aluInstruction .tcm (.ww d w)) s

/-- TCM r,@r: working register `d` with the register whose address working register `w` holds (`42_two_operand.md` R198). -/
def execTcmWIW (d : Nib) (w : Nib) (s : State) : Out :=
  M.finish (aluInstruction .tcm (.wiw d w)) s

/-- TCM R,R: register `d` with register `r` (encoded source first) (`42_two_operand.md` R198). -/
def execTcmRR (d : Byte) (r : Byte) (s : State) : Out :=
  M.finish (aluInstruction .tcm (.rr d r)) s

/-- TCM R,@R: register `d` with the register whose address register `r` holds (encoded source first) (`42_two_operand.md` R198). -/
def execTcmRIR (d : Byte) (r : Byte) (s : State) : Out :=
  M.finish (aluInstruction .tcm (.rir d r)) s

/-- TCM R,#IM: register `d` with the immediate `im` (`42_two_operand.md` R198). -/
def execTcmRIM (d : Byte) (im : Byte) (s : State) : Out :=
  M.finish (aluInstruction .tcm (.rim d im)) s

/-- TCM @R,#IM: the register whose address register `d` holds, with the immediate `im` (`42_two_operand.md` R198). -/
def execTcmIRIM (d : Byte) (im : Byte) (s : State) : Out :=
  M.finish (aluInstruction .tcm (.irim d im)) s

/-- TM r,r: working register `d` with working register `w` (`42_two_operand.md` R200). -/
def execTmWW (d : Nib) (w : Nib) (s : State) : Out :=
  M.finish (aluInstruction .tm (.ww d w)) s

/-- TM r,@r: working register `d` with the register whose address working register `w` holds (`42_two_operand.md` R200). -/
def execTmWIW (d : Nib) (w : Nib) (s : State) : Out :=
  M.finish (aluInstruction .tm (.wiw d w)) s

/-- TM R,R: register `d` with register `r` (encoded source first) (`42_two_operand.md` R200). -/
def execTmRR (d : Byte) (r : Byte) (s : State) : Out :=
  M.finish (aluInstruction .tm (.rr d r)) s

/-- TM R,@R: register `d` with the register whose address register `r` holds (encoded source first) (`42_two_operand.md` R200). -/
def execTmRIR (d : Byte) (r : Byte) (s : State) : Out :=
  M.finish (aluInstruction .tm (.rir d r)) s

/-- TM R,#IM: register `d` with the immediate `im` (`42_two_operand.md` R200). -/
def execTmRIM (d : Byte) (im : Byte) (s : State) : Out :=
  M.finish (aluInstruction .tm (.rim d im)) s

/-- TM @R,#IM: the register whose address register `d` holds, with the immediate `im` (`42_two_operand.md` R200). -/
def execTmIRIM (d : Byte) (im : Byte) (s : State) : Out :=
  M.finish (aluInstruction .tm (.irim d im)) s

/-- CP r,r: working register `d` with working register `w` (`42_two_operand.md` R199). -/
def execCpWW (d : Nib) (w : Nib) (s : State) : Out :=
  M.finish (aluInstruction .cp (.ww d w)) s

/-- CP r,@r: working register `d` with the register whose address working register `w` holds (`42_two_operand.md` R199). -/
def execCpWIW (d : Nib) (w : Nib) (s : State) : Out :=
  M.finish (aluInstruction .cp (.wiw d w)) s

/-- CP R,R: register `d` with register `r` (encoded source first) (`42_two_operand.md` R199). -/
def execCpRR (d : Byte) (r : Byte) (s : State) : Out :=
  M.finish (aluInstruction .cp (.rr d r)) s

/-- CP R,@R: register `d` with the register whose address register `r` holds (encoded source first) (`42_two_operand.md` R199). -/
def execCpRIR (d : Byte) (r : Byte) (s : State) : Out :=
  M.finish (aluInstruction .cp (.rir d r)) s

/-- CP R,#IM: register `d` with the immediate `im` (`42_two_operand.md` R199). -/
def execCpRIM (d : Byte) (im : Byte) (s : State) : Out :=
  M.finish (aluInstruction .cp (.rim d im)) s

/-- CP @R,#IM: the register whose address register `d` holds, with the immediate `im` (`42_two_operand.md` R199). -/
def execCpIRIM (d : Byte) (im : Byte) (s : State) : Out :=
  M.finish (aluInstruction .cp (.irim d im)) s

/-- XOR r,r: working register `d` with working register `w` (`42_two_operand.md` R201). -/
def execXorWW (d : Nib) (w : Nib) (s : State) : Out :=
  M.finish (aluInstruction .xor (.ww d w)) s

/-- XOR r,@r: working register `d` with the register whose address working register `w` holds (`42_two_operand.md` R201). -/
def execXorWIW (d : Nib) (w : Nib) (s : State) : Out :=
  M.finish (aluInstruction .xor (.wiw d w)) s

/-- XOR R,R: register `d` with register `r` (encoded source first) (`42_two_operand.md` R201). -/
def execXorRR (d : Byte) (r : Byte) (s : State) : Out :=
  M.finish (aluInstruction .xor (.rr d r)) s

/-- XOR R,@R: register `d` with the register whose address register `r` holds (encoded source first) (`42_two_operand.md` R201). -/
def execXorRIR (d : Byte) (r : Byte) (s : State) : Out :=
  M.finish (aluInstruction .xor (.rir d r)) s

/-- XOR R,#IM: register `d` with the immediate `im` (`42_two_operand.md` R201). -/
def execXorRIM (d : Byte) (im : Byte) (s : State) : Out :=
  M.finish (aluInstruction .xor (.rim d im)) s

/-- XOR @R,#IM: the register whose address register `d` holds, with the immediate `im` (`42_two_operand.md` R201). -/
def execXorIRIM (d : Byte) (im : Byte) (s : State) : Out :=
  M.finish (aluInstruction .xor (.irim d im)) s

/-- LD r,@r: working register `d` from the register whose address working register `w` holds (`42_two_operand.md` R204). -/
def execLdWIW (d : Nib) (w : Nib) (s : State) : Out :=
  M.finish (loadInstruction (.wiw d w)) s

/-- LD @r,r: the register whose address working register `d` holds, from working register `w` (`42_two_operand.md` R205). -/
def execLdIWW (d : Nib) (w : Nib) (s : State) : Out :=
  M.finish (storeIndirect 1 (wreg d) (wreg w)) s

/-- LD R,R: register `d` from register `r` (encoded source first) (`42_two_operand.md` R206). -/
def execLdRR (d : Byte) (r : Byte) (s : State) : Out :=
  M.finish (loadInstruction (.rr d r)) s

/-- LD R,@R: register `d` from the register whose address register `r` holds (encoded source first) (`42_two_operand.md` R207). -/
def execLdRIR (d : Byte) (r : Byte) (s : State) : Out :=
  M.finish (loadInstruction (.rir d r)) s

/-- LD R,#IM: register `d` from the immediate `im` (`42_two_operand.md` R208). -/
def execLdRIM (d : Byte) (im : Byte) (s : State) : Out :=
  M.finish (loadInstruction (.rim d im)) s

/-- LD @R,#IM: the register whose address register `d` holds, from the immediate `im` (`42_two_operand.md` R209). -/
def execLdIRIM (d : Byte) (im : Byte) (s : State) : Out :=
  M.finish (loadInstruction (.irim d im)) s

/-- LD @R,R: the register whose address register `d` holds, from register `r` (encoded source first) (`42_two_operand.md` R210). -/
def execLdIRR (d : Byte) (r : Byte) (s : State) : Out :=
  M.finish (storeIndirect 3 d r) s

end Sys2Proof.Machine
end

