-- ==== Sys2Proof/Machine/Dispatch.lean ====
section
/-! DEFINITION. `Execute(b0)` (`40_cycle_and_alu.md` R136): one arm per constructor of Instr. -/

namespace Sys2Proof.Machine

/-- The effect of an instruction in the state after its bytes are fetched (`40_cycle_and_alu.md` R136, log 13). -/
def exec (i : Instr) (s : State) : Host.Outcome State Fault Refusal :=
  match i with
  | .decR r => Sys2Proof.Machine.execDecR r s
  | .decIR r => Sys2Proof.Machine.execDecIR r s
  | .rlcR r => Sys2Proof.Machine.execRlcR r s
  | .rlcIR r => Sys2Proof.Machine.execRlcIR r s
  | .incR r => Sys2Proof.Machine.execIncR r s
  | .incIR r => Sys2Proof.Machine.execIncIR r s
  | .jpIRR rr => Sys2Proof.Machine.execJpIRR rr s
  | .srp im => Sys2Proof.Machine.execSrp im s
  | .daR r => Sys2Proof.Machine.execDaR r s
  | .daIR r => Sys2Proof.Machine.execDaIR r s
  | .popR r => Sys2Proof.Machine.execPopR r s
  | .popIR r => Sys2Proof.Machine.execPopIR r s
  | .comR r => Sys2Proof.Machine.execComR r s
  | .comIR r => Sys2Proof.Machine.execComIR r s
  | .pushR r => Sys2Proof.Machine.execPushR r s
  | .pushIR r => Sys2Proof.Machine.execPushIR r s
  | .decwRR rr => Sys2Proof.Machine.execDecwRR rr s
  | .decwIR r => Sys2Proof.Machine.execDecwIR r s
  | .rlR r => Sys2Proof.Machine.execRlR r s
  | .rlIR r => Sys2Proof.Machine.execRlIR r s
  | .incwRR rr => Sys2Proof.Machine.execIncwRR rr s
  | .incwIR r => Sys2Proof.Machine.execIncwIR r s
  | .clrR r => Sys2Proof.Machine.execClrR r s
  | .clrIR r => Sys2Proof.Machine.execClrIR r s
  | .rrcR r => Sys2Proof.Machine.execRrcR r s
  | .rrcIR r => Sys2Proof.Machine.execRrcIR r s
  | .sraR r => Sys2Proof.Machine.execSraR r s
  | .sraIR r => Sys2Proof.Machine.execSraIR r s
  | .rrR r => Sys2Proof.Machine.execRrR r s
  | .rrIR r => Sys2Proof.Machine.execRrIR r s
  | .swapR r => Sys2Proof.Machine.execSwapR r s
  | .swapIR r => Sys2Proof.Machine.execSwapIR r s
  | .addWW d w => Sys2Proof.Machine.execAddWW d w s
  | .addWIW d w => Sys2Proof.Machine.execAddWIW d w s
  | .addRR d r => Sys2Proof.Machine.execAddRR d r s
  | .addRIR d r => Sys2Proof.Machine.execAddRIR d r s
  | .addRIM d im => Sys2Proof.Machine.execAddRIM d im s
  | .addIRIM d im => Sys2Proof.Machine.execAddIRIM d im s
  | .adcWW d w => Sys2Proof.Machine.execAdcWW d w s
  | .adcWIW d w => Sys2Proof.Machine.execAdcWIW d w s
  | .adcRR d r => Sys2Proof.Machine.execAdcRR d r s
  | .adcRIR d r => Sys2Proof.Machine.execAdcRIR d r s
  | .adcRIM d im => Sys2Proof.Machine.execAdcRIM d im s
  | .adcIRIM d im => Sys2Proof.Machine.execAdcIRIM d im s
  | .subWW d w => Sys2Proof.Machine.execSubWW d w s
  | .subWIW d w => Sys2Proof.Machine.execSubWIW d w s
  | .subRR d r => Sys2Proof.Machine.execSubRR d r s
  | .subRIR d r => Sys2Proof.Machine.execSubRIR d r s
  | .subRIM d im => Sys2Proof.Machine.execSubRIM d im s
  | .subIRIM d im => Sys2Proof.Machine.execSubIRIM d im s
  | .sbcWW d w => Sys2Proof.Machine.execSbcWW d w s
  | .sbcWIW d w => Sys2Proof.Machine.execSbcWIW d w s
  | .sbcRR d r => Sys2Proof.Machine.execSbcRR d r s
  | .sbcRIR d r => Sys2Proof.Machine.execSbcRIR d r s
  | .sbcRIM d im => Sys2Proof.Machine.execSbcRIM d im s
  | .sbcIRIM d im => Sys2Proof.Machine.execSbcIRIM d im s
  | .orWW d w => Sys2Proof.Machine.execOrWW d w s
  | .orWIW d w => Sys2Proof.Machine.execOrWIW d w s
  | .orRR d r => Sys2Proof.Machine.execOrRR d r s
  | .orRIR d r => Sys2Proof.Machine.execOrRIR d r s
  | .orRIM d im => Sys2Proof.Machine.execOrRIM d im s
  | .orIRIM d im => Sys2Proof.Machine.execOrIRIM d im s
  | .andWW d w => Sys2Proof.Machine.execAndWW d w s
  | .andWIW d w => Sys2Proof.Machine.execAndWIW d w s
  | .andRR d r => Sys2Proof.Machine.execAndRR d r s
  | .andRIR d r => Sys2Proof.Machine.execAndRIR d r s
  | .andRIM d im => Sys2Proof.Machine.execAndRIM d im s
  | .andIRIM d im => Sys2Proof.Machine.execAndIRIM d im s
  | .tcmWW d w => Sys2Proof.Machine.execTcmWW d w s
  | .tcmWIW d w => Sys2Proof.Machine.execTcmWIW d w s
  | .tcmRR d r => Sys2Proof.Machine.execTcmRR d r s
  | .tcmRIR d r => Sys2Proof.Machine.execTcmRIR d r s
  | .tcmRIM d im => Sys2Proof.Machine.execTcmRIM d im s
  | .tcmIRIM d im => Sys2Proof.Machine.execTcmIRIM d im s
  | .tmWW d w => Sys2Proof.Machine.execTmWW d w s
  | .tmWIW d w => Sys2Proof.Machine.execTmWIW d w s
  | .tmRR d r => Sys2Proof.Machine.execTmRR d r s
  | .tmRIR d r => Sys2Proof.Machine.execTmRIR d r s
  | .tmRIM d im => Sys2Proof.Machine.execTmRIM d im s
  | .tmIRIM d im => Sys2Proof.Machine.execTmIRIM d im s
  | .cpWW d w => Sys2Proof.Machine.execCpWW d w s
  | .cpWIW d w => Sys2Proof.Machine.execCpWIW d w s
  | .cpRR d r => Sys2Proof.Machine.execCpRR d r s
  | .cpRIR d r => Sys2Proof.Machine.execCpRIR d r s
  | .cpRIM d im => Sys2Proof.Machine.execCpRIM d im s
  | .cpIRIM d im => Sys2Proof.Machine.execCpIRIM d im s
  | .xorWW d w => Sys2Proof.Machine.execXorWW d w s
  | .xorWIW d w => Sys2Proof.Machine.execXorWIW d w s
  | .xorRR d r => Sys2Proof.Machine.execXorRR d r s
  | .xorRIR d r => Sys2Proof.Machine.execXorRIR d r s
  | .xorRIM d im => Sys2Proof.Machine.execXorRIM d im s
  | .xorIRIM d im => Sys2Proof.Machine.execXorIRIM d im s
  | .ldWIW d w => Sys2Proof.Machine.execLdWIW d w s
  | .ldIWW d w => Sys2Proof.Machine.execLdIWW d w s
  | .ldRR d r => Sys2Proof.Machine.execLdRR d r s
  | .ldRIR d r => Sys2Proof.Machine.execLdRIR d r s
  | .ldRIM d im => Sys2Proof.Machine.execLdRIM d im s
  | .ldIRIM d im => Sys2Proof.Machine.execLdIRIM d im s
  | .ldIRR d r => Sys2Proof.Machine.execLdIRR d r s
  | .ldeLoad d p => Sys2Proof.Machine.execLdeLoad d p s
  | .ldeStore d p => Sys2Proof.Machine.execLdeStore d p s
  | .ldeiLoad d p => Sys2Proof.Machine.execLdeiLoad d p s
  | .ldeiStore d p => Sys2Proof.Machine.execLdeiStore d p s
  | .ldcLoad d p => Sys2Proof.Machine.execLdcLoad d p s
  | .ldcStore d p => Sys2Proof.Machine.execLdcStore d p s
  | .ldciLoad d p => Sys2Proof.Machine.execLdciLoad d p s
  | .ldciStore d p => Sys2Proof.Machine.execLdciStore d p s
  | .ldWX d x off => Sys2Proof.Machine.execLdWX d x off s
  | .ldXW d x off => Sys2Proof.Machine.execLdXW d x off s
  | .callIRR rr => Sys2Proof.Machine.execCallIRR rr s
  | .callDA da => Sys2Proof.Machine.execCallDA da s
  | .ldWR d r => Sys2Proof.Machine.execLdWR d r s
  | .ldRW d w => Sys2Proof.Machine.execLdRW d w s
  | .djnz w ra => Sys2Proof.Machine.execDjnz w ra s
  | .jr cc ra => Sys2Proof.Machine.execJr cc ra s
  | .ldWIM d im => Sys2Proof.Machine.execLdWIM d im s
  | .jp cc da => Sys2Proof.Machine.execJp cc da s
  | .incW w => Sys2Proof.Machine.execIncW w s
  | .ifPred cc t f => Sys2Proof.Machine.execIfPred cc t f s
  | .stop => Sys2Proof.Machine.execStop s
  | .halt => Sys2Proof.Machine.execHalt s
  | .di => Sys2Proof.Machine.execDi s
  | .ei => Sys2Proof.Machine.execEi s
  | .ret => Sys2Proof.Machine.execRet s
  | .iret => Sys2Proof.Machine.execIret s
  | .rcf => Sys2Proof.Machine.execRcf s
  | .scf => Sys2Proof.Machine.execScf s
  | .ccf => Sys2Proof.Machine.execCcf s
  | .nop => Sys2Proof.Machine.execNop s

end Sys2Proof.Machine
end

