-- ==== Sys2Proof/Machine/Step.lean ====
section
/-! DEFINITION. `Step` (`40_cycle_and_alu.md` R130): one step of the machine. It only calls the operations of the other
files. -/

namespace Sys2Proof.Machine

/-- `InstructionCycle()` (`40_cycle_and_alu.md` R131). -/
def instructionCycle (s : State) : Host.Outcome State Fault Refusal :=
  match fetchInstr s with
  | .error r s' => .next (s'.raise r)
  | .ok i s' => closeCycle i (exec i s')

/-- `Step()` (`40_cycle_and_alu.md` R130). A quiescent machine has no step: a named fault (log 7). -/
def step (s : State) : Host.Outcome State Fault Refusal :=
  match s.run with
  | .stopped => .fault .quiescentStopped
  | .exhausted => .fault .quiescentExhausted
  | .faulted r => .fault (.quiescentFaulted r)
  | .running => if s.ceilingReached then .next s.exhaust else instructionCycle s
  | .waiting => if s.ceilingReached then .next s.exhaust else M.finish waitingStep s

/-- The table word `w` of `nbits` bits laid out in PROGRAM memory from pc on, byte by byte, up to the longest instruction,
in what the core reads there (log 6). -/
def State.withFetchWord (s : State) (nbits w : Nat) : State :=
  let v := w % 2 ^ nbits
  ((s.pokeProgram s.pc (BitVec.ofNat 8 v)).pokeProgram (s.pc + 1) (BitVec.ofNat 8 (v / 256))).pokeProgram (s.pc + 2)
    (BitVec.ofNat 8 (v / 65536))

end Sys2Proof.Machine
end

