-- ==== Sys2Proof/Machine/Launch.lean ====
section
/-! DEFINITION. The launch of a machine from a configuration and an image (`70_reset_and_hazards.md` R390, `10_state.md`
R54, R57). -/

namespace Sys2Proof.Machine

/-- The launch image (`10_state.md` R54). -/
structure Image where
  prog : Memory
  data : Memory
  reg : Vector Byte 256
  entry : Word
deriving DecidableEq, Repr

/-- A slot a device may back (`10_state.md` R24). -/
def mayBack (a : Byte) : Bool := decide (a ≤ 0x7F#8) || (decide (0xF0#8 ≤ a) && decide (a ≤ 0xF7#8))

/-- The launch check (`10_state.md` R57 with R24): at least one line, `cost.wait` at least 1, devices over allowed slots
alone, no slot backed twice. -/
def Config.valid (c : Config) : Bool :=
  decide (0 < c.numLines) && decide (0 < c.cost.wait) &&
    ((c.devices.map Device.slots).flatten.all mayBack) && decide (c.devices.map Device.slots).flatten.Nodup

/-- Register memory at launch: the image, overridden by 0xFF in the ReadOnly slots and by a device's initial byte in the
slots it backs (`10_state.md` R55). -/
def launchRegs (c : Config) (reg : Vector Byte 256) : Vector Byte 256 :=
  Vector.ofFn fun a =>
    let b := BitVec.ofNat 8 a.val
    match slotPolicy c.devices b with
    | .readOnly => 0xFF
    | .deviceBacked i => ((c.devices[i]?.map fun d => deviceInit d b).getD 0)
    | .readWrite | .windowedPointer => reg.get a

/-- `Launch(Config, Image)` (`70_reset_and_hazards.md` R390): `none` where the launch is refused. -/
def launch (c : Config) (img : Image) : Option State :=
  if Config.valid c then
    some
      { cfg := c
        regs := launchRegs c img.reg
        pc := img.entry
        prog := img.prog
        data := img.data
        lines := State.emptyLines c.numLines
        pred := { tcnt := 0, fcnt := 0, cond := false, snap := 0x00 }
        run := .running
        cycles := 0
        lastTick := 0
        dev := c.devices.map Device.s0 }
  else none

/-- The image `State.reset` is launched from: zeros and entry 0x0100 (log 3, log 4, log 5). -/
def zeroImage : Image where
  prog := []
  data := []
  reg := Vector.replicate 256 0x00
  entry := 0x0100

end Sys2Proof.Machine
end

