-- ==== Sys2Proof/Safety.lean ====
section
/-! DEFINITION. What a safe run is, and the invariants of the machine that a statement about every state may need: those
`10_state.md` R47 and `20_memory.md` R71 to R74 name for the cache, what `10_state.md` R23, R24 and R57 fix for register
memory and the configuration, and what `45_predicated_execution.md` R305 leaves of the predication context between two
steps. -/

namespace Sys2Proof.Machine

/-- The invariant of the cache controller over the configuration, the lines and the PROGRAM bus memory. -/
structure CacheInv (cfg : Config) (lines : List CacheLine) (prog : Memory) : Prop where
  /-- the recency ranks are a permutation of 0..N-1, so there are exactly N lines (`10_state.md` R47) -/
  ranks : (lines.map CacheLine.rank).Perm (List.range cfg.numLines)
  /-- at most one line ever matches a given tag other than the sentinel (`10_state.md` R47) -/
  tags : ∀ (i j : Nat) (a b : CacheLine), lines[i]? = some a → lines[j]? = some b → a.tag = b.tag → a.tag ≠ sentinel → i = j
  /-- a direct-mapped cache holds address a in line a mod N only (`20_memory.md` R65) -/
  placed : cfg.placement = .directMapped → ∀ (i : Nat) (a : CacheLine), lines[i]? = some a → a.tag ≠ sentinel → a.tag.toNat % cfg.numLines = i
  /-- no line is dirty under write-through (`20_memory.md` R71) -/
  clean : cfg.writePolicy = .writeThrough → ∀ (i : Nat) (a : CacheLine), lines[i]? = some a → a.dirty = false
  /-- a clean occupied line holds the byte the bus holds (`20_memory.md` R74) -/
  coherent : ∀ (i : Nat) (a : CacheLine), lines[i]? = some a → a.tag ≠ sentinel → a.dirty = false → a.data = Memory.read prog a.tag
  /-- the bus memory is in canonical form -/
  wf : Memory.wf prog = true

/-- What the predication context is between two steps (`45_predicated_execution.md` R305): with a false condition no true
part is left to skip, with a true condition and the true part run out no false part is left to skip. -/
def PredContext.settled (p : PredContext) : Bool :=
  if p.cond then (p.tcnt ≠ 0 || p.fcnt = 0) else p.tcnt = 0

/-- What every state of a run has, a faulted one too. -/
structure State.CoreInv (s : State) : Prop where
  /-- the configuration passes the launch check (`10_state.md` R57) -/
  valid : Config.valid s.cfg = true
  /-- the cache controller's invariant -/
  cache : CacheInv s.cfg s.lines s.prog
  /-- the bus memory of DATA is in canonical form -/
  dataWf : Memory.wf s.data = true
  /-- "Slots 0x80–0xDF are fixed `ReadOnly` with content 0xFF" (`10_state.md` R23) -/
  readOnly : ∀ a : Byte, 0x80#8 ≤ a → a ≤ 0xDF#8 → s.reg a = 0xFF
  /-- one private state for each configured device (`10_state.md` R50) -/
  devices : s.dev.length = s.cfg.devices.length
  /-- the previous tick is not in the future (`10_state.md` R52) -/
  ticked : s.lastTick ≤ s.cycles

/-- The invariant of the machine between two steps. -/
structure State.Inv (s : State) : Prop extends State.CoreInv s where
  /-- no skip is owed, but where a fault ended one (`45_predicated_execution.md` R305) -/
  settled : s.run.isFaulted = false → s.pred.settled = true

/-- A run is safe in this state: no model-level fault has ended it (`40_cycle_and_alu.md` R133, "a claim about a program
must have the statement that no run reaches Faulted among its conclusions or premises"). -/
def State.Safe (s : State) : Prop := s.run.isFaulted = false

/-- The final states of a run (`40_cycle_and_alu.md` R134). -/
def State.Final (s : State) : Prop := s.run = .stopped ∨ s.run = .exhausted

/-- A slot no device can touch: it is not device-backed, and it is not the pending register of a machine with devices
(`10_state.md` R26, R27). -/
def State.still (s : State) (a : Byte) : Prop := (∀ i, s.policy a ≠ .deviceBacked i) ∧ (a = slotIRQ → s.cfg.devices = [])

end Sys2Proof.Machine
end

