-- ==== Sys2Proof/WellFormed.lean ====
section
/-! DEFINITION. Which instruction terms an assembler may write (`30_encoding.md` R103, R117). Every field has exactly the
width its encoding gives it, so the one check left is that a register-pair field is even. An odd pair field still
decodes and faults when it runs (R113 (e)); the decoder and the machine therefore accept it (log 14). -/

namespace Sys2Proof

/-- A register-pair address is even (`10_state.md` R34, `30_encoding.md` R103). -/
def evenPair (rr : Byte) : Bool := !bit rr 0

/-- A working-register pair number is even (`30_encoding.md` R117: "`rrN` (N even) working register pair"). -/
def evenWPair (p : Nib) : Bool := !p.getLsbD 0

/-- The check, constructor by constructor. -/
def WellFormed (i : Instr) : Bool :=
  match i with
  | .decR _ => true
  | .decIR _ => true
  | .rlcR _ => true
  | .rlcIR _ => true
  | .incR _ => true
  | .incIR _ => true
  | .jpIRR rr => evenPair rr
  | .srp _ => true
  | .daR _ => true
  | .daIR _ => true
  | .popR _ => true
  | .popIR _ => true
  | .comR _ => true
  | .comIR _ => true
  | .pushR _ => true
  | .pushIR _ => true
  | .decwRR rr => evenPair rr
  | .decwIR _ => true
  | .rlR _ => true
  | .rlIR _ => true
  | .incwRR rr => evenPair rr
  | .incwIR _ => true
  | .clrR _ => true
  | .clrIR _ => true
  | .rrcR _ => true
  | .rrcIR _ => true
  | .sraR _ => true
  | .sraIR _ => true
  | .rrR _ => true
  | .rrIR _ => true
  | .swapR _ => true
  | .swapIR _ => true
  | .addWW _ _ => true
  | .addWIW _ _ => true
  | .addRR _ _ => true
  | .addRIR _ _ => true
  | .addRIM _ _ => true
  | .addIRIM _ _ => true
  | .adcWW _ _ => true
  | .adcWIW _ _ => true
  | .adcRR _ _ => true
  | .adcRIR _ _ => true
  | .adcRIM _ _ => true
  | .adcIRIM _ _ => true
  | .subWW _ _ => true
  | .subWIW _ _ => true
  | .subRR _ _ => true
  | .subRIR _ _ => true
  | .subRIM _ _ => true
  | .subIRIM _ _ => true
  | .sbcWW _ _ => true
  | .sbcWIW _ _ => true
  | .sbcRR _ _ => true
  | .sbcRIR _ _ => true
  | .sbcRIM _ _ => true
  | .sbcIRIM _ _ => true
  | .orWW _ _ => true
  | .orWIW _ _ => true
  | .orRR _ _ => true
  | .orRIR _ _ => true
  | .orRIM _ _ => true
  | .orIRIM _ _ => true
  | .andWW _ _ => true
  | .andWIW _ _ => true
  | .andRR _ _ => true
  | .andRIR _ _ => true
  | .andRIM _ _ => true
  | .andIRIM _ _ => true
  | .tcmWW _ _ => true
  | .tcmWIW _ _ => true
  | .tcmRR _ _ => true
  | .tcmRIR _ _ => true
  | .tcmRIM _ _ => true
  | .tcmIRIM _ _ => true
  | .tmWW _ _ => true
  | .tmWIW _ _ => true
  | .tmRR _ _ => true
  | .tmRIR _ _ => true
  | .tmRIM _ _ => true
  | .tmIRIM _ _ => true
  | .cpWW _ _ => true
  | .cpWIW _ _ => true
  | .cpRR _ _ => true
  | .cpRIR _ _ => true
  | .cpRIM _ _ => true
  | .cpIRIM _ _ => true
  | .xorWW _ _ => true
  | .xorWIW _ _ => true
  | .xorRR _ _ => true
  | .xorRIR _ _ => true
  | .xorRIM _ _ => true
  | .xorIRIM _ _ => true
  | .ldWIW _ _ => true
  | .ldIWW _ _ => true
  | .ldRR _ _ => true
  | .ldRIR _ _ => true
  | .ldRIM _ _ => true
  | .ldIRIM _ _ => true
  | .ldIRR _ _ => true
  | .ldeLoad _ p => evenWPair p
  | .ldeStore _ p => evenWPair p
  | .ldeiLoad _ p => evenWPair p
  | .ldeiStore _ p => evenWPair p
  | .ldcLoad _ p => evenWPair p
  | .ldcStore _ p => evenWPair p
  | .ldciLoad _ p => evenWPair p
  | .ldciStore _ p => evenWPair p
  | .ldWX _ _ _ => true
  | .ldXW _ _ _ => true
  | .callIRR rr => evenPair rr
  | .callDA _ => true
  | .ldWR _ _ => true
  | .ldRW _ _ => true
  | .djnz _ _ => true
  | .jr _ _ => true
  | .ldWIM _ _ => true
  | .jp _ _ => true
  | .incW _ => true
  | .ifPred _ _ _ => true
  | .stop => true
  | .halt => true
  | .di => true
  | .ei => true
  | .ret => true
  | .iret => true
  | .rcf => true
  | .scf => true
  | .ccf => true
  | .nop => true

end Sys2Proof
end

