-- ==== Sys2Proof/Certificates/Slice0/Obligations.lean ====
section
/-! DEFINITION. The statements for the provers, and the few words they share. `RegRead`, `RegWrite`, `PairRead` and `PairWrite`
of the spec are stated once (`RegReadPolicy`, `RegWritePolicy`, `RegisterPairs`); the statements about instructions then say
what an instruction does in terms of a read and a write of a resolved slot, `State.slotRead` and `State.slotWrite`, which
those statements determine. -/

namespace Sys2Proof.Statements

open Sys2Proof.Machine

/-- Register address `a` reaches slot `p` (`10_state.md` R25): the access is not refused. -/
abbrev Reaches (s : State) (a p : Byte) : Prop := resolve (s.reg slotRP) a = some p

/-- The instruction of an ALU operation in one of the six modes (`42_two_operand.md` R190). -/
def aluForm (op : AluOp) (o : TwoOperands) : Instr :=
  match op, o with
  | .add, .ww d w => .addWW d w
  | .add, .wiw d w => .addWIW d w
  | .add, .rr d r => .addRR d r
  | .add, .rir d r => .addRIR d r
  | .add, .rim d im => .addRIM d im
  | .add, .irim d im => .addIRIM d im
  | .adc, .ww d w => .adcWW d w
  | .adc, .wiw d w => .adcWIW d w
  | .adc, .rr d r => .adcRR d r
  | .adc, .rir d r => .adcRIR d r
  | .adc, .rim d im => .adcRIM d im
  | .adc, .irim d im => .adcIRIM d im
  | .sub, .ww d w => .subWW d w
  | .sub, .wiw d w => .subWIW d w
  | .sub, .rr d r => .subRR d r
  | .sub, .rir d r => .subRIR d r
  | .sub, .rim d im => .subRIM d im
  | .sub, .irim d im => .subIRIM d im
  | .sbc, .ww d w => .sbcWW d w
  | .sbc, .wiw d w => .sbcWIW d w
  | .sbc, .rr d r => .sbcRR d r
  | .sbc, .rir d r => .sbcRIR d r
  | .sbc, .rim d im => .sbcRIM d im
  | .sbc, .irim d im => .sbcIRIM d im
  | .or, .ww d w => .orWW d w
  | .or, .wiw d w => .orWIW d w
  | .or, .rr d r => .orRR d r
  | .or, .rir d r => .orRIR d r
  | .or, .rim d im => .orRIM d im
  | .or, .irim d im => .orIRIM d im
  | .and, .ww d w => .andWW d w
  | .and, .wiw d w => .andWIW d w
  | .and, .rr d r => .andRR d r
  | .and, .rir d r => .andRIR d r
  | .and, .rim d im => .andRIM d im
  | .and, .irim d im => .andIRIM d im
  | .tcm, .ww d w => .tcmWW d w
  | .tcm, .wiw d w => .tcmWIW d w
  | .tcm, .rr d r => .tcmRR d r
  | .tcm, .rir d r => .tcmRIR d r
  | .tcm, .rim d im => .tcmRIM d im
  | .tcm, .irim d im => .tcmIRIM d im
  | .tm, .ww d w => .tmWW d w
  | .tm, .wiw d w => .tmWIW d w
  | .tm, .rr d r => .tmRR d r
  | .tm, .rir d r => .tmRIR d r
  | .tm, .rim d im => .tmRIM d im
  | .tm, .irim d im => .tmIRIM d im
  | .cp, .ww d w => .cpWW d w
  | .cp, .wiw d w => .cpWIW d w
  | .cp, .rr d r => .cpRR d r
  | .cp, .rir d r => .cpRIR d r
  | .cp, .rim d im => .cpRIM d im
  | .cp, .irim d im => .cpIRIM d im
  | .xor, .ww d w => .xorWW d w
  | .xor, .wiw d w => .xorWIW d w
  | .xor, .rr d r => .xorRR d r
  | .xor, .rir d r => .xorRIR d r
  | .xor, .rim d im => .xorRIM d im
  | .xor, .irim d im => .xorIRIM d im

/-- The read-modify-write operations of the single-operand family (`43_single_operand.md` R234 to R248). -/
inductive UnaryOp where
  | dec | rlc | inc | da | com | rl | rrc | sra | rr | swap
deriving DecidableEq, Repr

/-- The instruction of such an operation in one of the two modes (`43_single_operand.md` R230). -/
def unaryForm (op : UnaryOp) (o : OneOperand) : Instr :=
  match op, o with
  | .dec, .direct r => .decR r
  | .dec, .indirect r => .decIR r
  | .rlc, .direct r => .rlcR r
  | .rlc, .indirect r => .rlcIR r
  | .inc, .direct r => .incR r
  | .inc, .indirect r => .incIR r
  | .da, .direct r => .daR r
  | .da, .indirect r => .daIR r
  | .com, .direct r => .comR r
  | .com, .indirect r => .comIR r
  | .rl, .direct r => .rlR r
  | .rl, .indirect r => .rlIR r
  | .rrc, .direct r => .rrcR r
  | .rrc, .indirect r => .rrcIR r
  | .sra, .direct r => .sraR r
  | .sra, .indirect r => .sraIR r
  | .rr, .direct r => .rrR r
  | .rr, .indirect r => .rrIR r
  | .swap, .direct r => .swapR r
  | .swap, .indirect r => .swapIR r

/-- `f(d)` of each operation, `f` the FLAGS byte (`43_single_operand.md` R234 to R248). -/
def unaryEval (op : UnaryOp) (d f : Byte) : Byte × FlagBits :=
  match op with
  | .dec => opDec d f
  | .rlc => opRlc d f
  | .inc => opInc d f
  | .da => opDa d f
  | .com => opCom d f
  | .rl => opRl d f
  | .rrc => opRrc d f
  | .sra => opSra d f
  | .rr => opRr d f
  | .swap => opSwap d f

/-- The end of an ALU instruction at destination slot `p` with source value `src`: the old value read, the result written if
the operation writes, then the flags (`42_two_operand.md` R190). -/
def aluAt (s : State) (op : AluOp) (p src : Byte) : State :=
  let a := (s.slotRead p).1
  let t := (s.slotRead p).2
  let e := aluEval op a src t.flags
  (if aluWrites op then t.slotWrite p e.1 else t).updateFlags e.2

/-- A read-modify-write of slot `p`: read, written, then the flags (`43_single_operand.md` R230). -/
def unaryAt (s : State) (op : UnaryOp) (p : Byte) : State :=
  let d := (s.slotRead p).1
  let t := (s.slotRead p).2
  let e := unaryEval op d t.flags
  (t.slotWrite p e.1).updateFlags e.2

/-- The state after `cost.mode[k + 2]` is charged (`40_cycle_and_alu.md` R137). -/
def moded (s : State) (k : Fin 6) : State := s.charge (s.cfg.cost.mode.get k)

/-- What the operand routine of a two-operand form leaves, run from `s`: the destination reaches slot `p`, the source value is
`v`, the state is `u` (`40_cycle_and_alu.md` R137). Address registers are read before the registers they point to. -/
def OperandsAt (s : State) (o : TwoOperands) (p v : Byte) (u : State) : Prop :=
  let m := moded s o.modeIndex
  match o with
  | .ww d w => ∃ q, Reaches s (wreg w) q ∧ Reaches s (wreg d) p ∧ (v, u) = m.slotRead q
  | .wiw d w =>
    ∃ q q', Reaches s (wreg w) q ∧ Reaches s (m.slotRead q).1 q' ∧ Reaches s (wreg d) p ∧ (v, u) = (m.slotRead q).2.slotRead q'
  | .rr d r => ∃ q, Reaches s r q ∧ Reaches s d p ∧ (v, u) = m.slotRead q
  | .rir d r =>
    ∃ q q', Reaches s r q ∧ Reaches s (m.slotRead q).1 q' ∧ Reaches s d p ∧ (v, u) = (m.slotRead q).2.slotRead q'
  | .rim d im => Reaches s d p ∧ v = im ∧ u = m
  | .irim d im => ∃ q, Reaches s d q ∧ Reaches s (m.slotRead q).1 p ∧ v = im ∧ u = (m.slotRead q).2

/-- The same for a single-operand form: the operand reaches slot `p`, the state is `u` (`40_cycle_and_alu.md` R138). -/
def OperandAt (s : State) (o : OneOperand) (p : Byte) (u : State) : Prop :=
  match o with
  | .direct r => Reaches s r p ∧ u = s
  | .indirect r => ∃ q, Reaches s r q ∧ Reaches s (s.slotRead q).1 p ∧ u = (s.slotRead q).2

/-- The two reads of a pair whose high byte is slot `p`: the word and the state after them (`10_state.md` R34). -/
def pairFrom (s : State) (p : Byte) : Word × State :=
  let h := s.slotRead p
  let l := h.2.slotRead (p + 1)
  (h.1 ++ l.1, l.2)

/-- The two writes of a pair whose high byte is slot `p` (`10_state.md` R34). -/
def pairInto (s : State) (p : Byte) (w : Word) : State :=
  (s.slotWrite p (w.extractLsb' 8 8)).slotWrite (p + 1) (w.extractLsb' 0 8)

/-- Register memory after the byte `v` is written to slot `p` of a machine without devices and the flag bits `u` are then
updated: a ReadOnly slot keeps its byte, no other slot changes. -/
def Updated (s t : State) (p v : Byte) (u : FlagBits) : Prop :=
  (∀ a, a ≠ 0xFC → t.reg a = if a = p ∧ ¬(0x80#8 ≤ p ∧ p ≤ 0xDF#8) then v else s.reg a) ∧
    t.reg 0xFC = applyFlags u (if p = 0xFC then v else s.reg 0xFC)

/-! ### The stack and control transfer -/

/-- `t` is `s` after a push of `v` (`20_memory.md` R82). -/
def PushAt (s : State) (v : Byte) (t : State) : Prop :=
  if (s.reg 0xF8).getLsbD 2 then
    ∃ q, Reaches s (s.reg 0xFF - 1) q ∧ t = (s.setReg 0xFF (s.reg 0xFF - 1)).slotWrite q v
  else
    let a : Word := s.reg 0xFE ++ s.reg 0xFF - 1
    t = { (s.setReg 0xFE (a.extractLsb' 8 8)).setReg 0xFF (a.extractLsb' 0 8) with data := Memory.write s.data a v }

/-- `t` is `s` after a pop that answers `v` (`20_memory.md` R83). -/
def PopAt (s : State) (v : Byte) (t : State) : Prop :=
  if (s.reg 0xF8).getLsbD 2 then
    ∃ q, Reaches s (s.reg 0xFF) q ∧ v = (s.slotRead q).1 ∧ t = (s.slotRead q).2.setReg 0xFF (s.reg 0xFF + 1)
  else
    let a : Word := s.reg 0xFE ++ s.reg 0xFF
    v = Memory.read s.data a ∧
      t = (s.setReg 0xFE ((a + 1).extractLsb' 8 8)).setReg 0xFF ((a + 1).extractLsb' 0 8)

/-- A taken transfer to `a`: pc overwritten, the counts and the condition of the predication context zeroed
(`41_short_forms.md` R169, `45_predicated_execution.md` R304). -/
def transferTo (s : State) (a : Word) : State :=
  { s with pc := a, pred := { tcnt := 0, fcnt := 0, cond := false, snap := s.pred.snap } }

/-- The program bytes the core sees are the same in two states, 0xFFFF apart, which no access reaches
(`20_memory.md` R70, R73). -/
def SameProgram (s t : State) : Prop := ∀ a, a ≠ 0xFFFF → t.progView a = s.progView a

/-- The rows of the decimal-adjust table (`40_cycle_and_alu.md` R146): D, C, high nibble, H, low nibble, the correction, C
after. -/
def daRow (d c : Bool) (hi : Nat) (h : Bool) (lo : Nat) (corr : Byte) (cn : Bool) : Prop :=
  match d, c, h with
  | false, false, false =>
    (hi ≤ 9 ∧ lo ≤ 9 ∧ corr = 0x00 ∧ cn = false) ∨ (hi ≤ 8 ∧ 10 ≤ lo ∧ corr = 0x06 ∧ cn = false) ∨
      (10 ≤ hi ∧ lo ≤ 9 ∧ corr = 0x60 ∧ cn = true) ∨ (9 ≤ hi ∧ 10 ≤ lo ∧ corr = 0x66 ∧ cn = true)
  | false, false, true =>
    (hi ≤ 9 ∧ lo ≤ 3 ∧ corr = 0x06 ∧ cn = false) ∨ (10 ≤ hi ∧ lo ≤ 3 ∧ corr = 0x66 ∧ cn = true)
  | false, true, false =>
    (hi ≤ 2 ∧ lo ≤ 9 ∧ corr = 0x60 ∧ cn = true) ∨ (hi ≤ 2 ∧ 10 ≤ lo ∧ corr = 0x66 ∧ cn = true)
  | false, true, true => hi ≤ 3 ∧ lo ≤ 3 ∧ corr = 0x66 ∧ cn = true
  | true, false, false => hi ≤ 9 ∧ lo ≤ 9 ∧ corr = 0x00 ∧ cn = false
  | true, false, true => hi ≤ 8 ∧ 6 ≤ lo ∧ corr = 0xFA ∧ cn = false
  | true, true, false => 7 ≤ hi ∧ lo ≤ 9 ∧ corr = 0xA0 ∧ cn = true
  | true, true, true => 6 ≤ hi ∧ 6 ≤ lo ∧ corr = 0x9A ∧ cn = true

/-! ### Which instructions -/

/-- The instructions that store a byte to DATA memory (`20_memory.md` R60). -/
def storesData (i : Instr) : Bool :=
  match i with
  | .ldeStore _ _ | .ldeiStore _ _ | .pushR _ | .pushIR _ | .callIRR _ | .callDA _ => true
  | _ => false

/-- The instructions that store a byte to PROGRAM memory (`20_memory.md` R60). -/
def storesProgram (i : Instr) : Bool :=
  match i with
  | .ldcStore _ _ | .ldciStore _ _ => true
  | _ => false

/-- The instructions that read PROGRAM memory as data, through the cache (`20_memory.md` R60). -/
def loadsProgram (i : Instr) : Bool :=
  match i with
  | .ldcLoad _ _ | .ldciLoad _ _ => true
  | _ => false

/-- The instructions whose operands can raise a model-level fault beside the window's, and what they owe
(`60_exceptions.md` R331): an even pair behind a pointer, a PROGRAM address other than 0xFFFF, and, for the two
auto-increment loads, a destination other than RP, whose new value decides the later pointer writes. -/
def operandsAllow (i : Instr) (s : State) : Prop :=
  match i with
  | .decwIR r | .incwIR r => ∀ q, Reaches s r q → (s.slotRead q).1.toNat % 2 = 0
  | .ldeiLoad d p => ∀ q r, Reaches s (wreg p) q → Reaches s (wreg d) r → ((pairFrom s q).2.slotRead r).1 ≠ 0xFD
  | .ldcLoad _ p => ∀ q, Reaches s (wreg p) q → (pairFrom s q).1 ≠ 0xFFFF
  | .ldcStore d p => ∀ q r, Reaches s (wreg p) q → Reaches s (wreg d) r → (pairFrom (s.slotRead r).2 q).1 ≠ 0xFFFF
  | .ldciLoad d p =>
    ∀ q r, Reaches s (wreg p) q → Reaches s (wreg d) r →
      (pairFrom s q).1 ≠ 0xFFFF ∧ ((pairFrom s q).2.slotRead r).1 ≠ 0xFD
  | .ldciStore d p =>
    ∀ q r x, Reaches s (wreg p) q → Reaches s (wreg d) r → Reaches s (s.slotRead r).1 x →
      (pairFrom ((s.slotRead r).2.slotRead x).2 q).1 ≠ 0xFFFF
  | _ => True

/-- The control transfers, which alone overwrite pc (`10_state.md` R45). -/
def transfers (i : Instr) : Bool :=
  match i with
  | .jp _ _ | .jr _ _ | .djnz _ _ | .jpIRR _ | .callDA _ | .callIRR _ | .ret | .iret => true
  | _ => false

/-- The length of an instruction by the position of its first byte (`30_encoding.md` R101). -/
def lengthByPosition (b0 : Byte) : Nat :=
  let lo := b0.toNat % 16
  if lo = 14 then 1
  else if lo = 15 then (if b0 = 0x0F then 2 else 1)
  else if lo ≤ 3 ∨ (8 ≤ lo ∧ lo ≤ 12) then 2
  else if b0 = 0xD4 then 2 else 3

/-- The DATA address the next push stores to; `none` on the internal stack (`20_memory.md` R82). -/
def stackByte (s : State) : Option Word :=
  if (s.reg 0xF8).getLsbD 2 then none else some (s.reg 0xFE ++ s.reg 0xFF - 1)

/-- The pc after `n` skips from `pc` over the bytes `view`, or the fault of the first that meets 0xFFFF or an illegal opcode
(`45_predicated_execution.md` R308, log 12). -/
def skipEnd (view : Word → Byte) (n : Nat) (pc : Word) : Except FaultReason Word :=
  match n with
  | 0 => .ok pc
  | n + 1 =>
    if pc = 0xFFFF then .error .sentinelAddress
    else if operandWidth (view pc) = none then .error .illegalOpcode
    else skipEnd view n (pc + BitVec.ofNat 16 (lengthByPosition (view pc)))

/-- The place of group A, B or C (0, 1, 2) in `Order(g)` (`60_exceptions.md` R348). -/
def groupPlace (g grp : Nat) : Nat :=
  match g, grp with
  | 1, 2 => 0 | 1, 0 => 1 | 1, _ => 2
  | 2, 0 => 0 | 2, 1 => 1 | 2, _ => 2
  | 3, 0 => 0 | 3, 2 => 1 | 3, _ => 2
  | 4, 1 => 0 | 4, 2 => 1 | 4, _ => 2
  | 5, 2 => 0 | 5, 1 => 1 | 5, _ => 2
  | _, 1 => 0 | _, 0 => 1 | _, _ => 2

/-- The reload value of a timer channel, in cycles (`60_exceptions.md` R372). -/
def reloadCount (c : TimerChannel) : Nat :=
  (if c.pre.toNat / 4 = 0 then 64 else c.pre.toNat / 4) * (if c.t.toNat = 0 then 256 else c.t.toNat)

/-- How far a source stands behind the first in the configured priority (`60_exceptions.md` R348, `10_state.md` R42): its
group's place, then whether it is its group's loser. -/
def priorityRank (ipr : Byte) (i : Fin 6) : Nat :=
  let g := 4 * (ipr.toNat / 16 % 2) + 2 * (ipr.toNat / 8 % 2) + ipr.toNat % 2
  match i.val with
  | 3 => 2 * groupPlace g 0 + (if ipr.toNat / 32 % 2 = 1 then 0 else 1)
  | 5 => 2 * groupPlace g 0 + (if ipr.toNat / 32 % 2 = 1 then 1 else 0)
  | 0 => 2 * groupPlace g 1 + (if ipr.toNat / 4 % 2 = 1 then 0 else 1)
  | 2 => 2 * groupPlace g 1 + (if ipr.toNat / 4 % 2 = 1 then 1 else 0)
  | 4 => 2 * groupPlace g 2 + (if ipr.toNat / 2 % 2 = 1 then 0 else 1)
  | _ => 2 * groupPlace g 2 + (if ipr.toNat / 2 % 2 = 1 then 1 else 0)

/-- The two states differ in nothing but the cost table, the clock and `lastTick` (`70_reset_and_hazards.md` R419). -/
def SameButCosts (s t : State) : Prop :=
  t = { s with cfg := { s.cfg with cost := t.cfg.cost }, cycles := t.cycles, lastTick := t.lastTick }

end Sys2Proof.Statements

open Sys2Proof Sys2Proof.Machine Sys2Proof.Statements

/-- O1. For every instruction i and any bytes that follow it, decoding encode i followed by those bytes gives i and
exactly those bytes: no operand bit of any of the 129 forms is dropped or moved, at any operand value, even pair or odd.
(30_encoding.md R102, 30_encoding.md R103, 30_encoding.md R106) -/
def Obligations.DecodeEncode : Prop :=
  ∀ (i : Instr) (rest : List Byte), decode (encode i ++ rest) = .ok (i, rest)

/-- O2. If bytes decode to an instruction i with the bytes rest left over, the bytes are encode i followed by rest: each
legal byte sequence has one meaning and no bit of it is ignored. (30_encoding.md R100, 30_encoding.md R102,
30_encoding.md R106) -/
def Obligations.EncodeDecode : Prop :=
  ∀ (bytes rest : List Byte) (i : Instr), decode bytes = .ok (i, rest) → bytes = encode i ++ rest

/-- O3. The encoding of every instruction is a first byte b0 and operand bytes; its length is the one R101 gives for the
position of b0 (low nibble E: 1; low nibble F: 1, IF 2; low nibble 0 to 3 and 8 to C: 2; low nibble 4 to 7 and D: 3,
CALL @RR 2), and OperandWidth(b0) is that length less one. (R101) -/
def Obligations.InstructionLength : Prop :=
  ∀ i : Instr, ∃ (b0 : Byte) (ops : List Byte),
    encode i = b0 :: ops ∧ ops.length + 1 = lengthByPosition b0 ∧ operandWidth b0 = some ops.length

/-- O4. A first byte is refused by the decoder exactly when it is one of the 22 values of R112, whatever follows it. In
a state with the core invariant, running, below the ceiling, whose pc is not 0xFFFF and whose PROGRAM byte at pc is one
of them, the step ends Faulted(IllegalOpcode) with pc moved past the byte and no cost charged; registers, DATA and the
predication context are as before. (30_encoding.md R112, 40_cycle_and_alu.md R131, 60_exceptions.md R331) -/
def Obligations.IllegalOpcodes : Prop :=
  (∀ (b0 : Byte) (rest : List Byte), decode (b0 :: rest) = .error (.illegalOpcode b0) ↔
      b0 ∈ ([0x1F, 0x2F, 0x3F, 0x4F, 0x5F, 0x84, 0x85, 0x86, 0x87, 0x94, 0x95, 0x96, 0x97, 0xC4, 0xC5, 0xC6, 0xD5, 0xE2,
        0xF2, 0xF4, 0xF6, 0xF7] : List Byte)) ∧
    ∀ s : State, s.CoreInv → s.run = .running → s.ceilingReached = false → s.pc ≠ 0xFFFF →
      operandWidth (s.progView s.pc) = none →
      ∃ t, step s = .next t ∧ t.run = .faulted .illegalOpcode ∧ t.pc = s.pc + 1 ∧ t.cycles = s.cycles ∧ t.regs = s.regs ∧
        t.data = s.data ∧ t.pred = s.pred

/-- O5. One word for each format F0 to F12, written bit by bit from the formats and the opcode map, decodes to the
instruction it stands for. (30_encoding.md R102, 30_encoding.md R106) -/
def Obligations.DecodeWords : Prop :=
  decode [0b11111111#8] = .ok (.nop, []) ∧
    decode [0b00111110#8] = .ok (.incW 3, []) ∧
    decode [0b00010001#8, 0b00100000#8] = .ok (.rlcIR 0x20, []) ∧
    decode [0b00110001#8, 0b01110000#8] = .ok (.srp 0x70, []) ∧
    decode [0b10010011#8, 0b01000010#8] = .ok (.ldeiStore 4 2, []) ∧
    decode [0b11100100#8, 0b01000000#8, 0b01000001#8] = .ok (.ldRR 0x41 0x40, []) ∧
    decode [0b00000110#8, 0b00100000#8, 0b00000001#8] = .ok (.addRIM 0x20 0x01, []) ∧
    decode [0b11000111#8, 0b00110100#8, 0b00010000#8] = .ok (.ldWX 3 4 0x10, []) ∧
    decode [0b00101010#8, 0b11111100#8] = .ok (.djnz 2 0xFC, []) ∧
    decode [0b01101011#8, 0b00000101#8] = .ok (.jr .eq 0x05, []) ∧
    decode [0b11101101#8, 0b00010010#8, 0b00110100#8] = .ok (.jp .ne 0x1234, []) ∧
    decode [0b11010110#8, 0b00010010#8, 0b00110100#8] = .ok (.callDA 0x1234, []) ∧
    decode [0b00001111#8, 0b10001001#8] = .ok (.ifPred .always 2 1, [])

/-- O6. In a state with the core invariant, running and below the ceiling, whose PROGRAM bytes from pc on, as the core
sees them, decode to i, none of the bytes of i being at 0xFFFF: the step is the rest of the cycle after exec i in a
state u that is s with pc past the instruction and cost.op of the first byte charged; registers, DATA, the predication
context, devices, run state and every byte of the core's view of PROGRAM memory are as in s (only the cache has moved).
That the bytes are all fetched before exec runs is the model's arrangement of R80 and R131 (log 13).
(40_cycle_and_alu.md R131, 40_cycle_and_alu.md R136, 20_memory.md R78, 20_memory.md R80, 10_state.md R44) -/
def Obligations.StepRunsDecoded : Prop :=
  ∀ (s : State) (i : Instr) (rest : List Byte), s.CoreInv → s.run = .running → s.ceilingReached = false →
    decode [s.progView s.pc, s.progView (s.pc + 1), s.progView (s.pc + 2)] = .ok (i, rest) →
    (∀ k : Nat, k < lengthByPosition (s.progView s.pc) → s.pc + BitVec.ofNat 16 k ≠ 0xFFFF) →
    ∃ u, step s = closeCycle i (exec i u) ∧ u.CoreInv ∧
      u.pc = s.pc + BitVec.ofNat 16 (lengthByPosition (s.progView s.pc)) ∧
      u.cycles = s.cycles + s.cfg.cost.op[(s.progView s.pc).toNat]'(s.progView s.pc).isLt ∧
      u.regs = s.regs ∧ u.data = s.data ∧ u.pred = s.pred ∧ u.run = s.run ∧ u.cfg = s.cfg ∧ u.dev = s.dev ∧
      u.lastTick = s.lastTick ∧ ∀ a, a ≠ 0xFFFF → u.progView a = s.progView a

/-- O7. When exec answers a state that is not Faulted, the rest of the cycle is the predication bookkeeping, then the
device tick, then the interrupt poll, then the flush when the run is Stopped; a fault in the bookkeeping or in the poll
ends the step there with run Faulted and the writes so far kept. When exec answers a Faulted state, no later phase runs.
(40_cycle_and_alu.md R131, 40_cycle_and_alu.md R133) -/
def Obligations.CyclePhases : Prop :=
  ∀ (i : Instr) (u t : State), exec i u = .next t →
    (t.run.isFaulted = true → closeCycle i (exec i u) = .next t) ∧
    (t.run.isFaulted = false →
      (∀ r v, predBookkeeping (isIf i) t = .error r v → closeCycle i (exec i u) = .next { v with run := .faulted r }) ∧
      ∀ v, predBookkeeping (isIf i) t = .ok () v →
        (∀ r w, poll v.tick = .error r w → closeCycle i (exec i u) = .next { w with run := .faulted r }) ∧
        ∀ w, poll v.tick = .ok () w → closeCycle i (exec i u) = .next (if w.run = .stopped then w.flushAll else w))

/-- O8. A Stopped, Exhausted or Faulted machine has no step (the model answers a fault named after the state, log 7). A
Waiting machine below the ceiling does a waiting step: it charges cost.wait, ticks the devices, polls, and nothing else.
A Running machine below the ceiling whose pc is 0xFFFF ends Faulted(SentinelAddress) and is otherwise as it was.
(40_cycle_and_alu.md R130, 60_exceptions.md R360, 20_memory.md R70) -/
def Obligations.StepByRunState : Prop :=
  ∀ s : State,
    (s.run = .stopped → step s = .fault .quiescentStopped) ∧
    (s.run = .exhausted → step s = .fault .quiescentExhausted) ∧
    (∀ r, s.run = .faulted r → step s = .fault (.quiescentFaulted r)) ∧
    (s.run = .waiting → s.ceilingReached = false →
      (∀ t, poll (s.charge s.cfg.cost.wait).tick = .ok () t → step s = .next t) ∧
      ∀ r t, poll (s.charge s.cfg.cost.wait).tick = .error r t → step s = .next { t with run := .faulted r }) ∧
    (s.run = .running → s.ceilingReached = false → s.pc = 0xFFFF →
      step s = .next { s with run := .faulted .sentinelAddress })

/-- O9. In a running or waiting state with the core invariant whose ceiling is c and whose cycle counter is at least c,
the step answers a state with run Exhausted, whose PROGRAM bus memory holds at every address but 0xFFFF what the core
saw there, and whose registers, DATA, pc, clock and predication context are as before. Below the ceiling no step ends
Exhausted. (R132) -/
def Obligations.CeilingExhausts : Prop :=
  (∀ (s : State) (c : Nat), s.CoreInv → (s.run = .running ∨ s.run = .waiting) → s.cfg.ceiling = some c → c ≤ s.cycles →
      ∃ t, step s = .next t ∧ t.run = .exhausted ∧ (∀ a, a ≠ 0xFFFF → Memory.read t.prog a = s.progView a) ∧
        t.regs = s.regs ∧ t.data = s.data ∧ t.pc = s.pc ∧ t.cycles = s.cycles ∧ t.pred = s.pred ∧ t.cfg = s.cfg) ∧
    ∀ s t : State, (∀ c, s.cfg.ceiling = some c → s.cycles < c) → step s = .next t → t.run ≠ .exhausted

/-- O10. From a state with the core invariant, a step whose result is Stopped or Exhausted leaves at every PROGRAM
address but 0xFFFF the byte of the core's view on the bus, and leaves every occupied line clean. (20_memory.md R74,
41_short_forms.md R170, 40_cycle_and_alu.md R131, 40_cycle_and_alu.md R132) -/
def Obligations.ProgramEndFlushes : Prop :=
  ∀ s t : State, s.CoreInv → step s = .next t → (t.run = .stopped ∨ t.run = .exhausted) →
    (∀ a, a ≠ 0xFFFF → Memory.read t.prog a = t.progView a) ∧ ∀ l ∈ t.lines, l.tag ≠ 0xFFFF → l.dirty = false

/-- O11. State.reset is the launch of the reference configuration from the image of zeros with entry 0x0100 (the model's
choices, logs 2, 3, 4 and 5), and the machine invariant holds of it. (70_reset_and_hazards.md R390, 10_state.md R55) -/
def Obligations.InvReset : Prop :=
  launch Config.reference zeroImage = some State.reset ∧ State.reset.Inv

/-- O12. From every state with the invariant, a step that answers a state answers one with the invariant: the recency
ranks are a permutation of 0..N-1, at most one line holds a given tag, a direct-mapped line holds only addresses of its
own index, no line is dirty under write-through, a clean line agrees with the bus, both memories are in canonical form,
the ReadOnly slots hold 0xFF, every device has its private state, the last tick is not in the future, and no predication
skip is owed. (10_state.md R47, 20_memory.md R65, 20_memory.md R71, 20_memory.md R72, 20_memory.md R74, 10_state.md R23,
10_state.md R52, 45_predicated_execution.md R305) -/
def Obligations.InvStep : Prop :=
  ∀ s t : State, s.Inv → step s = .next t → t.Inv

/-- O13. If a launch succeeds: ReadOnly slots hold 0xFF; a ReadWrite slot holds the image's byte; a device-backed slot
holds the device's initial byte; pc is the entry; both bus memories are the image's; there are N lines, line i empty
with data 0x00, clean, of rank i; the predication context is zero; the run state is Running; the two cycle counts are 0;
each device is in its initial private state. (R55) -/
def Obligations.LaunchValues : Prop :=
  ∀ (c : Config) (img : Image) (s : State), launch c img = some s →
    (∀ a : Byte, 0x80#8 ≤ a → a ≤ 0xDF#8 → s.reg a = 0xFF) ∧
    (∀ a : Byte, s.policy a = .readWrite → s.reg a = img.reg[a.toNat]'a.isLt) ∧
    (∀ (a : Byte) (i : Nat) (d : Device), s.policy a = .deviceBacked i → c.devices[i]? = some d → s.reg a = deviceInit d a) ∧
    s.cfg = c ∧ s.pc = img.entry ∧ s.prog = img.prog ∧ s.data = img.data ∧ s.lines.length = c.numLines ∧
    (∀ i : Nat, i < c.numLines → s.lines[i]? = some { tag := 0xFFFF, data := 0x00, dirty := false, rank := i }) ∧
    s.pred = { tcnt := 0, fcnt := 0, cond := false, snap := 0x00 } ∧ s.run = .running ∧ s.cycles = 0 ∧ s.lastTick = 0 ∧
    s.dev = c.devices.map Device.s0

/-- O14. A launch succeeds exactly when N is at least 1, cost.wait is at least 1, every device backs only slots 0x00 to
0x7F and 0xF0 to 0xF7, and no slot is backed twice. (R57) -/
def Obligations.LaunchRefused : Prop :=
  ∀ (c : Config) (img : Image), (launch c img).isSome = true ↔
    1 ≤ c.numLines ∧ 1 ≤ c.cost.wait ∧
      (∀ d ∈ c.devices, ∀ a ∈ d.slots, a ≤ 0x7F#8 ∨ (0xF0#8 ≤ a ∧ a ≤ 0xF7#8)) ∧
      (c.devices.map Device.slots).flatten.Nodup

/-- O15. If a launch succeeds and the image's two memories are in canonical form, the machine invariant holds of the
launched state, for every configuration that passes the launch check. (10_state.md R47, 10_state.md R55, 10_state.md
R57, 70_reset_and_hazards.md R390) -/
def Obligations.LaunchInv : Prop :=
  ∀ (c : Config) (img : Image) (s : State), Memory.wf img.prog = true → Memory.wf img.data = true → launch c img = some s →
    s.Inv

/-- O16. For every stored RP byte and every address: an address in 0xE0 to 0xEF is refused when the low nibble of RP is
0xE or 0xF and otherwise reaches slot (RP[3:0] << 4) | (address & 0x0F), which is outside 0xE0 to 0xEF; every other
address reaches its own slot. The refusal is the spec's decision D11. (R25) -/
def Obligations.WindowResolve : Prop :=
  ∀ rp a : Byte,
    (resolve rp a =
      if 0xE0#8 ≤ a ∧ a ≤ 0xEF#8 then
        (if rp &&& 0x0F#8 = 0x0E#8 ∨ rp &&& 0x0F#8 = 0x0F#8 then none
         else some (((rp &&& 0x0F#8) <<< 4) ||| (a &&& 0x0F#8)))
      else some a) ∧
    ∀ p, resolve rp a = some p → ¬(0xE0#8 ≤ p ∧ p ≤ 0xEF#8)

/-- O17. After RP is written with a value whose low nibble is not 0xE or 0xF, reading working register n gives the same
value and state as reading register address ((v << 4) & 0xFF) + n, and writing it has the same effect. (R29) -/
def Obligations.WindowLaw : Prop :=
  ∀ (s t : State) (v x : Byte) (n : Nib), v &&& 0x0F#8 ≠ 0x0E#8 → v &&& 0x0F#8 ≠ 0x0F#8 → regWrite 0xFD v s = .ok () t →
    regRead (0xE0#8 + n.setWidth 8) t = regRead ((v <<< 4) + n.setWidth 8) t ∧
    regWrite (0xE0#8 + n.setWidth 8) x t = regWrite ((v <<< 4) + n.setWidth 8) x t

/-- O18. A read of an address whose resolution is refused faults with ForbiddenRP and changes nothing. A read of a
ReadWrite or ReadOnly slot answers its stored byte and changes nothing. A read of a device-backed slot calls the
device's onAccess with Read and the stored byte, stores the byte it answers, answers it, and adds the sources it raises
to the pending register; no other slot changes. In every case that is what slotRead answers, the name the statements
about instructions use. (R26) -/
def Obligations.RegReadPolicy : Prop :=
  ∀ (s : State) (a : Byte),
    (resolve (s.reg 0xFD) a = none → regRead a s = .error .forbiddenRP s) ∧
    ∀ p, Reaches s a p →
      regRead a s = .ok (s.slotRead p).1 (s.slotRead p).2 ∧
      (s.policy p = .readWrite ∨ s.policy p = .readOnly → regRead a s = .ok (s.reg p) s) ∧
      ∀ (i : Nat) (d d' : DevState) (b' : Byte) (q : Irq6), s.policy p = .deviceBacked i → s.dev[i]? = some d →
        deviceOnAccess d p .read (s.reg p) = (d', b', q) →
        ∃ t, regRead a s = .ok b' t ∧ t.reg p = b' ∧ t.reg 0xFA = (s.reg 0xFA ||| q.setWidth 8) ∧
          (∀ c, c ≠ p → c ≠ 0xFA → t.reg c = s.reg c) ∧ t = { s with regs := t.regs, dev := s.dev.set i d' }

/-- O19. A write to an address whose resolution is refused faults with ForbiddenRP and changes nothing. A write to a
ReadWrite slot stores the byte in that slot alone. A write to a ReadOnly slot changes nothing. A write to a
device-backed slot stores the byte, then calls the device's onAccess with Write and that byte, stores the byte it
answers, and adds the sources it raises to the pending register; no other slot changes. In every case that is slotWrite,
the name the statements about instructions use. (R27) -/
def Obligations.RegWritePolicy : Prop :=
  ∀ (s : State) (a v : Byte),
    (resolve (s.reg 0xFD) a = none → regWrite a v s = .error .forbiddenRP s) ∧
    ∀ p, Reaches s a p →
      regWrite a v s = .ok () (s.slotWrite p v) ∧
      (s.policy p = .readWrite →
        ∃ t, regWrite a v s = .ok () t ∧ t.reg p = v ∧ (∀ c, c ≠ p → t.reg c = s.reg c) ∧ t = { s with regs := t.regs }) ∧
      (s.policy p = .readOnly → regWrite a v s = .ok () s) ∧
      ∀ (i : Nat) (d d' : DevState) (b' : Byte) (q : Irq6), s.policy p = .deviceBacked i → s.dev[i]? = some d →
        deviceOnAccess d p .write v = (d', b', q) →
        ∃ t, regWrite a v s = .ok () t ∧ t.reg p = b' ∧ t.reg 0xFA = (s.reg 0xFA ||| q.setWidth 8) ∧
          (∀ c, c ≠ p → c ≠ 0xFA → t.reg c = s.reg c) ∧ t = { s with regs := t.regs, dev := s.dev.set i d' }

/-- O20. Slots 0x80 to 0xDF are ReadOnly, 0xE0 to 0xEF WindowedPointer, 0xF8 to 0xFF ReadWrite; in a machine whose
configuration passes the launch check, any other slot is backed by device i exactly when the i-th device lists it, and
is ReadWrite when none does. In a state with the core invariant, reading an address in 0x80 to 0xDF answers 0xFF and
changes nothing, and writing it changes nothing; neither faults. (10_state.md R22, 10_state.md R23, 10_state.md R24) -/
def Obligations.SlotPolicies : Prop :=
  (∀ (s : State) (a : Byte),
      (s.policy a = .readOnly ↔ 0x80#8 ≤ a ∧ a ≤ 0xDF#8) ∧ (s.policy a = .windowedPointer ↔ 0xE0#8 ≤ a ∧ a ≤ 0xEF#8) ∧
      (0xF8#8 ≤ a → s.policy a = .readWrite) ∧
      (Config.valid s.cfg = true →
        (∀ i, s.policy a = .deviceBacked i ↔ ∃ d, s.cfg.devices[i]? = some d ∧ a ∈ d.slots) ∧
        ((a ≤ 0x7F#8 ∨ 0xF0#8 ≤ a) → (∀ d ∈ s.cfg.devices, a ∉ d.slots) → s.policy a = .readWrite))) ∧
    ∀ (s : State) (a v : Byte), s.CoreInv → 0x80#8 ≤ a → a ≤ 0xDF#8 →
      regRead a s = .ok 0xFF s ∧ regWrite a v s = .ok () s

/-- O21. A pair access at an odd address faults with OddRegisterPair and changes nothing (the spec's decision D22). At
an even address, PairRead reads the slot at a, then the slot at a + 1, and answers the first as the more significant
byte; PairWrite writes the more significant byte at a, then the less significant at a + 1. For a working pair both bytes
lie in the block RP selects. (R34) -/
def Obligations.RegisterPairs : Prop :=
  ∀ (s : State) (a : Byte) (w : Word),
    (a.toNat % 2 = 1 → pairRead a s = .error .oddRegisterPair s ∧ pairWrite a w s = .error .oddRegisterPair s) ∧
    (a.toNat % 2 = 0 →
      (∀ h l t u, regRead a s = .ok h t → regRead (a + 1) t = .ok l u → pairRead a s = .ok (h ++ l) u) ∧
      (∀ t u, regWrite a (w.extractLsb' 8 8) s = .ok () t → regWrite (a + 1) (w.extractLsb' 0 8) t = .ok () u →
        pairWrite a w s = .ok () u) ∧
      ∀ p, Reaches s a p → Reaches s (a + 1) (p + 1) ∧ ∀ v t, regWrite a v s = .ok () t → Reaches t (a + 1) (p + 1))

/-- O22. With t = a + src + carry-in (0 for ADD, the C flag for ADC) in the integers: the result is t mod 256, C is 1
exactly when t is at least 256, Z when the result is 0, S when it is at least 128, V when the signs of the first operand
and the result differ, D is 0, H is 1 exactly when bit 4 of the result and of the first operand differ. (R140, R145) -/
def Obligations.AddPrimitive : Prop :=
  ∀ a b f : Byte,
    aluEval .add a b f = addPrim a b false ∧ aluEval .adc a b f = addPrim a b (128 ≤ f.toNat) ∧
    ∀ cin : Bool,
      let t := a.toNat + b.toNat + (if cin then 1 else 0)
      let r := (addPrim a b cin).1
      r.toNat = t % 256 ∧
      (addPrim a b cin).2 =
        { c := some (decide (256 ≤ t)), z := some (decide (t % 256 = 0)), s := some (decide (128 ≤ r.toNat))
          v := some (decide (128 ≤ a.toNat) != decide (128 ≤ r.toNat)), d := some false
          h := some (decide (a.toNat / 16 % 2 ≠ r.toNat / 16 % 2)) }

/-- O23. With cin = 0 for SUB and the C flag for SBC: the result is (a - src - cin) mod 256, C is 1 exactly when a < src
+ cin, Z when the result is 0, S when it is at least 128, V when the signs of the first operand and the result differ, D
is 1, H is 1 exactly when bit 4 of the result and of the first operand are equal. Subtracting from a sum what was added
gives the first operand back, and comparing that with the first operand gives Z = 1 and C = 0. (40_cycle_and_alu.md
R141, 40_cycle_and_alu.md R142, 40_cycle_and_alu.md R153) -/
def Obligations.SubPrimitive : Prop :=
  (∀ a b f : Byte,
      aluEval .sub a b f = subPrim a b false ∧ aluEval .sbc a b f = subPrim a b (128 ≤ f.toNat) ∧
      ∀ cin : Bool,
        let k := if cin then 1 else 0
        let r := (subPrim a b cin).1
        r.toNat = (a.toNat + 512 - b.toNat - k) % 256 ∧
        (subPrim a b cin).2 =
          { c := some (decide (a.toNat < b.toNat + k)), z := some (decide (r.toNat = 0)), s := some (decide (128 ≤ r.toNat))
            v := some (decide (128 ≤ a.toNat) != decide (128 ≤ r.toNat)), d := some true
            h := some (decide (a.toNat / 16 % 2 = r.toNat / 16 % 2)) }) ∧
    ∀ a b f f' f'' : Byte, (aluEval .sub (aluEval .add a b f).1 b f').1 = a ∧ (aluEval .cp a a f'').2.z = some true ∧
      (aluEval .cp a a f'').2.c = some false

/-- O24. Each of the eight result bits is the or, and, exclusive or of the two operand bits, for TCM the and of the mask
bit with the complement of the destination bit, for TM the and, for COM the complement; Z and S are those of the result,
V is 0, and C, D and H are not written. TCM and TM write no destination. (R147) -/
def Obligations.LogicOperations : Prop :=
  (∀ (a b f : Byte) (j : Nat), j < 8 →
      (aluEval .or a b f).1.getLsbD j = (a.getLsbD j || b.getLsbD j) ∧
      (aluEval .and a b f).1.getLsbD j = (a.getLsbD j && b.getLsbD j) ∧
      (aluEval .xor a b f).1.getLsbD j = (a.getLsbD j != b.getLsbD j) ∧
      (aluEval .tcm a b f).1.getLsbD j = (!a.getLsbD j && b.getLsbD j) ∧
      (aluEval .tm a b f).1.getLsbD j = (a.getLsbD j && b.getLsbD j) ∧ (opCom a f).1.getLsbD j = !a.getLsbD j) ∧
    (∀ (op : AluOp) (a b f : Byte), op ∈ [AluOp.or, .and, .xor, .tcm, .tm] →
      (aluEval op a b f).2 =
        { z := some (decide ((aluEval op a b f).1 = 0)), s := some ((aluEval op a b f).1.getLsbD 7), v := some false }) ∧
    (∀ a f : Byte,
      (opCom a f).2 = { z := some (decide ((opCom a f).1 = 0)), s := some ((opCom a f).1.getLsbD 7), v := some false }) ∧
    ∀ op : AluOp, aluWrites op = false ↔ op = .tcm ∨ op = .tm ∨ op = .cp

/-- O25. CP sets Z exactly when the operands are equal, C exactly when the destination is less than the source as
unsigned numbers, S to the sign of the difference modulo 256, V exactly when the signs of the destination and of that
difference differ; it writes neither D nor H, and no destination. (42_two_operand.md R199) -/
def Obligations.CompareFlags : Prop :=
  ∀ a b f : Byte,
    (aluEval .cp a b f).2 =
      { c := some (decide (a.toNat < b.toNat)), z := some (decide (a = b)), s := some (decide (128 ≤ (a - b).toNat))
        v := some (decide (128 ≤ a.toNat) != decide (128 ≤ (a - b).toNat)), d := none, h := none } ∧
    aluWrites .cp = false

/-- O26. For every operand and every FLAGS byte: after an addition (D = 0) DA adds 6 when H is set or the low nibble is
above 9, and 0x60 when C is set or the operand is 0x9A or more, which is then also the new C; after a subtraction (D =
1) it takes off 6 when H is set and 0x60 when C is set, and C stays; the result is modulo 256, Z and S are those of the
result, and V, D and H are not written. For every row of the table (C, high nibble, H, low nibble, after an addition or
a subtraction) the correction added and the C left are that row's. The table and its extension are the spec's decision
D21. (40_cycle_and_alu.md R146, 43_single_operand.md R237) -/
def Obligations.DecimalAdjustTable : Prop :=
  (∀ d f : Byte,
      let c := f.getLsbD 7
      let h := f.getLsbD 2
      let r := (opDa d f).1
      (f.getLsbD 3 = false →
        r.toNat = (d.toNat + (if h = true ∨ 9 < d.toNat % 16 then 6 else 0) + (if c = true ∨ 0x9A ≤ d.toNat then 0x60 else 0)) % 256 ∧
        (opDa d f).2.c = some (c || decide (0x9A ≤ d.toNat))) ∧
      (f.getLsbD 3 = true →
        r.toNat = (d.toNat + 256 - (if h = true then 6 else 0) - (if c = true then 0x60 else 0)) % 256 ∧
        (opDa d f).2.c = some c) ∧
      (opDa d f).2.z = some (decide (r = 0)) ∧ (opDa d f).2.s = some (decide (128 ≤ r.toNat)) ∧
      (opDa d f).2.v = none ∧ (opDa d f).2.d = none ∧ (opDa d f).2.h = none) ∧
    ∀ (d f corr : Byte) (cn : Bool),
      daRow (f.getLsbD 3) (f.getLsbD 7) (d.toNat / 16) (f.getLsbD 2) (d.toNat % 16) corr cn →
      opDa d f = (d + corr, { c := some cn, z := some (decide (d + corr = 0)), s := some ((d + corr).getLsbD 7) })

/-- O27. INC adds one and DEC subtracts one modulo 256; Z is set on a zero result, S is its top bit, V is set exactly
when the result of INC is 0x80 and of DEC 0x7F; of INCW and DECW, with 16 bits, 0x8000 and 0x7FFF; C, D and H are not
written. (R148) -/
def Obligations.IncDecFlags : Prop :=
  (∀ d f : Byte,
      (opInc d f).1.toNat = (d.toNat + 1) % 256 ∧ (opDec d f).1.toNat = (d.toNat + 255) % 256 ∧
      (opInc d f).2 = { z := some (decide (d = 0xFF)), s := some (decide (127 ≤ d.toNat ∧ d.toNat < 255))
                        v := some (decide (d = 0x7F)) } ∧
      (opDec d f).2 = { z := some (decide (d = 0x01)), s := some (decide (d.toNat = 0 ∨ 129 ≤ d.toNat))
                        v := some (decide (d = 0x80)) }) ∧
    ∀ w : Word,
      incwFlags w = { z := some (decide (w = 0)), s := some (decide (32768 ≤ w.toNat)), v := some (decide (w = 0x8000)) } ∧
      decwFlags w = { z := some (decide (w = 0)), s := some (decide (32768 ≤ w.toNat)), v := some (decide (w = 0x7FFF)) }

/-- O28. RL, RLC, RR, RRC and SRA move every bit by one place, the free end taking bit 7, the old C, bit 0, the old C,
and bit 7 itself; C is the bit moved out, Z and S are those of the result, V is set exactly when the signs before and
after differ, for SRA 0; D and H are not written. SWAP exchanges the nibbles and writes Z and S only.
(40_cycle_and_alu.md R149, 43_single_operand.md R248) -/
def Obligations.RotatesBitwise : Prop :=
  (∀ (d f : Byte) (j : Nat), j < 7 →
      (opRl d f).1.getLsbD (j + 1) = d.getLsbD j ∧ (opRlc d f).1.getLsbD (j + 1) = d.getLsbD j ∧
      (opRr d f).1.getLsbD j = d.getLsbD (j + 1) ∧ (opRrc d f).1.getLsbD j = d.getLsbD (j + 1) ∧
      (opSra d f).1.getLsbD j = d.getLsbD (j + 1)) ∧
    (∀ d f : Byte,
      (opRl d f).1.getLsbD 0 = d.getLsbD 7 ∧ (opRlc d f).1.getLsbD 0 = f.getLsbD 7 ∧
      (opRr d f).1.getLsbD 7 = d.getLsbD 0 ∧ (opRrc d f).1.getLsbD 7 = f.getLsbD 7 ∧
      (opSra d f).1.getLsbD 7 = d.getLsbD 7) ∧
    (∀ (op : UnaryOp) (d f : Byte), op ∈ [UnaryOp.rl, .rlc, .rr, .rrc, .sra] →
      let r := (unaryEval op d f).1
      (unaryEval op d f).2 =
        { c := some (if op = .rl ∨ op = .rlc then d.getLsbD 7 else d.getLsbD 0), z := some (decide (r = 0))
          s := some (r.getLsbD 7), v := some (if op = .sra then false else d.getLsbD 7 != r.getLsbD 7) }) ∧
    ∀ d f : Byte,
      (opSwap d f).1.toNat = d.toNat % 16 * 16 + d.toNat / 16 ∧
      (opSwap d f).2 = { z := some (decide (d = 0)), s := some (d.getLsbD 3) }

/-- O29. Each 4-bit code means what the table says of the bits C, Z, S and V of FLAGS; code cc + 8 is the negation of
code cc; and evaluating a condition answers that and charges cost.cc, changing nothing else. (R150) -/
def Obligations.ConditionTable : Prop :=
  ∀ f : Byte,
    let c := f.getLsbD 7
    let z := f.getLsbD 6
    let s := f.getLsbD 5
    let v := f.getLsbD 4
    condHolds (CC.ofCode 0x0) f = false ∧ condHolds (CC.ofCode 0x1) f = (s ^^ v) ∧
    condHolds (CC.ofCode 0x2) f = (z || (s ^^ v)) ∧ condHolds (CC.ofCode 0x3) f = (c || z) ∧
    condHolds (CC.ofCode 0x4) f = v ∧ condHolds (CC.ofCode 0x5) f = s ∧ condHolds (CC.ofCode 0x6) f = z ∧
    condHolds (CC.ofCode 0x7) f = c ∧
    (∀ k : Nib, k < 8 → condHolds (CC.ofCode (k + 8)) f = !condHolds (CC.ofCode k) f) ∧
    ∀ (cc : CC) (m : State), m.flags = f → condition cc m = .ok (condHolds cc f) (m.charge m.cfg.cost.cc)

/-- O30. After a flag update each of the bits C 7, Z 6, S 5, V 4, D 3, H 2 of slot 0xFC is the bit the update writes, or
as before when it writes none; bits 1 and 0 are as before; no other slot changes. (10_state.md R36, 40_cycle_and_alu.md
R139) -/
def Obligations.FlagsUpdate : Prop :=
  ∀ (s : State) (u : FlagBits),
    let f := (s.updateFlags u).reg 0xFC
    let g := s.reg 0xFC
    f.getLsbD 7 = u.c.getD (g.getLsbD 7) ∧ f.getLsbD 6 = u.z.getD (g.getLsbD 6) ∧ f.getLsbD 5 = u.s.getD (g.getLsbD 5) ∧
    f.getLsbD 4 = u.v.getD (g.getLsbD 4) ∧ f.getLsbD 3 = u.d.getD (g.getLsbD 3) ∧ f.getLsbD 2 = u.h.getD (g.getLsbD 2) ∧
    f.getLsbD 1 = g.getLsbD 1 ∧ f.getLsbD 0 = g.getLsbD 0 ∧ (∀ a, a ≠ 0xFC → (s.updateFlags u).reg a = s.reg a) ∧
    s.updateFlags u = { s with regs := (s.updateFlags u).regs }

/-- O31. For each of ADD, ADC, SUB, SBC, OR, AND, TCM, TM, CP and XOR in each of its six modes, in every state where its
operands can be reached through the window: exec answers the next state that reads the source, reads the destination's
old value, writes the result to the destination (TCM, TM and CP write none) and then updates FLAGS, computed from the
FLAGS byte before; nothing else changes. (42_two_operand.md R190, 42_two_operand.md R192, 42_two_operand.md R193,
42_two_operand.md R194, 42_two_operand.md R195, 42_two_operand.md R196, 42_two_operand.md R197, 42_two_operand.md R198,
42_two_operand.md R199, 42_two_operand.md R201, 40_cycle_and_alu.md R139) -/
def Obligations.AluInstructions : Prop :=
  ∀ (op : AluOp) (o : TwoOperands) (s u : State) (p v : Byte), OperandsAt s o p v u →
    exec (aluForm op o) s = .next (aluAt u op p v)

/-- O32. In a machine without devices, each of the sixty ALU instructions with destination slot p and source value v
leaves in p the result of its operation on the old byte of p (unless p is ReadOnly or the operation writes none), then
the flags of that operation in FLAGS, on top of the result where p is 0xFC; every other register is as before, and only
the clock moves beside, by cost.mode of the mode; memories, cache, pc, run state, predication context and configuration
are as before. (42_two_operand.md R190, 40_cycle_and_alu.md R139, 10_state.md R27) -/
def Obligations.AluPlain : Prop :=
  ∀ (op : AluOp) (o : TwoOperands) (s u : State) (p v : Byte), s.cfg.devices = [] → OperandsAt s o p v u →
    let e := aluEval op (s.reg p) v (s.reg 0xFC)
    ∃ t, exec (aluForm op o) s = .next t ∧ Updated s t p (if aluWrites op then e.1 else s.reg p) e.2 ∧
      t = { s with regs := t.regs, cycles := s.cycles + s.cfg.cost.mode.get o.modeIndex }

/-- O33. Each of the twelve LD forms (r,R; R,r; r,#IM; r,@r; @r,r; R,R; R,@R; R,#IM; @R,#IM; @R,R; r,X(r); X(r),r)
answers, wherever its operands can be reached, the state that makes its reads in order and then writes the value read to
the destination, whose old value is not read; the indexed address is the offset plus the index register modulo 256; no
flag is computed. (41_short_forms.md R161, 41_short_forms.md R162, 41_short_forms.md R165, 42_two_operand.md R204,
42_two_operand.md R205, 42_two_operand.md R206, 42_two_operand.md R207, 42_two_operand.md R208, 42_two_operand.md R209,
42_two_operand.md R210, 44_memory_indexed_calls.md R279, 44_memory_indexed_calls.md R280) -/
def Obligations.LoadInstructions : Prop :=
  ∀ s : State,
    (∀ (d : Nib) (r q p : Byte), Reaches s r q → Reaches s (wreg d) p →
      exec (.ldWR d r) s = .next ((s.slotRead q).2.slotWrite p (s.slotRead q).1)) ∧
    (∀ (d : Byte) (w : Nib) (q p : Byte), Reaches s (wreg w) q → Reaches s d p →
      exec (.ldRW d w) s = .next ((s.slotRead q).2.slotWrite p (s.slotRead q).1)) ∧
    (∀ (d : Nib) (im p : Byte), Reaches s (wreg d) p → exec (.ldWIM d im) s = .next (s.slotWrite p im)) ∧
    (∀ (d w : Nib) (p v : Byte) (u : State), OperandsAt s (.wiw d w) p v u →
      exec (.ldWIW d w) s = .next (u.slotWrite p v)) ∧
    (∀ (d r p v : Byte) (u : State),
      (OperandsAt s (.rr d r) p v u → exec (.ldRR d r) s = .next (u.slotWrite p v)) ∧
      (OperandsAt s (.rir d r) p v u → exec (.ldRIR d r) s = .next (u.slotWrite p v)) ∧
      (OperandsAt s (.rim d r) p v u → exec (.ldRIM d r) s = .next (u.slotWrite p v)) ∧
      (OperandsAt s (.irim d r) p v u → exec (.ldIRIM d r) s = .next (u.slotWrite p v))) ∧
    (∀ (d w : Nib) (q q' p : Byte), Reaches s (wreg w) q → Reaches s (wreg d) q' →
      let v := (moded s 1).slotRead q
      let a := v.2.slotRead q'
      Reaches s a.1 p → exec (.ldIWW d w) s = .next (a.2.slotWrite p v.1)) ∧
    (∀ d r q q' p : Byte, Reaches s r q → Reaches s d q' →
      let v := (moded s 3).slotRead q
      let a := v.2.slotRead q'
      Reaches s a.1 p → exec (.ldIRR d r) s = .next (a.2.slotWrite p v.1)) ∧
    (∀ (d x : Nib) (off q q' p : Byte), Reaches s (wreg x) q → Reaches s (off + (s.slotRead q).1) q' → Reaches s (wreg d) p →
      let v := (s.slotRead q).2.slotRead q'
      exec (.ldWX d x off) s = .next (v.2.slotWrite p v.1)) ∧
    ∀ (d x : Nib) (off q q' p : Byte), Reaches s (wreg d) q → Reaches s (wreg x) q' →
      let i := (s.slotRead q).2.slotRead q'
      Reaches s (off + i.1) p → exec (.ldXW d x off) s = .next (i.2.slotWrite p (s.slotRead q).1)

/-- O34. DEC, RLC, INC, DA, COM, RL, RRC, SRA, RR and SWAP in both modes, and INC r, wherever the operand can be
reached, answer the state that reads the operand, writes the result of the operation to it and then updates FLAGS.
Without devices: the operand's slot holds the result (a ReadOnly slot keeps its byte), FLAGS has the operation's bits on
top, every other register and all else is as before. (43_single_operand.md R230, 43_single_operand.md R234,
43_single_operand.md R235, 43_single_operand.md R236, 43_single_operand.md R237, 43_single_operand.md R239,
43_single_operand.md R242, 43_single_operand.md R245, 43_single_operand.md R246, 43_single_operand.md R247,
43_single_operand.md R248, 41_short_forms.md R167) -/
def Obligations.UnaryInstructions : Prop :=
  (∀ (op : UnaryOp) (o : OneOperand) (s u : State) (p : Byte), OperandAt s o p u →
      exec (unaryForm op o) s = .next (unaryAt u op p) ∧
      (s.cfg.devices = [] →
        let e := unaryEval op (s.reg p) (s.reg 0xFC)
        Updated s (unaryAt u op p) p e.1 e.2 ∧ unaryAt u op p = { s with regs := (unaryAt u op p).regs })) ∧
    ∀ (w : Nib) (s : State) (p : Byte), Reaches s (wreg w) p → exec (.incW w) s = .next (unaryAt s .inc p)

/-- O35. Wherever the operand's address is even and can be reached, DECW RR, DECW @R, INCW RR and INCW @R answer the
state that reads the pair at the address, high byte first, writes the word minus or plus one modulo 65536 back, high
byte first, and then updates Z, S and V of FLAGS from that word. (43_single_operand.md R241, 43_single_operand.md R243,
40_cycle_and_alu.md R148) -/
def Obligations.WordInstructions : Prop :=
  ∀ (o : OneOperand) (s u : State) (p : Byte), OperandAt s o p u → p.toNat % 2 = 0 →
    let w := (pairFrom u p).1
    let dec := exec (match o with | .direct r => .decwRR r | .indirect r => .decwIR r) s
    let inc := exec (match o with | .direct r => .incwRR r | .indirect r => .incwIR r) s
    dec = .next ((pairInto (pairFrom u p).2 p (w - 1)).updateFlags (decwFlags (w - 1))) ∧
      inc = .next ((pairInto (pairFrom u p).2 p (w + 1)).updateFlags (incwFlags (w + 1)))

/-- O36. CLR R and CLR @R write 0x00 to the operand without reading it and change no flag. PUSH reads the operand, then
pushes it. POP resolves its operand (for @R the pointer is read before the pop), pops, and writes the popped byte to the
operand. The pushes and pops are those of the primitives. (43_single_operand.md R238, 43_single_operand.md R240,
43_single_operand.md R244) -/
def Obligations.ClearPushPop : Prop :=
  ∀ (o : OneOperand) (s u : State) (p : Byte), OperandAt s o p u →
    exec (match o with | .direct r => .clrR r | .indirect r => .clrIR r) s = .next (u.slotWrite p 0x00) ∧
    (∀ t, PushAt (u.slotRead p).2 (u.slotRead p).1 t →
      exec (match o with | .direct r => .pushR r | .indirect r => .pushIR r) s = .next t) ∧
    ∀ v t, PopAt u v t → exec (match o with | .direct r => .popR r | .indirect r => .popIR r) s = .next (t.slotWrite p v)

/-- O37. JR and JP evaluate their condition once, charge cost.cc, and when it holds overwrite pc (JR: the address after
the instruction plus the sign-extended displacement, modulo 65536) and zero the counts and the condition of the
predication context; when it fails they change nothing more. DJNZ decrements its working register, charges no condition,
and jumps when the result is not 0. JP @RR jumps to the pair at its even address, high byte first. (41_short_forms.md
R163, 41_short_forms.md R164, 41_short_forms.md R166, 43_single_operand.md R232, 41_short_forms.md R169,
45_predicated_execution.md R304) -/
def Obligations.JumpInstructions : Prop :=
  ∀ s : State,
    (∀ (cc : CC) (ra : Byte),
      let u := s.charge s.cfg.cost.cc
      exec (.jr cc ra) s = .next (if condHolds cc (s.reg 0xFC) then transferTo u (s.pc + ra.signExtend 16) else u)) ∧
    (∀ (cc : CC) (da : Word),
      let u := s.charge s.cfg.cost.cc
      exec (.jp cc da) s = .next (if condHolds cc (s.reg 0xFC) then transferTo u da else u)) ∧
    (∀ (w : Nib) (ra p : Byte), Reaches s (wreg w) p →
      let r := s.slotRead p
      let t := r.2.slotWrite p (r.1 - 1)
      exec (.djnz w ra) s = .next (if r.1 = 1 then t else transferTo t (s.pc + ra.signExtend 16))) ∧
    ∀ rr p : Byte, rr.toNat % 2 = 0 → Reaches s rr p →
      exec (.jpIRR rr) s = .next (transferTo (pairFrom s p).2 (pairFrom s p).1)

/-- O38. CALL DA pushes the high byte of pc, then its low byte, then transfers to DA. CALL @RR reads the pair at its
even address before the two pushes and transfers to it. RET pops the low byte, then the high byte, and transfers there.
IRET pops FLAGS, writes all eight bits of it, pops the low and the high byte, sets bit 7 of IMR (the spec's decision
D37) and transfers. Each transfer zeroes the counts and the condition of the predication context.
(44_memory_indexed_calls.md R281, 44_memory_indexed_calls.md R282, 41_short_forms.md R174, 41_short_forms.md R175,
20_memory.md R84) -/
def Obligations.CallReturn : Prop :=
  ∀ s t u : State,
    (∀ da : Word, PushAt s (s.pc.extractLsb' 8 8) t → PushAt t (s.pc.extractLsb' 0 8) u →
      exec (.callDA da) s = .next (transferTo u da)) ∧
    (∀ rr p : Byte, rr.toNat % 2 = 0 → Reaches s rr p → PushAt (pairFrom s p).2 (s.pc.extractLsb' 8 8) t →
      PushAt t (s.pc.extractLsb' 0 8) u → exec (.callIRR rr) s = .next (transferTo u (pairFrom s p).1)) ∧
    (∀ l h : Byte, PopAt s l t → PopAt t h u → exec .ret s = .next (transferTo u (h ++ l))) ∧
    ∀ (f l h : Byte) (v : State), PopAt s f t → PopAt (t.setReg 0xFC f) l u → PopAt u h v →
      exec .iret s = .next (transferTo (v.setReg 0xFB (v.reg 0xFB ||| 0x80#8)) (h ++ l))

/-- O39. Each completes in every state, with the next state written out: IF charges cost.cc and sets all four fields of
the predication context, the snapshot to the FLAGS byte; STOP and HALT set the run state; DI clears and EI sets bit 7 of
IMR; SRP stores the immediate's high nibble in the low nibble of RP, the high nibble 0; RCF, SCF and CCF clear, set and
invert bit 7 of FLAGS; NOP does nothing. (45_predicated_execution.md R301, 41_short_forms.md R170, 41_short_forms.md
R171, 41_short_forms.md R172, 41_short_forms.md R173, 43_single_operand.md R233, 41_short_forms.md R176,
41_short_forms.md R177, 41_short_forms.md R178, 41_short_forms.md R179) -/
def Obligations.ControlInstructions : Prop :=
  ∀ s : State,
    (∀ (cc : CC) (t f : Count),
      exec (.ifPred cc t f) s =
        .next { s.charge s.cfg.cost.cc with
                pred := { tcnt := t, fcnt := f, cond := condHolds cc (s.reg 0xFC), snap := s.reg 0xFC } }) ∧
    exec .stop s = .next { s with run := .stopped } ∧ exec .halt s = .next { s with run := .waiting } ∧
    exec .di s = .next (s.setReg 0xFB (s.reg 0xFB &&& 0x7F#8)) ∧ exec .ei s = .next (s.setReg 0xFB (s.reg 0xFB ||| 0x80#8)) ∧
    (∀ im : Byte, ∃ v : Byte, exec (.srp im) s = .next (s.setReg 0xFD v) ∧ v.toNat = im.toNat / 16) ∧
    exec .rcf s = .next (s.setReg 0xFC (s.reg 0xFC &&& 0x7F#8)) ∧ exec .scf s = .next (s.setReg 0xFC (s.reg 0xFC ||| 0x80#8)) ∧
    exec .ccf s = .next (s.setReg 0xFC (s.reg 0xFC ^^^ 0x80#8)) ∧ exec .nop s = .next s

/-- O40. LDE r,@rr reads the pair, high byte first, then writes the DATA byte at that address to the working register.
LDE @rr,r reads the register, then the pair, then stores. LDEI does the same through the register the working register
points to, then writes the pointer plus one modulo 256 and the pair plus one modulo 65536, in that order. The store of
LDEI @r,@rr may change RP; the pointer writes then use the window as it stands. Every 16-bit address is legal.
(44_memory_indexed_calls.md R270, 44_memory_indexed_calls.md R271, 44_memory_indexed_calls.md R272,
44_memory_indexed_calls.md R273, 44_memory_indexed_calls.md R274) -/
def Obligations.DataMemory : Prop :=
  ∀ (s : State) (d p : Nib) (q r : Byte), p.toNat % 2 = 0 → Reaches s (wreg p) q → Reaches s (wreg d) r →
    (let a := pairFrom s q
     exec (.ldeLoad d p) s = .next (a.2.slotWrite r (Memory.read s.data a.1))) ∧
    (let v := s.slotRead r
     let a := pairFrom v.2 q
     exec (.ldeStore d p) s = .next { a.2 with data := Memory.write s.data a.1 v.1 }) ∧
    (∀ x r' q' : Byte,
      let a := pairFrom s q
      let m := a.2.slotRead r
      let t := m.2.slotWrite x (Memory.read s.data a.1)
      Reaches s m.1 x → Reaches t (wreg d) r' → Reaches t (wreg p) q' →
      exec (.ldeiLoad d p) s = .next (pairInto (t.slotWrite r' (m.1 + 1)) q' (a.1 + 1))) ∧
    ∀ x : Byte,
      let m := s.slotRead r
      let v := m.2.slotRead x
      let a := pairFrom v.2 q
      let t : State := { a.2 with data := Memory.write s.data a.1 v.1 }
      Reaches s m.1 x → exec (.ldeiStore d p) s = .next (pairInto (t.slotWrite r (m.1 + 1)) q (a.1 + 1))

/-- O41. LDC and LDCI do what LDE and LDEI do, on the core's view of PROGRAM memory: a load answers the byte of the view
at the address and changes no byte of the view; a store leaves the stored byte in the view at that address and no other
byte of the view changed. Apart from register memory and devices, only the cache lines and the bus memory of PROGRAM
differ after. The address is other than 0xFFFF. (44_memory_indexed_calls.md R270, 44_memory_indexed_calls.md R275,
44_memory_indexed_calls.md R276, 44_memory_indexed_calls.md R277, 44_memory_indexed_calls.md R278, 20_memory.md R73) -/
def Obligations.ProgramMemory : Prop :=
  ∀ (s : State) (d p : Nib) (q r : Byte), s.CoreInv → p.toNat % 2 = 0 → Reaches s (wreg p) q → Reaches s (wreg d) r →
    (let a := pairFrom s q
     a.1 ≠ 0xFFFF → ∃ t, exec (.ldcLoad d p) s = .next t ∧ SameProgram s t ∧
       t = { a.2.slotWrite r (s.progView a.1) with lines := t.lines, prog := t.prog }) ∧
    (let v := s.slotRead r
     let a := pairFrom v.2 q
     a.1 ≠ 0xFFFF → ∃ t, exec (.ldcStore d p) s = .next t ∧ t.progView a.1 = v.1 ∧
       (∀ b, b ≠ 0xFFFF → b ≠ a.1 → t.progView b = s.progView b) ∧ t = { a.2 with lines := t.lines, prog := t.prog }) ∧
    (∀ x r' q' : Byte,
      let a := pairFrom s q
      let m := a.2.slotRead r
      let u := m.2.slotWrite x (s.progView a.1)
      a.1 ≠ 0xFFFF → Reaches s m.1 x → Reaches u (wreg d) r' → Reaches u (wreg p) q' →
      ∃ t, exec (.ldciLoad d p) s = .next t ∧ SameProgram s t ∧
        t = { pairInto (u.slotWrite r' (m.1 + 1)) q' (a.1 + 1) with lines := t.lines, prog := t.prog }) ∧
    ∀ x : Byte,
      let m := s.slotRead r
      let v := m.2.slotRead x
      let a := pairFrom v.2 q
      a.1 ≠ 0xFFFF → Reaches s m.1 x →
      ∃ t, exec (.ldciStore d p) s = .next t ∧ t.progView a.1 = v.1 ∧
        (∀ b, b ≠ 0xFFFF → b ≠ a.1 → t.progView b = s.progView b) ∧
        t = { pairInto (a.2.slotWrite r (m.1 + 1)) q (a.1 + 1) with lines := t.lines, prog := t.prog }

/-- O42. For each of the 129 instructions, in every state whose RP low nibble is not 0xE or 0xF, when its pair operands
are even (in the text and, through a pointer, in the register), its PROGRAM address as the machine computes it is not
0xFFFF, and an auto-increment load does not overwrite RP: exec answers a next state that is not Faulted, whose run state
is Stopped for STOP, Waiting for HALT, and unchanged for every other instruction. (60_exceptions.md R330,
60_exceptions.md R331, 60_exceptions.md R332, 10_state.md R28, 10_state.md R34, 20_memory.md R70) -/
def Obligations.EveryInstructionCompletes : Prop :=
  ∀ (i : Instr) (s : State), loNib (s.reg 0xFD) ≠ 0xE → loNib (s.reg 0xFD) ≠ 0xF → WellFormed i = true →
    operandsAllow i s → ∃ t, exec i s = .next t ∧
      t.run = match i with
        | .stop => .stopped
        | .halt => .waiting
        | _ => s.run

/-- O43. When exec answers a state: DATA memory is unchanged unless the instruction is LDE or LDEI in the store
direction, PUSH or CALL; the bus memory and the cache lines of PROGRAM are unchanged unless it is LDC or LDCI; and, from
a state with the core invariant, every byte of the core's view of PROGRAM memory but 0xFFFF is unchanged unless it is
LDC or LDCI in the store direction. (20_memory.md R60, 20_memory.md R61, 20_memory.md R75, 44_memory_indexed_calls.md
R270) -/
def Obligations.OnlyStoresChangeMemory : Prop :=
  ∀ (i : Instr) (s t : State), exec i s = .next t →
    (storesData i = false → t.data = s.data) ∧
    (storesProgram i = false → loadsProgram i = false → t.prog = s.prog ∧ t.lines = s.lines) ∧
    (storesProgram i = false → s.CoreInv → SameProgram s t)

/-- O44. LDE and LDEI in the store direction leave the register's byte at the pair's address, the pair read after the
register, and every other DATA byte as it was. PUSH leaves every DATA byte as it was but the one below the external
stack pointer, which it writes; on the internal stack it leaves them all. CALL DA and CALL @RR leave every DATA byte as
it was but those two pushes store to. (44_memory_indexed_calls.md R272, 44_memory_indexed_calls.md R274,
43_single_operand.md R240, 44_memory_indexed_calls.md R281, 44_memory_indexed_calls.md R282, 20_memory.md R82) -/
def Obligations.StoreFrames : Prop :=
  ∀ (s t : State), Memory.wf s.data = true →
    (∀ (d p : Nib) (q r : Byte), p.toNat % 2 = 0 → Reaches s (wreg p) q → Reaches s (wreg d) r →
      (let a := (pairFrom (s.slotRead r).2 q).1
       exec (.ldeStore d p) s = .next t →
       ∀ b, Memory.read t.data b = if b = a then (s.slotRead r).1 else Memory.read s.data b) ∧
      ∀ x, Reaches s (s.slotRead r).1 x →
        let v := (s.slotRead r).2.slotRead x
        let a := (pairFrom v.2 q).1
        exec (.ldeiStore d p) s = .next t →
        ∀ b, Memory.read t.data b = if b = a then v.1 else Memory.read s.data b) ∧
    (∀ (o : OneOperand) (p : Byte) (u : State), OperandAt s o p u →
      exec (match o with | .direct r => .pushR r | .indirect r => .pushIR r) s = .next t →
      ∀ b, Memory.read t.data b = if stackByte s = some b then (u.slotRead p).1 else Memory.read s.data b) ∧
    (∀ (da : Word) (u v : State), PushAt s (s.pc.extractLsb' 8 8) u → PushAt u (s.pc.extractLsb' 0 8) v →
      exec (.callDA da) s = .next t →
      ∀ b, stackByte s ≠ some b → stackByte u ≠ some b → Memory.read t.data b = Memory.read s.data b) ∧
    ∀ (rr p : Byte) (u v : State), rr.toNat % 2 = 0 → Reaches s rr p →
      PushAt (pairFrom s p).2 (s.pc.extractLsb' 8 8) u → PushAt u (s.pc.extractLsb' 0 8) v →
      exec (.callIRR rr) s = .next t →
      ∀ b, stackByte s ≠ some b → stackByte u ≠ some b → Memory.read t.data b = Memory.read s.data b

/-- O45. Let a be a slot no device backs, other than the pending register where there are devices. A two-operand ALU
form leaves a unchanged unless a is its destination (and the operation writes) or FLAGS; a read-modify-write form and
INC r unless a is the operand or FLAGS; INCW and DECW unless a is a byte of the pair or FLAGS; a load form and CLR
unless a is the destination, FLAGS among the slots left unchanged. Where the destination is not FLAGS, the FLAGS bits
the table of R37 has unchanged are unchanged: the user flags always; D and H but for ADD, ADC, SUB and SBC; C for OR,
AND, TCM, TM, XOR, INC and DEC in all forms, COM, SWAP, INCW and DECW; V for DA and SWAP. (42_two_operand.md R190,
43_single_operand.md R230, 43_single_operand.md R241, 43_single_operand.md R244, 42_two_operand.md R203, 10_state.md
R36, 10_state.md R37) -/
def Obligations.RegisterFrames : Prop :=
  ∀ (s t u : State) (a p v : Byte), s.still a →
    (∀ (op : AluOp) (o : TwoOperands), OperandsAt s o p v u → exec (aluForm op o) s = .next t →
      (a ≠ 0xFC → (a = p → aluWrites op = false) → t.reg a = s.reg a) ∧
      (p ≠ 0xFC ∨ aluWrites op = false →
        (t.reg 0xFC).getLsbD 0 = (s.reg 0xFC).getLsbD 0 ∧ (t.reg 0xFC).getLsbD 1 = (s.reg 0xFC).getLsbD 1 ∧
        (op ≠ .add → op ≠ .adc → op ≠ .sub → op ≠ .sbc →
          (t.reg 0xFC).getLsbD 2 = (s.reg 0xFC).getLsbD 2 ∧ (t.reg 0xFC).getLsbD 3 = (s.reg 0xFC).getLsbD 3 ∧
          (op ≠ .cp → (t.reg 0xFC).getLsbD 7 = (s.reg 0xFC).getLsbD 7)))) ∧
    (∀ (op : UnaryOp) (o : OneOperand), OperandAt s o p u → exec (unaryForm op o) s = .next t →
      (a ≠ 0xFC → a ≠ p → t.reg a = s.reg a) ∧
      (p ≠ 0xFC →
        (∀ k : Nat, k < 4 → (t.reg 0xFC).getLsbD k = (s.reg 0xFC).getLsbD k) ∧
        (op ∈ [UnaryOp.dec, .inc, .com, .swap] → (t.reg 0xFC).getLsbD 7 = (s.reg 0xFC).getLsbD 7) ∧
        (op ∈ [UnaryOp.da, .swap] → (t.reg 0xFC).getLsbD 4 = (s.reg 0xFC).getLsbD 4))) ∧
    (∀ w : Nib, Reaches s (wreg w) p → exec (.incW w) s = .next t →
      (a ≠ 0xFC → a ≠ p → t.reg a = s.reg a) ∧
      (p ≠ 0xFC → ∀ k ∈ [0, 1, 2, 3, 7], (t.reg 0xFC).getLsbD k = (s.reg 0xFC).getLsbD k)) ∧
    (∀ o : OneOperand, OperandAt s o p u → p.toNat % 2 = 0 →
      (exec (match o with | .direct r => .decwRR r | .indirect r => .decwIR r) s = .next t ∨
        exec (match o with | .direct r => .incwRR r | .indirect r => .incwIR r) s = .next t) →
      (a ≠ 0xFC → a ≠ p → a ≠ p + 1 → t.reg a = s.reg a) ∧
      (p ≠ 0xFC → ∀ k ∈ [0, 1, 2, 3, 7], (t.reg 0xFC).getLsbD k = (s.reg 0xFC).getLsbD k)) ∧
    (∀ o : OneOperand, OperandAt s o p u → a ≠ p →
      exec (match o with | .direct r => .clrR r | .indirect r => .clrIR r) s = .next t → t.reg a = s.reg a) ∧
    (a ≠ p →
      (∀ (d w : Nib), OperandsAt s (.wiw d w) p v u → exec (.ldWIW d w) s = .next t → t.reg a = s.reg a) ∧
      (∀ (d r : Byte), OperandsAt s (.rr d r) p v u → exec (.ldRR d r) s = .next t → t.reg a = s.reg a) ∧
      (∀ (d r : Byte), OperandsAt s (.rir d r) p v u → exec (.ldRIR d r) s = .next t → t.reg a = s.reg a) ∧
      (∀ (d im : Byte), OperandsAt s (.rim d im) p v u → exec (.ldRIM d im) s = .next t → t.reg a = s.reg a) ∧
      (∀ (d im : Byte), OperandsAt s (.irim d im) p v u → exec (.ldIRIM d im) s = .next t → t.reg a = s.reg a) ∧
      (∀ (d : Nib) (r : Byte), Reaches s (wreg d) p → exec (.ldWR d r) s = .next t → t.reg a = s.reg a) ∧
      (∀ (d : Byte) (w : Nib), Reaches s d p → exec (.ldRW d w) s = .next t → t.reg a = s.reg a) ∧
      (∀ (d : Nib) (im : Byte), Reaches s (wreg d) p → exec (.ldWIM d im) s = .next t → t.reg a = s.reg a) ∧
      (∀ (d x : Nib) (off : Byte), Reaches s (wreg d) p → exec (.ldWX d x off) s = .next t → t.reg a = s.reg a) ∧
      (∀ (d w : Nib) (q q' : Byte), Reaches s (wreg w) q → Reaches s (wreg d) q' →
        Reaches s (((moded s 1).slotRead q).2.slotRead q').1 p → exec (.ldIWW d w) s = .next t → t.reg a = s.reg a) ∧
      (∀ d r q q' : Byte, Reaches s r q → Reaches s d q' →
        Reaches s (((moded s 3).slotRead q).2.slotRead q').1 p → exec (.ldIRR d r) s = .next t → t.reg a = s.reg a) ∧
      ∀ (d x : Nib) (off q q' : Byte), Reaches s (wreg d) q → Reaches s (wreg x) q' →
        Reaches s (off + ((s.slotRead q).2.slotRead q').1) p → exec (.ldXW d x off) s = .next t → t.reg a = s.reg a)

/-- O46. When exec answers a state: the configuration and lastTick are unchanged and the clock has not gone back; pc is
unchanged unless the instruction is JP, JR, DJNZ, CALL, RET or IRET; the predication context is unchanged unless it is
one of those or IF; the snapshot is unchanged unless it is IF; the run state is unchanged unless it is STOP or HALT or a
fault was raised. (10_state.md R45, 41_short_forms.md R169, 45_predicated_execution.md R304, 45_predicated_execution.md
R315, 10_state.md R49) -/
def Obligations.OnlyTransfersWritePc : Prop :=
  ∀ (i : Instr) (s t : State), exec i s = .next t →
    t.cfg = s.cfg ∧ t.lastTick = s.lastTick ∧ s.cycles ≤ t.cycles ∧
    (transfers i = false → t.pc = s.pc) ∧ (transfers i = false → isIf i = false → t.pred = s.pred) ∧
    (isIf i = false → t.pred.snap = s.pred.snap) ∧
    (i ≠ .stop → i ≠ .halt → t.run = s.run ∨ ∃ r, t.run = .faulted r)

/-- O47. An odd pair operand faults with OddRegisterPair before the pair is read: JP @RR, CALL @RR, DECW RR and INCW RR
at once, DECW @R and INCW @R after the pointer is read, the memory loads at once, the memory stores after the register
reads. A PROGRAM address 0xFFFF faults with SentinelAddress after the operand reads and before any write. Behind a
forbidden RP every instruction form whose first register access is a working register faults with ForbiddenRP before it
has changed anything (a two-operand form has charged cost.mode); so does LD r,R, after its source is read. Nothing else
has happened: run is Faulted with that reason. (60_exceptions.md R331, 10_state.md R34, 10_state.md R28, 20_memory.md
R70, 30_encoding.md R113, 43_single_operand.md R241, 44_memory_indexed_calls.md R270, 44_memory_indexed_calls.md R282)
-/
def Obligations.OperandFaults : Prop :=
  ∀ s : State,
    (∀ rr : Byte, rr.toNat % 2 = 1 → ∀ i ∈ [Instr.jpIRR rr, .callIRR rr, .decwRR rr, .incwRR rr],
      exec i s = .next { s with run := .faulted .oddRegisterPair }) ∧
    (∀ r q : Byte, Reaches s r q → (s.slotRead q).1.toNat % 2 = 1 → ∀ i ∈ [Instr.decwIR r, .incwIR r],
      exec i s = .next { (s.slotRead q).2 with run := .faulted .oddRegisterPair }) ∧
    (∀ d p : Nib, p.toNat % 2 = 1 →
      (∀ i ∈ [Instr.ldeLoad d p, .ldcLoad d p, .ldeiLoad d p, .ldciLoad d p],
        exec i s = .next { s with run := .faulted .oddRegisterPair }) ∧
      ∀ r, Reaches s (wreg d) r →
        (∀ i ∈ [Instr.ldeStore d p, .ldcStore d p],
          exec i s = .next { (s.slotRead r).2 with run := .faulted .oddRegisterPair }) ∧
        ∀ x, Reaches s (s.slotRead r).1 x → ∀ i ∈ [Instr.ldeiStore d p, .ldciStore d p],
          exec i s = .next { ((s.slotRead r).2.slotRead x).2 with run := .faulted .oddRegisterPair }) ∧
    (∀ (d p : Nib) (q r : Byte), p.toNat % 2 = 0 → Reaches s (wreg p) q → Reaches s (wreg d) r →
      ((pairFrom s q).1 = 0xFFFF → exec (.ldcLoad d p) s = .next { (pairFrom s q).2 with run := .faulted .sentinelAddress } ∧
        exec (.ldciLoad d p) s = .next { ((pairFrom s q).2.slotRead r).2 with run := .faulted .sentinelAddress }) ∧
      ((pairFrom (s.slotRead r).2 q).1 = 0xFFFF →
        exec (.ldcStore d p) s = .next { (pairFrom (s.slotRead r).2 q).2 with run := .faulted .sentinelAddress }) ∧
      ∀ x, Reaches s (s.slotRead r).1 x → (pairFrom ((s.slotRead r).2.slotRead x).2 q).1 = 0xFFFF →
        exec (.ldciStore d p) s =
          .next { (pairFrom ((s.slotRead r).2.slotRead x).2 q).2 with run := .faulted .sentinelAddress }) ∧
    ∀ (n w : Nib) (b : Byte), loNib (s.reg 0xFD) = 0xE ∨ loNib (s.reg 0xFD) = 0xF →
      (∀ i ∈ [Instr.incW n, .djnz n b, .ldWIM n b, .ldRW b n, .ldWR n (wreg w), .ldWX w n b, .ldXW n w b, .ldeStore n w,
          .ldcStore n w, .ldeiStore n w, .ldciStore n w, .clrR (wreg n), .clrIR (wreg n), .pushR (wreg n), .pushIR (wreg n),
          .popIR (wreg n), .decwIR (wreg n), .incwIR (wreg n)],
        exec i s = .next { s with run := .faulted .forbiddenRP }) ∧
      (w.toNat % 2 = 0 → ∀ i ∈ [Instr.ldeLoad n w, .ldcLoad n w, .ldeiLoad n w, .ldciLoad n w, .decwRR (wreg w), .incwRR (wreg w),
          .jpIRR (wreg w), .callIRR (wreg w)],
        exec i s = .next { s with run := .faulted .forbiddenRP }) ∧
      (∀ (op : UnaryOp), ∀ o ∈ [OneOperand.direct (wreg n), .indirect (wreg n)],
        exec (unaryForm op o) s = .next { s with run := .faulted .forbiddenRP }) ∧
      (∀ (op : AluOp), ∀ o ∈ [TwoOperands.ww n w, .wiw n w, .rr b (wreg n), .rir b (wreg n), .rim (wreg n) b, .irim (wreg n) b],
        exec (aluForm op o) s = .next { moded s o.modeIndex with run := .faulted .forbiddenRP }) ∧
      (∀ f ∈ ([(.ldWIW w n, 1), (.ldIWW w n, 1), (.ldRR b (wreg n), 2), (.ldRIR b (wreg n), 3), (.ldIRR b (wreg n), 3),
          (.ldRIM (wreg n) b, 4), (.ldIRIM (wreg n) b, 5)] : List (Instr × Fin 6)),
        exec f.1 s = .next { moded s f.2 with run := .faulted .forbiddenRP }) ∧
      ∀ q, Reaches s b q → exec (.ldWR n b) s = .next { (s.slotRead q).2 with run := .faulted .forbiddenRP }

/-- O48. In a state with the core invariant, a read of a PROGRAM address other than 0xFFFF answers the byte of the
core's view and changes no byte of the view; a write of v there makes the view v at that address and changes no other
byte; neither changes anything but the cache lines and the bus memory, and no cycles are charged. Any access at 0xFFFF
faults with SentinelAddress and changes nothing. (20_memory.md R73, 20_memory.md R70, 20_memory.md R92) -/
def Obligations.ProgramView : Prop :=
  (∀ (s : State) (a : Word), s.CoreInv → a ≠ 0xFFFF →
      (∃ t, programRead a s = .ok (s.progView a) t ∧ SameProgram s t ∧ t = { s with lines := t.lines, prog := t.prog }) ∧
      ∀ v, ∃ t, programWrite a v s = .ok () t ∧ t.progView a = v ∧ (∀ b, b ≠ 0xFFFF → b ≠ a → t.progView b = s.progView b) ∧
        t = { s with lines := t.lines, prog := t.prog }) ∧
    ∀ (s : State) (v : Byte),
      programRead 0xFFFF s = .error .sentinelAddress s ∧ programWrite 0xFFFF v s = .error .sentinelAddress s

/-- O49. With the cache invariant, an access at an address other than 0xFFFF selects line i: direct-mapped, the address
modulo N; fully associative, the line with that tag, or when none has it the line of rank 0. After it, line i has that
tag, the byte answered, rank N - 1, and is dirty as R66 says; every other line is as before but for its rank, one less
when it was greater than line i's. On the bus only two bytes can change: a dirty occupied victim's, on a miss, and under
write-through the byte written, which is mirrored. (R66, R67) -/
def Obligations.CacheController : Prop :=
  (∀ op s, programAccess 0xFFFF op s = .error .sentinelAddress s) ∧
    ∀ (s : State) (a : Word) (op : CacheOp), s.CoreInv → a ≠ 0xFFFF →
      ∃ (v : Byte) (lines : List CacheLine) (prog : Memory) (i : Nat) (l : CacheLine),
        programAccess a op s = .ok v { s with lines := lines, prog := prog } ∧ s.lines[i]? = some l ∧
        (match s.cfg.placement with
          | .directMapped => i = a.toNat % s.cfg.numLines
          | .fullyAssociative => l.tag = a ∨ ((∀ k ∈ s.lines, k.tag ≠ a) ∧ l.rank = 0)) ∧
        lines[i]? = some
          { tag := a, data := v, rank := s.cfg.numLines - 1
            dirty := match op with
              | .read => if l.tag = a then l.dirty else false
              | .write _ => decide (s.cfg.writePolicy = .writeBack) } ∧
        (∀ (j : Nat) (k : CacheLine), j ≠ i → s.lines[j]? = some k →
          lines[j]? = some { k with rank := if l.rank < k.rank then k.rank - 1 else k.rank }) ∧
        (match op with
          | .read => v = if l.tag = a then l.data else Memory.read s.prog a
          | .write w => v = w) ∧
        ∀ b, Memory.read prog b =
          if b = a ∧ op = .write v ∧ s.cfg.writePolicy = .writeThrough then v
          else if b = l.tag ∧ l.tag ≠ a ∧ l.tag ≠ 0xFFFF ∧ l.dirty = true then l.data
          else Memory.read s.prog b

/-- O50. Push decrements the stack pointer and stores at it, pop loads at it and increments it: with P01M bit 2 set, SPL
alone modulo 256, the byte read and written as a register at that address (through the window and the slot policy), SPH
untouched; with it clear, the 16-bit pair SPH, SPL modulo 65536 and DATA memory. An internal stack address the window
refuses faults with ForbiddenRP, a push after its pointer moved, a pop before. There is no overflow or underflow check.
(R82, R83) -/
def Obligations.PushPop : Prop :=
  ∀ (s : State) (v : Byte),
    (∀ t, PushAt s v t → push v s = .ok () t) ∧ (∀ t, PopAt s v t → pop s = .ok v t) ∧
    ((s.reg 0xF8).getLsbD 2 = true →
      (resolve (s.reg 0xFD) (s.reg 0xFF - 1) = none → push v s = .error .forbiddenRP (s.setReg 0xFF (s.reg 0xFF - 1))) ∧
      (resolve (s.reg 0xFD) (s.reg 0xFF) = none → pop s = .error .forbiddenRP s)) ∧
    ((s.reg 0xF8).getLsbD 2 = false → Memory.wf s.data = true →
      ∃ t, push v s = .ok () t ∧ (t.reg 0xFE ++ t.reg 0xFF : Word) = s.reg 0xFE ++ s.reg 0xFF - 1 ∧
        Memory.read t.data (t.reg 0xFE ++ t.reg 0xFF) = v ∧
        (∀ b : Word, b ≠ s.reg 0xFE ++ s.reg 0xFF - 1 → Memory.read t.data b = Memory.read s.data b) ∧
        ∃ u, pop t = .ok v u ∧ u.regs = s.regs ∧ u.data = t.data)

/-- O51. After a CALL DA, or a CALL @RR whose pair is even and can be reached, in any later state v whose mode bit,
stack pointer and two stack bytes are as the CALL left them, RET leaves pc at the address after the CALL and the stack
pointer as it was before the CALL: on the external stack always; on the internal stack when the two slots below SP are
ReadWrite slots other than the special registers 0xF8 to 0xFF. (44_memory_indexed_calls.md R283, 20_memory.md R84) -/
def Obligations.CallThenReturn : Prop :=
  ∀ (s t v : State) (i : Instr), Memory.wf s.data = true →
    ((∃ da, i = .callDA da) ∨ ∃ rr p, i = .callIRR rr ∧ rr.toNat % 2 = 0 ∧ Reaches s rr p) → exec i s = .next t →
    ((s.reg 0xF8).getLsbD 2 = false → (v.reg 0xF8).getLsbD 2 = false → v.reg 0xFE = t.reg 0xFE → v.reg 0xFF = t.reg 0xFF →
      (let a : Word := t.reg 0xFE ++ t.reg 0xFF
       Memory.read v.data a = Memory.read t.data a ∧ Memory.read v.data (a + 1) = Memory.read t.data (a + 1)) →
      ∃ w, exec .ret v = .next w ∧ w.pc = s.pc ∧ w.reg 0xFE = s.reg 0xFE ∧ w.reg 0xFF = s.reg 0xFF) ∧
    ∀ q q' : Byte, (s.reg 0xF8).getLsbD 2 = true → Reaches s (s.reg 0xFF - 1) q → Reaches s (s.reg 0xFF - 2) q' →
      q < 0xF8#8 → q' < 0xF8#8 → s.policy q = .readWrite → s.policy q' = .readWrite → v.cfg = s.cfg →
      (∀ a ∈ [0xF8#8, 0xFD#8, 0xFF#8, q, q'], v.reg a = t.reg a) →
      ∃ w, exec .ret v = .next w ∧ w.pc = s.pc ∧ w.reg 0xFE = v.reg 0xFE ∧ w.reg 0xFF = s.reg 0xFF

/-- O52. Source i is active exactly when the global enable, its enable bit and its pending bit are all 1. The poll does
nothing when none is active; otherwise it serves the selected source; when the selection needs a reserved group order it
faults with ReservedIPR and nothing has happened. (R344, R345) -/
def Obligations.ActiveAndPoll : Prop :=
  ∀ s : State,
    (∀ i : Nat, i < 6 →
      (s.active.getLsbD i = true ↔
        (s.reg 0xFB).getLsbD 7 = true ∧ (s.reg 0xFB).getLsbD i = true ∧ (s.reg 0xFA).getLsbD i = true)) ∧
    ((∀ i : Nat, i < 6 → s.active.getLsbD i = false) → poll s = .ok () s) ∧
    ((∃ i : Nat, i < 6 ∧ s.active.getLsbD i = true) →
      (selectSource s.active (s.reg 0xF9) = none → poll s = .error .reservedIPR s) ∧
      ∀ i, selectSource s.active (s.reg 0xF9) = some i → poll s = service i s)

/-- O53. A single active source is selected whatever the priority register holds. With two or more active, the selection
fails exactly when the order code {ipr[4], ipr[3], ipr[0]} is 0 or 7; otherwise it answers an active source whose group
stands before that of every other active source in the configured order, and within a group the one the winner bit puts
first. (R346, R348) -/
def Obligations.SelectPriority : Prop :=
  ∀ (act : Irq6) (ipr : Byte),
    let g := 4 * (ipr.toNat / 16 % 2) + 2 * (ipr.toNat / 8 % 2) + ipr.toNat % 2
    (∀ i : Fin 6, (∀ j : Fin 6, act.getLsbD j = true ↔ j = i) → selectSource act ipr = some i) ∧
    ∀ i j : Fin 6, i ≠ j → act.getLsbD i = true → act.getLsbD j = true →
      ((g = 0 ∨ g = 7) → selectSource act ipr = none) ∧
      (¬(g = 0 ∨ g = 7) → ∃ k : Fin 6, selectSource act ipr = some k ∧ act.getLsbD k = true ∧
        ∀ m : Fin 6, act.getLsbD m = true → m ≠ k → priorityRank ipr k < priorityRank ipr m)

/-- O54. From a state with the core invariant, the entry of source i pushes pc high, pc low and FLAGS (the mode bit
consulted at each), sets pc from the big-endian vector at PROGRAM 2i through the cache, clears the global enable before
the third push and the pending bit of source i after it, charges the three entry costs, zeroes the counts and the
condition of the predication context, and turns Waiting into Running. On the external stack: SP is 3 less, the three
bytes are in DATA, every other DATA byte, and every register but IMR, IRQ, SPH and SPL, is as before. On the internal
stack, a push whose slot the window refuses faults with ForbiddenRP and leaves the writes made before it, its own move
of SPL among them: the first push nothing else, the second the first, the third also both pushes of pc, the vector in
pc, the global enable cleared and cost.irq_push_pc charged. (R352, R355) -/
def Obligations.InterruptEntry : Prop :=
  ∀ (s : State) (i : Fin 6), s.CoreInv →
    let vector : Word := s.progView (BitVec.ofNat 16 (2 * i.val)) ++ s.progView (BitVec.ofNat 16 (2 * i.val + 1))
    (∀ a b c : State, PushAt s (s.pc.extractLsb' 8 8) a → PushAt a (s.pc.extractLsb' 0 8) b →
      PushAt (State.setReg { b with pc := vector } 0xFB (b.reg 0xFB &&& 0x7F#8)) (b.reg 0xFC) c →
      ∃ t, service i s = .ok () t ∧ SameProgram s t ∧
        t = { c.setReg 0xFA (c.reg 0xFA &&& ~~~(1#8 <<< i.val)) with
              cycles := s.cycles + s.cfg.cost.irqPushPc + s.cfg.cost.irqPushFlags + s.cfg.cost.irqCleanup
              pred := { tcnt := 0, fcnt := 0, cond := false, snap := s.pred.snap }
              run := if s.run = .waiting then .running else s.run
              lines := t.lines
              prog := t.prog }) ∧
    ((s.reg 0xF8).getLsbD 2 = false →
      ∃ t, service i s = .ok () t ∧ t.pc = vector ∧ t.reg 0xFB = s.reg 0xFB &&& 0x7F#8 ∧
        t.reg 0xFA = s.reg 0xFA &&& ~~~(1#8 <<< i.val) ∧
        (∀ a, a ∉ [0xFA#8, 0xFB#8, 0xFE#8, 0xFF#8] → t.reg a = s.reg a) ∧
        let sp : Word := s.reg 0xFE ++ s.reg 0xFF
        (t.reg 0xFE ++ t.reg 0xFF : Word) = sp - 3 ∧
        ∀ b, Memory.read t.data b =
          if b = sp - 1 then s.pc.extractLsb' 8 8 else if b = sp - 2 then s.pc.extractLsb' 0 8
          else if b = sp - 3 then s.reg 0xFC else Memory.read s.data b) ∧
    let refused := fun m : State => (m.reg 0xF8).getLsbD 2 = true ∧ resolve (m.reg 0xFD) (m.reg 0xFF - 1) = none
    (refused s → service i s = .error .forbiddenRP (s.setReg 0xFF (s.reg 0xFF - 1))) ∧
    ∀ a : State, PushAt s (s.pc.extractLsb' 8 8) a →
      (refused a → service i s = .error .forbiddenRP (a.setReg 0xFF (a.reg 0xFF - 1))) ∧
      ∀ b : State, PushAt a (s.pc.extractLsb' 0 8) b →
        let m := State.setReg { b with pc := vector } 0xFB (b.reg 0xFB &&& 0x7F#8)
        refused m → ∃ t, service i s = .error .forbiddenRP t ∧ SameProgram s t ∧
          t = { m.setReg 0xFF (m.reg 0xFF - 1) with
                cycles := s.cycles + s.cfg.cost.irqPushPc, lines := t.lines, prog := t.prog }

/-- O55. After the entry of a source on the external stack, in any later state v in external mode whose stack pointer
and three stack bytes are as the entry left them, IRET leaves pc, FLAGS and the stack pointer as they were before the
entry, and the global enable set (the spec's decision D37). On the internal stack the same when the three slots below SP
are ReadWrite slots other than the special registers 0xF8 to 0xFF. (60_exceptions.md R352, 60_exceptions.md R357,
41_short_forms.md R175, 20_memory.md R85) -/
def Obligations.InterruptReturn : Prop :=
  ∀ (s t v : State) (i : Fin 6), s.CoreInv → service i s = .ok () t →
    ((s.reg 0xF8).getLsbD 2 = false → (v.reg 0xF8).getLsbD 2 = false → v.reg 0xFE = t.reg 0xFE → v.reg 0xFF = t.reg 0xFF →
      (∀ k : Word, k < 3 →
        let a : Word := t.reg 0xFE ++ t.reg 0xFF + k
        Memory.read v.data a = Memory.read t.data a) →
      ∃ w, exec .iret v = .next w ∧ w.pc = s.pc ∧ w.reg 0xFC = s.reg 0xFC ∧ w.reg 0xFE = s.reg 0xFE ∧
        w.reg 0xFF = s.reg 0xFF ∧ (w.reg 0xFB).getLsbD 7 = true) ∧
    ∀ q q' q'' : Byte, (s.reg 0xF8).getLsbD 2 = true → Reaches s (s.reg 0xFF - 1) q → Reaches s (s.reg 0xFF - 2) q' →
      Reaches s (s.reg 0xFF - 3) q'' → (∀ a ∈ [q, q', q''], a < 0xF8#8 ∧ s.policy a = .readWrite) → v.cfg = s.cfg →
      (∀ a ∈ [0xF8#8, 0xFD#8, 0xFF#8, q, q', q''], v.reg a = t.reg a) →
      ∃ w, exec .iret v = .next w ∧ w.pc = s.pc ∧ w.reg 0xFC = s.reg 0xFC ∧ w.reg 0xFF = s.reg 0xFF ∧
        (w.reg 0xFB).getLsbD 7 = true

/-- O56. With no block active the bookkeeping does nothing. After an instruction of the true part with more of it to
come, or with no false part, the true count is one less and FLAGS is the snapshot, all eight bits; after an instruction
of the false part the false count is one less and FLAGS is the snapshot; after IF with nothing to skip nothing changes.
Nothing else changes. (45_predicated_execution.md R305, 45_predicated_execution.md R306) -/
def Obligations.BookkeepingCounts : Prop :=
  ∀ s : State,
    (∀ wasIf, s.pred.tcnt = 0 → s.pred.fcnt = 0 → predBookkeeping wasIf s = .ok () s) ∧
    (s.pred.cond = true → s.pred.tcnt ≠ 0 → (s.pred.tcnt ≠ 1 ∨ s.pred.fcnt = 0) →
      predBookkeeping false s =
        .ok () (State.setReg { s with pred := { s.pred with tcnt := s.pred.tcnt - 1 } } 0xFC s.pred.snap)) ∧
    (s.pred.cond = false → s.pred.tcnt = 0 → s.pred.fcnt ≠ 0 →
      predBookkeeping false s =
        .ok () (State.setReg { s with pred := { s.pred with fcnt := s.pred.fcnt - 1 } } 0xFC s.pred.snap)) ∧
    (s.pred.cond = true → s.pred.tcnt ≠ 0 → predBookkeeping true s = .ok () s) ∧
    (s.pred.cond = false → s.pred.tcnt = 0 → predBookkeeping true s = .ok () s)

/-- O57. When the true part has just run out, or was empty at the IF, the n false instructions are skipped; when the
condition is false at the IF, the n true instructions. Skipping moves pc past n instructions by their first bytes as the
core sees them, charges n times cost.skip, zeroes the count of the skipped part and restores FLAGS once; no other
register, no memory byte and no device changes. When a skip meets address 0xFFFF the bookkeeping faults with
SentinelAddress, when it meets an illegal first byte with IllegalOpcode, whichever skip comes first. That an illegal
opcode under a skip faults is the model's choice (log 12): it follows R308 and R112 against row U21 of
93_implementation_defined.md, which skips it as one byte. (45_predicated_execution.md R305, 45_predicated_execution.md
R306, 45_predicated_execution.md R308, 45_predicated_execution.md R309, 30_encoding.md R112) -/
def Obligations.BookkeepingSkips : Prop :=
  ∀ (s : State) (wasIf : Bool), s.CoreInv →
    (s.pred.cond = true → (s.pred.tcnt = 0 ∨ (s.pred.tcnt = 1 ∧ wasIf = false)) → s.pred.fcnt ≠ 0 →
      (∀ e, skipEnd s.progView s.pred.fcnt.toNat s.pc = .ok e →
        ∃ t, predBookkeeping wasIf s = .ok () t ∧ SameProgram s t ∧
          t = { s.setReg 0xFC s.pred.snap with
                pc := e, cycles := s.cycles + s.pred.fcnt.toNat * s.cfg.cost.skip
                pred := { s.pred with tcnt := 0, fcnt := 0 }, lines := t.lines, prog := t.prog }) ∧
      ∀ r, skipEnd s.progView s.pred.fcnt.toNat s.pc = .error r → ∃ t, predBookkeeping wasIf s = .error r t) ∧
    (s.pred.cond = false → s.pred.tcnt ≠ 0 →
      (∀ e, skipEnd s.progView s.pred.tcnt.toNat s.pc = .ok e →
        ∃ t, predBookkeeping wasIf s = .ok () t ∧ SameProgram s t ∧
          t = { s.setReg 0xFC s.pred.snap with
                pc := e, cycles := s.cycles + s.pred.tcnt.toNat * s.cfg.cost.skip
                pred := { s.pred with tcnt := 0 }, lines := t.lines, prog := t.prog }) ∧
      ∀ r, skipEnd s.progView s.pred.tcnt.toNat s.pc = .error r → ∃ t, predBookkeeping wasIf s = .error r t)

/-- O58. The tick runs the onTick of each configured device, in list order, with k = cycles - lastTick: one device's
tick is called with its private state, k and the stored bytes of its own slots, and leaves the state it answers in dev,
the bytes it answers in its slots, its sources ORed into the pending register, nothing else changed. In a state with the
core invariant (no slot backed twice), after the whole tick every device has the private state and its slots the bytes
that its onTick answers for the bytes before the tick, and a pending bit is set exactly when it was before or some
device raised it. The tick changes nothing but register memory, the private states and lastTick, which becomes the
clock; of register memory only the slots of configured devices and the pending register; without devices only lastTick.
A register access keeps every pending bit that was set (a write to the pending register itself apart), and so does the
tick. (10_state.md R30, 10_state.md R32, 10_state.md R33, 40_cycle_and_alu.md R135, 60_exceptions.md R342) -/
def Obligations.DevicesAndTick : Prop :=
  (∀ (s : State) (p v : Byte) (i : Nat), (s.reg 0xFA).getLsbD i = true →
      ((s.slotRead p).2.reg 0xFA).getLsbD i = true ∧
      (p ≠ 0xFA → ((s.slotWrite p v).reg 0xFA).getLsbD i = true) ∧
      (s.CoreInv → (s.tick.reg 0xFA).getLsbD i = true)) ∧
    (∀ (s : State) (i k : Nat) (d : Device) (st st' : DevState) (view : Byte → Byte) (irq : Irq6), s.dev[i]? = some st →
      deviceOnTick st k (d.slots.map fun a => (a, s.reg a)) = (st', view, irq) →
      let t := s.tickDevice i k d
      t = { s with regs := t.regs, dev := s.dev.set i st' } ∧
      (∀ a, a ≠ 0xFA → t.reg a = if a ∈ d.slots then view a else s.reg a) ∧
      t.reg 0xFA = ((if 0xFA#8 ∈ d.slots then view 0xFA else s.reg 0xFA) ||| irq.setWidth 8)) ∧
    ∀ s : State,
      let k := s.cycles - s.lastTick
      let onTick := fun (d : Device) (st : DevState) => deviceOnTick st k (d.slots.map fun a => (a, s.reg a))
      s.tick = s.cfg.devices.zipIdx.foldl (fun t d => t.tickDevice d.2 k d.1) { s with lastTick := s.cycles } ∧
      (s.CoreInv →
        (∀ (i : Nat) (d : Device) (st : DevState), s.cfg.devices[i]? = some d → s.dev[i]? = some st →
          s.tick.dev[i]? = some (onTick d st).1 ∧ ∀ a ∈ d.slots, s.tick.reg a = (onTick d st).2.1 a) ∧
        ∀ j : Nat, (s.tick.reg 0xFA).getLsbD j = true ↔
          (s.reg 0xFA).getLsbD j = true ∨
            ∃ (i : Nat) (d : Device) (st : DevState),
              s.cfg.devices[i]? = some d ∧ s.dev[i]? = some st ∧ (onTick d st).2.2.getLsbD j = true) ∧
      s.tick = { s with regs := s.tick.regs, dev := s.tick.dev, lastTick := s.cycles } ∧
      (∀ a, (∀ d ∈ s.cfg.devices, a ∉ d.slots) → a ≠ 0xFA → s.tick.reg a = s.reg a) ∧
      (s.cfg.devices = [] → s.tick = { s with lastTick := s.cycles })

/-- O59. A read of a timer slot answers the stored byte and changes nothing. A write to T0, PRE0, T1 or PRE1 stores the
byte in that channel. A write to TMR sets each channel running as its enable bit (1, 3) says and loads its count with
the reload value when its load bit (0, 2) is set, or it is enabled at count 0; the stored byte has the two load bits
cleared. No access raises a source. A running channel of count c after k cycles, k > 0: below its count it counts down
and raises nothing; at or past it, source 4 (timer 0) or 5 (timer 1) is raised, and in continuous mode the count is
again between 1 and the reload value with the phase kept, in single-pass mode the channel stops at 0 and its enable bit
in TMR drops. A stopped channel, or no elapsed cycle, changes nothing. The reload value is between 1 and 16384. At
launch both counts are 0, both channels stopped, T and PRE the initial bytes of their slots. The timer is the spec's own
(decision D29). (60_exceptions.md R372, 10_state.md R31, 10_state.md R32) -/
def Obligations.ReferenceTimer : Prop :=
  (∀ c : TimerChannel, 1 ≤ reloadCount c ∧ reloadCount c ≤ 16384) ∧
    (∀ tmr b1 p1 b0 p0 : Byte,
      let d := refTimer tmr b1 p1 b0 p0
      d.slots = [0xF1, 0xF2, 0xF3, 0xF4, 0xF5] ∧ d.slots.map (deviceInit d) = [tmr, b1, p1, b0, p0] ∧
      d.s0 = .refTimer { t := b0, pre := p0, cnt := 0, running := false } { t := b1, pre := p1, cnt := 0, running := false }) ∧
    (∀ (t0 t1 : TimerChannel) (p b : Byte),
      let w := deviceOnAccess (.refTimer t0 t1) p .write b
      let control := fun (c : TimerChannel) (load en : Bool) =>
        { c with cnt := if load = true ∨ (en = true ∧ c.cnt = 0) then reloadCount c else c.cnt, running := en }
      deviceOnAccess (.refTimer t0 t1) p .read b = (.refTimer t0 t1, b, 0) ∧ w.2.2 = 0 ∧
      w.2.1.toNat = (if p = 0xF1 then b.toNat - b.toNat % 2 - 4 * (b.toNat / 4 % 2) else b.toNat) ∧
      w.1 =
        if p = 0xF1 then .refTimer (control t0 (b.getLsbD 0) (b.getLsbD 1)) (control t1 (b.getLsbD 2) (b.getLsbD 3))
        else .refTimer (if p = 0xF4 then { t0 with t := b } else if p = 0xF5 then { t0 with pre := b } else t0)
          (if p = 0xF2 then { t1 with t := b } else if p = 0xF3 then { t1 with pre := b } else t1)) ∧
    ∀ (t0 t1 : TimerChannel) (k : Nat) (view : List (Byte × Byte)),
      let r := deviceOnTick (.refTimer t0 t1) k view
      let after := fun c : TimerChannel =>
        if c.running = true ∧ 0 < k then
          if k < c.cnt then { c with cnt := c.cnt - k }
          else if c.pre.getLsbD 0 = true then { c with cnt := reloadCount c - (k - c.cnt) % reloadCount c }
          else { c with cnt := 0, running := false }
        else c
      let expires := fun c : TimerChannel => c.running = true ∧ 0 < k ∧ c.cnt ≤ k
      r.1 = .refTimer (after t0) (after t1) ∧ (r.2.2.getLsbD 4 = true ↔ expires t0) ∧ (r.2.2.getLsbD 5 = true ↔ expires t1) ∧
        r.2.2 &&& 0x0F#6 = 0 ∧ (∀ a, a ≠ 0xF1 → r.2.1 a = viewAt view a) ∧
        ((r.2.1 0xF1).getLsbD 1 = true ↔ (viewAt view 0xF1).getLsbD 1 = true ∧ ¬(expires t0 ∧ t0.pre.getLsbD 0 = false)) ∧
        ((r.2.1 0xF1).getLsbD 3 = true ↔ (viewAt view 0xF1).getLsbD 3 = true ∧ ¬(expires t1 ∧ t1.pre.getLsbD 0 = false)) ∧
        ∀ j : Nat, j ≠ 1 → j ≠ 3 → (r.2.1 0xF1).getLsbD j = (viewAt view 0xF1).getLsbD j

/-- O60. Two states that differ only in the cost table, the clock and lastTick, without devices and without a ceiling,
do the same step: both answer a next state and the two again differ in nothing else, or both answer the same stop. So
nothing a program can see depends on the open costs. (70_reset_and_hazards.md R419, 10_state.md R52) -/
def Obligations.CostIndependence : Prop :=
  ∀ s t : State, s.cfg.devices = [] → s.cfg.ceiling = none → SameButCosts s t →
    (∀ s', step s = .next s' → ∃ t', step t = .next t' ∧ SameButCosts s' t') ∧ ∀ f, step s = .fault f → step t = .fault f
end

