-- ==== Sys2Proof/Laws/Bits.lean ====
section
/-! SUPPORT. The laws of the byte, nibble and flag-bit helpers. -/

namespace Sys2Proof

/-! ### Splitting and joining -/

@[simp] theorem hiNib_ofNibs (h l : Nib) : hiNib (ofNibs h l) = h := by
  apply BitVec.eq_of_getLsbD_eq
  intro i hi
  simp only [hiNib, ofNibs, BitVec.getLsbD_extractLsb', BitVec.getLsbD_append]
  simp [hi]

@[simp] theorem loNib_ofNibs (h l : Nib) : loNib (ofNibs h l) = l := by
  apply BitVec.eq_of_getLsbD_eq
  intro i hi
  simp only [loNib, ofNibs, BitVec.getLsbD_extractLsb', BitVec.getLsbD_append]
  simp [hi]

@[simp] theorem ofNibs_hiNib_loNib (b : Byte) : ofNibs (hiNib b) (loNib b) = b := by
  apply BitVec.eq_of_getLsbD_eq
  intro i hi
  simp only [hiNib, loNib, ofNibs, BitVec.getLsbD_append, BitVec.getLsbD_extractLsb']
  by_cases h : i < 4
  · simp [h]
  · have : i - 4 < 4 := by omega
    have e : 4 + (i - 4) = i := by omega
    simp [h, this, e]

@[simp] theorem hiByte_ofBytes (h l : Byte) : hiByte (ofBytes h l) = h := by
  apply BitVec.eq_of_getLsbD_eq
  intro i hi
  simp only [hiByte, ofBytes, BitVec.getLsbD_extractLsb', BitVec.getLsbD_append]
  simp [hi]

@[simp] theorem loByte_ofBytes (h l : Byte) : loByte (ofBytes h l) = l := by
  apply BitVec.eq_of_getLsbD_eq
  intro i hi
  simp only [loByte, ofBytes, BitVec.getLsbD_extractLsb', BitVec.getLsbD_append]
  simp [hi]

@[simp] theorem ofBytes_hiByte_loByte (w : Word) : ofBytes (hiByte w) (loByte w) = w := by
  apply BitVec.eq_of_getLsbD_eq
  intro i hi
  simp only [hiByte, loByte, ofBytes, BitVec.getLsbD_append, BitVec.getLsbD_extractLsb']
  by_cases h : i < 8
  · simp [h]
  · have : i - 8 < 8 := by omega
    have e : 8 + (i - 8) = i := by omega
    simp [h, this, e]

theorem ofNibs_inj {h h' l l' : Nib} : ofNibs h l = ofNibs h' l' ↔ h = h' ∧ l = l' := by
  constructor
  · intro e
    exact ⟨by simpa using congrArg hiNib e, by simpa using congrArg loNib e⟩
  · rintro ⟨rfl, rfl⟩; rfl

/-! ### Single bits -/

/-- A bit after `putBit`. -/
theorem bit_putBit (b : Byte) (i j : Nat) (v : Bool) (hj : j < 8) :
    bit (putBit b i v) j = if i = j then v else bit b j := by
  cases v <;> simp only [putBit, bit] <;> simp [hj] <;> by_cases h : i = j <;> simp [h] <;> omega

/-- A byte is its eight bits. -/
theorem byte_ext {a b : Byte} (h : ∀ i, i < 8 → bit a i = bit b i) : a = b :=
  BitVec.eq_of_getLsbD_eq h

namespace Machine

/-- The bit of FLAGS an update leaves at each position (`10_state.md` R36). -/
def FlagBits.at (u : FlagBits) (i : Nat) : Option Bool :=
  match i with
  | 7 => u.c
  | 6 => u.z
  | 5 => u.s
  | 4 => u.v
  | 3 => u.d
  | 2 => u.h
  | _ => none

theorem bit_putFlag (f : Byte) (i j : Nat) (x : Option Bool) (hj : j < 8) :
    bit (putFlag i x f) j = if i = j then x.getD (bit f j) else bit f j := by
  cases x <;> simp [putFlag, bit_putBit, hj]

/-- Every bit of FLAGS after an update: the bit written, else the bit before. -/
theorem bit_applyFlags (u : FlagBits) (f : Byte) (j : Nat) (hj : j < 8) :
    bit (applyFlags u f) j = (u.at j).getD (bit f j) := by
  simp only [applyFlags, bit_putFlag, hj]
  match j, hj with
  | 0, _ | 1, _ | 2, _ | 3, _ | 4, _ | 5, _ | 6, _ | 7, _ => simp [FlagBits.at]

/-- An update that writes no bit leaves FLAGS as it is. -/
@[simp] theorem applyFlags_empty (f : Byte) : applyFlags {} f = f := rfl

end Machine
end Sys2Proof
end

