-- ==== Sys2Proof/Laws/Memory.lean ====
section
/-! SUPPORT. The laws of a bus memory: read after write, the canonical form kept by every write, and equal memories from
equal reads. -/

namespace Sys2Proof.Machine

theorem Memory.wf_cons {a : Nat} {v : Byte} {m : Memory} :
    Memory.wf ((a, v) :: m) = true ↔
      a < 65536 ∧ v ≠ Memory.fill ∧ (∀ c ∈ m, a < c.1) ∧ Memory.wf m = true := by
  induction m generalizing a v with
  | nil => simp [Memory.wf]
  | cons c rest ih =>
    obtain ⟨b, w⟩ := c
    have := @ih b w
    simp only [Memory.wf, Bool.and_eq_true, decide_eq_true_eq, this, List.mem_cons, forall_eq_or_imp]
    constructor
    · rintro ⟨⟨hab, hv⟩, hb, hw, hlt, hr⟩
      exact ⟨by omega, hv, ⟨hab, fun c hc => by have := hlt c hc; omega⟩, hb, hw, hlt, hr⟩
    · rintro ⟨_, hv, ⟨hab, _⟩, h⟩
      exact ⟨⟨hab, hv⟩, h⟩

/-- A key no cell lists reads as `Memory.fill`. -/
theorem Memory.readKey_of_not_mem {m : Memory} {a : Nat} (h : ∀ c ∈ m, c.1 ≠ a) : Memory.readKey m a = Memory.fill := by
  induction m with
  | nil => rfl
  | cons c rest ih =>
    simp only [List.mem_cons, forall_eq_or_imp] at h
    simp [Memory.readKey, h.1, ih h.2]

/-- A write leaves every other key as it was. -/
theorem Memory.readKey_writeKey_ne {m : Memory} {a b : Nat} (v : Byte) (h : b ≠ a) :
    Memory.readKey (Memory.writeKey m a v) b = Memory.readKey m b := by
  induction m with
  | nil => by_cases hv : v = Memory.fill <;> simp [Memory.writeKey, Memory.readKey, hv, Ne.symm h]
  | cons c rest ih =>
    obtain ⟨k, w⟩ := c
    simp only [Memory.writeKey]
    split
    · split <;> simp [Memory.readKey, Ne.symm h]
    · split
      · next hk => subst hk; split <;> simp [Memory.readKey, Ne.symm h]
      · simp [Memory.readKey, ih]

/-- The key written reads as the byte written. -/
theorem Memory.readKey_writeKey_self {m : Memory} (hm : Memory.wf m = true) (a : Nat) (v : Byte) :
    Memory.readKey (Memory.writeKey m a v) a = v := by
  induction m with
  | nil => by_cases hv : v = Memory.fill <;> simp [Memory.writeKey, Memory.readKey, hv]
  | cons c rest ih =>
    obtain ⟨k, w⟩ := c
    rw [Memory.wf_cons] at hm
    obtain ⟨_, _, hlt, hr⟩ := hm
    simp only [Memory.writeKey]
    split
    · split
      · next hv =>
        subst hv
        apply Memory.readKey_of_not_mem
        intro c hc
        rcases List.mem_cons.mp hc with rfl | hc
        · simp; omega
        · have := hlt c hc; omega
      · simp [Memory.readKey]
    · split
      · next hk =>
        subst hk
        split
        · next hv =>
          subst hv
          apply Memory.readKey_of_not_mem
          intro c hc
          have := hlt c hc; omega
        · simp [Memory.readKey]
      · next hk => simp [Memory.readKey, Ne.symm hk, ih hr]

theorem Memory.mem_writeKey {m : Memory} {a : Nat} {v : Byte} {c : Host.Cell} (h : c ∈ Memory.writeKey m a v) :
    c = (a, v) ∨ c ∈ m := by
  induction m with
  | nil =>
    simp only [Memory.writeKey] at h
    split at h <;> simp_all
  | cons d rest ih =>
    obtain ⟨k, w⟩ := d
    simp only [Memory.writeKey] at h
    split at h
    · split at h <;> simp_all
    · split at h
      · split at h <;> simp_all
        tauto
      · rcases List.mem_cons.mp h with rfl | h
        · simp
        · rcases ih h with rfl | h <;> simp_all

/-- A write keeps the canonical form. -/
theorem Memory.wf_writeKey {m : Memory} (hm : Memory.wf m = true) {a : Nat} (ha : a < 65536) (v : Byte) :
    Memory.wf (Memory.writeKey m a v) = true := by
  induction m with
  | nil =>
    simp only [Memory.writeKey]
    split
    · rfl
    · next hv => simp [Memory.wf, ha, hv]
  | cons c rest ih =>
    obtain ⟨k, w⟩ := c
    obtain ⟨hk, hw, hlt, hr⟩ := Memory.wf_cons.mp hm
    simp only [Memory.writeKey]
    split
    · split
      · exact hm
      · next hak hv =>
        refine Memory.wf_cons.mpr ⟨ha, hv, ?_, hm⟩
        intro c hc
        rcases List.mem_cons.mp hc with rfl | hc
        · exact hak
        · have := hlt c hc; omega
    · split
      · next hak =>
        subst hak
        split
        · exact hr
        · next hv => exact Memory.wf_cons.mpr ⟨ha, hv, hlt, hr⟩
      · refine Memory.wf_cons.mpr ⟨hk, hw, ?_, ih hr⟩
        intro c hc
        rcases Memory.mem_writeKey hc with rfl | hc
        · show k < a
          omega
        · exact hlt c hc

/-- Equal reads make equal memories: the form is canonical. -/
theorem Memory.ext_of_readKey {m n : Memory} (hm : Memory.wf m = true) (hn : Memory.wf n = true)
    (h : ∀ a, Memory.readKey m a = Memory.readKey n a) : m = n := by
  induction m generalizing n with
  | nil =>
    cases n with
    | nil => rfl
    | cons c rest =>
      obtain ⟨k, w⟩ := c
      have := h k
      simp only [Memory.readKey, if_true] at this
      exact absurd this.symm (Memory.wf_cons.mp hn).2.1
  | cons c rest ih =>
    obtain ⟨k, w⟩ := c
    obtain ⟨_, hw, hlt, hr⟩ := Memory.wf_cons.mp hm
    cases n with
    | nil =>
      have := h k
      simp only [Memory.readKey, if_true] at this
      exact absurd this hw
    | cons d rest' =>
      obtain ⟨k', w'⟩ := d
      obtain ⟨_, hw', hlt', hr'⟩ := Memory.wf_cons.mp hn
      have hkk : k = k' := by
        rcases Nat.lt_trichotomy k k' with hk | hk | hk
        · have := h k
          rw [Memory.readKey_of_not_mem (m := (k', w') :: rest')] at this
          · simp only [Memory.readKey, if_true] at this; exact absurd this hw
          · intro c hc
            rcases List.mem_cons.mp hc with rfl | hc
            · show k' ≠ k
              omega
            · have := hlt' c hc; omega
        · exact hk
        · have := h k'
          rw [Memory.readKey_of_not_mem (m := (k, w) :: rest)] at this
          · simp only [Memory.readKey, if_true] at this; exact absurd this.symm hw'
          · intro c hc
            rcases List.mem_cons.mp hc with rfl | hc
            · show k ≠ k'
              omega
            · have := hlt c hc; omega
      subst hkk
      have hww : w = w' := by simpa [Memory.readKey] using h k
      subst hww
      congr 1
      apply ih hr hr'
      intro a
      by_cases ha : k = a
      · subst ha
        rw [Memory.readKey_of_not_mem (fun c hc => by have := hlt c hc; omega),
          Memory.readKey_of_not_mem (fun c hc => by have := hlt' c hc; omega)]
      · simpa [Memory.readKey, ha] using h a

/-! ### The same at 16-bit addresses -/

@[simp] theorem Memory.read_write_self {m : Memory} (hm : Memory.wf m = true) (a : Word) (v : Byte) :
    Memory.read (Memory.write m a v) a = v := Memory.readKey_writeKey_self hm _ _

theorem Memory.read_write_ne (m : Memory) {a b : Word} (v : Byte) (h : b ≠ a) :
    Memory.read (Memory.write m a v) b = Memory.read m b :=
  Memory.readKey_writeKey_ne v (fun e => h (BitVec.eq_of_toNat_eq e))

theorem Memory.wf_write {m : Memory} (hm : Memory.wf m = true) (a : Word) (v : Byte) :
    Memory.wf (Memory.write m a v) = true := Memory.wf_writeKey hm a.isLt v

/-- Read after write at any two addresses. -/
theorem Memory.read_write {m : Memory} (hm : Memory.wf m = true) (a b : Word) (v : Byte) :
    Memory.read (Memory.write m a v) b = if b = a then v else Memory.read m b := by
  split
  · next h => subst h; exact Memory.read_write_self hm _ _
  · next h => exact Memory.read_write_ne m v h

theorem Memory.ext_of_read {m n : Memory} (hm : Memory.wf m = true) (hn : Memory.wf n = true)
    (h : ∀ a, Memory.read m a = Memory.read n a) : m = n := by
  apply Memory.ext_of_readKey hm hn
  intro a
  by_cases ha : a < 65536
  · simpa [Memory.read, Nat.mod_eq_of_lt ha] using h (BitVec.ofNat 16 a)
  · have out : ∀ {k : Memory}, Memory.wf k = true → ∀ c ∈ k, c.1 ≠ a := by
      intro k hk
      induction k with
      | nil => simp
      | cons c rest ih =>
        obtain ⟨b, w⟩ := c
        obtain ⟨hb, _, _, hr⟩ := Memory.wf_cons.mp hk
        simp only [List.mem_cons, forall_eq_or_imp]
        exact ⟨by show b ≠ a; omega, ih hr⟩
    rw [Memory.readKey_of_not_mem (out hm), Memory.readKey_of_not_mem (out hn)]

end Sys2Proof.Machine
end

