-- ==== Sys2Proof/Laws/Cache.lean ====
section
/-! SUPPORT. The laws of the cache controller (`20_memory.md` R65 to R74): what an access does to the lines, the bus and the
core's own view of PROGRAM memory, and that it keeps the controller's invariant. -/

namespace Sys2Proof.Machine

/-- A line without its rank. -/
def CacheLine.content (l : CacheLine) : Word × Byte × Bool := (l.tag, l.data, l.dirty)

/-- Two line lists with the same contents, place by place. -/
def sameContent (k l : List CacheLine) : Prop := k.map CacheLine.content = l.map CacheLine.content

theorem sameContent.getElem? {k l : List CacheLine} (h : sameContent k l) {i : Nat} {a : CacheLine} (ha : k[i]? = some a) :
    ∃ b, l[i]? = some b ∧ b.content = a.content := by
  have := congrArg (fun x => x[i]?) h
  simp only [List.getElem?_map, ha, Option.map_some] at this
  cases hb : l[i]? with
  | none => simp [hb] at this
  | some b => exact ⟨b, rfl, by simpa [hb] using this.symm⟩

/-- The view at the sentinel is the bus (log 17). -/
@[simp] theorem cacheView_sentinel (lines : List CacheLine) (prog : Memory) :
    cacheView lines prog sentinel = Memory.read prog sentinel := by
  simp [cacheView]

theorem cacheView_cons (l : CacheLine) (rest : List CacheLine) (prog : Memory) (a : Word) :
    cacheView (l :: rest) prog a = if l.tag = a ∧ a ≠ sentinel then l.data else cacheView rest prog a := by
  simp only [cacheView, List.find?_cons]
  by_cases hs : a = sentinel
  · simp [hs]
  · by_cases h : l.tag = a <;> simp [h, hs]

theorem sameContent.view {k l : List CacheLine} (h : sameContent k l) (prog : Memory) (a : Word) :
    cacheView k prog a = cacheView l prog a := by
  induction k generalizing l with
  | nil => cases l with
    | nil => rfl
    | cons b r => simp [sameContent] at h
  | cons x r ih => cases l with
    | nil => simp [sameContent] at h
    | cons y r' =>
      simp only [sameContent, List.map_cons, List.cons.injEq, CacheLine.content, Prod.mk.injEq] at h
      obtain ⟨⟨ht, hd, -⟩, hr⟩ := h
      rw [cacheView_cons, cacheView_cons, ht, hd, ih hr]

/-- The view at an address no line holds is the bus. -/
theorem cacheView_of_not_cached {lines : List CacheLine} {a : Word} (prog : Memory)
    (h : ∀ (i : Nat) (l : CacheLine), lines[i]? = some l → l.tag ≠ a) : cacheView lines prog a = Memory.read prog a := by
  have : lines.find? (fun l => decide (l.tag = a)) = none := by
    rw [List.find?_eq_none]
    intro l hl
    obtain ⟨i, hi⟩ := List.mem_iff_getElem?.mp hl
    simpa using h i l hi
  simp [cacheView, this]

/-- The view at an address some line holds is that line's byte, when it is not the sentinel and no two lines hold it. -/
theorem cacheView_of_cached {lines : List CacheLine} {i : Nat} {l : CacheLine} (prog : Memory) (hi : lines[i]? = some l)
    (hs : l.tag ≠ sentinel) (uniq : ∀ (j : Nat) (k : CacheLine), lines[j]? = some k → k.tag = l.tag → j = i) :
    cacheView lines prog l.tag = l.data := by
  cases hf : lines.find? (fun k => decide (k.tag = l.tag)) with
  | none =>
    rw [List.find?_eq_none] at hf
    have := hf l (List.mem_of_getElem? hi)
    simp at this
  | some k =>
    obtain ⟨j, hj⟩ := List.mem_iff_getElem?.mp (List.mem_of_find?_eq_some hf)
    have ht : k.tag = l.tag := by simpa using List.find?_some hf
    have := uniq j k hj ht
    subst this
    rw [hi] at hj
    injection hj with hj
    simp only [cacheView, if_neg hs, hf]
    exact congrArg _ hj.symm

/-! ### Promotion -/

theorem cachePromote_content (n : Nat) (lines : List CacheLine) (i : Nat) : sameContent (cachePromote n lines i) lines := by
  unfold cachePromote
  split
  · rfl
  · next l hl =>
    apply List.ext_getElem?
    intro j
    simp only [List.getElem?_map, List.getElem?_set, List.length_map]
    split
    · next h =>
      subst h
      have := List.getElem?_eq_some_iff.mp hl
      obtain ⟨hlt, he⟩ := this
      simp [hlt, CacheLine.content, he]
    · cases lines[j]? with
      | none => simp
      | some k => by_cases hk : l.rank < k.rank <;> simp [hk, CacheLine.content]

theorem perm_range_of_nodup {l : List Nat} {n : Nat} (hn : l.Nodup) (hlen : l.length = n) (hlt : ∀ x ∈ l, x < n) :
    l.Perm (List.range n) := by
  apply List.Subperm.perm_of_length_le
  · exact hn.subperm fun x hx => List.mem_range.mpr (hlt x hx)
  · simp [hlen]

/-- Promotion keeps the ranks a permutation of 0..N-1 (`20_memory.md` R67). -/
theorem cachePromote_ranks {n : Nat} {lines : List CacheLine} (h : (lines.map CacheLine.rank).Perm (List.range n)) (i : Nat) :
    ((cachePromote n lines i).map CacheLine.rank).Perm (List.range n) := by
  unfold cachePromote
  split
  · exact h
  · next l hl =>
    have hlen : lines.length = n := by simpa using h.length_eq
    have hlt : ∀ k ∈ lines, k.rank < n := fun k hk =>
      List.mem_range.mp (h.subset (List.mem_map_of_mem hk))
    have hnd : (lines.map CacheLine.rank).Nodup := h.nodup_iff.mpr List.nodup_range
    obtain ⟨hi, he⟩ := List.getElem?_eq_some_iff.mp hl
    have hmap : (((lines.map fun k => if l.rank < k.rank then { k with rank := k.rank - 1 } else k).set i
        { l with rank := n - 1 }).map CacheLine.rank) =
        ((lines.map CacheLine.rank).map fun r => if r = l.rank then n - 1 else if l.rank < r then r - 1 else r) := by
      apply List.ext_getElem?
      intro j
      simp only [List.getElem?_map, List.getElem?_set, List.length_map]
      split
      · next hij => subst hij; simp [hi, he]
      · next hij =>
        cases hj : lines[j]? with
        | none => simp
        | some k =>
          obtain ⟨hj', hke⟩ := List.getElem?_eq_some_iff.mp hj
          have : k.rank ≠ l.rank := by
            intro hr
            apply hij
            have := (List.Nodup.getElem_inj_iff hnd (i := i) (j := j) (hi := by simpa using hi) (hj := by simpa using hj')).mp
              (by simp [he, hke, hr])
            exact this
          by_cases hk : l.rank < k.rank <;> simp [hk, this]
    rw [hmap]
    have hl' := hlt l (List.mem_of_getElem? hl)
    apply perm_range_of_nodup
    · apply List.Nodup.map_on _ hnd
      intro x hx y hy
      obtain ⟨a, ha, rfl⟩ := List.mem_map.mp hx
      obtain ⟨b, hb, rfl⟩ := List.mem_map.mp hy
      have := hlt a ha
      have := hlt b hb
      split <;> split <;> (try split) <;> (try split) <;> omega
    · simp [hlen]
    · intro x hx
      obtain ⟨r, hr, rfl⟩ := List.mem_map.mp hx
      obtain ⟨a, ha, rfl⟩ := List.mem_map.mp hr
      have := hlt a ha
      split
      · omega
      · split <;> omega

/-! ### Selection -/

/-- What `Select` answers (`20_memory.md` R65): a line that exists, a hit exactly when it holds the address, and on a miss
no line holds it. -/
theorem cacheSelect_spec {cfg : Config} {lines : List CacheLine} {prog : Memory} (h : CacheInv cfg lines prog)
    (hN : 0 < cfg.numLines) {addr : Word} (ha : addr ≠ sentinel) {i : Nat} {hit : Bool}
    (hs : cacheSelect cfg lines addr = (i, hit)) :
    ∃ l, lines[i]? = some l ∧ (hit = true ↔ l.tag = addr) ∧ (hit = false → ∀ (j : Nat) (k : CacheLine), lines[j]? = some k → k.tag ≠ addr) := by
  have hlen : lines.length = cfg.numLines := by simpa using h.ranks.length_eq
  unfold cacheSelect at hs
  split at hs
  · next hp =>
    injection hs with h1 h2
    have hi : i < lines.length := by rw [hlen, ← h1]; exact Nat.mod_lt _ hN
    have hg : lines[i]? = some lines[i] := List.getElem?_eq_getElem hi
    refine ⟨lines[i], hg, ?_, ?_⟩
    · rw [← h2, h1, hg]; simp
    · intro hf j k hk ht
      have hne : k.tag ≠ sentinel := by rw [ht]; exact ha
      have hj := h.placed hp j k hk hne
      rw [ht, h1] at hj
      subst hj
      rw [← h2, h1, hk] at hf
      simp [ht] at hf
  · next hp =>
    split at hs
    · next j hj =>
      injection hs with h1 h2
      subst h1 h2
      obtain ⟨hi, hp', -⟩ := List.findIdx?_eq_some_iff_getElem.mp hj
      exact ⟨lines[j], List.getElem?_eq_getElem hi, by simpa using hp', by simp⟩
    · next hj =>
      injection hs with h1 h2
      subst h1 h2
      have hnone : ∀ (j : Nat) (k : CacheLine), lines[j]? = some k → k.tag ≠ addr := by
        intro j k hk
        have := List.findIdx?_eq_none_iff.mp hj k (List.mem_of_getElem? hk)
        simpa using this
      have h0 : ∃ k ∈ lines, k.rank = 0 := by
        have : 0 ∈ lines.map CacheLine.rank := h.ranks.symm.subset (List.mem_range.mpr hN)
        obtain ⟨k, hk, hr⟩ := List.mem_map.mp this
        exact ⟨k, hk, hr⟩
      have hi : lines.findIdx (fun l => decide (l.rank = 0)) < lines.length :=
        List.findIdx_lt_length.mpr (by simpa using h0)
      refine ⟨_, List.getElem?_eq_getElem hi, ?_, fun _ => hnone⟩
      simp only [Bool.false_eq_true, false_iff]
      exact hnone _ _ (List.getElem?_eq_getElem hi)

/-! ### An access -/

/-- Changing the contents of no line keeps the invariant, whatever happens to the ranks. -/
theorem CacheInv.of_sameContent {cfg : Config} {k l : List CacheLine} {prog : Memory} (h : CacheInv cfg l prog)
    (hc : sameContent k l) (hr : (k.map CacheLine.rank).Perm (List.range cfg.numLines)) : CacheInv cfg k prog where
  ranks := hr
  tags := by
    intro i j a b ha hb ht hs
    obtain ⟨a', ha', ea⟩ := hc.getElem? ha
    obtain ⟨b', hb', eb⟩ := hc.getElem? hb
    simp only [CacheLine.content, Prod.mk.injEq] at ea eb
    exact h.tags i j a' b' ha' hb' (by rw [ea.1, eb.1, ht]) (by rw [ea.1]; exact hs)
  placed := by
    intro hp i a ha hs
    obtain ⟨a', ha', ea⟩ := hc.getElem? ha
    simp only [CacheLine.content, Prod.mk.injEq] at ea
    rw [← ea.1] at hs ⊢
    exact h.placed hp i a' ha' hs
  clean := by
    intro hw i a ha
    obtain ⟨a', ha', ea⟩ := hc.getElem? ha
    simp only [CacheLine.content, Prod.mk.injEq] at ea
    rw [← ea.2.2]
    exact h.clean hw i a' ha'
  coherent := by
    intro i a ha hs hd
    obtain ⟨a', ha', ea⟩ := hc.getElem? ha
    simp only [CacheLine.content, Prod.mk.injEq] at ea
    rw [← ea.1] at hs ⊢
    rw [← ea.2.1]
    exact h.coherent i a' ha' hs (by rw [ea.2.2]; exact hd)
  wf := h.wf

/-- The old line at an index gives way to one that holds `l'.tag`, the bus having the old line's byte: the invariant stays,
and the view changes at `l'.tag` alone. -/
theorem CacheInv.replace {cfg : Config} {lines : List CacheLine} {prog prog' : Memory} (h : CacheInv cfg lines prog)
    {i : Nat} {l l' : CacheLine} (hl : lines[i]? = some l) (hrank : l'.rank = l.rank)
    (huniq : ∀ (j : Nat) (k : CacheLine), lines[j]? = some k → k.tag = l'.tag → j = i)
    (hplaced : cfg.placement = .directMapped → l'.tag.toNat % cfg.numLines = i)
    (hclean : cfg.writePolicy = .writeThrough → l'.dirty = false)
    (hcoh : l'.dirty = false → l'.data = Memory.read prog' l'.tag) (hwf : Memory.wf prog' = true)
    (hbus : ∀ a, a ≠ l'.tag → a ≠ sentinel → Memory.read prog' a = if a = l.tag then l.data else Memory.read prog a) :
    CacheInv cfg (lines.set i l') prog' ∧
      ∀ a, a ≠ sentinel → cacheView (lines.set i l') prog' a = if a = l'.tag then l'.data else cacheView lines prog a := by
  obtain ⟨hi, hli⟩ := List.getElem?_eq_some_iff.mp hl
  have hget : ∀ (j : Nat) (k : CacheLine), (lines.set i l')[j]? = some k →
      (j = i ∧ k = l') ∨ (j ≠ i ∧ lines[j]? = some k) := by
    intro j k hk
    rw [List.getElem?_set] at hk
    split at hk
    · next hij => subst hij; simp at hk; exact .inl ⟨rfl, hk.symm⟩
    · next hij => exact .inr ⟨fun e => hij e.symm, hk⟩
  have hself : (lines.set i l')[i]? = some l' := by simp [hi]
  have huniq' : ∀ (j : Nat) (k : CacheLine), (lines.set i l')[j]? = some k → k.tag = l'.tag → j = i := by
    intro j k hk ht
    rcases hget j k hk with ⟨hj, -⟩ | ⟨-, hk⟩
    · exact hj
    · exact huniq j k hk ht
  refine ⟨⟨?_, ?_, ?_, ?_, ?_, hwf⟩, ?_⟩
  · have : (lines.set i l').map CacheLine.rank = lines.map CacheLine.rank := by
      apply List.ext_getElem?
      intro j
      simp only [List.getElem?_map, List.getElem?_set]
      split
      · next hij => subst hij; simp [hi, hrank, hli]
      · rfl
    rw [this]; exact h.ranks
  · intro j j' a b ha hb ht hsa
    rcases hget j a ha with ⟨hj, e⟩ | ⟨hj, ha⟩ <;> rcases hget j' b hb with ⟨hj', e'⟩ | ⟨hj', hb⟩
    · omega
    · exact absurd (huniq j' b hb (by rw [← ht, e])) hj'
    · exact absurd (huniq j a ha (by rw [ht, e'])) hj
    · exact h.tags j j' a b ha hb ht hsa
  · intro hp j a ha hsa
    rcases hget j a ha with ⟨hj, e⟩ | ⟨hj, ha⟩
    · rw [hj, e]; exact hplaced hp
    · exact h.placed hp j a ha hsa
  · intro hw j a ha
    rcases hget j a ha with ⟨hj, e⟩ | ⟨hj, ha⟩
    · rw [e]; exact hclean hw
    · exact h.clean hw j a ha
  · intro j a ha hsa hd
    rcases hget j a ha with ⟨hj, e⟩ | ⟨hj, ha⟩
    · rw [e] at hd ⊢; exact hcoh hd
    · have h1 : a.tag ≠ l'.tag := fun e => hj (huniq j a ha e)
      have h2 : a.tag ≠ l.tag := fun e => hj (h.tags j i a l ha hl e hsa)
      rw [hbus _ h1 hsa, if_neg h2]
      exact h.coherent j a ha hsa hd
  · intro a hsa
    split
    · next e => subst e; exact cacheView_of_cached prog' hself hsa huniq'
    · next e =>
      by_cases hc : ∃ (j : Nat) (k : CacheLine), lines[j]? = some k ∧ k.tag = a ∧ j ≠ i
      · obtain ⟨j, k, hk, hka, hj⟩ := hc
        subst hka
        rw [cacheView_of_cached prog hk hsa fun j' k' hk' ht => h.tags j' j k' k hk' hk ht (by rw [ht]; exact hsa)]
        refine cacheView_of_cached (i := j) prog' ?_ hsa ?_
        · rw [List.getElem?_set, if_neg (Ne.symm hj)]; exact hk
        · intro j' k' hk' ht
          rcases hget j' k' hk' with ⟨-, e'⟩ | ⟨-, hk'⟩
          · exact absurd (by rw [← ht, e']) e
          · exact h.tags j' j k' k hk' hk ht (by rw [ht]; exact hsa)
      · have hnone : ∀ (j : Nat) (k : CacheLine), (lines.set i l')[j]? = some k → k.tag ≠ a := by
          intro j k hk hka
          rcases hget j k hk with ⟨-, e'⟩ | ⟨hj, hk⟩
          · exact e (by rw [← hka, e'])
          · exact hc ⟨j, k, hk, hka, hj⟩
        rw [cacheView_of_not_cached prog' hnone, hbus a e hsa]
        split
        · next e2 =>
          subst e2
          exact (cacheView_of_cached prog hl hsa fun j k hk ht => h.tags j i k l hk hl ht (by rw [ht]; exact hsa)).symm
        · next e2 =>
          refine (cacheView_of_not_cached prog fun j k hk hka => ?_).symm
          by_cases hj : j = i
          · subst hj
            rw [hl] at hk
            injection hk with hk
            exact e2 (by rw [hk]; exact hka.symm)
          · exact hc ⟨j, k, hk, hka, hj⟩

/-- The byte an access answers in terms of the view before it (`20_memory.md` R73). -/
def CacheOp.answer (op : CacheOp) (old : Byte) : Byte :=
  match op with
  | .read => old
  | .write v => v

/-- EVERYTHING AN ACCESS CAN DO (`20_memory.md` R66, R73): it keeps the invariant, it answers the byte the core sees at the
address (a write, the byte written), and it changes the core's view at that address alone. -/
theorem cacheAccess_spec {cfg : Config} {lines lines' : List CacheLine} {prog prog' : Memory} {addr : Word} {op : CacheOp}
    {v : Byte} (h : CacheInv cfg lines prog) (hN : 0 < cfg.numLines) (ha : addr ≠ sentinel)
    (hacc : cacheAccess cfg lines prog addr op = (v, lines', prog')) :
    CacheInv cfg lines' prog' ∧ v = op.answer (cacheView lines prog addr) ∧
      ∀ a, a ≠ sentinel → cacheView lines' prog' a = if a = addr then v else cacheView lines prog a := by
  cases hsel : cacheSelect cfg lines addr with
  | mk i hit =>
  obtain ⟨l, hl, hhit, hmiss⟩ := cacheSelect_spec h hN ha hsel
  have huniq : ∀ (j : Nat) (k : CacheLine), lines[j]? = some k → k.tag = addr → j = i := by
    intro j k hk ht
    cases hit with
    | true => exact h.tags j i k l hk hl (by rw [ht, hhit.mp rfl]) (by rw [ht]; exact ha)
    | false => exact absurd ht (hmiss rfl j k hk)
  have hplaced : cfg.placement = .directMapped → addr.toNat % cfg.numLines = i := by
    intro hp
    simp only [cacheSelect, hp] at hsel
    injection hsel
  simp only [cacheAccess, hsel, hl] at hacc
  generalize hfl : (if (!hit && l.needsFlush) = true then Memory.write prog l.tag l.data else prog) = flushed at hacc
  have hfwf : Memory.wf flushed = true := by
    rw [← hfl]; split
    · exact Memory.wf_write h.wf _ _
    · exact h.wf
  have hfread : ∀ a, a ≠ addr → a ≠ sentinel → Memory.read flushed a = if a = l.tag then l.data else Memory.read prog a := by
    intro a hne hs
    rw [← hfl]
    cases hit with
    | true =>
      have : l.tag = addr := hhit.mp rfl
      simp [this, hne]
    | false =>
      cases hd : l.needsFlush with
      | true => simp [Memory.read_write h.wf]
      | false =>
        simp only [Bool.not_false, Bool.and_false, Bool.false_eq_true, if_false]
        split
        · next e =>
          subst e
          have hdirty : l.dirty = false := by
            by_contra hdd
            simp [CacheLine.needsFlush, hs, hdd] at hd
          rw [h.coherent i l hl hs hdirty]
        · rfl
  have hfin : ∀ (l' : CacheLine) (p : Memory), l'.tag = addr → l'.rank = l.rank →
      (cfg.writePolicy = .writeThrough → l'.dirty = false) → (l'.dirty = false → l'.data = Memory.read p addr) →
      Memory.wf p = true → (∀ a, a ≠ addr → a ≠ sentinel → Memory.read p a = if a = l.tag then l.data else Memory.read prog a) →
      CacheInv cfg (cachePromote cfg.numLines (lines.set i l') i) p ∧
        ∀ a, a ≠ sentinel → cacheView (cachePromote cfg.numLines (lines.set i l') i) p a =
          if a = addr then l'.data else cacheView lines prog a := by
    intro l' p ht hr hc hd hw hb
    obtain ⟨h1, h2⟩ := h.replace (l' := l') (prog' := p) hl hr (by rw [ht]; exact huniq)
      (by rw [ht]; exact hplaced) hc (by rw [ht]; exact hd) hw (by rw [ht]; exact hb)
    have hsc := cachePromote_content cfg.numLines (lines.set i l') i
    refine ⟨h1.of_sameContent hsc (cachePromote_ranks h1.ranks i), fun a hsa => ?_⟩
    rw [hsc.view, h2 a hsa, ht]
  have hdirtyHit : hit = true → l.dirty = false → l.data = Memory.read flushed addr := by
    intro hh hd
    have ht : l.tag = addr := hhit.mp hh
    rw [← hfl, hh]
    simpa [ht] using h.coherent i l hl (by rw [ht]; exact ha) hd
  have hviewHit : hit = true → cacheView lines prog addr = l.data := by
    intro hh
    have ht : l.tag = addr := hhit.mp hh
    rw [← ht]
    exact cacheView_of_cached prog hl (by rw [ht]; exact ha) fun j k hk hkt => huniq j k hk (by rw [hkt, ht])
  have hviewMiss : hit = false → cacheView lines prog addr = Memory.read flushed addr := by
    intro hh
    rw [cacheView_of_not_cached prog (hmiss hh), ← hfl]
    have : addr ≠ l.tag := fun e => hmiss hh i l hl e.symm
    split
    · rw [Memory.read_write_ne _ _ this]
    · rfl
  cases op with
  | read =>
    simp only [Prod.mk.injEq] at hacc
    obtain ⟨hv, hlines, hprog⟩ := hacc
    subst hv hlines hprog
    cases hit with
    | true =>
      obtain ⟨h1, h2⟩ := hfin l flushed (hhit.mp rfl) rfl (fun hw => h.clean hw i l hl) (hdirtyHit rfl) hfwf hfread
      simp only [cacheInstall, if_true]
      exact ⟨h1, (hviewHit rfl).symm, h2⟩
    | false =>
      obtain ⟨h1, h2⟩ := hfin { l with tag := addr, data := Memory.read flushed addr, dirty := false } flushed rfl rfl
        (fun _ => rfl) (fun _ => rfl) hfwf hfread
      simp only [cacheInstall, Bool.false_eq_true, if_false]
      exact ⟨h1, (hviewMiss rfl).symm, h2⟩
  | write w =>
    cases hwp : cfg.writePolicy with
    | writeBack =>
      simp only [hwp, cacheInstall, Prod.mk.injEq] at hacc
      obtain ⟨hv, hlines, hprog⟩ := hacc
      subst hv hlines hprog
      obtain ⟨h1, h2⟩ := hfin { l with tag := addr, data := w, dirty := true } flushed rfl rfl
        (fun hw => by simp [hwp] at hw) (fun hd => by simp at hd) hfwf hfread
      exact ⟨h1, rfl, h2⟩
    | writeThrough =>
      simp only [hwp, cacheInstall, Prod.mk.injEq] at hacc
      obtain ⟨hv, hlines, hprog⟩ := hacc
      subst hv hlines hprog
      have hself : Memory.read (Memory.write flushed addr w) addr = w := Memory.read_write_self hfwf _ _
      have hother : ∀ a, a ≠ addr → a ≠ sentinel →
          Memory.read (Memory.write flushed addr w) a = if a = l.tag then l.data else Memory.read prog a := by
        intro a hne hs
        rw [Memory.read_write_ne _ _ hne]; exact hfread a hne hs
      cases hit with
      | true =>
        obtain ⟨h1, h2⟩ := hfin { l with data := w } (Memory.write flushed addr w) (hhit.mp rfl) rfl
          (fun hw => h.clean hw i l hl) (fun _ => hself.symm) (Memory.wf_write hfwf _ _) hother
        simp only [if_true]
        exact ⟨h1, rfl, h2⟩
      | false =>
        obtain ⟨h1, h2⟩ := hfin { l with tag := addr, data := w, dirty := false } (Memory.write flushed addr w) rfl rfl
          (fun _ => rfl) (fun _ => hself.symm) (Memory.wf_write hfwf _ _) hother
        simp only [Bool.false_eq_true, if_false]
        exact ⟨h1, rfl, h2⟩

/-! ### The flush -/

theorem cacheFlushBus_spec (lines : List CacheLine) {prog : Memory} (hw : Memory.wf prog = true) :
    Memory.wf (cacheFlushBus lines prog) = true ∧
      (∀ a, (∀ k ∈ lines, k.needsFlush = true → k.tag ≠ a) → Memory.read (cacheFlushBus lines prog) a = Memory.read prog a) ∧
      ∀ l ∈ lines, l.needsFlush = true → (∀ k ∈ lines, k.tag = l.tag → k.data = l.data) →
        Memory.read (cacheFlushBus lines prog) l.tag = l.data := by
  induction lines generalizing prog with
  | nil => exact ⟨hw, fun _ _ => rfl, fun l hl => absurd hl (by simp)⟩
  | cons x rest ih =>
    have hx : Memory.wf (if x.needsFlush then Memory.write prog x.tag x.data else prog) = true := by
      split
      · exact Memory.wf_write hw _ _
      · exact hw
    obtain ⟨h1, h2, h3⟩ := ih hx
    have hcons : cacheFlushBus (x :: rest) prog =
        cacheFlushBus rest (if x.needsFlush then Memory.write prog x.tag x.data else prog) := rfl
    rw [hcons]
    refine ⟨h1, ?_, ?_⟩
    · intro a ha
      rw [h2 a fun k hk => ha k (List.mem_cons_of_mem _ hk)]
      split
      · next hxf => exact Memory.read_write_ne _ _ fun e => ha x List.mem_cons_self hxf e.symm
      · rfl
    · intro l hl hlf hdata
      by_cases hin : ∃ k ∈ rest, k.needsFlush = true ∧ k.tag = l.tag
      · obtain ⟨k, hk, hkf, hkt⟩ := hin
        have hkd := hdata k (List.mem_cons_of_mem _ hk) hkt
        rw [← hkt, ← hkd]
        exact h3 k hk hkf fun k' hk' ht => by
          rw [hkd]; exact hdata k' (List.mem_cons_of_mem _ hk') (by rw [ht, hkt])
      · rw [h2 l.tag fun k hk hkf e => hin ⟨k, hk, hkf, e⟩]
        rcases List.mem_cons.mp hl with rfl | hl
        · simp [hlf, Memory.read_write_self hw]
        · exact absurd ⟨l, hl, hlf, rfl⟩ hin

theorem cacheView_cacheFlushLines (lines : List CacheLine) (m : Memory) (a : Word) :
    cacheView (cacheFlushLines lines) m a = cacheView lines m a := by
  unfold cacheFlushLines
  induction lines with
  | nil => rfl
  | cons x r ih =>
    rw [List.map_cons, cacheView_cons, cacheView_cons, ih]
    split <;> rfl

/-- EVERYTHING THE FLUSH DOES (`20_memory.md` R74): it keeps the invariant and the core's view, and afterwards the bus holds
that view at every address (R95; at the sentinel by log 17). -/
theorem cacheFlush_spec {cfg : Config} {lines : List CacheLine} {prog : Memory} (h : CacheInv cfg lines prog) :
    CacheInv cfg (cacheFlushLines lines) (cacheFlushBus lines prog) ∧
      ∀ a, Memory.read (cacheFlushBus lines prog) a = cacheView lines prog a ∧
        cacheView (cacheFlushLines lines) (cacheFlushBus lines prog) a = cacheView lines prog a := by
  obtain ⟨hwf, hother, hself⟩ := cacheFlushBus_spec lines h.wf
  have hget : ∀ (i : Nat) (a : CacheLine), (cacheFlushLines lines)[i]? = some a →
      ∃ b, lines[i]? = some b ∧ a.tag = b.tag ∧ a.data = b.data ∧ a.rank = b.rank ∧
        a.dirty = if b.needsFlush then false else b.dirty := by
    intro i a ha
    simp only [cacheFlushLines, List.getElem?_map, Option.map_eq_some_iff] at ha
    obtain ⟨b, hb, e⟩ := ha
    refine ⟨b, hb, ?_⟩
    cases hf : b.needsFlush <;> simp [hf] at e <;> subst e <;> simp
  have hbusview : ∀ a, Memory.read (cacheFlushBus lines prog) a = cacheView lines prog a := by
    intro a
    by_cases hs : a = sentinel
    · rw [hs, cacheView_sentinel, hother]
      intro k _ hf hk
      simp [CacheLine.needsFlush, hk] at hf
    by_cases hc : ∃ (i : Nat) (k : CacheLine), lines[i]? = some k ∧ k.tag = a
    · obtain ⟨i, k, hk, rfl⟩ := hc
      have huniq : ∀ (j : Nat) (k' : CacheLine), lines[j]? = some k' → k'.tag = k.tag → j = i :=
        fun j k' hk' ht => h.tags j i k' k hk' hk ht (by rw [ht]; exact hs)
      rw [cacheView_of_cached prog hk hs huniq]
      cases hf : k.needsFlush with
      | true =>
        refine hself k (List.mem_of_getElem? hk) hf fun k' hk' ht => ?_
        obtain ⟨j, hj⟩ := List.mem_iff_getElem?.mp hk'
        have := huniq j k' hj ht
        subst this
        rw [hk] at hj
        injection hj with hj
        rw [hj]
      | false =>
        have hd : k.dirty = false := by
          by_contra hdd
          simp [CacheLine.needsFlush, hs, hdd] at hf
        rw [hother k.tag, h.coherent i k hk hs hd]
        intro k' hk' hf' ht
        obtain ⟨j, hj⟩ := List.mem_iff_getElem?.mp hk'
        have := huniq j k' hj ht
        subst this
        rw [hk] at hj
        injection hj with hj
        rw [hj, hf'] at hf
        exact absurd hf (by simp)
    · rw [cacheView_of_not_cached prog fun i k hk hka => hc ⟨i, k, hk, hka⟩, hother a]
      intro k hk _ ht
      obtain ⟨j, hj⟩ := List.mem_iff_getElem?.mp hk
      exact hc ⟨j, k, hj, ht⟩
  have hview : ∀ (m : Memory) a, cacheView (cacheFlushLines lines) m a = cacheView lines m a :=
    cacheView_cacheFlushLines lines
  refine ⟨⟨?_, ?_, ?_, ?_, ?_, hwf⟩, fun a => ⟨hbusview a, ?_⟩⟩
  · have : (cacheFlushLines lines).map CacheLine.rank = lines.map CacheLine.rank := by
      simp only [cacheFlushLines, List.map_map]
      apply List.map_congr_left
      intro k _
      simp only [Function.comp]
      split <;> rfl
    rw [this]; exact h.ranks
  · intro i j a b ha hb ht hs
    obtain ⟨a', ha', e, -⟩ := hget i a ha
    obtain ⟨b', hb', e', -⟩ := hget j b hb
    exact h.tags i j a' b' ha' hb' (by rw [← e, ← e', ht]) (by rw [← e]; exact hs)
  · intro hp i a ha hs
    obtain ⟨a', ha', e, -⟩ := hget i a ha
    rw [e] at hs ⊢
    exact h.placed hp i a' ha' hs
  · intro hw i a ha
    obtain ⟨a', ha', -, -, -, e⟩ := hget i a ha
    rw [e]
    split
    · rfl
    · exact h.clean hw i a' ha'
  · intro i a ha hs _
    obtain ⟨a', ha', e, e', -⟩ := hget i a ha
    rw [e] at hs ⊢
    rw [e', hbusview]
    exact (cacheView_of_cached prog ha' hs fun j k hk ht => h.tags j i k a' hk ha' ht (by rw [ht]; exact hs)).symm
  · rw [hview]
    by_cases hs : a = sentinel
    · rw [hs, cacheView_sentinel, hbusview]
    by_cases hc : ∃ (i : Nat) (k : CacheLine), lines[i]? = some k ∧ k.tag = a
    · obtain ⟨i, k, hk, rfl⟩ := hc
      have huniq : ∀ (j : Nat) (k' : CacheLine), lines[j]? = some k' → k'.tag = k.tag → j = i :=
        fun j k' hk' ht => h.tags j i k' k hk' hk ht (by rw [ht]; exact hs)
      rw [cacheView_of_cached _ hk hs huniq, cacheView_of_cached _ hk hs huniq]
    · have hn : ∀ (i : Nat) (k : CacheLine), lines[i]? = some k → k.tag ≠ a := fun i k hk hka => hc ⟨i, k, hk, hka⟩
      rw [cacheView_of_not_cached _ hn, hbusview a]

end Sys2Proof.Machine
end

