-- ==== Sys2Proof/Laws/Monad.lean ====
section
/-! SUPPORT. What each combinator of `M` does to a state, so that no proof unfolds `EStateM`. -/

namespace Sys2Proof.Machine

variable {α β : Type}

@[simp] theorem M.pure_apply (a : α) (s : State) : (pure a : M α) s = .ok a s := rfl

@[simp] theorem M.bind_apply (x : M α) (f : α → M β) (s : State) :
    (x >>= f) s = match x s with
      | .ok a t => f a t
      | .error r t => .error r t := by
  show EStateM.bind x f s = _
  unfold EStateM.bind
  cases x s <;> rfl

@[simp] theorem M.map_apply (f : α → β) (x : M α) (s : State) :
    (f <$> x) s = match x s with
      | .ok a t => .ok (f a) t
      | .error r t => .error r t := by
  show EStateM.map f x s = _
  unfold EStateM.map
  cases x s <;> rfl

@[simp] theorem M.get_apply (s : State) : (get : M State) s = .ok s s := rfl

@[simp] theorem M.set_apply (t s : State) : (set t : M PUnit) s = .ok ⟨⟩ t := rfl

@[simp] theorem M.modify_apply (f : State → State) (s : State) : (modify f : M PUnit) s = .ok ⟨⟩ (f s) := rfl

@[simp] theorem M.throw_apply (r : FaultReason) (s : State) : (throw r : M α) s = .error r s := rfl

/-- A bind answers a value exactly when both parts do. -/
theorem M.bind_eq_ok {x : M α} {f : α → M β} {s t : State} {b : β} :
    (x >>= f) s = .ok b t ↔ ∃ a u, x s = .ok a u ∧ f a u = .ok b t := by
  rw [M.bind_apply]
  cases h : x s <;> simp

/-- A bind faults exactly when one part does. -/
theorem M.bind_eq_error {x : M α} {f : α → M β} {s t : State} {r : FaultReason} :
    (x >>= f) s = .error r t ↔ x s = .error r t ∨ ∃ a u, x s = .ok a u ∧ f a u = .error r t := by
  rw [M.bind_apply]
  cases h : x s <;> simp

theorem M.finish_ok {m : M Unit} {s t : State} (h : m s = .ok () t) : M.finish m s = .next t := by
  simp [M.finish, h]

theorem M.finish_error {m : M Unit} {s t : State} {r : FaultReason} (h : m s = .error r t) :
    M.finish m s = .next (t.raise r) := by
  simp [M.finish, h]

/-- A finished computation always answers a next state: the one it ends in, or the one it faults in with `run`
Faulted. -/
theorem M.finish_cases {m : M Unit} {s t : State} (h : M.finish m s = .next t) :
    m s = .ok () t ∨ ∃ r u, m s = .error r u ∧ t = u.raise r := by
  unfold M.finish at h
  split at h
  · next h' => injection h with h; exact .inl (h ▸ h')
  · next h' => injection h with h; exact .inr ⟨_, _, h', h.symm⟩

end Sys2Proof.Machine
end

