-- ==== Sys2Proof/Laws/State.lean ====
section
/-! SUPPORT. One lemma for each field of the state under each named update, true by `rfl`, and the read-after-write laws of
register memory. -/

namespace Sys2Proof.Machine

theorem State.ext {s t : State} (cfg : s.cfg = t.cfg) (regs : s.regs = t.regs) (pc : s.pc = t.pc) (prog : s.prog = t.prog)
    (data : s.data = t.data) (lines : s.lines = t.lines) (pred : s.pred = t.pred) (run : s.run = t.run)
    (cycles : s.cycles = t.cycles) (lastTick : s.lastTick = t.lastTick) (dev : s.dev = t.dev) : s = t := by
  cases s; cases t; simp_all

/-! ### `setReg` -/

@[simp] theorem State.setReg_cfg (s : State) (a v : Byte) : (s.setReg a v).cfg = s.cfg := rfl
@[simp] theorem State.setReg_pc (s : State) (a v : Byte) : (s.setReg a v).pc = s.pc := rfl
@[simp] theorem State.setReg_prog (s : State) (a v : Byte) : (s.setReg a v).prog = s.prog := rfl
@[simp] theorem State.setReg_data (s : State) (a v : Byte) : (s.setReg a v).data = s.data := rfl
@[simp] theorem State.setReg_lines (s : State) (a v : Byte) : (s.setReg a v).lines = s.lines := rfl
@[simp] theorem State.setReg_pred (s : State) (a v : Byte) : (s.setReg a v).pred = s.pred := rfl
@[simp] theorem State.setReg_run (s : State) (a v : Byte) : (s.setReg a v).run = s.run := rfl
@[simp] theorem State.setReg_cycles (s : State) (a v : Byte) : (s.setReg a v).cycles = s.cycles := rfl
@[simp] theorem State.setReg_lastTick (s : State) (a v : Byte) : (s.setReg a v).lastTick = s.lastTick := rfl
@[simp] theorem State.setReg_dev (s : State) (a v : Byte) : (s.setReg a v).dev = s.dev := rfl

/-! ### `charge` -/

@[simp] theorem State.charge_cfg (s : State) (k : Nat) : (s.charge k).cfg = s.cfg := rfl
@[simp] theorem State.charge_regs (s : State) (k : Nat) : (s.charge k).regs = s.regs := rfl
@[simp] theorem State.charge_pc (s : State) (k : Nat) : (s.charge k).pc = s.pc := rfl
@[simp] theorem State.charge_prog (s : State) (k : Nat) : (s.charge k).prog = s.prog := rfl
@[simp] theorem State.charge_data (s : State) (k : Nat) : (s.charge k).data = s.data := rfl
@[simp] theorem State.charge_lines (s : State) (k : Nat) : (s.charge k).lines = s.lines := rfl
@[simp] theorem State.charge_pred (s : State) (k : Nat) : (s.charge k).pred = s.pred := rfl
@[simp] theorem State.charge_run (s : State) (k : Nat) : (s.charge k).run = s.run := rfl
@[simp] theorem State.charge_cycles (s : State) (k : Nat) : (s.charge k).cycles = s.cycles + k := rfl
@[simp] theorem State.charge_lastTick (s : State) (k : Nat) : (s.charge k).lastTick = s.lastTick := rfl
@[simp] theorem State.charge_dev (s : State) (k : Nat) : (s.charge k).dev = s.dev := rfl

/-! ### `raise` -/

@[simp] theorem State.raise_cfg (s : State) (r : FaultReason) : (s.raise r).cfg = s.cfg := rfl
@[simp] theorem State.raise_regs (s : State) (r : FaultReason) : (s.raise r).regs = s.regs := rfl
@[simp] theorem State.raise_pc (s : State) (r : FaultReason) : (s.raise r).pc = s.pc := rfl
@[simp] theorem State.raise_prog (s : State) (r : FaultReason) : (s.raise r).prog = s.prog := rfl
@[simp] theorem State.raise_data (s : State) (r : FaultReason) : (s.raise r).data = s.data := rfl
@[simp] theorem State.raise_lines (s : State) (r : FaultReason) : (s.raise r).lines = s.lines := rfl
@[simp] theorem State.raise_pred (s : State) (r : FaultReason) : (s.raise r).pred = s.pred := rfl
@[simp] theorem State.raise_run (s : State) (r : FaultReason) : (s.raise r).run = .faulted r := rfl
@[simp] theorem State.raise_cycles (s : State) (r : FaultReason) : (s.raise r).cycles = s.cycles := rfl
@[simp] theorem State.raise_lastTick (s : State) (r : FaultReason) : (s.raise r).lastTick = s.lastTick := rfl
@[simp] theorem State.raise_dev (s : State) (r : FaultReason) : (s.raise r).dev = s.dev := rfl

/-! ### `jump` -/

@[simp] theorem State.jump_cfg (s : State) (t : Word) : (s.jump t).cfg = s.cfg := rfl
@[simp] theorem State.jump_regs (s : State) (t : Word) : (s.jump t).regs = s.regs := rfl
@[simp] theorem State.jump_pc (s : State) (t : Word) : (s.jump t).pc = t := rfl
@[simp] theorem State.jump_prog (s : State) (t : Word) : (s.jump t).prog = s.prog := rfl
@[simp] theorem State.jump_data (s : State) (t : Word) : (s.jump t).data = s.data := rfl
@[simp] theorem State.jump_lines (s : State) (t : Word) : (s.jump t).lines = s.lines := rfl
@[simp] theorem State.jump_pred (s : State) (t : Word) : (s.jump t).pred = s.pred.zero := rfl
@[simp] theorem State.jump_run (s : State) (t : Word) : (s.jump t).run = s.run := rfl
@[simp] theorem State.jump_cycles (s : State) (t : Word) : (s.jump t).cycles = s.cycles := rfl
@[simp] theorem State.jump_lastTick (s : State) (t : Word) : (s.jump t).lastTick = s.lastTick := rfl
@[simp] theorem State.jump_dev (s : State) (t : Word) : (s.jump t).dev = s.dev := rfl

/-! ### `setSp` -/

@[simp] theorem State.setSp_cfg (s : State) (w : Word) : (s.setSp w).cfg = s.cfg := rfl
@[simp] theorem State.setSp_pc (s : State) (w : Word) : (s.setSp w).pc = s.pc := rfl
@[simp] theorem State.setSp_prog (s : State) (w : Word) : (s.setSp w).prog = s.prog := rfl
@[simp] theorem State.setSp_data (s : State) (w : Word) : (s.setSp w).data = s.data := rfl
@[simp] theorem State.setSp_lines (s : State) (w : Word) : (s.setSp w).lines = s.lines := rfl
@[simp] theorem State.setSp_pred (s : State) (w : Word) : (s.setSp w).pred = s.pred := rfl
@[simp] theorem State.setSp_run (s : State) (w : Word) : (s.setSp w).run = s.run := rfl
@[simp] theorem State.setSp_cycles (s : State) (w : Word) : (s.setSp w).cycles = s.cycles := rfl
@[simp] theorem State.setSp_lastTick (s : State) (w : Word) : (s.setSp w).lastTick = s.lastTick := rfl
@[simp] theorem State.setSp_dev (s : State) (w : Word) : (s.setSp w).dev = s.dev := rfl

/-! ### `updateFlags` -/

@[simp] theorem State.updateFlags_cfg (s : State) (u : FlagBits) : (s.updateFlags u).cfg = s.cfg := rfl
@[simp] theorem State.updateFlags_pc (s : State) (u : FlagBits) : (s.updateFlags u).pc = s.pc := rfl
@[simp] theorem State.updateFlags_prog (s : State) (u : FlagBits) : (s.updateFlags u).prog = s.prog := rfl
@[simp] theorem State.updateFlags_data (s : State) (u : FlagBits) : (s.updateFlags u).data = s.data := rfl
@[simp] theorem State.updateFlags_lines (s : State) (u : FlagBits) : (s.updateFlags u).lines = s.lines := rfl
@[simp] theorem State.updateFlags_pred (s : State) (u : FlagBits) : (s.updateFlags u).pred = s.pred := rfl
@[simp] theorem State.updateFlags_run (s : State) (u : FlagBits) : (s.updateFlags u).run = s.run := rfl
@[simp] theorem State.updateFlags_cycles (s : State) (u : FlagBits) : (s.updateFlags u).cycles = s.cycles := rfl
@[simp] theorem State.updateFlags_lastTick (s : State) (u : FlagBits) : (s.updateFlags u).lastTick = s.lastTick := rfl
@[simp] theorem State.updateFlags_dev (s : State) (u : FlagBits) : (s.updateFlags u).dev = s.dev := rfl

/-! ### `markPending` -/

@[simp] theorem State.markPending_cfg (s : State) (q : Irq6) : (s.markPending q).cfg = s.cfg := rfl
@[simp] theorem State.markPending_pc (s : State) (q : Irq6) : (s.markPending q).pc = s.pc := rfl
@[simp] theorem State.markPending_prog (s : State) (q : Irq6) : (s.markPending q).prog = s.prog := rfl
@[simp] theorem State.markPending_data (s : State) (q : Irq6) : (s.markPending q).data = s.data := rfl
@[simp] theorem State.markPending_lines (s : State) (q : Irq6) : (s.markPending q).lines = s.lines := rfl
@[simp] theorem State.markPending_pred (s : State) (q : Irq6) : (s.markPending q).pred = s.pred := rfl
@[simp] theorem State.markPending_run (s : State) (q : Irq6) : (s.markPending q).run = s.run := rfl
@[simp] theorem State.markPending_cycles (s : State) (q : Irq6) : (s.markPending q).cycles = s.cycles := rfl
@[simp] theorem State.markPending_lastTick (s : State) (q : Irq6) : (s.markPending q).lastTick = s.lastTick := rfl
@[simp] theorem State.markPending_dev (s : State) (q : Irq6) : (s.markPending q).dev = s.dev := rfl

/-! ### `restoreFlags` -/

@[simp] theorem State.restoreFlags_cfg (s : State) : (s.restoreFlags).cfg = s.cfg := rfl
@[simp] theorem State.restoreFlags_pc (s : State) : (s.restoreFlags).pc = s.pc := rfl
@[simp] theorem State.restoreFlags_prog (s : State) : (s.restoreFlags).prog = s.prog := rfl
@[simp] theorem State.restoreFlags_data (s : State) : (s.restoreFlags).data = s.data := rfl
@[simp] theorem State.restoreFlags_lines (s : State) : (s.restoreFlags).lines = s.lines := rfl
@[simp] theorem State.restoreFlags_pred (s : State) : (s.restoreFlags).pred = s.pred := rfl
@[simp] theorem State.restoreFlags_run (s : State) : (s.restoreFlags).run = s.run := rfl
@[simp] theorem State.restoreFlags_cycles (s : State) : (s.restoreFlags).cycles = s.cycles := rfl
@[simp] theorem State.restoreFlags_lastTick (s : State) : (s.restoreFlags).lastTick = s.lastTick := rfl
@[simp] theorem State.restoreFlags_dev (s : State) : (s.restoreFlags).dev = s.dev := rfl

/-! ### `countTrue` -/

@[simp] theorem State.countTrue_cfg (s : State) : (s.countTrue).cfg = s.cfg := rfl
@[simp] theorem State.countTrue_regs (s : State) : (s.countTrue).regs = s.regs := rfl
@[simp] theorem State.countTrue_pc (s : State) : (s.countTrue).pc = s.pc := rfl
@[simp] theorem State.countTrue_prog (s : State) : (s.countTrue).prog = s.prog := rfl
@[simp] theorem State.countTrue_data (s : State) : (s.countTrue).data = s.data := rfl
@[simp] theorem State.countTrue_lines (s : State) : (s.countTrue).lines = s.lines := rfl
@[simp] theorem State.countTrue_run (s : State) : (s.countTrue).run = s.run := rfl
@[simp] theorem State.countTrue_cycles (s : State) : (s.countTrue).cycles = s.cycles := rfl
@[simp] theorem State.countTrue_lastTick (s : State) : (s.countTrue).lastTick = s.lastTick := rfl
@[simp] theorem State.countTrue_dev (s : State) : (s.countTrue).dev = s.dev := rfl

/-! ### `countFalse` -/

@[simp] theorem State.countFalse_cfg (s : State) : (s.countFalse).cfg = s.cfg := rfl
@[simp] theorem State.countFalse_regs (s : State) : (s.countFalse).regs = s.regs := rfl
@[simp] theorem State.countFalse_pc (s : State) : (s.countFalse).pc = s.pc := rfl
@[simp] theorem State.countFalse_prog (s : State) : (s.countFalse).prog = s.prog := rfl
@[simp] theorem State.countFalse_data (s : State) : (s.countFalse).data = s.data := rfl
@[simp] theorem State.countFalse_lines (s : State) : (s.countFalse).lines = s.lines := rfl
@[simp] theorem State.countFalse_run (s : State) : (s.countFalse).run = s.run := rfl
@[simp] theorem State.countFalse_cycles (s : State) : (s.countFalse).cycles = s.cycles := rfl
@[simp] theorem State.countFalse_lastTick (s : State) : (s.countFalse).lastTick = s.lastTick := rfl
@[simp] theorem State.countFalse_dev (s : State) : (s.countFalse).dev = s.dev := rfl

/-! ### `flushAll` -/

@[simp] theorem State.flushAll_cfg (s : State) : (s.flushAll).cfg = s.cfg := rfl
@[simp] theorem State.flushAll_regs (s : State) : (s.flushAll).regs = s.regs := rfl
@[simp] theorem State.flushAll_pc (s : State) : (s.flushAll).pc = s.pc := rfl
@[simp] theorem State.flushAll_prog (s : State) : (s.flushAll).prog = cacheFlushBus s.lines s.prog := rfl
@[simp] theorem State.flushAll_data (s : State) : (s.flushAll).data = s.data := rfl
@[simp] theorem State.flushAll_lines (s : State) : (s.flushAll).lines = cacheFlushLines s.lines := rfl
@[simp] theorem State.flushAll_pred (s : State) : (s.flushAll).pred = s.pred := rfl
@[simp] theorem State.flushAll_run (s : State) : (s.flushAll).run = s.run := rfl
@[simp] theorem State.flushAll_cycles (s : State) : (s.flushAll).cycles = s.cycles := rfl
@[simp] theorem State.flushAll_lastTick (s : State) : (s.flushAll).lastTick = s.lastTick := rfl
@[simp] theorem State.flushAll_dev (s : State) : (s.flushAll).dev = s.dev := rfl

/-! ### `exhaust` -/

@[simp] theorem State.exhaust_cfg (s : State) : (s.exhaust).cfg = s.cfg := rfl
@[simp] theorem State.exhaust_regs (s : State) : (s.exhaust).regs = s.regs := rfl
@[simp] theorem State.exhaust_pc (s : State) : (s.exhaust).pc = s.pc := rfl
@[simp] theorem State.exhaust_prog (s : State) : (s.exhaust).prog = cacheFlushBus s.lines s.prog := rfl
@[simp] theorem State.exhaust_data (s : State) : (s.exhaust).data = s.data := rfl
@[simp] theorem State.exhaust_lines (s : State) : (s.exhaust).lines = cacheFlushLines s.lines := rfl
@[simp] theorem State.exhaust_pred (s : State) : (s.exhaust).pred = s.pred := rfl
@[simp] theorem State.exhaust_run (s : State) : (s.exhaust).run = .exhausted := rfl
@[simp] theorem State.exhaust_cycles (s : State) : (s.exhaust).cycles = s.cycles := rfl
@[simp] theorem State.exhaust_lastTick (s : State) : (s.exhaust).lastTick = s.lastTick := rfl
@[simp] theorem State.exhaust_dev (s : State) : (s.exhaust).dev = s.dev := rfl

/-! ### Reading a slot after an update -/

/-- Register memory, read after write (`10_state.md` R21). -/
theorem State.reg_setReg (s : State) (a v b : Byte) : (s.setReg a v).reg b = if b = a then v else s.reg b := by
  simp only [State.reg, State.setReg, Vector.getElem_set, BitVec.toNat_inj]
  split <;> split <;> simp_all

@[simp] theorem State.reg_setReg_self (s : State) (a v : Byte) : (s.setReg a v).reg a = v := by
  simp [State.reg_setReg]

theorem State.reg_setReg_ne (s : State) {a b : Byte} (v : Byte) (h : b ≠ a) : (s.setReg a v).reg b = s.reg b := by
  simp [State.reg_setReg, h]

/-- Two states with the same register memory read the same at every slot. -/
theorem State.reg_congr {s t : State} (h : s.regs = t.regs) (a : Byte) : s.reg a = t.reg a := by
  simp [State.reg, h]

/-- Register memory is what its 256 slots read as. -/
theorem State.regs_ext {s t : State} (h : ∀ a, s.reg a = t.reg a) : s.regs = t.regs := by
  apply Vector.ext
  intro i hi
  have := h (BitVec.ofNat 8 i)
  simpa [State.reg, Nat.mod_eq_of_lt hi] using this

@[simp] theorem State.reg_charge (s : State) (k : Nat) (c : Byte) : (s.charge k).reg c = s.reg c := rfl
@[simp] theorem State.reg_raise (s : State) (r : FaultReason) (c : Byte) : (s.raise r).reg c = s.reg c := rfl
@[simp] theorem State.reg_jump (s : State) (t : Word) (c : Byte) : (s.jump t).reg c = s.reg c := rfl
@[simp] theorem State.reg_countTrue (s : State) (c : Byte) : (s.countTrue).reg c = s.reg c := rfl
@[simp] theorem State.reg_countFalse (s : State) (c : Byte) : (s.countFalse).reg c = s.reg c := rfl
@[simp] theorem State.reg_flushAll (s : State) (c : Byte) : (s.flushAll).reg c = s.reg c := rfl
@[simp] theorem State.reg_exhaust (s : State) (c : Byte) : (s.exhaust).reg c = s.reg c := rfl

theorem State.reg_updateFlags (s : State) (u : FlagBits) (a : Byte) :
    (s.updateFlags u).reg a = if a = slotFLAGS then applyFlags u s.flags else s.reg a := by
  simp [State.updateFlags, State.reg_setReg]

theorem State.reg_setSp (s : State) (w : Word) (a : Byte) :
    (s.setSp w).reg a = if a = slotSPL then loByte w else if a = slotSPH then hiByte w else s.reg a := by
  simp [State.setSp, State.reg_setReg]

theorem State.reg_markPending (s : State) (q : Irq6) (a : Byte) :
    (s.markPending q).reg a = if a = slotIRQ then s.reg slotIRQ ||| q.setWidth 8 else s.reg a := by
  simp [State.markPending, State.reg_setReg]

theorem State.reg_restoreFlags (s : State) (a : Byte) :
    s.restoreFlags.reg a = if a = slotFLAGS then s.pred.snap else s.reg a := by
  simp [State.restoreFlags, State.reg_setReg]

@[simp] theorem State.flags_charge (s : State) (k : Nat) : (s.charge k).flags = s.flags := rfl

@[simp] theorem State.flags_updateFlags (s : State) (u : FlagBits) : (s.updateFlags u).flags = applyFlags u s.flags := by
  simp [State.flags, State.reg_updateFlags]

@[simp] theorem State.sp_setSp (s : State) (w : Word) : (s.setSp w).sp = w := by
  simp [State.sp, State.reg_setSp, show slotSPH ≠ slotSPL by decide]

@[simp] theorem State.policy_setReg (s : State) (a v b : Byte) : (s.setReg a v).policy b = s.policy b := rfl

@[simp] theorem State.policy_charge (s : State) (k : Nat) (b : Byte) : (s.charge k).policy b = s.policy b := rfl

end Sys2Proof.Machine
end

