-- ==== Sys2Proof/Laws/Registers.lean ====
section
/-! SUPPORT. The laws of register access: window resolution, the slot policies, and everything a read or a write of a slot
can do. -/

namespace Sys2Proof.Machine

/-! ### Resolution -/

/-- When resolution is refused (`10_state.md` R28). -/
theorem resolve_eq_none {rp a : Byte} :
    resolve rp a = none ↔ hiNib a = 0xE#4 ∧ (loNib rp = 0xE#4 ∨ loNib rp = 0xF#4) := by
  unfold resolve
  split
  · split <;> simp_all
  · simp_all

/-- An address outside the window is its own slot. -/
theorem resolve_direct {a : Byte} (rp : Byte) (h : hiNib a ≠ 0xE#4) : resolve rp a = some a := by
  simp [resolve, h]

/-- A working register of a legal window (`10_state.md` R25). -/
theorem resolve_wreg {rp : Byte} (n : Nib) (h1 : loNib rp ≠ 0xE#4) (h2 : loNib rp ≠ 0xF#4) :
    resolve rp (wreg n) = some (ofNibs (loNib rp) n) := by
  simp [resolve, wreg, h1, h2]

/-- The result of a resolution is never in the window (`10_state.md` R25). -/
theorem hiNib_of_resolve {rp a p : Byte} (h : resolve rp a = some p) : hiNib p ≠ 0xE#4 := by
  unfold resolve at h
  split at h
  · split at h
    · simp at h
    · next hne =>
      injection h with h
      subst h
      simp only [hiNib_ofNibs]
      exact fun e => hne (.inl e)
  · next hne => injection h with h; subst h; exact hne

/-! ### Policies -/

/-- Which slots a device can back in any configuration (`10_state.md` R24). -/
theorem slotPolicy_deviceBacked {devices : List Device} {a : Byte} {i : Nat}
    (h : slotPolicy devices a = .deviceBacked i) : ¬(0x80#8 ≤ a ∧ a ≤ 0xDF#8) ∧ ¬(0xE0#8 ≤ a ∧ a ≤ 0xEF#8) ∧ ¬0xF8#8 ≤ a := by
  unfold slotPolicy at h
  split at h
  · simp at h
  · split at h
    · simp at h
    · split at h
      · simp at h
      · exact ⟨by assumption, by assumption, by assumption⟩

/-- The slots the core itself uses are never device-backed (`10_state.md` R24). -/
theorem policy_core (s : State) {a : Byte} (h : 0xF8#8 ≤ a) : s.policy a = .readWrite := by
  have h1 : ¬(0x80#8 ≤ a ∧ a ≤ 0xDF#8) := by bv_omega
  have h2 : ¬(0xE0#8 ≤ a ∧ a ≤ 0xEF#8) := by bv_omega
  simp [State.policy, slotPolicy, h1, h2, h]

theorem policy_readOnly {s : State} {a : Byte} : s.policy a = .readOnly ↔ 0x80#8 ≤ a ∧ a ≤ 0xDF#8 := by
  unfold State.policy slotPolicy
  split
  · simp_all
  · next h =>
    simp only [h, iff_false]
    split
    · simp
    · split
      · simp
      · split <;> simp

theorem policy_window {s : State} {a : Byte} : s.policy a = .windowedPointer ↔ 0xE0#8 ≤ a ∧ a ≤ 0xEF#8 := by
  unfold State.policy slotPolicy
  split
  · next h => simp only [false_iff, reduceCtorEq]; bv_omega
  · split
    · simp_all
    · next h =>
      simp only [h, iff_false]
      split
      · simp
      · split <;> simp

/-- With no devices, no slot is device-backed. -/
theorem policy_no_devices {s : State} (h : s.cfg.devices = []) (a : Byte) (i : Nat) : s.policy a ≠ .deviceBacked i := by
  unfold State.policy slotPolicy
  rw [h]
  split
  · simp
  · split
    · simp
    · split <;> simp

theorem policy_congr {s t : State} (h : t.cfg = s.cfg) (a : Byte) : t.policy a = s.policy a := by
  simp [State.policy, h]

/-! ### One slot -/

/-- What only register memory, device state and cycle count may differ in. -/
structure State.RegOnly (s t : State) : Prop where
  cfg : t.cfg = s.cfg
  pc : t.pc = s.pc
  prog : t.prog = s.prog
  data : t.data = s.data
  lines : t.lines = s.lines
  pred : t.pred = s.pred
  run : t.run = s.run
  lastTick : t.lastTick = s.lastTick

theorem State.RegOnly.refl (s : State) : s.RegOnly s := ⟨rfl, rfl, rfl, rfl, rfl, rfl, rfl, rfl⟩

theorem State.RegOnly.trans {s t u : State} (h : s.RegOnly t) (k : t.RegOnly u) : s.RegOnly u :=
  ⟨k.cfg.trans h.cfg, k.pc.trans h.pc, k.prog.trans h.prog, k.data.trans h.data, k.lines.trans h.lines,
   k.pred.trans h.pred, k.run.trans h.run, k.lastTick.trans h.lastTick⟩

theorem State.RegOnly.setReg (s : State) (a v : Byte) : s.RegOnly (s.setReg a v) := ⟨rfl, rfl, rfl, rfl, rfl, rfl, rfl, rfl⟩

theorem State.RegOnly.charge (s : State) (k : Nat) : s.RegOnly (s.charge k) := ⟨rfl, rfl, rfl, rfl, rfl, rfl, rfl, rfl⟩

theorem State.RegOnly.updateFlags (s : State) (u : FlagBits) : s.RegOnly (s.updateFlags u) :=
  ⟨rfl, rfl, rfl, rfl, rfl, rfl, rfl, rfl⟩

theorem State.RegOnly.deviceAccess (s : State) (i : Nat) (p : Byte) (k : Access) : s.RegOnly (s.deviceAccess i p k) := by
  unfold State.deviceAccess
  split
  · exact .refl s
  · exact ⟨rfl, rfl, rfl, rfl, rfl, rfl, rfl, rfl⟩

theorem State.RegOnly.slotRead (s : State) (p : Byte) : s.RegOnly (s.slotRead p).2 := by
  unfold State.slotRead
  split
  all_goals first | exact .refl s | skip
  next i _ => exact State.RegOnly.deviceAccess s i p .read

theorem State.RegOnly.slotWrite (s : State) (p v : Byte) : s.RegOnly (s.slotWrite p v) := by
  unfold State.slotWrite
  split
  all_goals first | exact .refl s | exact .setReg s _ _ | exact (State.RegOnly.setReg s _ _).trans (.deviceAccess _ _ _ _)

/-- A device callback reaches the stored byte of the slot accessed and the pending register alone (`10_state.md` R30). -/
theorem State.reg_deviceAccess (s : State) (i : Nat) (p : Byte) (k : Access) {a : Byte} (hp : a ≠ p) (hq : a ≠ slotIRQ) :
    (s.deviceAccess i p k).reg a = s.reg a := by
  unfold State.deviceAccess
  split
  · rfl
  · simp [State.reg_markPending, State.reg_setReg, hp, hq]; rfl

theorem State.cycles_deviceAccess (s : State) (i : Nat) (p : Byte) (k : Access) : (s.deviceAccess i p k).cycles = s.cycles := by
  unfold State.deviceAccess
  split <;> rfl

theorem State.length_dev_deviceAccess (s : State) (i : Nat) (p : Byte) (k : Access) :
    (s.deviceAccess i p k).dev.length = s.dev.length := by
  unfold State.deviceAccess
  split
  · rfl
  · simp

/-- A read of a slot that no device backs changes nothing and answers the stored byte (`10_state.md` R26). -/
theorem State.slotRead_plain {s : State} {p : Byte} (h : ∀ i, s.policy p ≠ .deviceBacked i) : s.slotRead p = (s.reg p, s) := by
  unfold State.slotRead
  split
  all_goals first | rfl | (next i hi => exact absurd hi (h i))

/-- A write of a ReadWrite slot (`10_state.md` R27). -/
theorem State.slotWrite_readWrite {s : State} {p : Byte} (v : Byte) (h : s.policy p = .readWrite) :
    s.slotWrite p v = s.setReg p v := by simp [State.slotWrite, h]

/-- A write of a ReadOnly slot changes nothing (`10_state.md` R27). -/
theorem State.slotWrite_readOnly {s : State} {p : Byte} (v : Byte) (h : s.policy p = .readOnly) : s.slotWrite p v = s := by
  simp [State.slotWrite, h]

/-- A read leaves every still slot (`10_state.md` R26). -/
theorem State.reg_slotRead (s : State) (p : Byte) {a : Byte} (h : s.still a) : (s.slotRead p).2.reg a = s.reg a := by
  unfold State.slotRead
  split
  all_goals first | rfl | skip
  next i hi =>
  refine State.reg_deviceAccess s i p _ ?_ ?_
  · rintro rfl; exact h.1 i hi
  · intro e
    exact policy_no_devices (h.2 e) p i hi

/-- A write leaves every still slot but the one written (`10_state.md` R27). -/
theorem State.reg_slotWrite (s : State) (p v : Byte) {a : Byte} (h : s.still a) (hp : a ≠ p) :
    (s.slotWrite p v).reg a = s.reg a := by
  unfold State.slotWrite
  split
  all_goals first | rfl | exact State.reg_setReg_ne s v hp | skip
  next i hi =>
  rw [State.reg_deviceAccess _ i p _ hp, State.reg_setReg_ne s v hp]
  intro e
  exact policy_no_devices (h.2 e) p i hi

/-- The core's own slots keep their value through a read (`10_state.md` R24), the pending register apart. -/
theorem State.reg_slotRead_core (s : State) (p : Byte) {a : Byte} (h : 0xF8#8 ≤ a) (hq : a ≠ slotIRQ) :
    (s.slotRead p).2.reg a = s.reg a :=
  s.reg_slotRead p ⟨fun i => by simp [policy_core s h], fun e => absurd e hq⟩

theorem State.cycles_slotRead (s : State) (p : Byte) : (s.slotRead p).2.cycles = s.cycles := by
  unfold State.slotRead
  split
  all_goals first | rfl | exact State.cycles_deviceAccess _ _ _ _

theorem State.cycles_slotWrite (s : State) (p v : Byte) : (s.slotWrite p v).cycles = s.cycles := by
  unfold State.slotWrite
  split
  all_goals first | rfl | exact State.cycles_deviceAccess _ _ _ _

/-! ### `RegRead`, `RegWrite`, pairs -/

theorem regRead_eq (a : Byte) (s : State) : regRead a s = match resolve (s.reg slotRP) a with
    | none => .error .forbiddenRP s
    | some p => .ok (s.slotRead p).1 (s.slotRead p).2 := rfl

theorem regWrite_eq (a v : Byte) (s : State) : regWrite a v s = match resolve (s.reg slotRP) a with
    | none => .error .forbiddenRP s
    | some p => .ok () (s.slotWrite p v) := rfl

theorem regRead_some {a p : Byte} {s : State} (h : resolve (s.reg slotRP) a = some p) :
    regRead a s = .ok (s.slotRead p).1 (s.slotRead p).2 := by rw [regRead_eq, h]

theorem regWrite_some {a p : Byte} {s : State} (v : Byte) (h : resolve (s.reg slotRP) a = some p) :
    regWrite a v s = .ok () (s.slotWrite p v) := by rw [regWrite_eq, h]

theorem regRead_none {a : Byte} {s : State} (h : resolve (s.reg slotRP) a = none) :
    regRead a s = .error .forbiddenRP s := by rw [regRead_eq, h]

theorem regWrite_none {a : Byte} {s : State} (v : Byte) (h : resolve (s.reg slotRP) a = none) :
    regWrite a v s = .error .forbiddenRP s := by rw [regWrite_eq, h]

/-- RP is the same after a read (`10_state.md` R24, R26). -/
theorem State.rp_slotRead (s : State) (p : Byte) : (s.slotRead p).2.reg slotRP = s.reg slotRP :=
  s.reg_slotRead_core p (by decide) (by decide)

theorem pairRead_odd {a : Byte} (s : State) (h : bit a 0 = true) : pairRead a s = .error .oddRegisterPair s := by
  simp [pairRead, h]

theorem pairWrite_odd {a : Byte} (w : Word) (s : State) (h : bit a 0 = true) :
    pairWrite a w s = .error .oddRegisterPair s := by
  simp [pairWrite, h]

end Sys2Proof.Machine
end

