-- ==== Sys2Proof/Laws/Operations.lean ====
section
/-! SUPPORT. A relation kept by a computation whatever its outcome, how it composes, and what each shared operation keeps: the
frames of the instructions come from here, with nothing unfolded. -/

namespace Sys2Proof.Machine

variable {α β : Type} {R : State → State → Prop}

/-- A relation that holds of a state and itself and composes. -/
structure StateRel (R : State → State → Prop) : Prop where
  refl : ∀ s, R s s
  trans : ∀ {s t u}, R s t → R t u → R s u

/-- Every state a computation ends in, by a value or by a fault, is in the relation to the state it started in. -/
def M.Keeps (R : State → State → Prop) (m : M α) : Prop :=
  ∀ s, (∀ a t, m s = .ok a t → R s t) ∧ ∀ r t, m s = .error r t → R s t

theorem M.Keeps.pure (hR : StateRel R) (a : α) : M.Keeps R (Pure.pure a : M α) := by
  intro s
  refine ⟨fun b t h => ?_, fun r t h => ?_⟩
  · simp at h; exact h.2 ▸ hR.refl s
  · simp at h

theorem M.Keeps.throw (hR : StateRel R) (r : FaultReason) : M.Keeps R (MonadExcept.throw r : M α) := by
  intro s
  refine ⟨fun b t h => ?_, fun r t h => ?_⟩
  · simp at h
  · simp at h; exact h.2 ▸ hR.refl s

theorem M.Keeps.get (hR : StateRel R) : M.Keeps R (get : M State) := by
  intro s
  refine ⟨fun b t h => ?_, fun r t h => ?_⟩
  · simp at h; exact h.2 ▸ hR.refl s
  · simp at h

theorem M.Keeps.modify {f : State → State} (hf : ∀ s, R s (f s)) : M.Keeps R (modify f : M PUnit) := by
  intro s
  refine ⟨fun b t h => ?_, fun r t h => ?_⟩
  · simp at h; exact h ▸ hf s
  · simp at h

theorem M.Keeps.bind (hR : StateRel R) {x : M α} {f : α → M β} (hx : M.Keeps R x) (hf : ∀ a, M.Keeps R (f a)) :
    M.Keeps R (x >>= f) := by
  intro s
  refine ⟨fun b t h => ?_, fun r t h => ?_⟩
  · obtain ⟨a, u, h1, h2⟩ := M.bind_eq_ok.mp h
    exact hR.trans ((hx s).1 a u h1) ((hf a u).1 b t h2)
  · rcases M.bind_eq_error.mp h with h1 | ⟨a, u, h1, h2⟩
    · exact (hx s).2 r t h1
    · exact hR.trans ((hx s).1 a u h1) ((hf a u).2 r t h2)

/-- What a read of the whole state feeds may depend on the state read. -/
theorem M.Keeps.get_bind {f : State → M β} (hf : ∀ s, (∀ b t, f s s = .ok b t → R s t) ∧ ∀ r t, f s s = .error r t → R s t) :
    M.Keeps R (Bind.bind (MonadState.get : M State) f) := by
  intro s
  simpa using hf s

theorem M.Keeps.ite {c : Prop} [Decidable c] {x y : M α} (hx : M.Keeps R x) (hy : M.Keeps R y) :
    M.Keeps R (if c then x else y) := by
  split
  · exact hx
  · exact hy

/-- The state an instruction answers, when its meaning keeps a relation that a raised fault keeps too. -/
theorem M.Keeps.finish (hR : StateRel R) (hraise : ∀ s r, R s (s.raise r)) {m : M Unit} (h : M.Keeps R m) {s t : State}
    (hf : M.finish m s = .next t) : R s t := by
  rcases M.finish_cases hf with h' | ⟨r, u, h', rfl⟩
  · exact (h s).1 _ _ h'
  · exact hR.trans ((h s).2 _ _ h') (hraise u r)

/-! ### The operations, over any relation their updates keep -/

/-- What the register operations need of a relation. -/
structure RegRel (R : State → State → Prop) : Prop extends StateRel R where
  read : ∀ s p, R s (s.slotRead p).2
  write : ∀ s p v, R s (s.slotWrite p v)
  flags : ∀ s u, R s (s.updateFlags u)
  charge : ∀ s k, R s (s.charge k)

theorem regRead_keeps (hR : RegRel R) (a : Byte) : M.Keeps R (regRead a) := by
  intro s
  rw [regRead_eq]
  split
  · exact ⟨fun _ _ h => by simp at h, fun _ _ h => by simp at h; exact h.2 ▸ hR.refl s⟩
  · exact ⟨fun _ _ h => by simp at h; exact h.2 ▸ hR.read s _, fun _ _ h => by simp at h⟩

theorem regWrite_keeps (hR : RegRel R) (a v : Byte) : M.Keeps R (regWrite a v) := by
  intro s
  rw [regWrite_eq]
  split
  · exact ⟨fun _ _ h => by simp at h, fun _ _ h => by simp at h; exact h.2 ▸ hR.refl s⟩
  · exact ⟨fun _ _ h => by simp at h; exact h ▸ hR.write s _ v, fun _ _ h => by simp at h⟩

theorem condition_keeps (hR : RegRel R) (cc : CC) : M.Keeps R (condition cc) := by
  intro s
  exact ⟨fun _ _ h => by simp [condition] at h; exact h.2 ▸ hR.charge s _, fun _ _ h => by simp [condition] at h⟩

theorem pairRead_keeps (hR : RegRel R) (a : Byte) : M.Keeps R (pairRead a) := by
  have h0 := hR.toStateRel
  unfold pairRead
  split
  · exact .bind h0 (.throw h0 _) fun _ => .bind h0 (regRead_keeps hR _) fun _ => .bind h0 (regRead_keeps hR _) fun _ => .pure h0 _
  · exact .bind h0 (regRead_keeps hR _) fun _ => .bind h0 (regRead_keeps hR _) fun _ => .pure h0 _

theorem pairWrite_keeps (hR : RegRel R) (a : Byte) (w : Word) : M.Keeps R (pairWrite a w) := by
  have h0 := hR.toStateRel
  unfold pairWrite
  split
  · exact .bind h0 (.throw h0 _) fun _ => .bind h0 (regWrite_keeps hR _ _) fun _ => regWrite_keeps hR _ _
  · exact .bind h0 (regWrite_keeps hR _ _) fun _ => regWrite_keeps hR _ _

theorem chargeMode_keeps (hR : RegRel R) (k : Fin 6) : M.Keeps R (chargeMode k) :=
  .modify fun s => hR.charge s _

theorem regReadIndirect_keeps (hR : RegRel R) (a : Byte) : M.Keeps R (regReadIndirect a) :=
  .bind hR.toStateRel (regRead_keeps hR _) fun _ => regRead_keeps hR _

theorem fetchOperands_keeps (hR : RegRel R) (o : TwoOperands) : M.Keeps R (fetchOperands o) := by
  have h0 := hR.toStateRel
  unfold fetchOperands
  refine .bind h0 (chargeMode_keeps hR _) fun _ => ?_
  cases o <;> first
    | exact .bind h0 (regRead_keeps hR _) fun _ => .pure h0 _
    | exact .bind h0 (regReadIndirect_keeps hR _) fun _ => .pure h0 _
    | exact .pure h0 _

theorem fetchSingle_keeps (hR : RegRel R) (o : OneOperand) : M.Keeps R (fetchSingle o) := by
  cases o
  · exact .pure hR.toStateRel _
  · exact regRead_keeps hR _

theorem updateFlags_keeps (hR : RegRel R) (u : FlagBits) : M.Keeps R (modify fun t => t.updateFlags u : M PUnit) :=
  .modify fun s => hR.flags s u

theorem aluInstruction_keeps (hR : RegRel R) (op : AluOp) (o : TwoOperands) : M.Keeps R (aluInstruction op o) := by
  have h0 := hR.toStateRel
  unfold aluInstruction
  refine .bind h0 (fetchOperands_keeps hR o) fun _ => .bind h0 (regRead_keeps hR _) fun _ => .bind h0 (.get h0) fun _ => ?_
  dsimp only
  split
  · exact .bind h0 (regWrite_keeps hR _ _) fun _ => updateFlags_keeps hR _
  · exact updateFlags_keeps hR _

theorem loadInstruction_keeps (hR : RegRel R) (o : TwoOperands) : M.Keeps R (loadInstruction o) :=
  .bind hR.toStateRel (fetchOperands_keeps hR o) fun _ => regWrite_keeps hR _ _

theorem storeIndirect_keeps (hR : RegRel R) (k : Fin 6) (p v : Byte) : M.Keeps R (storeIndirect k p v) :=
  have h0 := hR.toStateRel
  .bind h0 (chargeMode_keeps hR k) fun _ => .bind h0 (regRead_keeps hR _) fun _ => .bind h0 (regRead_keeps hR _) fun _ =>
    regWrite_keeps hR _ _

theorem modifyRegister_keeps (hR : RegRel R) (f : Byte → Byte → Byte × FlagBits) (p : Byte) :
    M.Keeps R (modifyRegister f p) :=
  have h0 := hR.toStateRel
  .bind h0 (regRead_keeps hR _) fun _ => .bind h0 (.get h0) fun _ => .bind h0 (regWrite_keeps hR _ _) fun _ =>
    updateFlags_keeps hR _

theorem singleInstruction_keeps (hR : RegRel R) (f : Byte → Byte → Byte × FlagBits) (o : OneOperand) :
    M.Keeps R (singleInstruction f o) :=
  .bind hR.toStateRel (fetchSingle_keeps hR o) fun _ => modifyRegister_keeps hR f _

theorem wordInstruction_keeps (hR : RegRel R) (f : Word → Word) (g : Word → FlagBits) (o : OneOperand) :
    M.Keeps R (wordInstruction f g o) :=
  have h0 := hR.toStateRel
  .bind h0 (fetchSingle_keeps hR o) fun _ => .bind h0 (pairRead_keeps hR _) fun _ => .bind h0 (pairWrite_keeps hR _ _) fun _ =>
    updateFlags_keeps hR _

theorem clearInstruction_keeps (hR : RegRel R) (o : OneOperand) : M.Keeps R (clearInstruction o) :=
  .bind hR.toStateRel (fetchSingle_keeps hR o) fun _ => regWrite_keeps hR _ _

theorem moveRegister_keeps (hR : RegRel R) (d v : Byte) : M.Keeps R (moveRegister d v) :=
  .bind hR.toStateRel (regRead_keeps hR _) fun _ => regWrite_keeps hR _ _

theorem advancePointers_keeps (hR : RegRel R) (d p : Nib) (r : Byte) (a : Word) : M.Keeps R (advancePointers d p r a) :=
  .bind hR.toStateRel (regWrite_keeps hR _ _) fun _ => pairWrite_keeps hR _ _

/-! ### The memory forms, over any relation their memory access keeps too -/

theorem memoryLoad_keeps (hR : RegRel R) {read : Word → M Byte} (hm : ∀ a, M.Keeps R (read a)) (d p : Nib) :
    M.Keeps R (memoryLoad read d p) :=
  have h0 := hR.toStateRel
  .bind h0 (pairRead_keeps hR _) fun _ => .bind h0 (hm _) fun _ => regWrite_keeps hR _ _

theorem memoryStore_keeps (hR : RegRel R) {write : Word → Byte → M Unit} (hm : ∀ a v, M.Keeps R (write a v)) (d p : Nib) :
    M.Keeps R (memoryStore write d p) :=
  have h0 := hR.toStateRel
  .bind h0 (regRead_keeps hR _) fun _ => .bind h0 (pairRead_keeps hR _) fun _ => hm _ _

theorem memoryLoadIncrement_keeps (hR : RegRel R) {read : Word → M Byte} (hm : ∀ a, M.Keeps R (read a)) (d p : Nib) :
    M.Keeps R (memoryLoadIncrement read d p) :=
  have h0 := hR.toStateRel
  .bind h0 (pairRead_keeps hR _) fun _ => .bind h0 (regRead_keeps hR _) fun _ => .bind h0 (hm _) fun _ =>
    .bind h0 (regWrite_keeps hR _ _) fun _ => advancePointers_keeps hR _ _ _ _

theorem memoryStoreIncrement_keeps (hR : RegRel R) {write : Word → Byte → M Unit} (hm : ∀ a v, M.Keeps R (write a v))
    (d p : Nib) : M.Keeps R (memoryStoreIncrement write d p) :=
  have h0 := hR.toStateRel
  .bind h0 (regRead_keeps hR _) fun _ => .bind h0 (regRead_keeps hR _) fun _ => .bind h0 (pairRead_keeps hR _) fun _ =>
    .bind h0 (hm _ _) fun _ => advancePointers_keeps hR _ _ _ _

theorem dataRead_keeps (hR : StateRel R) (a : Word) : M.Keeps R (dataRead a) := by
  intro s
  exact ⟨fun _ _ h => by simp [dataRead] at h; exact h.2 ▸ hR.refl s, fun _ _ h => by simp [dataRead] at h⟩

/-! ### The stack -/

/-- What the stack operations need beside: the pointer moved, a byte of DATA written. -/
structure StackRel (R : State → State → Prop) : Prop extends RegRel R where
  spl : ∀ s v, R s (s.setReg slotSPL v)
  setSp : ∀ s w, R s (s.setSp w)

theorem pop_keeps (hR : StackRel R) : M.Keeps R pop := by
  have h0 := hR.toStateRel
  unfold pop
  refine .bind h0 (.get h0) fun s => ?_
  split
  · exact .bind h0 (regRead_keeps hR.toRegRel _) fun _ => .bind h0 (.modify fun t => hR.spl t _) fun _ => .pure h0 _
  · exact .bind h0 (dataRead_keeps h0 _) fun _ => .bind h0 (.modify fun t => hR.setSp t _) fun _ => .pure h0 _

theorem popPc_keeps (hR : StackRel R) : M.Keeps R popPc :=
  have h0 := hR.toStateRel
  .bind h0 (pop_keeps hR) fun _ => .bind h0 (pop_keeps hR) fun _ => .pure h0 _

theorem push_keeps (hR : StackRel R) (hd : ∀ a v, M.Keeps R (dataWrite a v)) (v : Byte) : M.Keeps R (push v) := by
  have h0 := hR.toStateRel
  unfold push
  refine .get_bind fun s => ?_
  split
  · have hw := regWrite_keeps hR.toRegRel (s.reg slotSPL - 1) v (s.setReg slotSPL (s.reg slotSPL - 1))
    simp only [M.bind_apply, M.set_apply]
    exact ⟨fun b t h => h0.trans (hR.spl s _) (hw.1 b t h), fun r t h => h0.trans (hR.spl s _) (hw.2 r t h)⟩
  · have hw := hd (s.sp - 1) v (s.setSp (s.sp - 1))
    simp only [M.bind_apply, M.set_apply]
    exact ⟨fun b t h => h0.trans (hR.setSp s _) (hw.1 b t h), fun r t h => h0.trans (hR.setSp s _) (hw.2 r t h)⟩

theorem pushPc_keeps (hR : StackRel R) (hd : ∀ a v, M.Keeps R (dataWrite a v)) : M.Keeps R pushPc :=
  have h0 := hR.toStateRel
  .bind h0 (.get h0) fun _ => .bind h0 (push_keeps hR hd _) fun _ => push_keeps hR hd _

theorem pushInstruction_keeps (hR : StackRel R) (hd : ∀ a v, M.Keeps R (dataWrite a v)) (o : OneOperand) :
    M.Keeps R (pushInstruction o) :=
  have h0 := hR.toStateRel
  .bind h0 (fetchSingle_keeps hR.toRegRel o) fun _ => .bind h0 (regRead_keeps hR.toRegRel _) fun _ => push_keeps hR hd _

theorem popInstruction_keeps (hR : StackRel R) (o : OneOperand) : M.Keeps R (popInstruction o) :=
  have h0 := hR.toStateRel
  .bind h0 (fetchSingle_keeps hR.toRegRel o) fun _ => .bind h0 (pop_keeps hR) fun _ => regWrite_keeps hR.toRegRel _ _

/-! ### `RegOnly` is such a relation -/

theorem State.RegOnly.regRel : RegRel State.RegOnly where
  refl := .refl
  trans := .trans
  read := .slotRead
  write := .slotWrite
  flags := .updateFlags
  charge := .charge

theorem State.RegOnly.stackRel : StackRel State.RegOnly where
  toRegRel := State.RegOnly.regRel
  spl := fun s v => .setReg s _ v
  setSp := fun s _ => (State.RegOnly.setReg s _ _).trans (.setReg _ _ _)

end Sys2Proof.Machine
end

