-- ==== Sys2Proof/Laws/Exec.lean ====
section
/-! SUPPORT. The computation each instruction runs, as one table, so that a proof about many instructions is a proof about a
table of shared operations. -/

namespace Sys2Proof.Machine

/-- The computation that the meaning of an instruction finishes. -/
def body (i : Instr) : M Unit :=
  match i with
  | .decR r => (singleInstruction opDec (.direct r))
  | .decIR r => (singleInstruction opDec (.indirect r))
  | .rlcR r => (singleInstruction opRlc (.direct r))
  | .rlcIR r => (singleInstruction opRlc (.indirect r))
  | .incR r => (singleInstruction opInc (.direct r))
  | .incIR r => (singleInstruction opInc (.indirect r))
  | .jpIRR rr => (do
      let t ← pairRead rr
      modify fun t' => t'.jump t)
  | .srp im => (modify fun t => t.setReg slotRP (im >>> 4))
  | .daR r => (singleInstruction opDa (.direct r))
  | .daIR r => (singleInstruction opDa (.indirect r))
  | .popR r => (popInstruction (.direct r))
  | .popIR r => (popInstruction (.indirect r))
  | .comR r => (singleInstruction opCom (.direct r))
  | .comIR r => (singleInstruction opCom (.indirect r))
  | .pushR r => (pushInstruction (.direct r))
  | .pushIR r => (pushInstruction (.indirect r))
  | .decwRR rr => (wordInstruction (· - 1) decwFlags (.direct rr))
  | .decwIR r => (wordInstruction (· - 1) decwFlags (.indirect r))
  | .rlR r => (singleInstruction opRl (.direct r))
  | .rlIR r => (singleInstruction opRl (.indirect r))
  | .incwRR rr => (wordInstruction (· + 1) incwFlags (.direct rr))
  | .incwIR r => (wordInstruction (· + 1) incwFlags (.indirect r))
  | .clrR r => (clearInstruction (.direct r))
  | .clrIR r => (clearInstruction (.indirect r))
  | .rrcR r => (singleInstruction opRrc (.direct r))
  | .rrcIR r => (singleInstruction opRrc (.indirect r))
  | .sraR r => (singleInstruction opSra (.direct r))
  | .sraIR r => (singleInstruction opSra (.indirect r))
  | .rrR r => (singleInstruction opRr (.direct r))
  | .rrIR r => (singleInstruction opRr (.indirect r))
  | .swapR r => (singleInstruction opSwap (.direct r))
  | .swapIR r => (singleInstruction opSwap (.indirect r))
  | .addWW d w => (aluInstruction .add (.ww d w))
  | .addWIW d w => (aluInstruction .add (.wiw d w))
  | .addRR d r => (aluInstruction .add (.rr d r))
  | .addRIR d r => (aluInstruction .add (.rir d r))
  | .addRIM d im => (aluInstruction .add (.rim d im))
  | .addIRIM d im => (aluInstruction .add (.irim d im))
  | .adcWW d w => (aluInstruction .adc (.ww d w))
  | .adcWIW d w => (aluInstruction .adc (.wiw d w))
  | .adcRR d r => (aluInstruction .adc (.rr d r))
  | .adcRIR d r => (aluInstruction .adc (.rir d r))
  | .adcRIM d im => (aluInstruction .adc (.rim d im))
  | .adcIRIM d im => (aluInstruction .adc (.irim d im))
  | .subWW d w => (aluInstruction .sub (.ww d w))
  | .subWIW d w => (aluInstruction .sub (.wiw d w))
  | .subRR d r => (aluInstruction .sub (.rr d r))
  | .subRIR d r => (aluInstruction .sub (.rir d r))
  | .subRIM d im => (aluInstruction .sub (.rim d im))
  | .subIRIM d im => (aluInstruction .sub (.irim d im))
  | .sbcWW d w => (aluInstruction .sbc (.ww d w))
  | .sbcWIW d w => (aluInstruction .sbc (.wiw d w))
  | .sbcRR d r => (aluInstruction .sbc (.rr d r))
  | .sbcRIR d r => (aluInstruction .sbc (.rir d r))
  | .sbcRIM d im => (aluInstruction .sbc (.rim d im))
  | .sbcIRIM d im => (aluInstruction .sbc (.irim d im))
  | .orWW d w => (aluInstruction .or (.ww d w))
  | .orWIW d w => (aluInstruction .or (.wiw d w))
  | .orRR d r => (aluInstruction .or (.rr d r))
  | .orRIR d r => (aluInstruction .or (.rir d r))
  | .orRIM d im => (aluInstruction .or (.rim d im))
  | .orIRIM d im => (aluInstruction .or (.irim d im))
  | .andWW d w => (aluInstruction .and (.ww d w))
  | .andWIW d w => (aluInstruction .and (.wiw d w))
  | .andRR d r => (aluInstruction .and (.rr d r))
  | .andRIR d r => (aluInstruction .and (.rir d r))
  | .andRIM d im => (aluInstruction .and (.rim d im))
  | .andIRIM d im => (aluInstruction .and (.irim d im))
  | .tcmWW d w => (aluInstruction .tcm (.ww d w))
  | .tcmWIW d w => (aluInstruction .tcm (.wiw d w))
  | .tcmRR d r => (aluInstruction .tcm (.rr d r))
  | .tcmRIR d r => (aluInstruction .tcm (.rir d r))
  | .tcmRIM d im => (aluInstruction .tcm (.rim d im))
  | .tcmIRIM d im => (aluInstruction .tcm (.irim d im))
  | .tmWW d w => (aluInstruction .tm (.ww d w))
  | .tmWIW d w => (aluInstruction .tm (.wiw d w))
  | .tmRR d r => (aluInstruction .tm (.rr d r))
  | .tmRIR d r => (aluInstruction .tm (.rir d r))
  | .tmRIM d im => (aluInstruction .tm (.rim d im))
  | .tmIRIM d im => (aluInstruction .tm (.irim d im))
  | .cpWW d w => (aluInstruction .cp (.ww d w))
  | .cpWIW d w => (aluInstruction .cp (.wiw d w))
  | .cpRR d r => (aluInstruction .cp (.rr d r))
  | .cpRIR d r => (aluInstruction .cp (.rir d r))
  | .cpRIM d im => (aluInstruction .cp (.rim d im))
  | .cpIRIM d im => (aluInstruction .cp (.irim d im))
  | .xorWW d w => (aluInstruction .xor (.ww d w))
  | .xorWIW d w => (aluInstruction .xor (.wiw d w))
  | .xorRR d r => (aluInstruction .xor (.rr d r))
  | .xorRIR d r => (aluInstruction .xor (.rir d r))
  | .xorRIM d im => (aluInstruction .xor (.rim d im))
  | .xorIRIM d im => (aluInstruction .xor (.irim d im))
  | .ldWIW d w => (loadInstruction (.wiw d w))
  | .ldIWW d w => (storeIndirect 1 (wreg d) (wreg w))
  | .ldRR d r => (loadInstruction (.rr d r))
  | .ldRIR d r => (loadInstruction (.rir d r))
  | .ldRIM d im => (loadInstruction (.rim d im))
  | .ldIRIM d im => (loadInstruction (.irim d im))
  | .ldIRR d r => (storeIndirect 3 d r)
  | .ldeLoad d p => (memoryLoad dataRead d p)
  | .ldeStore d p => (memoryStore dataWrite d p)
  | .ldeiLoad d p => (memoryLoadIncrement dataRead d p)
  | .ldeiStore d p => (memoryStoreIncrement dataWrite d p)
  | .ldcLoad d p => (memoryLoad programRead d p)
  | .ldcStore d p => (memoryStore programWrite d p)
  | .ldciLoad d p => (memoryLoadIncrement programRead d p)
  | .ldciStore d p => (memoryStoreIncrement programWrite d p)
  | .ldWX d x off => (do
      let i ← regRead (wreg x)
      let v ← regRead (off + i)
      regWrite (wreg d) v)
  | .ldXW d x off => (do
      let v ← regRead (wreg d)
      let i ← regRead (wreg x)
      regWrite (off + i) v)
  | .callIRR rr => (do
      let t ← pairRead rr
      callTo t)
  | .callDA da => (callTo da)
  | .ldWR d r => (moveRegister (wreg d) r)
  | .ldRW d w => (moveRegister d (wreg w))
  | .djnz w ra => (do
      let v ← regRead (wreg w)
      regWrite (wreg w) (v - 1)
      if v - 1 ≠ 0 then modify fun t => t.jump (t.pc + sext16 ra))
  | .jr cc ra => (do
      let c ← condition cc
      if c then modify fun t => t.jump (t.pc + sext16 ra))
  | .ldWIM d im => (regWrite (wreg d) im)
  | .jp cc da => (do
      let c ← condition cc
      if c then modify fun t => t.jump da)
  | .incW w => (modifyRegister opInc (wreg w))
  | .ifPred cc t' f => (do
      let c ← condition cc
      modify fun t => { t with pred := { tcnt := t', fcnt := f, cond := c, snap := t.flags } })
  | .stop => (modify fun t => { t with run := .stopped })
  | .halt => (modify fun t => { t with run := .waiting })
  | .di => (modify fun t => t.setReg slotIMR (t.reg slotIMR &&& 0x7F#8))
  | .ei => (modify fun t => t.setReg slotIMR (t.reg slotIMR ||| 0x80#8))
  | .ret => (do
      let a ← popPc
      modify fun t => t.jump a)
  | .iret => returnFromInterrupt
  | .rcf => (modify fun t => t.updateFlags { c := some false })
  | .scf => (modify fun t => t.updateFlags { c := some true })
  | .ccf => (modify fun t => t.updateFlags { c := some (!flagC t.flags) })
  | .nop => (pure () : M Unit)

/-- Every meaning is its computation, finished. -/
theorem exec_eq (i : Instr) (s : State) : exec i s = M.finish (body i) s := by
  cases i <;> rfl

/-- What every instruction needs of a relation: register access, the stack pointer, the two memories, and raw changes of
pc, the predication context and the run state. -/
structure MachineRel (R : State → State → Prop) : Prop extends StackRel R where
  core : ∀ s a v, 0xF8#8 ≤ a → R s (s.setReg a v)
  control : ∀ s pc pred run, R s { s with pc := pc, pred := pred, run := run }
  program : ∀ a op, M.Keeps R (programAccess a op)
  store : ∀ a v, M.Keeps R (dataWrite a v)

theorem MachineRel.raise {R : State → State → Prop} (hR : MachineRel R) (s : State) (r : FaultReason) : R s (s.raise r) :=
  hR.control s s.pc s.pred (.faulted r)

theorem programRead_keeps {R : State → State → Prop} (hR : MachineRel R) (a : Word) : M.Keeps R (programRead a) :=
  hR.program a .read

theorem programWrite_keeps {R : State → State → Prop} (hR : MachineRel R) (a : Word) (v : Byte) :
    M.Keeps R (programWrite a v) :=
  .bind hR.toStateRel (hR.program a _) fun _ => .pure hR.toStateRel _

theorem jump_keeps {R : State → State → Prop} (hR : MachineRel R) (f : State → Word) :
    M.Keeps R (modify fun t => t.jump (f t) : M PUnit) :=
  .modify fun s => hR.control s (f s) s.pred.zero s.run

theorem callTo_keeps {R : State → State → Prop} (hR : MachineRel R) (t : Word) : M.Keeps R (callTo t) :=
  .bind hR.toStateRel (pushPc_keeps hR.toStackRel hR.store) fun _ => jump_keeps hR fun _ => t

theorem returnFromInterrupt_keeps {R : State → State → Prop} (hR : MachineRel R) : M.Keeps R returnFromInterrupt := by
  have h0 := hR.toStateRel
  refine .bind h0 (pop_keeps hR.toStackRel) fun f => .bind h0 (.modify fun s => hR.core s _ _ (by decide)) fun _ => ?_
  refine .bind h0 (popPc_keeps hR.toStackRel) fun t => .bind h0 (.modify fun s => ?_) fun _ =>
    .modify fun s => hR.control s s.pc _ s.run
  exact h0.trans (hR.control s t s.pred s.run) (hR.core _ _ _ (by decide))

/-- WHAT EVERY INSTRUCTION KEEPS: any relation its operations keep. -/
theorem body_keeps {R : State → State → Prop} (hR : MachineRel R) (i : Instr) : M.Keeps R (body i) := by
  have h0 := hR.toStateRel
  have hr := hR.toRegRel
  have hs := hR.toStackRel
  cases i <;> simp only [body]
  case jpIRR => exact .bind h0 (pairRead_keeps hr _) fun t => jump_keeps hR fun _ => t
  case srp => exact .modify fun s => hR.core s _ _ (by decide)
  case ldeLoad => exact memoryLoad_keeps hr (dataRead_keeps h0) _ _
  case ldeStore => exact memoryStore_keeps hr hR.store _ _
  case ldeiLoad => exact memoryLoadIncrement_keeps hr (dataRead_keeps h0) _ _
  case ldeiStore => exact memoryStoreIncrement_keeps hr hR.store _ _
  case ldcLoad => exact memoryLoad_keeps hr (programRead_keeps hR) _ _
  case ldcStore => exact memoryStore_keeps hr (programWrite_keeps hR) _ _
  case ldciLoad => exact memoryLoadIncrement_keeps hr (programRead_keeps hR) _ _
  case ldciStore => exact memoryStoreIncrement_keeps hr (programWrite_keeps hR) _ _
  case ldWX =>
    exact .bind h0 (regRead_keeps hr _) fun _ => .bind h0 (regRead_keeps hr _) fun _ => regWrite_keeps hr _ _
  case ldXW =>
    exact .bind h0 (regRead_keeps hr _) fun _ => .bind h0 (regRead_keeps hr _) fun _ => regWrite_keeps hr _ _
  case callIRR => exact .bind h0 (pairRead_keeps hr _) fun _ => callTo_keeps hR _
  case callDA => exact callTo_keeps hR _
  case ldWR => exact moveRegister_keeps hr _ _
  case ldRW => exact moveRegister_keeps hr _ _
  case djnz =>
    refine .bind h0 (regRead_keeps hr _) fun _ => .bind h0 (regWrite_keeps hr _ _) fun _ => ?_
    split
    · exact jump_keeps hR _
    · exact .pure h0 _
  case jr =>
    refine .bind h0 (condition_keeps hr _) fun _ => ?_
    split
    · exact jump_keeps hR _
    · exact .pure h0 _
  case ldWIM => exact regWrite_keeps hr _ _
  case jp =>
    refine .bind h0 (condition_keeps hr _) fun _ => ?_
    split
    · exact jump_keeps hR _
    · exact .pure h0 _
  case incW => exact modifyRegister_keeps hr _ _
  case ifPred => exact .bind h0 (condition_keeps hr _) fun _ => .modify fun s => hR.control s s.pc _ s.run
  case stop => exact .modify fun s => hR.control s s.pc s.pred _
  case halt => exact .modify fun s => hR.control s s.pc s.pred _
  case di => exact .modify fun s => hR.core s _ _ (by decide)
  case ei => exact .modify fun s => hR.core s _ _ (by decide)
  case ret => exact .bind h0 (popPc_keeps hs) fun t => jump_keeps hR fun _ => t
  case iret => exact returnFromInterrupt_keeps hR
  case rcf => exact updateFlags_keeps hr _
  case scf => exact updateFlags_keeps hr _
  case ccf => exact .modify fun s => hr.flags s _
  case nop => exact .pure h0 _
  case pushR => exact pushInstruction_keeps hs hR.store _
  case pushIR => exact pushInstruction_keeps hs hR.store _
  case popR => exact popInstruction_keeps hs _
  case popIR => exact popInstruction_keeps hs _
  case decwRR => exact wordInstruction_keeps hr _ _ _
  case decwIR => exact wordInstruction_keeps hr _ _ _
  case incwRR => exact wordInstruction_keeps hr _ _ _
  case incwIR => exact wordInstruction_keeps hr _ _ _
  case clrR => exact clearInstruction_keeps hr _
  case clrIR => exact clearInstruction_keeps hr _
  case ldWIW => exact loadInstruction_keeps hr _
  case ldIWW => exact storeIndirect_keeps hr _ _ _
  case ldRR => exact loadInstruction_keeps hr _
  case ldRIR => exact loadInstruction_keeps hr _
  case ldRIM => exact loadInstruction_keeps hr _
  case ldIRIM => exact loadInstruction_keeps hr _
  case ldIRR => exact storeIndirect_keeps hr _ _ _
  all_goals first
    | exact aluInstruction_keeps hr _ _
    | exact singleInstruction_keeps hr _ _

end Sys2Proof.Machine
end

