-- ==== Sys2Proof/Laws/Step.lean ====
section
/-! SUPPORT. What every step of the machine keeps: any relation kept by the operations it is made of. One theorem over
`step`, so that a claim about all steps is a claim about those operations. -/

namespace Sys2Proof.Machine

variable {R : State → State → Prop}

/-- What a step needs of a relation beside what the instructions need: the device tick and the flush. -/
structure StepRel (R : State → State → Prop) : Prop extends MachineRel R where
  tick : ∀ s, R s s.tick
  flush : ∀ s, R s s.flushAll

theorem fetch_keeps (hR : MachineRel R) : M.Keeps R fetch := by
  have h0 := hR.toStateRel
  refine .bind h0 (.get h0) fun s => .bind h0 (programRead_keeps hR _) fun b => .bind h0 (.modify fun t => ?_) fun _ => .pure h0 _
  exact hR.control t (s.pc + 1) t.pred t.run

theorem fetchMany_keeps (hR : MachineRel R) (n : Nat) : M.Keeps R (fetchMany n) := by
  have h0 := hR.toStateRel
  induction n with
  | zero => exact .pure h0 _
  | succ n ih => exact .bind h0 (fetch_keeps hR) fun _ => .bind h0 ih fun _ => .pure h0 _

theorem fetchOperandBytes_keeps (hR : MachineRel R) (b0 : Byte) (n : Nat) : M.Keeps R (fetchOperandBytes b0 n) := by
  intro s
  obtain ⟨h1, h2⟩ := fetchMany_keeps hR n s
  unfold fetchOperandBytes
  refine ⟨fun a t h => ?_, fun r t h => ?_⟩
  · split at h
    · next h' => cases h; exact h1 _ _ h'
    · simp at h
  · split at h
    · simp at h
    · next h' => cases h; exact hR.trans (h2 _ _ h') (hR.charge _ _)

theorem fetchInstr_keeps (hR : MachineRel R) : M.Keeps R fetchInstr := by
  have h0 := hR.toStateRel
  unfold fetchInstr
  refine .bind h0 (fetch_keeps hR) fun b0 => ?_
  split
  · exact .throw h0 _
  · refine .bind h0 (.modify fun s => hR.charge s _) fun _ => .bind h0 (fetchOperandBytes_keeps hR _ _) fun rest => ?_
    split
    · exact .pure h0 _
    · exact .throw h0 _

theorem service_keeps (hR : MachineRel R) (i : Fin 6) : M.Keeps R (service i) := by
  have h0 := hR.toStateRel
  have hch : ∀ (f : State → Nat), M.Keeps R (modify fun s => s.charge (f s) : M PUnit) := fun f =>
    .modify fun s => hR.charge s _
  have hcore : ∀ (a : Byte) (f : State → Byte), 0xF8#8 ≤ a → M.Keeps R (modify fun s => s.setReg a (f s) : M PUnit) :=
    fun a f ha => .modify fun s => hR.core s a _ ha
  refine .bind h0 (pushPc_keeps hR.toStackRel hR.store) fun _ => .bind h0 (hch _) fun _ => ?_
  refine .bind h0 (programRead_keeps hR _) fun h => .bind h0 (programRead_keeps hR _) fun l => ?_
  refine .bind h0 (.modify fun s => hR.control s (ofBytes h l) s.pred s.run) fun _ => ?_
  refine .bind h0 (hcore _ _ (by decide)) fun _ => .bind h0 (.get h0) fun _ => ?_
  refine .bind h0 (push_keeps hR.toStackRel hR.store _) fun _ => .bind h0 (hch _) fun _ => ?_
  refine .bind h0 (hcore _ _ (by decide)) fun _ => .bind h0 (hch _) fun _ => ?_
  exact .modify fun s => hR.control s s.pc s.pred.zero _

theorem poll_keeps (hR : MachineRel R) : M.Keeps R poll := by
  have h0 := hR.toStateRel
  unfold poll
  refine .bind h0 (.get h0) fun s => ?_
  split
  · split
    · exact .throw h0 _
    · exact service_keeps hR _
  · exact .pure h0 _

theorem restoreFlags_rel (hR : MachineRel R) (s : State) : R s s.restoreFlags := hR.core s _ _ (by decide)

theorem countTrue_rel (hR : MachineRel R) (s : State) : R s s.countTrue := hR.control s s.pc _ s.run

theorem countFalse_rel (hR : MachineRel R) (s : State) : R s s.countFalse := hR.control s s.pc _ s.run

theorem skipOne_keeps (hR : MachineRel R) : M.Keeps R skipOne := by
  have h0 := hR.toStateRel
  unfold skipOne
  refine .bind h0 (fetch_keeps hR) fun b => ?_
  split
  · exact .throw h0 _
  · next n _ =>
    refine .modify fun s => ?_
    exact h0.trans (hR.control s (s.pc + BitVec.ofNat 16 n) s.pred s.run) (hR.charge _ _)

theorem skipPart_keeps (hR : MachineRel R) {count : State → State} (hc : ∀ s : State, R s (count s)) (n : Nat) :
    M.Keeps R (skipPart count n) := by
  have h0 := hR.toStateRel
  refine .bind h0 ?_ fun _ => .modify (restoreFlags_rel hR)
  induction n with
  | zero => exact .pure h0 _
  | succ n ih => exact .bind h0 (skipOne_keeps hR) fun _ => .bind h0 (.modify hc) fun _ => ih

theorem predBookkeeping_keeps (hR : MachineRel R) (wasIf : Bool) : M.Keeps R (predBookkeeping wasIf) := by
  have h0 := hR.toStateRel
  have hend : M.Keeps R (do
      let s ← get
      if s.pred.tcnt = 0 ∧ s.pred.fcnt ≠ 0 then skipPart State.countFalse s.pred.fcnt.toNat : M Unit) := by
    refine .bind h0 (.get h0) fun s => ?_
    split
    · exact skipPart_keeps hR (countFalse_rel hR) _
    · exact .pure h0 _
  unfold predBookkeeping
  refine .bind h0 (.get h0) fun s => ?_
  split
  · split
    · exact .bind h0 (.modify fun s => h0.trans (countTrue_rel hR s) (restoreFlags_rel hR _)) fun _ => hend
    · exact hend
  · split
    · exact skipPart_keeps hR (countTrue_rel hR) _
    · split
      · exact .modify fun s => h0.trans (countFalse_rel hR s) (restoreFlags_rel hR _)
      · exact .pure h0 _

theorem endOfCycle_keeps (hR : StepRel R) (wasIf : Bool) : M.Keeps R (endOfCycle wasIf) := by
  have h0 := hR.toStateRel
  refine .bind h0 (predBookkeeping_keeps hR.toMachineRel _) fun _ => .bind h0 (.modify hR.tick) fun _ => ?_
  refine .bind h0 (poll_keeps hR.toMachineRel) fun _ => .modify fun s => ?_
  split
  · exact hR.flush s
  · exact hR.refl s

theorem waitingStep_keeps (hR : StepRel R) : M.Keeps R waitingStep := by
  have h0 := hR.toStateRel
  exact .bind h0 (.modify fun s => hR.charge s _) fun _ => .bind h0 (.modify hR.tick) fun _ => poll_keeps hR.toMachineRel

theorem exec_keeps (hR : MachineRel R) {i : Instr} {s t : State} (h : exec i s = .next t) : R s t := by
  rw [exec_eq] at h
  exact (body_keeps hR i).finish hR.toStateRel hR.raise h

/-- Every instruction answers a next state: none is refused, none stops the machine. -/
theorem exec_next (i : Instr) (s : State) : ∃ t, exec i s = .next t := by
  rw [exec_eq]
  unfold M.finish
  split <;> exact ⟨_, rfl⟩

/-- WHAT EVERY STEP KEEPS: any relation its operations keep. -/
theorem step_keeps (hR : StepRel R) {s t : State} (h : step s = .next t) : R s t := by
  have h0 := hR.toStateRel
  have hexhaust : R s s.exhaust := h0.trans (hR.flush s) (hR.control s.flushAll s.pc s.pred .exhausted)
  unfold step at h
  split at h
  · simp at h
  · simp at h
  · simp at h
  · split at h
    · cases h; exact hexhaust
    · unfold instructionCycle at h
      split at h
      · next hf => cases h; exact h0.trans ((fetchInstr_keeps hR.toMachineRel s).2 _ _ hf) (hR.raise _ _)
      · next i u hf =>
        have h1 := (fetchInstr_keeps hR.toMachineRel s).1 _ _ hf
        obtain ⟨v, hv⟩ := exec_next i u
        have h2 := exec_keeps hR.toMachineRel hv
        rw [hv] at h
        simp only [closeCycle] at h
        split at h
        · cases h; exact h0.trans h1 h2
        · exact h0.trans h1 (h0.trans h2 ((endOfCycle_keeps hR _).finish h0 hR.raise h))
  · split at h
    · cases h; exact hexhaust
    · exact (waitingStep_keeps hR).finish h0 hR.raise h

end Sys2Proof.Machine
end

