-- ==== Sys2Proof/Laws/Invariant.lean ====
section
/-! SUPPORT. The core invariant through each shared operation of the machine: register access, memory access, the stack, the
device tick, the bookkeeping, the poll. -/

namespace Sys2Proof.Machine

/-- Keeping the core invariant, as a relation of two states. -/
def State.CoreStep (s t : State) : Prop := s.CoreInv → t.CoreInv

theorem State.CoreStep.rel : StateRel State.CoreStep := ⟨fun _ h => h, fun h k hs => k (h hs)⟩

/-- A change of register memory outside the ReadOnly slots, of device state without a change of its length, of pc, of the
predication context, of the run state, or an advance of the clock. -/
theorem State.CoreInv.change {s t : State} (h : s.CoreInv) (hcfg : t.cfg = s.cfg) (hlines : t.lines = s.lines)
    (hprog : t.prog = s.prog) (hdata : t.data = s.data)
    (hreg : ∀ a : Byte, 0x80#8 ≤ a → a ≤ 0xDF#8 → t.reg a = s.reg a) (hdev : t.dev.length = s.dev.length)
    (htick : t.lastTick ≤ t.cycles) : t.CoreInv where
  valid := by rw [hcfg]; exact h.valid
  cache := by rw [hcfg, hlines, hprog]; exact h.cache
  dataWf := by rw [hdata]; exact h.dataWf
  readOnly := fun a h1 h2 => by rw [hreg a h1 h2]; exact h.readOnly a h1 h2
  devices := by rw [hdev, hcfg]; exact h.devices
  ticked := htick

theorem State.CoreInv.numLines {s : State} (h : s.CoreInv) : 0 < s.cfg.numLines := by
  have := h.valid
  simp only [Config.valid, Bool.and_eq_true, decide_eq_true_eq] at this
  exact this.1.1.1

/-- A slot the launch check allows a device to back is no ReadOnly slot (`10_state.md` R24). -/
theorem mayBack_not_readOnly {a : Byte} (h : mayBack a = true) : ¬(0x80#8 ≤ a ∧ a ≤ 0xDF#8) := by
  simp only [mayBack, Bool.or_eq_true, Bool.and_eq_true, decide_eq_true_eq] at h
  bv_omega

theorem State.still_readOnly (s : State) {a : Byte} (h1 : 0x80#8 ≤ a) (h2 : a ≤ 0xDF#8) : s.still a := by
  refine ⟨fun i hi => (slotPolicy_deviceBacked hi).1 ⟨h1, h2⟩, ?_⟩
  rintro rfl
  simp [slotIRQ] at h2

theorem State.length_dev_slotRead (s : State) (p : Byte) : (s.slotRead p).2.dev.length = s.dev.length := by
  unfold State.slotRead
  split
  all_goals first | rfl | exact State.length_dev_deviceAccess _ _ _ _

theorem State.length_dev_slotWrite (s : State) (p v : Byte) : (s.slotWrite p v).dev.length = s.dev.length := by
  unfold State.slotWrite
  split
  all_goals first | rfl | exact State.length_dev_deviceAccess _ _ _ _

theorem State.CoreStep.setReg (s : State) {a : Byte} (v : Byte) (ha : ¬(0x80#8 ≤ a ∧ a ≤ 0xDF#8)) :
    s.CoreStep (s.setReg a v) := fun h =>
  h.change rfl rfl rfl rfl (fun b h1 h2 => s.reg_setReg_ne v (by rintro rfl; exact ha ⟨h1, h2⟩)) rfl h.ticked

theorem State.CoreStep.slotRead (s : State) (p : Byte) : s.CoreStep (s.slotRead p).2 := fun h => by
  have hr := State.RegOnly.slotRead s p
  refine h.change hr.cfg hr.lines hr.prog hr.data (fun a h1 h2 => s.reg_slotRead p (s.still_readOnly h1 h2))
    (s.length_dev_slotRead p) ?_
  rw [hr.lastTick, s.cycles_slotRead]; exact h.ticked

theorem State.CoreStep.slotWrite (s : State) (p v : Byte) : s.CoreStep (s.slotWrite p v) := fun h => by
  have hr := State.RegOnly.slotWrite s p v
  refine h.change hr.cfg hr.lines hr.prog hr.data (fun a h1 h2 => ?_) (s.length_dev_slotWrite p v) ?_
  · by_cases hp : a = p
    · subst hp
      rw [State.slotWrite_readOnly v (policy_readOnly.mpr ⟨h1, h2⟩)]
    · exact s.reg_slotWrite p v (s.still_readOnly h1 h2) hp
  · rw [hr.lastTick, s.cycles_slotWrite]; exact h.ticked

theorem State.CoreStep.stackRel : StackRel State.CoreStep where
  toStateRel := State.CoreStep.rel
  read := .slotRead
  write := .slotWrite
  flags := fun s u => .setReg s _ (by decide)
  charge := fun s k h => h.change rfl rfl rfl rfl (fun _ _ _ => rfl) rfl (Nat.le_trans h.ticked (Nat.le_add_right _ _))
  spl := fun s v => .setReg s v (by decide)
  setSp := fun s w h => State.CoreStep.setReg (s.setReg slotSPH (hiByte w)) _ (by decide)
    (State.CoreStep.setReg s (a := slotSPH) _ (by decide) h)

theorem State.CoreStep.regRel : RegRel State.CoreStep := State.CoreStep.stackRel.toRegRel

/-- A change of pc, the predication context and the run state. -/
theorem State.CoreStep.control (s : State) (pc : Word) (pred : PredContext) (run : RunState) :
    s.CoreStep { s with pc := pc, pred := pred, run := run } := fun h =>
  h.change rfl rfl rfl rfl (fun _ _ _ => rfl) rfl h.ticked

/-! ### Memory -/

theorem programAccess_core (a : Word) (op : CacheOp) : M.Keeps State.CoreStep (programAccess a op) := by
  intro s
  unfold programAccess
  split
  · exact ⟨fun _ _ h => by simp at h, fun _ _ h => by simp at h; exact h.2 ▸ State.CoreStep.rel.refl s⟩
  · next ha =>
    refine ⟨fun v t ht hs => ?_, fun _ _ h => by simp at h⟩
    cases hacc : cacheAccess s.cfg s.lines s.prog a op with
    | mk w rest =>
    obtain ⟨lines, prog⟩ := rest
    simp only [hacc, EStateM.Result.ok.injEq] at ht
    obtain ⟨-, rfl⟩ := ht
    obtain ⟨hc, -, -⟩ := cacheAccess_spec hs.cache hs.numLines ha hacc
    exact ⟨hs.valid, hc, hs.dataWf, hs.readOnly, hs.devices, hs.ticked⟩

theorem dataWrite_core (a : Word) (v : Byte) : M.Keeps State.CoreStep (dataWrite a v) := by
  intro s
  refine ⟨fun _ t ht hs => ?_, fun _ _ h => by simp [dataWrite] at h⟩
  simp only [dataWrite, EStateM.Result.ok.injEq, true_and] at ht
  subst ht
  exact ⟨hs.valid, hs.cache, Memory.wf_write hs.dataWf _ _, hs.readOnly, hs.devices, hs.ticked⟩

theorem State.CoreStep.flushAll (s : State) : s.CoreStep s.flushAll := fun h =>
  ⟨h.valid, (cacheFlush_spec h.cache).1, h.dataWf, h.readOnly, h.devices, h.ticked⟩

/-! ### The tick -/

theorem State.reg_writeSlots (s : State) (slots : List Byte) (view : Byte → Byte) {a : Byte} (h : a ∉ slots) :
    (s.writeSlots slots view).reg a = s.reg a := by
  unfold State.writeSlots
  induction slots generalizing s with
  | nil => rfl
  | cons b r ih =>
    simp only [List.mem_cons, not_or] at h
    rw [List.foldl_cons, ih _ h.2, s.reg_setReg_ne _ h.1]

theorem State.reg_writeSlots_mem (s : State) (slots : List Byte) (view : Byte → Byte) {a : Byte} (h : a ∈ slots) :
    (s.writeSlots slots view).reg a = view a := by
  unfold State.writeSlots
  induction slots generalizing s with
  | nil => cases h
  | cons b r ih =>
    rw [List.foldl_cons]
    by_cases hr : a ∈ r
    · exact ih _ hr
    · obtain rfl : a = b := by simpa [hr] using h
      have hw := State.reg_writeSlots (s.setReg a (view a)) r view hr
      unfold State.writeSlots at hw
      rw [hw]; simp

theorem State.writeSlots_rest (s : State) (slots : List Byte) (view : Byte → Byte) :
    s.RegOnly (s.writeSlots slots view) ∧ (s.writeSlots slots view).dev = s.dev ∧
      (s.writeSlots slots view).cycles = s.cycles := by
  unfold State.writeSlots
  induction slots generalizing s with
  | nil => exact ⟨.refl s, rfl, rfl⟩
  | cons b r ih =>
    obtain ⟨h1, h2, h3⟩ := ih (s.setReg b (view b))
    exact ⟨(State.RegOnly.setReg s _ _).trans h1, h2, h3⟩

/-- Everything the tick of one device can change: its private state, its slots, the pending register (`10_state.md` R32). -/
theorem State.tickDevice_rest (s : State) (i k : Nat) (d : Device) :
    s.RegOnly (s.tickDevice i k d) ∧ (s.tickDevice i k d).dev.length = s.dev.length ∧
      (s.tickDevice i k d).cycles = s.cycles ∧
      ∀ a, a ∉ d.slots → a ≠ slotIRQ → (s.tickDevice i k d).reg a = s.reg a := by
  unfold State.tickDevice
  split
  · exact ⟨.refl s, rfl, rfl, fun _ _ _ => rfl⟩
  · next st _ =>
    obtain ⟨h1, h2, h3⟩ := State.writeSlots_rest { s with dev := s.dev.set i (deviceOnTick st k (d.slots.map fun a => (a, s.reg a))).1 }
      d.slots (deviceOnTick st k (d.slots.map fun a => (a, s.reg a))).2.1
    refine ⟨⟨h1.cfg, h1.pc, h1.prog, h1.data, h1.lines, h1.pred, h1.run, h1.lastTick⟩, ?_, h3, ?_⟩
    · rw [State.markPending_dev, h2]; simp
    · intro a ha hq
      rw [State.reg_markPending, if_neg hq, State.reg_writeSlots _ _ _ ha]
      rfl

/-- Everything the ticks of a list of devices can change. -/
theorem State.tickFrom_rest (s : State) (i k : Nat) (ds : List Device) :
    s.RegOnly (s.tickFrom i k ds) ∧ (s.tickFrom i k ds).dev.length = s.dev.length ∧ (s.tickFrom i k ds).cycles = s.cycles ∧
      ∀ a, (∀ d ∈ ds, a ∉ d.slots) → a ≠ slotIRQ → (s.tickFrom i k ds).reg a = s.reg a := by
  induction ds generalizing s i with
  | nil => exact ⟨.refl s, rfl, rfl, fun _ _ _ => rfl⟩
  | cons d r ih =>
    obtain ⟨h1, h2, h3, h4⟩ := State.tickDevice_rest s i k d
    obtain ⟨k1, k2, k3, k4⟩ := ih (s.tickDevice i k d) (i + 1)
    refine ⟨h1.trans k1, k2.trans h2, k3.trans h3, fun a ha hq => ?_⟩
    exact (k4 a (fun d' hd => ha d' (List.mem_cons_of_mem _ hd)) hq).trans (h4 a (ha d List.mem_cons_self) hq)

/-- Everything `Tick` can change: the devices, their slots, the pending register, and `lastTick` (`40_cycle_and_alu.md`
R135). -/
theorem State.tick_rest (s : State) :
    ({ s with lastTick := s.cycles } : State).RegOnly s.tick ∧ s.tick.dev.length = s.dev.length ∧ s.tick.cycles = s.cycles ∧
      ∀ a, (∀ d ∈ s.cfg.devices, a ∉ d.slots) → a ≠ slotIRQ → s.tick.reg a = s.reg a :=
  State.tickFrom_rest _ _ _ _

/-- With no devices, `Tick` only updates `lastTick` (`40_cycle_and_alu.md` R135). -/
theorem State.tick_no_devices {s : State} (h : s.cfg.devices = []) : s.tick = { s with lastTick := s.cycles } := by
  simp [State.tick, h, State.tickFrom]

theorem Config.mayBack_of_valid {c : Config} (h : Config.valid c = true) {d : Device} (hd : d ∈ c.devices) {a : Byte}
    (ha : a ∈ d.slots) : mayBack a = true := by
  simp only [Config.valid, Bool.and_eq_true, List.all_eq_true] at h
  exact h.1.2 a (List.mem_flatten.mpr ⟨d.slots, List.mem_map_of_mem hd, ha⟩)

theorem State.CoreStep.tick (s : State) : s.CoreStep s.tick := fun h => by
  obtain ⟨h1, h2, h3, h4⟩ := State.tick_rest s
  refine h.change h1.cfg h1.lines h1.prog h1.data (fun a ha1 ha2 => h4 a ?_ ?_) h2 ?_
  · intro d hd ha
    exact mayBack_not_readOnly (Config.mayBack_of_valid h.valid hd ha) ⟨ha1, ha2⟩
  · rintro rfl; simp [slotIRQ] at ha2
  · rw [h1.lastTick, h3]

/-- EVERY STEP KEEPS THE CORE INVARIANT, through `step_keeps`. -/
theorem State.CoreStep.stepRel : StepRel State.CoreStep where
  toStackRel := State.CoreStep.stackRel
  core := fun s a v ha => .setReg s v (by bv_omega)
  control := .control
  program := programAccess_core
  store := dataWrite_core
  tick := .tick
  flush := .flushAll

end Sys2Proof.Machine
end

