-- ==== Sys2Proof/Laws/PerInstr.lean ====
section
/-! SUPPORT. Facts proved of every instruction, constructor by constructor. -/

namespace Sys2Proof.Laws.Encoding

/-- The encoding of an instruction is a legal first byte and at most two operand bytes (`30_encoding.md` R101, R112). -/
def Statement (i : Instr) : Prop := ∃ b0 ops, encode i = b0 :: ops ∧ isIllegal b0 = false ∧ ops.length ≤ 2

/-- The first bytes of columns 8 to E are legal in every row (`30_encoding.md` R107, R112). -/
theorem legal_column (h : Nib) : isIllegal (ofNibs h 8) = false ∧ isIllegal (ofNibs h 9) = false ∧
    isIllegal (ofNibs h 10) = false ∧ isIllegal (ofNibs h 11) = false ∧ isIllegal (ofNibs h 12) = false ∧
    isIllegal (ofNibs h 13) = false ∧ isIllegal (ofNibs h 14) = false := by
  revert h; decide

theorem decR (r : Byte) : Statement (.decR r) := ⟨_, _, rfl, by decide, by simp⟩

theorem decIR (r : Byte) : Statement (.decIR r) := ⟨_, _, rfl, by decide, by simp⟩

theorem rlcR (r : Byte) : Statement (.rlcR r) := ⟨_, _, rfl, by decide, by simp⟩

theorem rlcIR (r : Byte) : Statement (.rlcIR r) := ⟨_, _, rfl, by decide, by simp⟩

theorem incR (r : Byte) : Statement (.incR r) := ⟨_, _, rfl, by decide, by simp⟩

theorem incIR (r : Byte) : Statement (.incIR r) := ⟨_, _, rfl, by decide, by simp⟩

theorem jpIRR (rr : Byte) : Statement (.jpIRR rr) := ⟨_, _, rfl, by decide, by simp⟩

theorem srp (im : Byte) : Statement (.srp im) := ⟨_, _, rfl, by decide, by simp⟩

theorem daR (r : Byte) : Statement (.daR r) := ⟨_, _, rfl, by decide, by simp⟩

theorem daIR (r : Byte) : Statement (.daIR r) := ⟨_, _, rfl, by decide, by simp⟩

theorem popR (r : Byte) : Statement (.popR r) := ⟨_, _, rfl, by decide, by simp⟩

theorem popIR (r : Byte) : Statement (.popIR r) := ⟨_, _, rfl, by decide, by simp⟩

theorem comR (r : Byte) : Statement (.comR r) := ⟨_, _, rfl, by decide, by simp⟩

theorem comIR (r : Byte) : Statement (.comIR r) := ⟨_, _, rfl, by decide, by simp⟩

theorem pushR (r : Byte) : Statement (.pushR r) := ⟨_, _, rfl, by decide, by simp⟩

theorem pushIR (r : Byte) : Statement (.pushIR r) := ⟨_, _, rfl, by decide, by simp⟩

theorem decwRR (rr : Byte) : Statement (.decwRR rr) := ⟨_, _, rfl, by decide, by simp⟩

theorem decwIR (r : Byte) : Statement (.decwIR r) := ⟨_, _, rfl, by decide, by simp⟩

theorem rlR (r : Byte) : Statement (.rlR r) := ⟨_, _, rfl, by decide, by simp⟩

theorem rlIR (r : Byte) : Statement (.rlIR r) := ⟨_, _, rfl, by decide, by simp⟩

theorem incwRR (rr : Byte) : Statement (.incwRR rr) := ⟨_, _, rfl, by decide, by simp⟩

theorem incwIR (r : Byte) : Statement (.incwIR r) := ⟨_, _, rfl, by decide, by simp⟩

theorem clrR (r : Byte) : Statement (.clrR r) := ⟨_, _, rfl, by decide, by simp⟩

theorem clrIR (r : Byte) : Statement (.clrIR r) := ⟨_, _, rfl, by decide, by simp⟩

theorem rrcR (r : Byte) : Statement (.rrcR r) := ⟨_, _, rfl, by decide, by simp⟩

theorem rrcIR (r : Byte) : Statement (.rrcIR r) := ⟨_, _, rfl, by decide, by simp⟩

theorem sraR (r : Byte) : Statement (.sraR r) := ⟨_, _, rfl, by decide, by simp⟩

theorem sraIR (r : Byte) : Statement (.sraIR r) := ⟨_, _, rfl, by decide, by simp⟩

theorem rrR (r : Byte) : Statement (.rrR r) := ⟨_, _, rfl, by decide, by simp⟩

theorem rrIR (r : Byte) : Statement (.rrIR r) := ⟨_, _, rfl, by decide, by simp⟩

theorem swapR (r : Byte) : Statement (.swapR r) := ⟨_, _, rfl, by decide, by simp⟩

theorem swapIR (r : Byte) : Statement (.swapIR r) := ⟨_, _, rfl, by decide, by simp⟩

theorem addWW (d : Nib) (w : Nib) : Statement (.addWW d w) := ⟨_, _, rfl, by decide, by simp⟩

theorem addWIW (d : Nib) (w : Nib) : Statement (.addWIW d w) := ⟨_, _, rfl, by decide, by simp⟩

theorem addRR (d : Byte) (r : Byte) : Statement (.addRR d r) := ⟨_, _, rfl, by decide, by simp⟩

theorem addRIR (d : Byte) (r : Byte) : Statement (.addRIR d r) := ⟨_, _, rfl, by decide, by simp⟩

theorem addRIM (d : Byte) (im : Byte) : Statement (.addRIM d im) := ⟨_, _, rfl, by decide, by simp⟩

theorem addIRIM (d : Byte) (im : Byte) : Statement (.addIRIM d im) := ⟨_, _, rfl, by decide, by simp⟩

theorem adcWW (d : Nib) (w : Nib) : Statement (.adcWW d w) := ⟨_, _, rfl, by decide, by simp⟩

theorem adcWIW (d : Nib) (w : Nib) : Statement (.adcWIW d w) := ⟨_, _, rfl, by decide, by simp⟩

theorem adcRR (d : Byte) (r : Byte) : Statement (.adcRR d r) := ⟨_, _, rfl, by decide, by simp⟩

theorem adcRIR (d : Byte) (r : Byte) : Statement (.adcRIR d r) := ⟨_, _, rfl, by decide, by simp⟩

theorem adcRIM (d : Byte) (im : Byte) : Statement (.adcRIM d im) := ⟨_, _, rfl, by decide, by simp⟩

theorem adcIRIM (d : Byte) (im : Byte) : Statement (.adcIRIM d im) := ⟨_, _, rfl, by decide, by simp⟩

theorem subWW (d : Nib) (w : Nib) : Statement (.subWW d w) := ⟨_, _, rfl, by decide, by simp⟩

theorem subWIW (d : Nib) (w : Nib) : Statement (.subWIW d w) := ⟨_, _, rfl, by decide, by simp⟩

theorem subRR (d : Byte) (r : Byte) : Statement (.subRR d r) := ⟨_, _, rfl, by decide, by simp⟩

theorem subRIR (d : Byte) (r : Byte) : Statement (.subRIR d r) := ⟨_, _, rfl, by decide, by simp⟩

theorem subRIM (d : Byte) (im : Byte) : Statement (.subRIM d im) := ⟨_, _, rfl, by decide, by simp⟩

theorem subIRIM (d : Byte) (im : Byte) : Statement (.subIRIM d im) := ⟨_, _, rfl, by decide, by simp⟩

theorem sbcWW (d : Nib) (w : Nib) : Statement (.sbcWW d w) := ⟨_, _, rfl, by decide, by simp⟩

theorem sbcWIW (d : Nib) (w : Nib) : Statement (.sbcWIW d w) := ⟨_, _, rfl, by decide, by simp⟩

theorem sbcRR (d : Byte) (r : Byte) : Statement (.sbcRR d r) := ⟨_, _, rfl, by decide, by simp⟩

theorem sbcRIR (d : Byte) (r : Byte) : Statement (.sbcRIR d r) := ⟨_, _, rfl, by decide, by simp⟩

theorem sbcRIM (d : Byte) (im : Byte) : Statement (.sbcRIM d im) := ⟨_, _, rfl, by decide, by simp⟩

theorem sbcIRIM (d : Byte) (im : Byte) : Statement (.sbcIRIM d im) := ⟨_, _, rfl, by decide, by simp⟩

theorem orWW (d : Nib) (w : Nib) : Statement (.orWW d w) := ⟨_, _, rfl, by decide, by simp⟩

theorem orWIW (d : Nib) (w : Nib) : Statement (.orWIW d w) := ⟨_, _, rfl, by decide, by simp⟩

theorem orRR (d : Byte) (r : Byte) : Statement (.orRR d r) := ⟨_, _, rfl, by decide, by simp⟩

theorem orRIR (d : Byte) (r : Byte) : Statement (.orRIR d r) := ⟨_, _, rfl, by decide, by simp⟩

theorem orRIM (d : Byte) (im : Byte) : Statement (.orRIM d im) := ⟨_, _, rfl, by decide, by simp⟩

theorem orIRIM (d : Byte) (im : Byte) : Statement (.orIRIM d im) := ⟨_, _, rfl, by decide, by simp⟩

theorem andWW (d : Nib) (w : Nib) : Statement (.andWW d w) := ⟨_, _, rfl, by decide, by simp⟩

theorem andWIW (d : Nib) (w : Nib) : Statement (.andWIW d w) := ⟨_, _, rfl, by decide, by simp⟩

theorem andRR (d : Byte) (r : Byte) : Statement (.andRR d r) := ⟨_, _, rfl, by decide, by simp⟩

theorem andRIR (d : Byte) (r : Byte) : Statement (.andRIR d r) := ⟨_, _, rfl, by decide, by simp⟩

theorem andRIM (d : Byte) (im : Byte) : Statement (.andRIM d im) := ⟨_, _, rfl, by decide, by simp⟩

theorem andIRIM (d : Byte) (im : Byte) : Statement (.andIRIM d im) := ⟨_, _, rfl, by decide, by simp⟩

theorem tcmWW (d : Nib) (w : Nib) : Statement (.tcmWW d w) := ⟨_, _, rfl, by decide, by simp⟩

theorem tcmWIW (d : Nib) (w : Nib) : Statement (.tcmWIW d w) := ⟨_, _, rfl, by decide, by simp⟩

theorem tcmRR (d : Byte) (r : Byte) : Statement (.tcmRR d r) := ⟨_, _, rfl, by decide, by simp⟩

theorem tcmRIR (d : Byte) (r : Byte) : Statement (.tcmRIR d r) := ⟨_, _, rfl, by decide, by simp⟩

theorem tcmRIM (d : Byte) (im : Byte) : Statement (.tcmRIM d im) := ⟨_, _, rfl, by decide, by simp⟩

theorem tcmIRIM (d : Byte) (im : Byte) : Statement (.tcmIRIM d im) := ⟨_, _, rfl, by decide, by simp⟩

theorem tmWW (d : Nib) (w : Nib) : Statement (.tmWW d w) := ⟨_, _, rfl, by decide, by simp⟩

theorem tmWIW (d : Nib) (w : Nib) : Statement (.tmWIW d w) := ⟨_, _, rfl, by decide, by simp⟩

theorem tmRR (d : Byte) (r : Byte) : Statement (.tmRR d r) := ⟨_, _, rfl, by decide, by simp⟩

theorem tmRIR (d : Byte) (r : Byte) : Statement (.tmRIR d r) := ⟨_, _, rfl, by decide, by simp⟩

theorem tmRIM (d : Byte) (im : Byte) : Statement (.tmRIM d im) := ⟨_, _, rfl, by decide, by simp⟩

theorem tmIRIM (d : Byte) (im : Byte) : Statement (.tmIRIM d im) := ⟨_, _, rfl, by decide, by simp⟩

theorem cpWW (d : Nib) (w : Nib) : Statement (.cpWW d w) := ⟨_, _, rfl, by decide, by simp⟩

theorem cpWIW (d : Nib) (w : Nib) : Statement (.cpWIW d w) := ⟨_, _, rfl, by decide, by simp⟩

theorem cpRR (d : Byte) (r : Byte) : Statement (.cpRR d r) := ⟨_, _, rfl, by decide, by simp⟩

theorem cpRIR (d : Byte) (r : Byte) : Statement (.cpRIR d r) := ⟨_, _, rfl, by decide, by simp⟩

theorem cpRIM (d : Byte) (im : Byte) : Statement (.cpRIM d im) := ⟨_, _, rfl, by decide, by simp⟩

theorem cpIRIM (d : Byte) (im : Byte) : Statement (.cpIRIM d im) := ⟨_, _, rfl, by decide, by simp⟩

theorem xorWW (d : Nib) (w : Nib) : Statement (.xorWW d w) := ⟨_, _, rfl, by decide, by simp⟩

theorem xorWIW (d : Nib) (w : Nib) : Statement (.xorWIW d w) := ⟨_, _, rfl, by decide, by simp⟩

theorem xorRR (d : Byte) (r : Byte) : Statement (.xorRR d r) := ⟨_, _, rfl, by decide, by simp⟩

theorem xorRIR (d : Byte) (r : Byte) : Statement (.xorRIR d r) := ⟨_, _, rfl, by decide, by simp⟩

theorem xorRIM (d : Byte) (im : Byte) : Statement (.xorRIM d im) := ⟨_, _, rfl, by decide, by simp⟩

theorem xorIRIM (d : Byte) (im : Byte) : Statement (.xorIRIM d im) := ⟨_, _, rfl, by decide, by simp⟩

theorem ldWIW (d : Nib) (w : Nib) : Statement (.ldWIW d w) := ⟨_, _, rfl, by decide, by simp⟩

theorem ldIWW (d : Nib) (w : Nib) : Statement (.ldIWW d w) := ⟨_, _, rfl, by decide, by simp⟩

theorem ldRR (d : Byte) (r : Byte) : Statement (.ldRR d r) := ⟨_, _, rfl, by decide, by simp⟩

theorem ldRIR (d : Byte) (r : Byte) : Statement (.ldRIR d r) := ⟨_, _, rfl, by decide, by simp⟩

theorem ldRIM (d : Byte) (im : Byte) : Statement (.ldRIM d im) := ⟨_, _, rfl, by decide, by simp⟩

theorem ldIRIM (d : Byte) (im : Byte) : Statement (.ldIRIM d im) := ⟨_, _, rfl, by decide, by simp⟩

theorem ldIRR (d : Byte) (r : Byte) : Statement (.ldIRR d r) := ⟨_, _, rfl, by decide, by simp⟩

theorem ldeLoad (d : Nib) (p : Nib) : Statement (.ldeLoad d p) := ⟨_, _, rfl, by decide, by simp⟩

theorem ldeStore (d : Nib) (p : Nib) : Statement (.ldeStore d p) := ⟨_, _, rfl, by decide, by simp⟩

theorem ldeiLoad (d : Nib) (p : Nib) : Statement (.ldeiLoad d p) := ⟨_, _, rfl, by decide, by simp⟩

theorem ldeiStore (d : Nib) (p : Nib) : Statement (.ldeiStore d p) := ⟨_, _, rfl, by decide, by simp⟩

theorem ldcLoad (d : Nib) (p : Nib) : Statement (.ldcLoad d p) := ⟨_, _, rfl, by decide, by simp⟩

theorem ldcStore (d : Nib) (p : Nib) : Statement (.ldcStore d p) := ⟨_, _, rfl, by decide, by simp⟩

theorem ldciLoad (d : Nib) (p : Nib) : Statement (.ldciLoad d p) := ⟨_, _, rfl, by decide, by simp⟩

theorem ldciStore (d : Nib) (p : Nib) : Statement (.ldciStore d p) := ⟨_, _, rfl, by decide, by simp⟩

theorem ldWX (d : Nib) (x : Nib) (off : Byte) : Statement (.ldWX d x off) := ⟨_, _, rfl, by decide, by simp⟩

theorem ldXW (d : Nib) (x : Nib) (off : Byte) : Statement (.ldXW d x off) := ⟨_, _, rfl, by decide, by simp⟩

theorem callIRR (rr : Byte) : Statement (.callIRR rr) := ⟨_, _, rfl, by decide, by simp⟩

theorem callDA (da : Word) : Statement (.callDA da) := ⟨_, _, rfl, by decide, by simp⟩

theorem ldWR (d : Nib) (r : Byte) : Statement (.ldWR d r) := ⟨_, _, rfl, (legal_column d).1, by simp⟩

theorem ldRW (d : Byte) (w : Nib) : Statement (.ldRW d w) := ⟨_, _, rfl, (legal_column w).2.1, by simp⟩

theorem djnz (w : Nib) (ra : Byte) : Statement (.djnz w ra) := ⟨_, _, rfl, (legal_column w).2.2.1, by simp⟩

theorem jr (cc : CC) (ra : Byte) : Statement (.jr cc ra) := ⟨_, _, rfl, (legal_column cc.code).2.2.2.1, by simp⟩

theorem ldWIM (d : Nib) (im : Byte) : Statement (.ldWIM d im) := ⟨_, _, rfl, (legal_column d).2.2.2.2.1, by simp⟩

theorem jp (cc : CC) (da : Word) : Statement (.jp cc da) := ⟨_, _, rfl, (legal_column cc.code).2.2.2.2.2.1, by simp⟩

theorem incW (w : Nib) : Statement (.incW w) := ⟨_, _, rfl, (legal_column w).2.2.2.2.2.2, by simp⟩

theorem ifPred (cc : CC) (t : Count) (f : Count) : Statement (.ifPred cc t f) := ⟨_, _, rfl, by decide, by simp⟩

theorem stop : Statement (.stop) := ⟨_, _, rfl, by decide, by simp⟩

theorem halt : Statement (.halt) := ⟨_, _, rfl, by decide, by simp⟩

theorem di : Statement (.di) := ⟨_, _, rfl, by decide, by simp⟩

theorem ei : Statement (.ei) := ⟨_, _, rfl, by decide, by simp⟩

theorem ret : Statement (.ret) := ⟨_, _, rfl, by decide, by simp⟩

theorem iret : Statement (.iret) := ⟨_, _, rfl, by decide, by simp⟩

theorem rcf : Statement (.rcf) := ⟨_, _, rfl, by decide, by simp⟩

theorem scf : Statement (.scf) := ⟨_, _, rfl, by decide, by simp⟩

theorem ccf : Statement (.ccf) := ⟨_, _, rfl, by decide, by simp⟩

theorem nop : Statement (.nop) := ⟨_, _, rfl, by decide, by simp⟩

end Sys2Proof.Laws.Encoding
end

