-- ==== Sys2Proof/Laws/Primitives.lean ====
section
/-! SUPPORT. What each shared operation answers, once, in terms of resolved slots: pairs, the stack, operand resolution. A
proof about an instruction cites these and unfolds none of them. -/

namespace Sys2Proof.Machine

/-! ### Resolution and pairs -/

theorem bit_zero_eq (a : Byte) : bit a 0 = decide (a.toNat % 2 = 1) := by
  simp [bit, BitVec.getLsbD, Nat.testBit_zero]

/-- Resolution keeps the low bit: a pair stays a pair (`10_state.md` R25, R34). -/
theorem bit_zero_of_resolve {rp a p : Byte} (h : resolve rp a = some p) : bit p 0 = bit a 0 := by
  unfold resolve at h
  split at h
  · split at h
    · simp at h
    · injection h with h
      subst h
      simp only [bit, ofNibs, loNib, BitVec.getLsbD_append, BitVec.getLsbD_extractLsb']
      rfl
  · injection h with h; rw [h]

/-- The low byte of a pair is in the slot after that of the high byte (`10_state.md` R34). -/
theorem resolve_succ {rp a p : Byte} (ha : bit a 0 = false) (h : resolve rp a = some p) :
    resolve rp (a + 1) = some (p + 1) := by
  have key : ∀ a : Byte, bit a 0 = false →
      hiNib (a + 1) = hiNib a ∧ ∀ k : Nib, ofNibs k (loNib (a + 1)) = ofNibs k (loNib a) + 1 := by decide
  obtain ⟨h1, h2⟩ := key a ha
  unfold resolve at h ⊢
  rw [h1]
  split at h
  · next he =>
    split at h
    · simp at h
    · next hne =>
      injection h with h
      rw [if_pos he, if_neg hne, h2, ← h]
  · next he => injection h with h; rw [if_neg he, ← h]

/-- A pair's high byte is never RP (`10_state.md` R34). -/
theorem ne_rp_of_even {p : Byte} (h : bit p 0 = false) : p ≠ slotRP := by rintro rfl; revert h; decide

/-- RP keeps its value through a write of another slot. -/
theorem State.rp_slotWrite (s : State) {p : Byte} (v : Byte) (h : p ≠ slotRP) : (s.slotWrite p v).reg slotRP = s.reg slotRP :=
  s.reg_slotWrite p v ⟨fun i => by simp [policy_core s (a := slotRP) (by decide)], fun e => absurd e (by decide)⟩ (Ne.symm h)

/-- `PairRead` at an even address that is reached (`10_state.md` R34). -/
theorem pairRead_even {a p : Byte} {s : State} (ha : bit a 0 = false) (h : resolve (s.reg slotRP) a = some p) :
    pairRead a s =
      .ok (ofBytes (s.slotRead p).1 ((s.slotRead p).2.slotRead (p + 1)).1) ((s.slotRead p).2.slotRead (p + 1)).2 := by
  have h2 : resolve ((s.slotRead p).2.reg slotRP) (a + 1#8) = some (p + 1#8) := by rw [s.rp_slotRead]; exact resolve_succ ha h
  simp [pairRead, ha, regRead_some h, regRead_some h2]

/-- `PairWrite` at an even address that is reached (`10_state.md` R34). -/
theorem pairWrite_even {a p : Byte} {s : State} (w : Word) (ha : bit a 0 = false) (h : resolve (s.reg slotRP) a = some p) :
    pairWrite a w s = .ok () ((s.slotWrite p (hiByte w)).slotWrite (p + 1) (loByte w)) := by
  have hp : bit p 0 = false := by rw [bit_zero_of_resolve h]; exact ha
  have h2 : resolve ((s.slotWrite p (hiByte w)).reg slotRP) (a + 1#8) = some (p + 1#8) := by
    rw [s.rp_slotWrite _ (ne_rp_of_even hp)]; exact resolve_succ ha h
  simp [pairWrite, ha, regWrite_some _ h, regWrite_some _ h2]

theorem pairRead_none {a : Byte} {s : State} (ha : bit a 0 = false) (h : resolve (s.reg slotRP) a = none) :
    pairRead a s = .error .forbiddenRP s := by
  simp [pairRead, ha, regRead_none h]

/-! ### Register access and the rest of the machine -/

/-- `s` with everything a register access neither reads nor writes replaced: the cost table, pc, both memories, the cache
lines, the predication context, the run state and the clock. -/
def State.recast (s : State) (cost : CostTable) (pc : Word) (prog data : Memory) (lines : List CacheLine) (pred : PredContext)
    (run : RunState) (cycles lastTick : Nat) : State :=
  { s with
    cfg := { s.cfg with cost := cost }
    pc := pc
    prog := prog
    data := data
    lines := lines
    pred := pred
    run := run
    cycles := cycles
    lastTick := lastTick }

/-- Register access reads register memory, the devices and the policies, nothing else (`10_state.md` R26). -/
theorem State.slotRead_recast (s : State) (cost : CostTable) (pc : Word) (prog data : Memory) (lines : List CacheLine)
    (pred : PredContext) (run : RunState) (cycles lastTick : Nat) (p : Byte) :
    (s.recast cost pc prog data lines pred run cycles lastTick).slotRead p =
      ((s.slotRead p).1, (s.slotRead p).2.recast cost pc prog data lines pred run cycles lastTick) := by
  have hp : (s.recast cost pc prog data lines pred run cycles lastTick).policy p = s.policy p := rfl
  unfold State.slotRead
  rw [hp]
  split
  all_goals first | rfl | skip
  next i _ =>
  have hd : (s.recast cost pc prog data lines pred run cycles lastTick).dev[i]? = s.dev[i]? := rfl
  unfold State.deviceAccess
  simp only [hd]
  split <;> rfl

/-- The same of a write (`10_state.md` R27). -/
theorem State.slotWrite_recast (s : State) (cost : CostTable) (pc : Word) (prog data : Memory) (lines : List CacheLine)
    (pred : PredContext) (run : RunState) (cycles lastTick : Nat) (p v : Byte) :
    (s.recast cost pc prog data lines pred run cycles lastTick).slotWrite p v =
      (s.slotWrite p v).recast cost pc prog data lines pred run cycles lastTick := by
  have hp : (s.recast cost pc prog data lines pred run cycles lastTick).policy p = s.policy p := rfl
  unfold State.slotWrite
  rw [hp]
  split
  all_goals first | rfl | skip
  next i _ =>
  have hd : ((s.recast cost pc prog data lines pred run cycles lastTick).setReg p v).dev[i]? = (s.setReg p v).dev[i]? := rfl
  unfold State.deviceAccess
  simp only [hd]
  split <;> rfl

/-! ### The stack -/

/-- A push on the internal stack (`20_memory.md` R82). -/
theorem push_internal {s : State} {q : Byte} (v : Byte) (hm : s.internalStack = true)
    (h : resolve (s.reg slotRP) (s.reg slotSPL - 1) = some q) :
    push v s = .ok () ((s.setReg slotSPL (s.reg slotSPL - 1)).slotWrite q v) := by
  have h' : resolve ((s.setReg slotSPL (s.reg slotSPL - 1#8)).reg slotRP) (s.reg slotSPL - 1#8) = some q := by
    rw [State.reg_setReg_ne _ _ (by decide)]; exact h
  simp [push, hm, regWrite_some _ h']

theorem push_internal_none {s : State} (v : Byte) (hm : s.internalStack = true)
    (h : resolve (s.reg slotRP) (s.reg slotSPL - 1) = none) :
    push v s = .error .forbiddenRP (s.setReg slotSPL (s.reg slotSPL - 1)) := by
  have h' : resolve ((s.setReg slotSPL (s.reg slotSPL - 1#8)).reg slotRP) (s.reg slotSPL - 1#8) = none := by
    rw [State.reg_setReg_ne _ _ (by decide)]; exact h
  simp [push, hm, regWrite_none _ h']

/-- A push on the external stack (`20_memory.md` R82). -/
theorem push_external {s : State} (v : Byte) (hm : s.internalStack = false) :
    push v s = .ok () { s.setSp (s.sp - 1) with data := Memory.write s.data (s.sp - 1) v } := by
  simp [push, hm, dataWrite]

/-- A pop on the internal stack (`20_memory.md` R83). -/
theorem pop_internal {s : State} {q : Byte} (hm : s.internalStack = true) (h : resolve (s.reg slotRP) (s.reg slotSPL) = some q) :
    pop s = .ok (s.slotRead q).1 ((s.slotRead q).2.setReg slotSPL (s.reg slotSPL + 1)) := by
  simp [pop, hm, regRead_some h, s.reg_slotRead_core q (a := slotSPL) (by decide) (by decide)]

theorem pop_internal_none {s : State} (hm : s.internalStack = true) (h : resolve (s.reg slotRP) (s.reg slotSPL) = none) :
    pop s = .error .forbiddenRP s := by
  simp [pop, hm, regRead_none h]

/-- A pop on the external stack (`20_memory.md` R83). -/
theorem pop_external {s : State} (hm : s.internalStack = false) :
    pop s = .ok (Memory.read s.data s.sp) (s.setSp (s.sp + 1)) := by
  simp [pop, hm, dataRead]

/-! ### Operands -/

theorem regReadIndirect_some {a p q : Byte} {s : State} (h : resolve (s.reg slotRP) a = some p)
    (h' : resolve (s.reg slotRP) (s.slotRead p).1 = some q) :
    regReadIndirect a s = .ok ((s.slotRead p).2.slotRead q).1 ((s.slotRead p).2.slotRead q).2 := by
  have h2 : resolve ((s.slotRead p).2.reg slotRP) (s.slotRead p).1 = some q := by rw [s.rp_slotRead]; exact h'
  simp [regReadIndirect, regRead_some h, regRead_some h2]

theorem fetchSingle_indirect {r q : Byte} {s : State} (h : resolve (s.reg slotRP) r = some q) :
    fetchSingle (.indirect r) s = .ok (s.slotRead q).1 (s.slotRead q).2 := by
  simp [fetchSingle, regRead_some h]

/-- A read-modify-write at an address that is reached (`43_single_operand.md` R230). -/
theorem modifyRegister_some (f : Byte → Byte → Byte × FlagBits) {a p : Byte} {s : State} (h : resolve (s.reg slotRP) a = some p) :
    modifyRegister f a s =
      let d := s.slotRead p
      let e := f d.1 d.2.flags
      .ok () ((d.2.slotWrite p e.1).updateFlags e.2) := by
  have h2 : resolve ((s.slotRead p).2.reg slotRP) a = some p := by rw [s.rp_slotRead]; exact h
  simp [modifyRegister, regRead_some h, regWrite_some _ h2]

end Sys2Proof.Machine
end

