-- ==== Sys2Proof/Tests/Slice0.lean ====
section
/-! SUPPORT. Tests: what the well-formedness check refuses, the decoding of a written-out word of every constructor, one or two
examples of the spec for each instruction, and for each obligation with hypotheses a state that meets them. Expected
results are the spec's own examples (the rule is named) or its format tables. -/

namespace Sys2Proof.Tests

open Sys2Proof.Machine Sys2Proof.Statements

set_option maxRecDepth 100000
set_option Elab.async false

/-! ### Well-formedness: one ill-formed term for each check -/

theorem test_illFormed_jpIRR : WellFormed (.jpIRR 0x43) = false := by decide
theorem test_illFormed_decwRR : WellFormed (.decwRR 0x21) = false := by decide
theorem test_illFormed_incwRR : WellFormed (.incwRR 0xE1) = false := by decide
theorem test_illFormed_callIRR : WellFormed (.callIRR 0x43) = false := by decide
theorem test_illFormed_ldeLoad : WellFormed (.ldeLoad 3 5) = false := by decide
theorem test_illFormed_ldeStore : WellFormed (.ldeStore 3 5) = false := by decide
theorem test_illFormed_ldeiLoad : WellFormed (.ldeiLoad 3 5) = false := by decide
theorem test_illFormed_ldeiStore : WellFormed (.ldeiStore 3 5) = false := by decide
theorem test_illFormed_ldcLoad : WellFormed (.ldcLoad 3 5) = false := by decide
theorem test_illFormed_ldcStore : WellFormed (.ldcStore 3 5) = false := by decide
theorem test_illFormed_ldciLoad : WellFormed (.ldciLoad 3 5) = false := by decide
theorem test_illFormed_ldciStore : WellFormed (.ldciStore 3 5) = false := by decide
theorem test_wellFormed_even : (([.jpIRR 0x42, .decwRR 0x20, .callIRR 0xE2, .ldeLoad 3 4, .ldciStore 15 14] : List Instr).all WellFormed) =
    true := by decide

/-! ### Decoding: a word of every row of the opcode table, written out bit by bit from its format (`30_encoding.md` R102,
R103, R106) -/

/-- The bytes are exactly one instruction, this one. -/
def spells (bytes : List Byte) (i : Instr) : Bool :=
  match decode bytes with
  | .ok (j, []) => decide (j = i)
  | _ => false

theorem test_decode_F0 :
    (spells [0b01101111] (.stop) &&
      spells [0b01111111] (.halt) &&
      spells [0b10001111] (.di) &&
      spells [0b10011111] (.ei) &&
      spells [0b10101111] (.ret) &&
      spells [0b10111111] (.iret) &&
      spells [0b11001111] (.rcf) &&
      spells [0b11011111] (.scf) &&
      spells [0b11101111] (.ccf) &&
      spells [0b11111111] (.nop)) = true := by decide +kernel

theorem test_decode_F1 :
    (spells [0b10011110] (.incW 9)) = true := by decide +kernel

theorem test_decode_F2_a :
    (spells [0b00000000, 0b00101000] (.decR 0x28) &&
      spells [0b00000001, 0b00101111] (.decIR 0x2F) &&
      spells [0b00010000, 0b00110110] (.rlcR 0x36) &&
      spells [0b00010001, 0b00111101] (.rlcIR 0x3D) &&
      spells [0b00100000, 0b01000100] (.incR 0x44) &&
      spells [0b00100001, 0b01001011] (.incIR 0x4B) &&
      spells [0b00110000, 0b01010010] (.jpIRR 0x52) &&
      spells [0b01000000, 0b01100000] (.daR 0x60) &&
      spells [0b01000001, 0b01100111] (.daIR 0x67) &&
      spells [0b01010000, 0b01101110] (.popR 0x6E) &&
      spells [0b01010001, 0b01110101] (.popIR 0x75) &&
      spells [0b01100000, 0b01111100] (.comR 0x7C) &&
      spells [0b01100001, 0b10000011] (.comIR 0x83) &&
      spells [0b01110000, 0b10001010] (.pushR 0x8A) &&
      spells [0b01110001, 0b10010001] (.pushIR 0x91) &&
      spells [0b10000000, 0b10011000] (.decwRR 0x98)) = true := by decide +kernel

theorem test_decode_F2_b :
    (spells [0b10000001, 0b10011111] (.decwIR 0x9F) &&
      spells [0b10010000, 0b10100110] (.rlR 0xA6) &&
      spells [0b10010001, 0b10101101] (.rlIR 0xAD) &&
      spells [0b10100000, 0b10110100] (.incwRR 0xB4) &&
      spells [0b10100001, 0b10111011] (.incwIR 0xBB) &&
      spells [0b10110000, 0b11000010] (.clrR 0xC2) &&
      spells [0b10110001, 0b11001001] (.clrIR 0xC9) &&
      spells [0b11000000, 0b11010000] (.rrcR 0xD0) &&
      spells [0b11000001, 0b11010111] (.rrcIR 0xD7) &&
      spells [0b11010000, 0b11011110] (.sraR 0xDE) &&
      spells [0b11010001, 0b11100101] (.sraIR 0xE5) &&
      spells [0b11100000, 0b11101100] (.rrR 0xEC) &&
      spells [0b11100001, 0b11110011] (.rrIR 0xF3) &&
      spells [0b11110000, 0b11111010] (.swapR 0xFA) &&
      spells [0b11110001, 0b00000001] (.swapIR 0x01) &&
      spells [0b11010100, 0b00100010] (.callIRR 0x22)) = true := by decide +kernel

theorem test_decode_F3 :
    (spells [0b00110001, 0b01011001] (.srp 0x59)) = true := by decide +kernel

theorem test_decode_F4_a :
    (spells [0b00000010, 0b01001110] (.addWW 4 14) &&
      spells [0b00000011, 0b01010011] (.addWIW 5 3) &&
      spells [0b00010010, 0b10101100] (.adcWW 10 12) &&
      spells [0b00010011, 0b10110001] (.adcWIW 11 1) &&
      spells [0b00100010, 0b00001010] (.subWW 0 10) &&
      spells [0b00100011, 0b00011111] (.subWIW 1 15) &&
      spells [0b00110010, 0b01101000] (.sbcWW 6 8) &&
      spells [0b00110011, 0b01111101] (.sbcWIW 7 13) &&
      spells [0b01000010, 0b11000110] (.orWW 12 6) &&
      spells [0b01000011, 0b11011011] (.orWIW 13 11) &&
      spells [0b01010010, 0b00100100] (.andWW 2 4) &&
      spells [0b01010011, 0b00111001] (.andWIW 3 9) &&
      spells [0b01100010, 0b10000010] (.tcmWW 8 2) &&
      spells [0b01100011, 0b10010111] (.tcmWIW 9 7) &&
      spells [0b01110010, 0b11100000] (.tmWW 14 0) &&
      spells [0b01110011, 0b11110101] (.tmWIW 15 5)) = true := by decide +kernel

theorem test_decode_F4_b :
    (spells [0b10100010, 0b01001110] (.cpWW 4 14) &&
      spells [0b10100011, 0b01010011] (.cpWIW 5 3) &&
      spells [0b10110010, 0b10101100] (.xorWW 10 12) &&
      spells [0b10110011, 0b10110001] (.xorWIW 11 1) &&
      spells [0b11100011, 0b00001010] (.ldWIW 0 10) &&
      spells [0b11110011, 0b00011111] (.ldIWW 1 15) &&
      spells [0b10000010, 0b01111100] (.ldeLoad 7 12) &&
      spells [0b10010010, 0b10000010] (.ldeStore 8 2) &&
      spells [0b10000011, 0b10010110] (.ldeiLoad 9 6) &&
      spells [0b10010011, 0b10101100] (.ldeiStore 10 12) &&
      spells [0b11000010, 0b10110000] (.ldcLoad 11 0) &&
      spells [0b11010010, 0b11000110] (.ldcStore 12 6) &&
      spells [0b11000011, 0b11011010] (.ldciLoad 13 10) &&
      spells [0b11010011, 0b11100000] (.ldciStore 14 0)) = true := by decide +kernel

theorem test_decode_F5_a :
    (spells [0b00000100, 0b00010110, 0b00010111] (.addRR 0x17 0x16) &&
      spells [0b00000101, 0b00011101, 0b00100010] (.addRIR 0x22 0x1D) &&
      spells [0b00010100, 0b01000000, 0b01011001] (.adcRR 0x59 0x40) &&
      spells [0b00010101, 0b01000111, 0b01100100] (.adcRIR 0x64 0x47) &&
      spells [0b00100100, 0b01101010, 0b10011011] (.subRR 0x9B 0x6A) &&
      spells [0b00100101, 0b01110001, 0b10100110] (.subRIR 0xA6 0x71) &&
      spells [0b00110100, 0b10010100, 0b11011101] (.sbcRR 0xDD 0x94) &&
      spells [0b00110101, 0b10011011, 0b11101000] (.sbcRIR 0xE8 0x9B) &&
      spells [0b01000100, 0b10111110, 0b00011111] (.orRR 0x1F 0xBE) &&
      spells [0b01000101, 0b11000101, 0b00101010] (.orRIR 0x2A 0xC5) &&
      spells [0b01010100, 0b11101000, 0b01100001] (.andRR 0x61 0xE8) &&
      spells [0b01010101, 0b11101111, 0b01101100] (.andRIR 0x6C 0xEF) &&
      spells [0b01100100, 0b00010010, 0b10100011] (.tcmRR 0xA3 0x12) &&
      spells [0b01100101, 0b00011001, 0b10101110] (.tcmRIR 0xAE 0x19) &&
      spells [0b01110100, 0b00111100, 0b11100101] (.tmRR 0xE5 0x3C) &&
      spells [0b01110101, 0b01000011, 0b11110000] (.tmRIR 0xF0 0x43)) = true := by decide +kernel

theorem test_decode_F5_b :
    (spells [0b10100100, 0b01100110, 0b00100111] (.cpRR 0x27 0x66) &&
      spells [0b10100101, 0b01101101, 0b00110010] (.cpRIR 0x32 0x6D) &&
      spells [0b10110100, 0b10010000, 0b01101001] (.xorRR 0x69 0x90) &&
      spells [0b10110101, 0b10010111, 0b01110100] (.xorRIR 0x74 0x97) &&
      spells [0b11100100, 0b10111010, 0b10101011] (.ldRR 0xAB 0xBA) &&
      spells [0b11100101, 0b11000001, 0b10110110] (.ldRIR 0xB6 0xC1) &&
      spells [0b11110101, 0b11010110, 0b11010111] (.ldIRR 0xD7 0xD6)) = true := by decide +kernel

theorem test_decode_F6_a :
    (spells [0b00000110, 0b00100100, 0b00101101] (.addRIM 0x24 0x2D) &&
      spells [0b00000111, 0b00101011, 0b00111000] (.addIRIM 0x2B 0x38) &&
      spells [0b00010110, 0b01001110, 0b01101111] (.adcRIM 0x4E 0x6F) &&
      spells [0b00010111, 0b01010101, 0b01111010] (.adcIRIM 0x55 0x7A) &&
      spells [0b00100110, 0b01111000, 0b10110001] (.subRIM 0x78 0xB1) &&
      spells [0b00100111, 0b01111111, 0b10111100] (.subIRIM 0x7F 0xBC) &&
      spells [0b00110110, 0b10100010, 0b11110011] (.sbcRIM 0xA2 0xF3) &&
      spells [0b00110111, 0b10101001, 0b11111110] (.sbcIRIM 0xA9 0xFE) &&
      spells [0b01000110, 0b11001100, 0b00110101] (.orRIM 0xCC 0x35) &&
      spells [0b01000111, 0b11010011, 0b01000000] (.orIRIM 0xD3 0x40) &&
      spells [0b01010110, 0b11110110, 0b01110111] (.andRIM 0xF6 0x77) &&
      spells [0b01010111, 0b11111101, 0b10000010] (.andIRIM 0xFD 0x82) &&
      spells [0b01100110, 0b00100000, 0b10111001] (.tcmRIM 0x20 0xB9) &&
      spells [0b01100111, 0b00100111, 0b11000100] (.tcmIRIM 0x27 0xC4) &&
      spells [0b01110110, 0b01001010, 0b11111011] (.tmRIM 0x4A 0xFB) &&
      spells [0b01110111, 0b01010001, 0b00000110] (.tmIRIM 0x51 0x06)) = true := by decide +kernel

theorem test_decode_F6_b :
    (spells [0b10100110, 0b01110100, 0b00111101] (.cpRIM 0x74 0x3D) &&
      spells [0b10100111, 0b01111011, 0b01001000] (.cpIRIM 0x7B 0x48) &&
      spells [0b10110110, 0b10011110, 0b01111111] (.xorRIM 0x9E 0x7F) &&
      spells [0b10110111, 0b10100101, 0b10001010] (.xorIRIM 0xA5 0x8A) &&
      spells [0b11100110, 0b11001000, 0b11000001] (.ldRIM 0xC8 0xC1) &&
      spells [0b11100111, 0b11001111, 0b11001100] (.ldIRIM 0xCF 0xCC)) = true := by decide +kernel

theorem test_decode_F7 :
    (spells [0b11000111, 0b11110101, 0b00010101] (.ldWX 15 5 0x15) &&
      spells [0b11010111, 0b00001010, 0b00011100] (.ldXW 0 10 0x1C)) = true := by decide +kernel

theorem test_decode_F8 :
    (spells [0b00111000, 0b00110001] (.ldWR 3 0x31) &&
      spells [0b01001001, 0b00111000] (.ldRW 0x38 4) &&
      spells [0b01011010, 0b00111111] (.djnz 5 0x3F) &&
      spells [0b01111100, 0b01001101] (.ldWIM 7 0x4D)) = true := by decide +kernel

theorem test_decode_F9 :
    (spells [0b01101011, 0b01000110] (.jr .eq 0x46)) = true := by decide +kernel

theorem test_decode_F10 :
    (spells [0b11101101, 0b01010100, 0b10011101] (.jp .ne 0x549D)) = true := by decide +kernel

theorem test_decode_F11 :
    (spells [0b11010110, 0b00101010, 0b01011011] (.callDA 0x2A5B)) = true := by decide +kernel

theorem test_decode_F12 :
    (spells [0b00001111, 0b00101001] (.ifPred .le 2 1)) = true := by decide +kernel

/-- Every condition code of a JR, by its code (`40_cycle_and_alu.md` R150). -/
theorem test_decode_conditions :
    (spells [0b00001011, 0b00000101] (.jr .never 5) &&
      spells [0b00011011, 0b00000101] (.jr .lt 5) &&
      spells [0b00101011, 0b00000101] (.jr .le 5) &&
      spells [0b00111011, 0b00000101] (.jr .ule 5) &&
      spells [0b01001011, 0b00000101] (.jr .ov 5) &&
      spells [0b01011011, 0b00000101] (.jr .mi 5) &&
      spells [0b01101011, 0b00000101] (.jr .eq 5) &&
      spells [0b01111011, 0b00000101] (.jr .ult 5) &&
      spells [0b10001011, 0b00000101] (.jr .always 5) &&
      spells [0b10011011, 0b00000101] (.jr .ge 5) &&
      spells [0b10101011, 0b00000101] (.jr .gt 5) &&
      spells [0b10111011, 0b00000101] (.jr .ugt 5) &&
      spells [0b11001011, 0b00000101] (.jr .nov 5) &&
      spells [0b11011011, 0b00000101] (.jr .pl 5) &&
      spells [0b11101011, 0b00000101] (.jr .ne 5) &&
      spells [0b11111011, 0b00000101] (.jr .uge 5)) = true := by decide +kernel

/-- The illegal first bytes have no instruction (`30_encoding.md` R112). -/
theorem test_decode_illegal :
    ([0x1F, 0x2F, 0x3F, 0x4F, 0x5F, 0x84, 0x85, 0x86, 0x87, 0x94, 0x95, 0x96, 0x97, 0xC4, 0xC5, 0xC6, 0xD5, 0xE2, 0xF2, 0xF4,
        0xF6, 0xF7].all fun b0 : Byte => decide (decode [b0, 0, 0] matches .error (.illegalOpcode _))) = true := by
  decide +kernel


/-! ### Instructions: the spec's own examples -/

/-- The reset machine with these bytes in register memory. -/
def start (regs : List (Byte × Byte)) : State := regs.foldl (fun s r => s.setReg r.1 r.2) State.reset

/-- A bus memory with these bytes from address `a` on. -/
def bytesAt (a : Word) (bytes : List Byte) (m : Memory) : Memory :=
  match bytes with
  | [] => m
  | b :: r => bytesAt (a + 1) r (Memory.write m a b)

/-- The state after the one instruction the bytes spell, pc past it first; none where a fault is raised. -/
def run (bytes : List Byte) (s : State) : Option State :=
  match decode bytes with
  | .ok (i, []) =>
    match exec i { s with pc := s.pc + BitVec.ofNat 16 bytes.length } with
    | .next t => if t.run.isFaulted then none else some t
    | _ => none
  | _ => none

/-- What registers `look` hold after the bytes run from the reset machine with `regs`. -/
def after (bytes : List Byte) (regs : List (Byte × Byte)) (look : List Byte) : Option (List Byte) :=
  (run bytes (start regs)).map fun t => look.map t.reg

/-- The state after one step, when it has one. -/
def stepped (s : State) : Option State :=
  match step s with
  | .next t => some t
  | _ => none

/-- The reset machine with these bytes in register memory and this program at pc. -/
def loaded (pc : Word) (bytes : List Byte) (regs : List (Byte × Byte)) : State :=
  { start regs with pc := pc, prog := bytesAt pc bytes [] }

/-- `41_short_forms.md` R161. -/
theorem test_ldWR :
    after [0x38, 0x45] [(0xFD, 0x01), (0x45, 0x9A)] [0x13, 0xFC] = some [0x9A, 0x00] ∧
      after [0x38, 0x90] [(0xFD, 0x01)] [0x13] = some [0xFF] := by
  decide +kernel

/-- `41_short_forms.md` R162. -/
theorem test_ldRW :
    after [0x39, 0xFB] [(0xFD, 0x01), (0x13, 0x07)] [0xFB] = some [0x07] := by
  decide +kernel

/-- `41_short_forms.md` R165. -/
theorem test_ldWIM :
    after [0x4C, 0x7F] [] [0x04] = some [0x7F] := by
  decide +kernel

/-- `41_short_forms.md` R167. -/
theorem test_incW :
    after [0x5E] [(0x05, 0x7F)] [0x05, 0xFC] = some [0x80, 0x30] := by
  decide +kernel

/-- `41_short_forms.md` R163. -/
theorem test_djnz :
    after [0x2A, 0xFC] [(0xFD, 0x01), (0x12, 0x03)] [0x12] = some [0x02] ∧
      after [0x2A, 0xFC] [(0xFD, 0x01), (0x12, 0x00)] [0x12] = some [0xFF] := by
  decide +kernel

/-- `41_short_forms.md` R172. -/
theorem test_di :
    after [0x8F] [(0xFB, 0x95)] [0xFB] = some [0x15] := by
  decide +kernel

/-- `41_short_forms.md` R173. -/
theorem test_ei :
    after [0x9F] [(0xFB, 0x15)] [0xFB] = some [0x95] := by
  decide +kernel

/-- `41_short_forms.md` R176 to R178. -/
theorem test_carry :
    after [0xCF] [(0xFC, 0xC0)] [0xFC] = some [0x40] ∧
      after [0xDF] [(0xFC, 0x00)] [0xFC] = some [0x80] ∧
      after [0xEF] [(0xFC, 0x80)] [0xFC] = some [0x00] := by
  decide +kernel

/-- `42_two_operand.md` R192, R202. -/
theorem test_add :
    after [0x02, 0x12] [(0x01, 0x3A), (0x02, 0xC8)] [0x01, 0xFC] = some [0x02, 0x84] ∧
      after [0x03, 0x12] [(0x01, 0x01), (0x02, 0x40), (0x40, 0x05)] [0x01, 0xFC] = some [0x06, 0x00] ∧
      after [0x04, 0x40, 0x41] [(0x40, 0x05), (0x41, 0x01)] [0x41] = some [0x06] ∧
      after [0x05, 0x40, 0x41] [(0x40, 0x50), (0x50, 0x05), (0x41, 0x01)] [0x41] = some [0x06] ∧
      after [0x06, 0x20, 0x01] [(0x20, 0xFF)] [0x20, 0xFC] = some [0x00, 0xD4] ∧
      after [0x07, 0x40, 0x05] [(0x40, 0x50), (0x50, 0x01)] [0x50] = some [0x06] := by
  decide +kernel

/-- `42_two_operand.md` R202. -/
theorem test_add_corners :
    after [0x04, 0x90, 0x20] [(0x20, 0x01)] [0x20, 0xFC] = some [0x00, 0xC0] ∧
      after [0x06, 0xFC, 0x01] [(0xFC, 0x03)] [0xFC] = some [0x00] ∧
      after [0x06, 0x20, 0x01] [(0x20, 0x7F)] [0x20, 0xFC] = some [0x80, 0x34] := by
  decide +kernel

/-- `42_two_operand.md` R193. -/
theorem test_adc :
    after [0x14, 0x21, 0x20] [(0x20, 0xFF), (0x21, 0x00), (0xFC, 0x80)] [0x20, 0xFC] = some [0x00, 0xD4] ∧
      after [0x12, 0x12] [(0x01, 0x10), (0x02, 0x0F), (0xFC, 0x80)] [0x01, 0xFC] = some [0x20, 0x04] := by
  decide +kernel

/-- `42_two_operand.md` R194. -/
theorem test_sub :
    after [0x22, 0x12] [(0x01, 0x10), (0x02, 0x01)] [0x01, 0xFC] = some [0x0F, 0x08] ∧
      after [0x26, 0x20, 0x01] [] [0x20, 0xFC] = some [0xFF, 0xB8] ∧
      after [0x22, 0x11] [(0x01, 0x55)] [0x01, 0xFC] = some [0x00, 0x48] := by
  decide +kernel

/-- `42_two_operand.md` R195. -/
theorem test_sbc :
    after [0x32, 0x12] [(0x01, 0x10), (0x02, 0x0F), (0xFC, 0x80)] [0x01, 0xFC] = some [0x00, 0x48] ∧
      after [0x36, 0x20, 0x00] [(0xFC, 0x80)] [0x20, 0xFC] = some [0xFF, 0xB8] := by
  decide +kernel

/-- `42_two_operand.md` R196. -/
theorem test_or :
    after [0x42, 0x12] [(0x01, 0x0F), (0x02, 0x80), (0xFC, 0x90)] [0x01, 0xFC] = some [0x8F, 0xA0] := by
  decide +kernel

/-- `42_two_operand.md` R197. -/
theorem test_and :
    after [0x56, 0x20, 0x0F] [(0x20, 0xF0), (0xFC, 0xFC)] [0x20, 0xFC] = some [0x00, 0xCC] := by
  decide +kernel

/-- `42_two_operand.md` R198. -/
theorem test_tcm :
    after [0x66, 0x20, 0x03] [(0x20, 0x0F)] [0x20, 0xFC] = some [0x0F, 0x40] ∧
      after [0x66, 0x20, 0x30] [(0x20, 0x0F)] [0x20, 0xFC] = some [0x0F, 0x00] := by
  decide +kernel

/-- `42_two_operand.md` R199. -/
theorem test_cp :
    after [0xA6, 0x20, 0x10] [(0x20, 0x10), (0xFC, 0x0C)] [0x20, 0xFC] = some [0x10, 0x4C] ∧
      after [0xA6, 0x20, 0x11] [(0x20, 0x10)] [0xFC] = some [0xB0] ∧
      after [0xA2, 0x12] [(0x01, 0x80), (0x02, 0x01)] [0x01, 0xFC] = some [0x80, 0x10] := by
  decide +kernel

/-- `42_two_operand.md` R200. -/
theorem test_tm :
    after [0x76, 0x20, 0x80] [(0x20, 0x81)] [0x20, 0xFC] = some [0x81, 0x20] ∧
      after [0x76, 0x20, 0x02] [(0x20, 0x81)] [0xFC] = some [0x40] := by
  decide +kernel

/-- `42_two_operand.md` R201. -/
theorem test_xor :
    after [0xB2, 0x11] [(0x01, 0xA5), (0xFC, 0x80)] [0x01, 0xFC] = some [0x00, 0xC0] := by
  decide +kernel

/-- `42_two_operand.md` R204 to R210. -/
theorem test_ld :
    after [0xE3, 0x12] [(0xFD, 0x01), (0x12, 0x40), (0x40, 0x77)] [0x11] = some [0x77] ∧
      after [0xF3, 0x12] [(0xFD, 0x01), (0x11, 0x40), (0x12, 0x77)] [0x40] = some [0x77] ∧
      after [0xE4, 0x40, 0x41] [(0x40, 0x99)] [0x41] = some [0x99] ∧
      after [0xE5, 0x40, 0x41] [(0x40, 0x50), (0x50, 0x66)] [0x41] = some [0x66] ∧
      after [0xE6, 0xFF, 0x80] [] [0xFF] = some [0x80] ∧
      after [0xE7, 0x40, 0xAA] [(0x40, 0x50)] [0x50] = some [0xAA] ∧
      after [0xF5, 0x40, 0x41] [(0x40, 0x33), (0x41, 0x50)] [0x50] = some [0x33] := by
  decide +kernel

/-- `42_two_operand.md` R208. -/
theorem test_ldRIM_special :
    after [0xE6, 0xFD, 0x30] [] [0xFD] = some [0x30] ∧
      after [0xE6, 0x90, 0x12] [] [0x90] = some [0xFF] := by
  decide +kernel

/-- `44_memory_indexed_calls.md` R279. -/
theorem test_ldWX :
    after [0xC7, 0x34, 0x10] [(0xFD, 0x01), (0x14, 0x05), (0x15, 0x77)] [0x13] = some [0x77] ∧
      after [0xC7, 0x34, 0xF0] [(0xFD, 0x01), (0x14, 0x20), (0x10, 0x42)] [0x13] = some [0x42] := by
  decide +kernel

/-- `44_memory_indexed_calls.md` R280. -/
theorem test_ldXW :
    after [0xD7, 0x34, 0x10] [(0xFD, 0x01), (0x13, 0xAB), (0x14, 0x05)] [0x15] = some [0xAB] := by
  decide +kernel

/-- `43_single_operand.md` R233. -/
theorem test_srp :
    after [0x31, 0x70] [] [0xFD] = some [0x07] ∧
      after [0x31, 0x7F] [] [0xFD] = some [0x07] ∧
      after [0x31, 0xF0] [] [0xFD] = some [0x0F] := by
  decide +kernel

/-- `43_single_operand.md` R234. -/
theorem test_dec :
    after [0x00, 0x20] [(0x20, 0x01)] [0x20, 0xFC] = some [0x00, 0x40] ∧
      after [0x00, 0x20] [(0x20, 0x80), (0xFC, 0x80)] [0x20, 0xFC] = some [0x7F, 0x90] ∧
      after [0x01, 0x20] [(0x20, 0x30), (0x30, 0x10)] [0x30] = some [0x0F] := by
  decide +kernel

/-- `43_single_operand.md` R235. -/
theorem test_rlc :
    after [0x10, 0x20] [(0x20, 0x80)] [0x20, 0xFC] = some [0x00, 0xD0] ∧
      after [0x10, 0x20] [(0x20, 0x40), (0xFC, 0x80)] [0x20, 0xFC] = some [0x81, 0x30] := by
  decide +kernel

/-- `43_single_operand.md` R236. -/
theorem test_inc :
    after [0x20, 0x20] [(0x20, 0x7F)] [0x20, 0xFC] = some [0x80, 0x30] ∧
      after [0x20, 0x20] [(0x20, 0xFF), (0xFC, 0x80)] [0x20, 0xFC] = some [0x00, 0xC0] ∧
      after [0x21, 0x20] [(0x20, 0x30), (0x30, 0x0F)] [0x30, 0xFC] = some [0x10, 0x00] := by
  decide +kernel

/-- `43_single_operand.md` R237. -/
theorem test_da :
    after [0x40, 0x20] [(0x20, 0x3C)] [0x20, 0xFC] = some [0x42, 0x00] ∧
      after [0x40, 0x20] [(0x20, 0x9A), (0xFC, 0x20)] [0x20, 0xFC] = some [0x00, 0xC0] ∧
      after [0x40, 0x20] [(0x20, 0x41), (0xFC, 0x04)] [0x20] = some [0x47] ∧
      after [0x40, 0x20] [(0x20, 0x10), (0xFC, 0x04)] [0x20] = some [0x16] ∧
      after [0x40, 0x20] [(0x20, 0x2D), (0xFC, 0x0C)] [0x20, 0xFC] = some [0x27, 0x0C] ∧
      after [0x40, 0x20] [(0x20, 0x30)] [0x20] = some [0x30] := by
  decide +kernel

/-- `43_single_operand.md` R238. -/
theorem test_pop_internal :
    after [0x50, 0x20] [(0xF8, 0x04), (0xFF, 0x7E), (0x7E, 0xAB)] [0x20, 0xFF] = some [0xAB, 0x7F] := by
  decide +kernel

/-- `43_single_operand.md` R239. -/
theorem test_com :
    after [0x60, 0x20] [(0x20, 0xFF), (0xFC, 0x90)] [0x20, 0xFC] = some [0x00, 0xC0] ∧
      after [0x60, 0x20] [(0x20, 0x55)] [0x20, 0xFC] = some [0xAA, 0x20] := by
  decide +kernel

/-- `43_single_operand.md` R240. -/
theorem test_push_internal :
    after [0x70, 0x20] [(0xF8, 0x04), (0xFF, 0x80), (0x20, 0x5A)] [0xFF, 0x7F] = some [0x7F, 0x5A] ∧
      after [0x70, 0xFF] [(0xF8, 0x04), (0xFF, 0x80)] [0x7F, 0xFF] = some [0x80, 0x7F] := by
  decide +kernel

/-- `43_single_operand.md` R241. -/
theorem test_decw :
    after [0x80, 0x20] [(0x20, 0x01)] [0x20, 0x21, 0xFC] = some [0x00, 0xFF, 0x00] ∧
      after [0x80, 0x20] [] [0x20, 0x21, 0xFC] = some [0xFF, 0xFF, 0x20] ∧
      after [0x80, 0x20] [(0x20, 0x80)] [0x20, 0x21, 0xFC] = some [0x7F, 0xFF, 0x10] ∧
      after [0x81, 0x40] [(0x40, 0x20), (0x21, 0x01)] [0x20, 0x21, 0xFC] = some [0x00, 0x00, 0x40] := by
  decide +kernel

/-- `43_single_operand.md` R242. -/
theorem test_rl :
    after [0x90, 0x20] [(0x20, 0x81)] [0x20, 0xFC] = some [0x03, 0x90] ∧
      after [0x90, 0x20] [(0x20, 0x40)] [0x20, 0xFC] = some [0x80, 0x30] := by
  decide +kernel

/-- `43_single_operand.md` R243. -/
theorem test_incw :
    after [0xA0, 0x20] [(0x21, 0xFF)] [0x20, 0x21, 0xFC] = some [0x01, 0x00, 0x00] ∧
      after [0xA0, 0x20] [(0x20, 0xFF), (0x21, 0xFF), (0xFC, 0x80)] [0x20, 0x21, 0xFC] = some [0x00, 0x00, 0xC0] ∧
      after [0xA0, 0x20] [(0x20, 0x7F), (0x21, 0xFF)] [0x20, 0x21, 0xFC] = some [0x80, 0x00, 0x30] := by
  decide +kernel

/-- `43_single_operand.md` R244. -/
theorem test_clr :
    after [0xB0, 0x20] [(0x20, 0x81), (0xFC, 0xFF)] [0x20, 0xFC] = some [0x00, 0xFF] ∧
      after [0xB1, 0x20] [(0x20, 0x30), (0x30, 0x77)] [0x30] = some [0x00] ∧
      after [0xB0, 0xFC] [(0xFC, 0xFF)] [0xFC] = some [0x00] := by
  decide +kernel

/-- `43_single_operand.md` R245. -/
theorem test_rrc :
    after [0xC0, 0x20] [(0x20, 0x01)] [0x20, 0xFC] = some [0x00, 0xC0] ∧
      after [0xC0, 0x20] [(0x20, 0x02), (0xFC, 0x80)] [0x20, 0xFC] = some [0x81, 0x30] := by
  decide +kernel

/-- `43_single_operand.md` R246. -/
theorem test_sra :
    after [0xD0, 0x20] [(0x20, 0x81), (0xFC, 0x10)] [0x20, 0xFC] = some [0xC0, 0xA0] ∧
      after [0xD0, 0x20] [(0x20, 0x01)] [0x20, 0xFC] = some [0x00, 0xC0] := by
  decide +kernel

/-- `43_single_operand.md` R247. -/
theorem test_rr :
    after [0xE0, 0x20] [(0x20, 0x01)] [0x20, 0xFC] = some [0x80, 0xB0] ∧
      after [0xE0, 0x20] [(0x20, 0x80)] [0x20, 0xFC] = some [0x40, 0x10] := by
  decide +kernel

/-- `43_single_operand.md` R248. -/
theorem test_swap :
    after [0xF0, 0x20] [(0x20, 0x1F), (0xFC, 0x90)] [0x20, 0xFC] = some [0xF1, 0xB0] ∧
      after [0xF0, 0x20] [] [0x20, 0xFC] = some [0x00, 0x40] ∧
      after [0xF1, 0x20] [(0x20, 0x30), (0x30, 0x08)] [0x30, 0xFC] = some [0x80, 0x20] := by
  decide +kernel

/-- `41_short_forms.md` R163. -/
theorem test_djnz_pc :
    (run [0x2A, 0xFC] { start [(0xFD, 0x01), (0x12, 0x03)] with pc := 0x0100 }).map State.pc = some 0x00FE ∧
      (run [0x2A, 0xFC] { start [(0xFD, 0x01), (0x12, 0x01)] with pc := 0x0100 }).map State.pc = some 0x0102 := by
  decide +kernel

/-- `41_short_forms.md` R164. -/
theorem test_jr :
    (run [0x6B, 0x05] { start [(0xFC, 0x40)] with pc := 0x0200 }).map State.pc = some 0x0207 ∧
      (run [0x6B, 0x05] { start [] with pc := 0x0200 }).map State.pc = some 0x0202 := by
  decide +kernel

/-- `41_short_forms.md` R166. -/
theorem test_jp :
    (run [0x8D, 0x12, 0x34] { start [] with pc := 0x0100 }).map State.pc = some 0x1234 ∧
      (run [0xED, 0x12, 0x34] { start [(0xFC, 0x40)] with pc := 0x0100 }).map State.pc = some 0x0103 := by
  decide +kernel

/-- `43_single_operand.md` R232. -/
theorem test_jpIRR :
    (run [0x30, 0x42] { start [(0x42, 0x12), (0x43, 0x34)] with pc := 0x0100 }).map State.pc = some 0x1234 ∧
      (run [0x30, 0xE2] { start [(0xFD, 0x02), (0x22, 0x80)] with pc := 0x0100 }).map State.pc = some 0x8000 := by
  decide +kernel

/-- `41_short_forms.md` R174. -/
theorem test_ret :
    (run [0xAF] { start [(0xF8, 0x04), (0xFF, 0x7E), (0x7E, 0x34), (0x7F, 0x12)] with pc := 0x0100 }).map State.pc = some 0x1234 := by
  decide +kernel

/-! Examples that look at memory, pc or the predication context -/

/-- What registers `look` and the DATA bytes `cells` hold after the bytes run. -/
def afterData (bytes : List Byte) (s : State) (look : List Byte) (cells : List Word) : Option (List Byte × List Byte × Word) :=
  (run bytes s).map fun t => (look.map t.reg, cells.map fun a => Memory.read t.data a, t.pc)

/-- `41_short_forms.md` R175, the external stack. -/
theorem test_iret :
    afterData [0xBF] { start [(0xFE, 0x1F), (0xFF, 0xFD)] with data := bytesAt 0x1FFD [0x40, 0x56, 0x02] [] }
      [0xFC, 0xFB, 0xFE, 0xFF] [] = some ([0x40, 0x80, 0x20, 0x00], [], 0x0256) := by
  decide +kernel

/-- `43_single_operand.md` R238 and R240, the external stack. -/
theorem test_stack_external :
    afterData [0x50, 0x20] { start [(0xFE, 0x10)] with data := [(0x1000, 0xCD)] } [0x20, 0xFE, 0xFF] [] =
        some ([0xCD, 0x10, 0x01], [], 0x0102) ∧
      afterData [0x70, 0x20] (start [(0xFE, 0x10), (0x20, 0x5A)]) [0xFE, 0xFF] [0x0FFF] =
        some ([0x0F, 0xFF], [0x5A], 0x0102) := by
  decide +kernel

/-- `44_memory_indexed_calls.md` R281, both stacks. -/
theorem test_callDA :
    afterData [0xD6, 0x12, 0x34] (start [(0xF8, 4), (0xFF, 0x80)]) [0x7F, 0x7E, 0xFF] [] = some ([0x01, 0x03, 0x7E], [], 0x1234) ∧
      afterData [0xD6, 0x12, 0x34] (start [(0xFE, 0x20)]) [0xFE, 0xFF] [0x1FFF, 0x1FFE] =
        some ([0x1F, 0xFE], [0x01, 0x03], 0x1234) := by
  decide +kernel

/-- `44_memory_indexed_calls.md` R282. -/
theorem test_callIRR :
    afterData [0xD4, 0x42] (start [(0xF8, 4), (0xFF, 0x80), (0x42, 0x56), (0x43, 0x78)]) [0x7F, 0x7E, 0xFF] [] =
      some ([0x01, 0x02, 0x7E], [], 0x5678) := by
  decide +kernel

/-- `44_memory_indexed_calls.md` R271, R272. -/
theorem test_lde :
    afterData [0x82, 0x34] { start [(0xFD, 1), (0x14, 0x20)] with data := [(0x2000, 0x5A)] } [0x13] [] =
        some ([0x5A], [], 0x0102) ∧
      afterData [0x92, 0x34] (start [(0xFD, 1), (0x13, 0xA5), (0x14, 0x20)]) [] [0x2000] = some ([], [0xA5], 0x0102) := by
  decide +kernel

/-- `44_memory_indexed_calls.md` R273, R274. -/
theorem test_ldei :
    afterData [0x83, 0x34] { start [(0xFD, 1), (0x13, 0x40), (0x14, 0x20), (0x15, 0xFF)] with data := [(0x20FF, 0x77)] }
        [0x40, 0x13, 0x14, 0x15] [] = some ([0x77, 0x41, 0x21, 0x00], [], 0x0102) ∧
      afterData [0x93, 0x34] (start [(0xFD, 1), (0x13, 0x40), (0x40, 0x66), (0x14, 0xFF), (0x15, 0xFF)])
        [0x13, 0x14, 0x15] [0xFFFF] = some ([0x41, 0x00, 0x00], [0x66], 0x0102) := by
  decide +kernel

/-- `44_memory_indexed_calls.md` R275, R277. -/
theorem test_ldc_load :
    afterData [0xC2, 0x34] { start [(0xFD, 1), (0x14, 0x01)] with prog := [(0x0100, 0x3C)] } [0x13] [] =
        some ([0x3C], [], 0x0102) ∧
      afterData [0xC3, 0x34] { start [(0xFD, 1), (0x13, 0x40), (0x14, 0x01)] with prog := [(0x0100, 0x3C)] }
        [0x40, 0x13, 0x14, 0x15] [] = some ([0x3C, 0x41, 0x01, 0x01], [], 0x0102) := by
  decide +kernel

/-- `44_memory_indexed_calls.md` R276, under write-back and write-through, and R278. -/
theorem test_ldc_store :
    ((run [0xD2, 0x34] (start [(0xFD, 1), (0x13, 0x99), (0x14, 0x01)])).map fun t =>
        (t.progView 0x0100, Memory.read t.prog 0x0100)) = some (0x99, 0x00) ∧
      ((run [0xD2, 0x34]
          { start [(0xFD, 1), (0x13, 0x99), (0x14, 0x01)] with cfg := { Config.reference with writePolicy := .writeThrough } }).map
        fun t => (t.progView 0x0100, Memory.read t.prog 0x0100)) = some (0x99, 0x99) ∧
      ((run [0xD3, 0x34] (start [(0xFD, 1), (0x13, 0x40), (0x40, 0x11), (0x14, 0x01), (0x15, 0xFF)])).map fun t =>
        (t.progView 0x01FF, [0x13, 0x14, 0x15].map t.reg)) = some (0x11, [0x41, 0x02, 0x00]) := by
  decide +kernel

/-! ### One step of the machine -/

/-- `45_predicated_execution.md` R310 (property 2, cycle 1): IF F,2,1 skips two instructions in its own cycle. -/
theorem test_step_if_skips :
    ((stepped (loaded 0 [0x0F, 0x09, 0x0E, 0x1E, 0x2E, 0x3E, 0x6F] [])).map fun t => (t.pc, t.pred, t.reg 0, t.reg 0xFC)) =
      some (0x0004, { tcnt := 0, fcnt := 1, cond := false, snap := 0 }, 0, 0) := by
  decide +kernel

/-- `45_predicated_execution.md` R310 (property 1, cycle 3): the last true instruction, then the false one skipped. -/
theorem test_step_block_ends :
    ((stepped { loaded 3 [0x1E, 0x2E, 0x3E, 0x6F] [] with pred := { tcnt := 1, fcnt := 1, cond := true, snap := 0 } }).map
        fun t => (t.pc, t.pred.tcnt, t.pred.fcnt, t.reg 1, t.reg 2)) = some (0x0005, 0, 0, 1, 0) := by
  decide +kernel

/-- `45_predicated_execution.md` R310 (property 3): a taken jump abandons the block. -/
theorem test_step_jump_in_block :
    ((stepped { loaded 3 [0x8B, 0x00, 0x2E] [] with pred := { tcnt := 1, fcnt := 1, cond := true, snap := 0 } }).map
        fun t => (t.pc, t.pred.tcnt, t.pred.fcnt, t.pred.cond)) = some (0x0005, 0, 0, false) := by
  decide +kernel

/-- `45_predicated_execution.md` R311(f): an illegal opcode under a skip. -/
theorem test_step_skip_illegal :
    ((stepped (loaded 0 [0x0F, 0x05, 0x1F] [])).map State.run) = some (.faulted .illegalOpcode) := by
  decide +kernel

/-- `60_exceptions.md` R356, step 1: NOP, then source 5 is taken on the external stack. -/
theorem test_step_interrupt :
    ((stepped { loaded 0x0100 [0xFF] [(0xFE, 0x20), (0xFC, 0x40), (0xF9, 0x08), (0xFB, 0xA8), (0xFA, 0x28)] with
          prog := bytesAt 0x000A [0x05, 0x00] (bytesAt 0x0100 [0xFF] []) }).map fun t =>
        (t.pc, [0xFE, 0xFF, 0xFB, 0xFA].map t.reg, [0x1FFF, 0x1FFE, 0x1FFD].map fun a : Word => Memory.read t.data a)) =
      some (0x0500, [0x1F, 0xFD, 0x28, 0x08], [0x01, 0x01, 0x40]) := by
  decide +kernel

/-- `60_exceptions.md` R356, step 2: IRET, then source 3 at once. -/
theorem test_step_iret_then_next :
    ((stepped
        { start [(0xFE, 0x1F), (0xFF, 0xFD), (0xFC, 0x40), (0xF9, 0x08), (0xFB, 0x28), (0xFA, 0x08)] with
          pc := 0x0500
          data := bytesAt 0x1FFD [0x40, 0x01, 0x01] []
          prog := bytesAt 0x0006 [0x03, 0x00] (bytesAt 0x0500 [0xBF] []) }).map fun t =>
        (t.pc, [0xFE, 0xFF, 0xFB, 0xFA, 0xFC].map t.reg)) = some (0x0300, [0x1F, 0xFD, 0x28, 0x00, 0x40]) := by
  decide +kernel

/-- `60_exceptions.md` R349: worked selections, the two reserved codes among them. -/
theorem test_select :
    ([0x01, 0x08, 0x09, 0x10, 0x18, 0x11, 0x00, 0x19].map (selectSource 0x0B)) =
        [some 1, some 3, some 3, some 0, some 0, some 1, none, none] ∧
      ([0x08, 0x28, 0x0C, 0x0A, 0x2E].map (selectSource 0x3F)) = [some 5, some 3, some 5, some 5, some 3] ∧
      selectSource 0x28 0x08 = some 5 ∧ selectSource 0x28 0x28 = some 3 ∧ selectSource 0x08 0x00 = some 3 := by
  decide +kernel

/-- `41_short_forms.md` R170, R171: STOP and HALT. -/
theorem test_step_stop_halt :
    ((stepped (loaded 0x0010 [0x6F] [])).map fun t => (t.pc, t.run)) = some (0x0011, .stopped) ∧
      ((stepped (loaded 0x0040 [0x7F] [(0xFB, 0x90)])).map fun t => (t.pc, t.run)) = some (0x0041, .waiting) := by
  decide +kernel

/-- `60_exceptions.md` R361: an active source wakes a waiting machine. -/
theorem test_step_wakes :
    ((stepped { loaded 0x0041 [0x6F] [(0xFB, 0x81), (0xFA, 0x01), (0xF8, 0x04), (0xFF, 0x80)] with
          run := .waiting, prog := bytesAt 0 [0x02] [] }).map fun t => (t.pc, t.run, [0x7F, 0x7E, 0xFF].map t.reg)) =
      some (0x0200, .running, [0x00, 0x41, 0x7D]) := by
  decide +kernel

/-- `43_single_operand.md` R232, `44_memory_indexed_calls.md` R282: odd pairs fault with pc past the instruction. -/
theorem test_step_odd_pair :
    ((stepped (loaded 0x0100 [0x30, 0x43] [])).map fun t => (t.pc, t.run)) = some (0x0102, .faulted .oddRegisterPair) ∧
      ((stepped (loaded 0x0100 [0xD4, 0x43] [(0xFF, 0x80)])).map fun t => (t.reg 0xFF, t.run)) =
        some (0x80, .faulted .oddRegisterPair) := by
  decide +kernel

/-- The configuration with one reference timer, every opcode at cost 1 (`60_exceptions.md` R373). -/
def timerConfig : Config :=
  { Config.reference with
    devices := [refTimer 0 0 0 0 0]
    cost := { CostTable.reference with op := Vector.replicate 256 1 } }

/-- `60_exceptions.md` R373, step 4: the write to TMR loads the count, the tick of the same step takes one. -/
theorem test_step_timer :
    ((stepped
        { loaded 0x0109 [0xE6, 0xF1, 0x03] [(0xF5, 0x05), (0xF4, 0x04), (0xFB, 0x10)] with
          cfg := timerConfig
          dev := [.refTimer { t := 4, pre := 5, cnt := 0, running := false } { t := 0, pre := 0, cnt := 0, running := false }] }).map
        fun t => (t.reg 0xF1, t.dev, t.cycles)) =
      some (0x02, [.refTimer { t := 4, pre := 5, cnt := 3, running := true } { t := 0, pre := 0, cnt := 0, running := false }],
        1) := by
  decide +kernel

/-- A word placed by `withFetchWord` is the instruction of the next step: ADD 0x20,#1, NOP. -/
theorem test_withFetchWord :
    ((stepped (State.reset.withFetchWord 24 0x012006)).map fun t => (t.pc, t.reg 0x20)) = some (0x0103, 1) ∧
      ((stepped (State.reset.withFetchWord 8 0xFF)).map State.pc) = some 0x0101 ∧ decodeTableWord 24 0x012006 = some (.addRIM 0x20 1) := by
  decide +kernel

/-! ### Witnesses: for every obligation with hypotheses, a concrete state and operands that meet them -/

theorem reg_reset_readOnly (a : Byte) (h1 : 0x80#8 ≤ a) (h2 : a ≤ 0xDF#8) : State.reset.reg a = 0xFF := by
  have h1' : 128 ≤ a.toNat := h1
  have h2' : a.toNat ≤ 223 := h2
  simp only [State.reg, State.reset, State.resetRegs, Vector.getElem_mk, List.getElem_toArray, List.getElem_append, List.length_append,
    List.length_replicate, List.getElem_replicate]
  split <;> (try split) <;> first | rfl | omega

theorem reg_foldl_readOnly (regs : List (Byte × Byte)) (s : State) (hs : ∀ a : Byte, 0x80#8 ≤ a → a ≤ 0xDF#8 → s.reg a = 0xFF)
    (h : ∀ r ∈ regs, ¬(0x80#8 ≤ r.1 ∧ r.1 ≤ 0xDF#8)) (a : Byte) (h1 : 0x80#8 ≤ a) (h2 : a ≤ 0xDF#8) :
    (regs.foldl (fun s r => s.setReg r.1 r.2) s).reg a = 0xFF := by
  induction regs generalizing s with
  | nil => exact hs a h1 h2
  | cons r rest ih =>
    refine ih _ (fun b hb1 hb2 => ?_) fun x hx => h x (List.mem_cons_of_mem _ hx)
    rw [s.reg_setReg_ne r.2 (by rintro rfl; exact h r List.mem_cons_self ⟨hb1, hb2⟩)]
    exact hs b hb1 hb2

theorem cacheInv_empty (c : Config) (prog : Memory) (h : Memory.wf prog = true) :
    CacheInv c (State.emptyLines c.numLines) prog := by
  have ht : ∀ (i : Nat) (a : CacheLine), (State.emptyLines c.numLines)[i]? = some a → a.tag = sentinel ∧ a.dirty = false := by
    intro i a ha
    obtain ⟨k, -, rfl⟩ := List.mem_map.mp (List.mem_of_getElem? ha)
    exact ⟨rfl, rfl⟩
  refine ⟨?_, fun i j a b ha hb hab hne => absurd (ht i a ha).1 hne, fun _ i a ha hne => absurd (ht i a ha).1 hne,
    fun _ i a ha => (ht i a ha).2, fun i a ha hne => absurd (ht i a ha).1 hne, h⟩
  simp [State.emptyLines, Function.comp_def]

/-- A launched machine: a configuration, register bytes, the two memories, a program counter. -/
def machine (c : Config) (regs : List (Byte × Byte)) (prog data : Memory) (pc : Word) : State :=
  { start regs with
    cfg := c, pc := pc, prog := prog, data := data, lines := State.emptyLines c.numLines, dev := c.devices.map Device.s0 }

theorem coreInv_machine (c : Config) (regs : List (Byte × Byte)) (prog data : Memory) (pc : Word)
    (h : (Config.valid c && Memory.wf prog && Memory.wf data &&
      regs.all fun r => !(decide (0x80#8 ≤ r.1) && decide (r.1 ≤ 0xDF#8))) = true) :
    (machine c regs prog data pc).CoreInv := by
  simp only [Bool.and_eq_true, List.all_eq_true, Bool.not_eq_true', Bool.and_eq_false_iff, decide_eq_false_iff_not] at h
  obtain ⟨⟨⟨h1, h2⟩, h3⟩, h4⟩ := h
  have hst : ∀ (l : List (Byte × Byte)) (t : State), t.cycles = 0 → t.lastTick = 0 →
      (l.foldl (fun s r => s.setReg r.1 r.2) t).lastTick ≤ (l.foldl (fun s r => s.setReg r.1 r.2) t).cycles := by
    intro l
    induction l with
    | nil => intro t hc hl; simp [hc, hl]
    | cons r rest ih => intro t hc hl; exact ih _ hc hl
  exact ⟨h1, cacheInv_empty c prog h2, h3,
    reg_foldl_readOnly regs State.reset reg_reset_readOnly (fun r hr hb => by rcases h4 r hr with h | h; exact h hb.1; exact h hb.2),
    by simp [machine], hst regs State.reset rfl rfl⟩

theorem exec_of_run {i : Instr} {s : State} {p : State → Bool}
    (h : (match exec i s with | .next t => p t | _ => false) = true) : ∃ t, exec i s = .next t ∧ p t = true := by
  cases he : exec i s with
  | next t => rw [he] at h; exact ⟨t, rfl, h⟩
  | fault f => rw [he] at h; cases h
  | refused r => rw [he] at h; cases h

theorem step_of_run {s : State} {p : State → Bool} (h : (match step s with | .next t => p t | _ => false) = true) :
    ∃ t, step s = .next t ∧ p t = true := by
  cases he : step s with
  | next t => rw [he] at h; exact ⟨t, rfl, h⟩
  | fault f => rw [he] at h; cases h
  | refused r => rw [he] at h; cases h

theorem ok_of_run {α : Type} {m : M α} {s : State} {p : State → Bool}
    (h : (match m s with | .ok _ t => p t | .error _ _ => false) = true) : ∃ a t, m s = .ok a t ∧ p t = true := by
  cases he : m s with
  | ok a t => rw [he] at h; exact ⟨a, t, rfl, h⟩
  | error r t => rw [he] at h; cases h

theorem error_of_run {α : Type} {m : M α} {s : State} {r : FaultReason}
    (h : (match m s with | .ok _ _ => false | .error r' _ => decide (r' = r)) = true) : ∃ t, m s = .error r t := by
  cases he : m s with
  | ok a t => rw [he] at h; cases h
  | error r' t => rw [he] at h; exact ⟨t, by rw [of_decide_eq_true h]⟩

/-- The state after a push on the external stack. -/
def pushed (s : State) (v : Byte) : State :=
  let a : Word := s.reg 0xFE ++ s.reg 0xFF - 1
  { (s.setReg 0xFE (a.extractLsb' 8 8)).setReg 0xFF (a.extractLsb' 0 8) with data := Memory.write s.data a v }

theorem pushAt_external {s : State} (v : Byte) (h : (s.reg 0xF8).getLsbD 2 = false) : PushAt s v (pushed s v) := by
  rw [PushAt, if_neg (by rw [h]; decide)]; rfl

/-- The state after a push on the internal stack that reaches slot `q`. -/
def pushedTo (s : State) (q v : Byte) : State := (s.setReg 0xFF (s.reg 0xFF - 1)).slotWrite q v

theorem pushAt_internal {s : State} {q : Byte} (v : Byte) (h : (s.reg 0xF8).getLsbD 2 = true) (hq : Reaches s (s.reg 0xFF - 1) q) :
    PushAt s v (pushedTo s q v) := by
  rw [PushAt, if_pos h]; exact ⟨q, hq, rfl⟩

/-- The state after a pop on the external stack. -/
def popped (s : State) : State :=
  let a : Word := s.reg 0xFE ++ s.reg 0xFF
  (s.setReg 0xFE ((a + 1).extractLsb' 8 8)).setReg 0xFF ((a + 1).extractLsb' 0 8)

theorem popAt_external {s : State} (h : (s.reg 0xF8).getLsbD 2 = false) :
    PopAt s (Memory.read s.data (s.reg 0xFE ++ s.reg 0xFF)) (popped s) := by
  rw [PopAt, if_neg (by rw [h]; decide)]; exact ⟨rfl, rfl⟩

/-- The state after a pop on the internal stack that reaches slot `q`. -/
def poppedFrom (s : State) (q : Byte) : State := (s.slotRead q).2.setReg 0xFF (s.reg 0xFF + 1)

theorem popAt_internal {s : State} {q : Byte} (h : (s.reg 0xF8).getLsbD 2 = true) (hq : Reaches s (s.reg 0xFF) q) :
    PopAt s (s.slotRead q).1 (poppedFrom s q) := by
  rw [PopAt, if_pos h]; exact ⟨q, hq, rfl, rfl⟩

/-- Pointers in r1, r2, 0x40 and 0x41; the external stack at 0x0000. -/
def ext : State := start [(1, 0x40), (2, 0x50), (0x40, 0x42), (0x41, 0x52)]

/-- The internal stack at 0x80. -/
def int : State := start [(0xF8, 4), (0xFF, 0x80), (0x7E, 0x34), (0x7F, 0x12)]

/-- A machine with the reference timer on the pair r4 = 0x20, r5 = 0x00 and the pointer r3 = 0x40, RP = 1. -/
def memo : State :=
  machine timerConfig [(0xFD, 1), (0x13, 0x40), (0x14, 0x20), (0x15, 0x00)] (bytesAt 0x2000 [0x5A] []) [(0x2000, 0x77)] 0x0100

theorem memo_core : memo.CoreInv := coreInv_machine _ _ _ _ _ (by decide +kernel)

theorem witness_EncodeDecode :
    decode [0xFF, 0x00] = .ok (.nop, [0x00]) ∧ decode [0xE4, 0x40, 0x41] = .ok (.ldRR 0x41 0x40, []) := ⟨rfl, rfl⟩

/-- The first and the last illegal byte, the last also at the highest pc that can be fetched. -/
theorem witness_IllegalOpcodes :
    (let s := machine Config.reference [] [(0x0100, 0x1F)] [] 0x0100
     s.CoreInv ∧ s.run = .running ∧ s.ceilingReached = false ∧ s.pc ≠ 0xFFFF ∧ operandWidth (s.progView s.pc) = none) ∧
    (let s := machine Config.reference [] [(0xFFFE, 0xF7)] [] 0xFFFE
     s.CoreInv ∧ s.run = .running ∧ s.ceilingReached = false ∧ s.pc ≠ 0xFFFF ∧ operandWidth (s.progView s.pc) = none) := by
  refine ⟨⟨coreInv_machine _ _ _ _ _ ?_, ?_, ?_, ?_, ?_⟩, coreInv_machine _ _ _ _ _ ?_, ?_, ?_, ?_, ?_⟩ <;> decide +kernel

/-- A one-byte instruction at 0xFFFE and a three-byte one at 0xFFFC, the last places before 0xFFFF. -/
theorem witness_StepRunsDecoded :
    (let s := machine Config.reference [] [(0xFFFE, 0xFF)] [] 0xFFFE
     s.CoreInv ∧ s.run = .running ∧ s.ceilingReached = false ∧
       decode [s.progView s.pc, s.progView (s.pc + 1), s.progView (s.pc + 2)] = .ok (.nop, [0, 0]) ∧
       ∀ k : Nat, k < lengthByPosition (s.progView s.pc) → s.pc + BitVec.ofNat 16 k ≠ 0xFFFF) ∧
    (let s := machine Config.reference [] (bytesAt 0xFFFC [0xE4, 0x40, 0x41] []) [] 0xFFFC
     s.CoreInv ∧ s.run = .running ∧ s.ceilingReached = false ∧
       decode [s.progView s.pc, s.progView (s.pc + 1), s.progView (s.pc + 2)] = .ok (.ldRR 0x41 0x40, []) ∧
       ∀ k : Nat, k < lengthByPosition (s.progView s.pc) → s.pc + BitVec.ofNat 16 k ≠ 0xFFFF) := by
  refine ⟨⟨coreInv_machine _ _ _ _ _ ?_, ?_, ?_, rfl, ?_⟩, coreInv_machine _ _ _ _ _ ?_, ?_, ?_, rfl, ?_⟩ <;> decide +kernel

theorem witness_CyclePhases :
    (∃ t, exec (.jpIRR 1) State.reset = .next t ∧ t.run.isFaulted = true) ∧
    (let s := { State.reset with pred := { tcnt := 1, fcnt := 0, cond := false, snap := 0 }, prog := [(0x0100, 0x1F)] }
     exec .nop s = .next s ∧ s.run.isFaulted = false ∧ ∃ v, predBookkeeping (isIf .nop) s = .error .illegalOpcode v) ∧
    (let s := start [(0xFB, 0x83), (0xFA, 0x03)]
     exec .nop s = .next s ∧ s.run.isFaulted = false ∧ predBookkeeping (isIf .nop) s = .ok () s ∧
       ∃ w, poll s.tick = .error .reservedIPR w) ∧
    (let s := State.reset
     exec .nop s = .next s ∧ s.run.isFaulted = false ∧ predBookkeeping (isIf .nop) s = .ok () s ∧ ∃ a w, poll s.tick = .ok a w ∧ true) :=
  ⟨exec_of_run (by decide +kernel), ⟨rfl, rfl, error_of_run (by decide +kernel)⟩,
    ⟨rfl, rfl, rfl, error_of_run (by decide +kernel)⟩, rfl, rfl, rfl, ok_of_run (p := fun _ => true) (by decide +kernel)⟩

theorem witness_StepByRunState :
    (let s := { State.reset with run := .waiting }
     s.ceilingReached = false ∧ ∃ a t, poll (s.charge s.cfg.cost.wait).tick = .ok a t ∧ true) ∧
    (let s := { start [(0xFB, 0x83), (0xFA, 0x03)] with run := .waiting }
     s.ceilingReached = false ∧ ∃ t, poll (s.charge s.cfg.cost.wait).tick = .error .reservedIPR t) ∧
    (let s := { State.reset with pc := 0xFFFF }
     s.run = .running ∧ s.ceilingReached = false ∧ s.pc = 0xFFFF) :=
  ⟨⟨rfl, ok_of_run (p := fun _ => true) (by decide +kernel)⟩, ⟨rfl, error_of_run (by decide +kernel)⟩, rfl, rfl, rfl⟩

/-- At the ceiling, and one cycle below it. -/
theorem witness_CeilingExhausts :
    (let s := machine { Config.reference with ceiling := some 0 } [] [] [] 0x0100
     s.CoreInv ∧ s.run = .running ∧ s.cfg.ceiling = some 0 ∧ 0 ≤ s.cycles) ∧
    (let s := machine { Config.reference with ceiling := some 1 } [] [(0x0100, 0xFF)] [] 0x0100
     (∀ c, s.cfg.ceiling = some c → s.cycles < c) ∧ ∃ t, step s = .next t ∧ true) := by
  refine ⟨⟨coreInv_machine _ _ _ _ _ (by decide +kernel), rfl, rfl, Nat.zero_le _⟩, fun c hc => ?_,
    step_of_run (p := fun _ => true) (by decide +kernel)⟩
  cases hc; exact Nat.zero_lt_one

theorem witness_ProgramEndFlushes :
    (let s := machine Config.reference [] [(0x0100, 0x6F)] [] 0x0100
     s.CoreInv ∧ ∃ t, step s = .next t ∧ decide (t.run = .stopped) = true) ∧
    (let s := machine { Config.reference with ceiling := some 0 } [] [] [] 0x0100
     s.CoreInv ∧ ∃ t, step s = .next t ∧ decide (t.run = .exhausted) = true) :=
  ⟨⟨coreInv_machine _ _ _ _ _ (by decide +kernel), step_of_run (by decide +kernel)⟩,
    coreInv_machine _ _ _ _ _ (by decide +kernel), step_of_run (by decide +kernel)⟩

theorem witness_InvStep :
    let s := machine timerConfig [(0xFB, 0x90)] [(0x0100, 0xFF)] [] 0x0100
    s.Inv ∧ ∃ t, step s = .next t ∧ true :=
  ⟨⟨coreInv_machine _ _ _ _ _ (by decide +kernel), fun _ => rfl⟩, step_of_run (p := fun _ => true) (by decide +kernel)⟩

/-- The reference timer's launch: ReadWrite slots at both ends of their ranges, its five slots device-backed. -/
theorem witness_LaunchValues :
    ((launch timerConfig zeroImage).map fun s => ([0x00, 0x7F, 0xF0, 0xF6, 0xFF].map s.policy, [0xF1, 0xF5].map s.policy)) =
      some ([.readWrite, .readWrite, .readWrite, .readWrite, .readWrite], [.deviceBacked 0, .deviceBacked 0]) ∧
    timerConfig.devices[0]? = some (refTimer 0 0 0 0 0) := by
  decide +kernel

theorem witness_LaunchInv :
    Memory.wf zeroImage.prog = true ∧ Memory.wf zeroImage.data = true ∧ (launch timerConfig zeroImage).isSome = true := by
  decide +kernel

theorem witness_WindowResolve :
    resolve 0x0D 0xE0 = some 0xD0 ∧ resolve 0xFD 0xEF = some 0xDF ∧ resolve 0x0E 0xDF = some 0xDF ∧ resolve 0x0F 0xF0 = some 0xF0 ∧
      resolve 0x0E 0xE0 = none ∧ resolve 0x0F 0xEF = none := by
  decide +kernel

theorem witness_WindowLaw :
    (0xFD#8 &&& 0x0F#8 ≠ 0x0E#8) ∧ (0xFD#8 &&& 0x0F#8 ≠ 0x0F#8) ∧ ∃ a t, regWrite 0xFD 0xFD State.reset = .ok a t ∧ true :=
  ⟨by decide, by decide, ok_of_run (p := fun _ => true) (by decide +kernel)⟩

/-- The policies an access can meet: ReadWrite, ReadOnly at both ends, device-backed at both ends; the refused window. -/
theorem policies_met :
    resolve ((start [(0xFD, 0x0E)]).reg 0xFD) 0xEF = none ∧
    (Reaches memo 0x20 0x20 ∧ memo.policy 0x20 = .readWrite) ∧ (Reaches memo 0x80 0x80 ∧ memo.policy 0x80 = .readOnly) ∧
    (Reaches memo 0xDF 0xDF ∧ memo.policy 0xDF = .readOnly) ∧ (Reaches memo 0xF1 0xF1 ∧ memo.policy 0xF1 = .deviceBacked 0) ∧
    (Reaches memo 0xF5 0xF5 ∧ memo.policy 0xF5 = .deviceBacked 0) ∧ memo.dev[0]?.isSome = true := by
  decide +kernel

theorem witness_RegReadPolicy :
    ∃ (d d' : DevState) (b : Byte) (q : Irq6), Reaches memo 0xF1 0xF1 ∧ memo.policy 0xF1 = .deviceBacked 0 ∧
      memo.dev[0]? = some d ∧ deviceOnAccess d 0xF1 .read (memo.reg 0xF1) = (d', b, q) :=
  ⟨_, _, _, _, policies_met.2.2.2.2.1.1, policies_met.2.2.2.2.1.2, rfl, rfl⟩

theorem witness_RegWritePolicy :
    ∃ (d d' : DevState) (b : Byte) (q : Irq6), Reaches memo 0xF1 0xF1 ∧ memo.policy 0xF1 = .deviceBacked 0 ∧
      memo.dev[0]? = some d ∧ deviceOnAccess d 0xF1 .write 0x03 = (d', b, q) :=
  ⟨_, _, _, _, policies_met.2.2.2.2.1.1, policies_met.2.2.2.2.1.2, rfl, rfl⟩

/-- Both ends of the ReadOnly range and of the ranges a device may back. -/
theorem witness_SlotPolicies :
    memo.CoreInv ∧ Config.valid memo.cfg = true ∧
      (∀ a ∈ [0x00#8, 0x7F#8, 0xF0#8, 0xFF#8], (a ≤ 0x7F#8 ∨ 0xF0#8 ≤ a) ∧ ∀ d ∈ memo.cfg.devices, a ∉ d.slots) ∧
      ∀ a ∈ [0x80#8, 0xDF#8], 0x80#8 ≤ a ∧ a ≤ 0xDF#8 :=
  ⟨memo_core, memo_core.valid, by decide +kernel, by decide⟩

/-- A plain pair, and the highest working-register pair. -/
theorem witness_RegisterPairs :
    (0xEF#8).toNat % 2 = 1 ∧
    (∀ a ∈ [0x20#8, 0xEE#8], a.toNat % 2 = 0 ∧ (resolve (ext.reg 0xFD) a).isSome = true ∧
      ∃ h l t u, regRead a ext = .ok h t ∧ regRead (a + 1) t = .ok l u) ∧
    ∃ t u, regWrite 0xEE 0x12 ext = .ok () t ∧ regWrite 0xEF 0x34 t = .ok () u := by
  have hr : ∀ a ∈ [0x20#8, 0xEE#8], resolve (ext.reg slotRP) a ≠ none ∧ resolve (ext.reg slotRP) (a + 1) ≠ none := by decide +kernel
  refine ⟨by decide, fun a ha => ⟨?_, ?_, ?_⟩, ?_⟩
  · revert a; decide
  · exact Option.ne_none_iff_isSome.mp (hr a ha).1
  · obtain ⟨p, hp⟩ := Option.ne_none_iff_exists'.mp (hr a ha).1
    obtain ⟨q, hq⟩ := Option.ne_none_iff_exists'.mp (hr a ha).2
    have h1 : regRead a ext = .ok (ext.slotRead p).1 (ext.slotRead p).2 := by unfold regRead; rw [hp]
    have h2 : (ext.slotRead p).2 = ext := by rw [State.slotRead_plain (policy_no_devices rfl p)]
    exact ⟨_, (ext.slotRead q).1, _, (ext.slotRead q).2, h1, by rw [h2]; unfold regRead; rw [hq]⟩
  · exact ⟨(ext.slotWrite 0x0E 0x12), ((ext.slotWrite 0x0E 0x12).slotWrite 0x0F 0x34), by
      unfold regWrite; rw [show resolve (ext.reg slotRP) 0xEE = some 0x0E by decide +kernel], by
      unfold regWrite; rw [show resolve ((ext.slotWrite 0x0E 0x12).reg slotRP) 0xEF = some 0x0F by decide +kernel]⟩

theorem witness_LogicOperations : (7 : Nat) < 8 ∧ ∀ op ∈ [AluOp.or, .tm], op ∈ [AluOp.or, .and, .xor, .tcm, .tm] := by decide

/-- Operands at both ends of the nibble ranges of each row of the decimal-adjust table. -/
theorem witness_DecimalAdjustTable :
    daRow false false 9 false 9 0x00 false ∧ daRow false false 8 false 10 0x06 false ∧ daRow false false 10 false 9 0x60 true ∧
      daRow false false 9 false 10 0x66 true ∧ daRow false false 9 true 3 0x06 false ∧ daRow false false 10 true 3 0x66 true ∧
      daRow false true 2 false 9 0x60 true ∧ daRow false true 2 false 10 0x66 true ∧ daRow false true 3 true 3 0x66 true ∧
      daRow true false 9 false 9 0x00 false ∧ daRow true false 8 true 6 0xFA false ∧ daRow true true 7 false 9 0xA0 true ∧
      daRow true true 6 true 6 0x9A true ∧ (0x84#8).getLsbD 3 = false ∧ (0x8C#8).getLsbD 3 = true := by
  simp [daRow]

theorem witness_RotatesBitwise :
    (6 : Nat) < 7 ∧ ∀ op ∈ [UnaryOp.rl, .sra], op ∈ [UnaryOp.rl, .rlc, .rr, .rrc, .sra] := by
  decide

theorem witness_ConditionTable : (7#4 < 8) ∧ State.reset.flags = 0x00 := by decide +kernel

/-- Every mode of the two-operand family, on working registers 0 and 15 and on plain registers. -/
theorem witness_AluInstructions :
    (∃ p v u, OperandsAt ext (.ww 0 15) p v u) ∧ (∃ p v u, OperandsAt ext (.wiw 15 1) p v u) ∧
      (∃ p v u, OperandsAt ext (.rr 0x80 0xEF) p v u) ∧ (∃ p v u, OperandsAt ext (.rir 0xFC 0x40) p v u) ∧
      (∃ p v u, OperandsAt ext (.rim 0xE0 0xFF) p v u) ∧ ∃ p v u, OperandsAt ext (.irim 0x41 0x00) p v u := by
  refine ⟨⟨0, _, _, 15, ?_, ?_, rfl⟩, ⟨15, _, _, 1, 0x40, ?_, ?_, ?_, rfl⟩, ⟨0x80, _, _, 15, ?_, ?_, rfl⟩,
    ⟨0xFC, _, _, 0x40, 0x42, ?_, ?_, ?_, rfl⟩, ⟨0, _, _, ?_, rfl, rfl⟩, 0x52, _, _, 0x41, ?_, ?_, rfl, rfl⟩ <;> decide +kernel

theorem witness_AluPlain : ext.cfg.devices = [] ∧ ∃ p v u, OperandsAt ext (.ww 0 15) p v u :=
  ⟨rfl, witness_AluInstructions.1⟩

/-- The load forms that are not forms of the two-operand routine: `ldIWW 1 2`, `ldIRR 0x40 0x41`, `ldWX`, `ldXW`. -/
theorem witness_LoadInstructions :
    (Reaches ext 0xFF 0xFF ∧ Reaches ext (wreg 15) 15) ∧
    (∃ p v u, OperandsAt ext (.wiw 15 1) p v u) ∧ (∃ p v u, OperandsAt ext (.rir 0xFC 0x40) p v u) ∧
    (let v := (moded ext 1).slotRead 2
     let a := v.2.slotRead 1
     Reaches ext (wreg 2) 2 ∧ Reaches ext (wreg 1) 1 ∧ Reaches ext a.1 0x40) ∧
    (let v := (moded ext 3).slotRead 0x41
     let a := v.2.slotRead 0x40
     Reaches ext 0x41 0x41 ∧ Reaches ext 0x40 0x40 ∧ Reaches ext a.1 0x42) ∧
    (Reaches ext (wreg 1) 1 ∧ Reaches ext (0xFF + (ext.slotRead 1).1) 0x3F ∧ Reaches ext (wreg 0) 0) ∧
    (let i := (ext.slotRead 0).2.slotRead 1
     Reaches ext (wreg 0) 0 ∧ Reaches ext (wreg 1) 1 ∧ Reaches ext (0xFF + i.1) 0x3F) := by
  refine ⟨?_, witness_AluInstructions.2.1, witness_AluInstructions.2.2.2.1, ?_, ?_, ?_, ?_⟩ <;> decide +kernel

theorem operandAt_direct : OperandAt ext (.direct 0x40) 0x40 ext := ⟨by decide +kernel, rfl⟩

theorem operandAt_indirect : ∃ u, OperandAt ext (.indirect 0x40) 0x42 u := ⟨_, 0x40, by decide +kernel, by decide +kernel, rfl⟩

theorem witness_UnaryInstructions :
    ext.cfg.devices = [] ∧ (∃ u, OperandAt ext (.direct 0x40) 0x40 u) ∧ (∃ u, OperandAt ext (.indirect 0x40) 0x42 u) ∧
      Reaches ext (wreg 15) 15 :=
  ⟨rfl, ⟨_, operandAt_direct⟩, operandAt_indirect, by decide +kernel⟩

theorem witness_WordInstructions :
    (0x40#8).toNat % 2 = 0 ∧ (0x42#8).toNat % 2 = 0 ∧ (∃ u, OperandAt ext (.direct 0x40) 0x40 u) ∧
      ∃ u, OperandAt ext (.indirect 0x40) 0x42 u :=
  ⟨by decide, by decide, ⟨_, operandAt_direct⟩, operandAt_indirect⟩

/-- A push and a pop on each stack. -/
theorem witness_ClearPushPop :
    (OperandAt ext (.direct 0x40) 0x40 ext ∧ (∃ t, PushAt (ext.slotRead 0x40).2 (ext.slotRead 0x40).1 t) ∧ ∃ v t, PopAt ext v t) ∧
    (OperandAt int (.direct 0x40) 0x40 int ∧ (∃ t, PushAt (int.slotRead 0x40).2 (int.slotRead 0x40).1 t) ∧
      ∃ v t, PopAt int v t) :=
  ⟨⟨operandAt_direct, ⟨_, pushAt_external _ (by decide +kernel)⟩, ⟨_, _, popAt_external (by decide +kernel)⟩⟩,
    ⟨⟨by decide +kernel, rfl⟩, ⟨_, pushAt_internal (q := 0x7F) _ (by decide +kernel) (by decide +kernel)⟩,
      ⟨_, _, popAt_internal (q := 0x80) (by decide +kernel) (by decide +kernel)⟩⟩⟩

theorem witness_JumpInstructions :
    (Reaches ext (wreg 0) 0 ∧ Reaches ext (wreg 15) 15) ∧ ((0x00#8).toNat % 2 = 0 ∧ Reaches ext 0x00 0x00) ∧
      ((0xEE#8).toNat % 2 = 0 ∧ Reaches ext 0xEE 0x0E) := by
  decide +kernel

/-- CALL and RET, IRET with the values popped, on each stack. -/
theorem witness_CallReturn :
    (∃ t u, PushAt ext (ext.pc.extractLsb' 8 8) t ∧ PushAt t (ext.pc.extractLsb' 0 8) u) ∧
    (∃ t u, PushAt int (int.pc.extractLsb' 8 8) t ∧ PushAt t (int.pc.extractLsb' 0 8) u) ∧
    ((0x40#8).toNat % 2 = 0 ∧ Reaches ext 0x40 0x40 ∧
      ∃ t u, PushAt (pairFrom ext 0x40).2 (ext.pc.extractLsb' 8 8) t ∧ PushAt t (ext.pc.extractLsb' 0 8) u) ∧
    (∃ l h t u, PopAt ext l t ∧ PopAt t h u) ∧ (∃ l h t u, PopAt int l t ∧ PopAt t h u) ∧
    ∃ f l h t u v, PopAt ext f t ∧ PopAt (t.setReg 0xFC f) l u ∧ PopAt u h v :=
  ⟨⟨_, _, pushAt_external _ (by decide +kernel), pushAt_external _ (by decide +kernel)⟩,
    ⟨_, _, pushAt_internal (q := 0x7F) _ (by decide +kernel) (by decide +kernel),
      pushAt_internal (q := 0x7E) _ (by decide +kernel) (by decide +kernel)⟩,
    ⟨by decide, by decide +kernel, _, _, pushAt_external _ (by decide +kernel), pushAt_external _ (by decide +kernel)⟩,
    ⟨_, _, _, _, popAt_external (by decide +kernel), popAt_external (by decide +kernel)⟩,
    ⟨_, _, _, _, popAt_internal (q := 0x80) (by decide +kernel) (by decide +kernel),
      popAt_internal (q := 0x81) (by decide +kernel) (by decide +kernel)⟩,
    _, _, _, _, _, _, popAt_external (by decide +kernel), popAt_external (by decide +kernel), popAt_external (by decide +kernel)⟩

/-- The pairs rr4 and rr14, the pointers in r3 and r15, RP = 1. -/
theorem witness_DataMemory :
    (∀ p ∈ [4#4, 14#4], p.toNat % 2 = 0 ∧ Reaches memo (wreg p) (ofNibs 1 p)) ∧ Reaches memo (wreg 3) 0x13 ∧
    (let a := pairFrom memo 0x14
     let m := a.2.slotRead 0x13
     let t := m.2.slotWrite 0x40 (Memory.read memo.data a.1)
     Reaches memo m.1 0x40 ∧ Reaches t (wreg 3) 0x13 ∧ Reaches t (wreg 4) 0x14) ∧
    Reaches memo (memo.slotRead 0x13).1 0x40 := by
  decide +kernel

theorem witness_ProgramMemory :
    memo.CoreInv ∧ (4#4).toNat % 2 = 0 ∧ Reaches memo (wreg 4) 0x14 ∧ Reaches memo (wreg 3) 0x13 ∧
    (let a := pairFrom memo 0x14
     let m := a.2.slotRead 0x13
     let u := m.2.slotWrite 0x40 (memo.progView a.1)
     a.1 ≠ 0xFFFF ∧ Reaches memo m.1 0x40 ∧ Reaches u (wreg 3) 0x13 ∧ Reaches u (wreg 4) 0x14) ∧
    (pairFrom (memo.slotRead 0x13).2 0x14).1 ≠ 0xFFFF ∧ Reaches memo (memo.slotRead 0x13).1 0x40 ∧
    (pairFrom ((memo.slotRead 0x13).2.slotRead 0x40).2 0x14).1 ≠ 0xFFFF :=
  ⟨memo_core, by decide, by decide +kernel, by decide +kernel, by decide +kernel, by decide +kernel, by decide +kernel,
    by decide +kernel⟩

theorem reaches_unique {s : State} {a p q : Byte} (h : Reaches s a p) (k : Reaches s a q) : q = p :=
  Option.some.inj (k.symm.trans h)

/-- One of each kind of operand condition: none, an even pair behind a pointer, a PROGRAM address, a loaded RP. -/
theorem witness_EveryInstructionCompletes :
    loNib (memo.reg 0xFD) ≠ 0xE ∧ loNib (memo.reg 0xFD) ≠ 0xF ∧
    (∀ i ∈ [Instr.nop, .decwIR 0x13, .ldeiLoad 3 4, .ldcLoad 3 4, .ldcStore 3 4, .ldciLoad 3 4, .ldciStore 3 4],
      WellFormed i = true) ∧
    operandsAllow .nop memo ∧ operandsAllow (.decwIR 0x13) memo ∧ operandsAllow (.ldeiLoad 3 4) memo ∧
    operandsAllow (.ldcLoad 3 4) memo ∧ operandsAllow (.ldcStore 3 4) memo ∧ operandsAllow (.ldciLoad 3 4) memo ∧
    operandsAllow (.ldciStore 3 4) memo := by
  have h0 : Reaches memo 0x13 0x13 := by decide +kernel
  have h3 : Reaches memo (wreg 3) 0x13 := by decide +kernel
  have h4 : Reaches memo (wreg 4) 0x14 := by decide +kernel
  have hx : Reaches memo (memo.slotRead 0x13).1 0x40 := by decide +kernel
  refine ⟨by decide +kernel, by decide +kernel, by decide, trivial, fun q hq => ?_, fun q r hq hr => ?_, fun q hq => ?_,
    fun q r hq hr => ?_, fun q r hq hr => ?_, fun q r x hq hr hx' => ?_⟩
  · rw [reaches_unique h0 hq]; decide +kernel
  · rw [reaches_unique h4 hq, reaches_unique h3 hr]; decide +kernel
  · rw [reaches_unique h4 hq]; decide +kernel
  · rw [reaches_unique h4 hq, reaches_unique h3 hr]; decide +kernel
  · rw [reaches_unique h4 hq, reaches_unique h3 hr]; decide +kernel
  · rw [reaches_unique h3 hr] at hx'
    rw [reaches_unique h4 hq, reaches_unique h3 hr, reaches_unique hx hx']; decide +kernel

/-- An instruction of each kind that answers a state: none of the memory forms, a PROGRAM load, a PROGRAM store. -/
theorem witness_OnlyStoresChangeMemory :
    memo.CoreInv ∧ ∀ i ∈ [Instr.nop, .ldcLoad 3 4, .ldcStore 3 4, .ldeStore 3 4], ∃ t, exec i memo = .next t ∧ true := by
  refine ⟨memo_core, fun i hi => exec_of_run (p := fun _ => true) ?_⟩
  revert i; decide +kernel

theorem witness_StoreFrames :
    Memory.wf memo.data = true ∧ (4#4).toNat % 2 = 0 ∧ Reaches memo (wreg 4) 0x14 ∧ Reaches memo (wreg 3) 0x13 ∧
      Reaches memo (memo.slotRead 0x13).1 0x40 ∧
      (∀ i ∈ [Instr.ldeStore 3 4, .ldeiStore 3 4, .pushR 0x13, .pushIR 0x13, .callDA 0x1234, .callIRR 0x14],
        ∃ t, exec i memo = .next t ∧ true) ∧
      OperandAt memo (.direct 0x13) 0x13 memo ∧ (∃ u, OperandAt memo (.indirect 0x13) 0x40 u) ∧
      (∃ u v, PushAt memo (memo.pc.extractLsb' 8 8) u ∧ PushAt u (memo.pc.extractLsb' 0 8) v) ∧
      ((0x14#8).toNat % 2 = 0 ∧ Reaches memo 0x14 0x14 ∧
        ∃ u v, PushAt (pairFrom memo 0x14).2 (memo.pc.extractLsb' 8 8) u ∧ PushAt u (memo.pc.extractLsb' 0 8) v) := by
  refine ⟨by decide +kernel, by decide, by decide +kernel, by decide +kernel, by decide +kernel,
    fun i hi => exec_of_run (p := fun _ => true) ?_, ⟨by decide +kernel, rfl⟩,
    ⟨_, 0x13, by decide +kernel, by decide +kernel, rfl⟩,
    ⟨_, _, pushAt_external _ (by decide +kernel), pushAt_external _ (by decide +kernel)⟩, by decide, by decide +kernel,
    _, _, pushAt_external _ (by decide +kernel), pushAt_external _ (by decide +kernel)⟩
  revert i; decide +kernel

/-- A slot left alone beside a destination, for each clause of the register frames. -/
theorem witness_RegisterFrames :
    ext.still 0x60 ∧ ext.still 0xFC ∧ UnaryOp.swap ∈ [UnaryOp.dec, .inc, .com, .swap] ∧ UnaryOp.da ∈ [UnaryOp.da, .swap] ∧
    (0x60#8 ≠ 0xFC ∧ ∀ p ∈ [0x00#8, 0x0F#8, 0x40#8, 0x41#8, 0x42#8, 0x43#8, 0x52#8, 0x3F#8], 0x60#8 ≠ p) ∧
    (∃ p v u, OperandsAt ext (.ww 0 15) p v u) ∧ (∃ p v u, OperandsAt ext (.irim 0x41 0) p v u) ∧
    OperandAt ext (.direct 0x40) 0x40 ext ∧ (0x40#8).toNat % 2 = 0 ∧ Reaches ext (wreg 0) 0 ∧ Reaches ext 0x43 0x43 ∧
    (Reaches ext (wreg 2) 2 ∧ Reaches ext (wreg 1) 1 ∧ Reaches ext (((moded ext 1).slotRead 2).2.slotRead 1).1 0x40) ∧
    (Reaches ext 0x41 0x41 ∧ Reaches ext 0x40 0x40 ∧ Reaches ext (((moded ext 3).slotRead 0x41).2.slotRead 0x40).1 0x42) ∧
    Reaches ext (0xFF + ((ext.slotRead 0).2.slotRead 1).1) 0x3F ∧
    ∀ i ∈ [Instr.addWW 0 15, .tmIRIM 0x41 0, .incR 0x40, .incW 0, .decwRR 0x40, .incwIR 0x40, .clrR 0x40, .ldWIW 15 1, .ldRR 0x43 0,
        .ldRIR 0x43 1, .ldRIM 0x43 9, .ldIRIM 0x41 9, .ldWR 0 0x41, .ldRW 0x43 0, .ldWIM 0 9, .ldWX 0 1 0xFF, .ldIWW 1 2,
        .ldIRR 0x40 0x41, .ldXW 0 1 0xFF],
      ∃ t, exec i ext = .next t ∧ true := by
  refine ⟨⟨policy_no_devices rfl _, fun _ => rfl⟩, ⟨policy_no_devices rfl _, fun _ => rfl⟩, by decide, by decide, by decide, witness_AluInstructions.1,
    witness_AluInstructions.2.2.2.2.2, operandAt_direct, by decide, by decide +kernel, by decide +kernel, by decide +kernel,
    by decide +kernel, by decide +kernel, fun i hi => exec_of_run (p := fun _ => true) ?_⟩
  revert i; decide +kernel

theorem witness_OnlyTransfersWritePc :
    ∀ i ∈ [Instr.nop, .ifPred .always 1 1, .jp .always 0x1234, .stop, .jpIRR 1], ∃ t, exec i State.reset = .next t ∧ true := by
  intro i hi
  refine exec_of_run (p := fun _ => true) ?_
  revert i; decide +kernel

/-- The pair of the sentinel address, odd operands, an odd pointer, and a forbidden window. -/
theorem witness_OperandFaults :
    (0x01#8).toNat % 2 = 1 ∧ (15#4).toNat % 2 = 1 ∧
    (let s := start [(1, 0x41)]
     Reaches s (wreg 1) 1 ∧ (s.slotRead 1).1.toNat % 2 = 1 ∧ Reaches s (s.slotRead 1).1 0x41) ∧
    (let s := start [(4, 0xFF), (5, 0xFF)]
     (4#4).toNat % 2 = 0 ∧ Reaches s (wreg 4) 4 ∧ Reaches s (wreg 0) 0 ∧ (pairFrom s 4).1 = 0xFFFF ∧
       (pairFrom (s.slotRead 0).2 4).1 = 0xFFFF ∧ Reaches s (s.slotRead 0).1 0 ∧
       (pairFrom ((s.slotRead 0).2.slotRead 0).2 4).1 = 0xFFFF) ∧
    (loNib ((start [(0xFD, 0x0E)]).reg 0xFD) = 0xE ∧ (14#4).toNat % 2 = 0 ∧ Reaches (start [(0xFD, 0x0E)]) 0xDF 0xDF) ∧
    loNib ((start [(0xFD, 0xFF)]).reg 0xFD) = 0xF := by
  decide +kernel

/-- The cache, both placements, at the lowest and the highest address. -/
theorem witness_ProgramView : memo.CoreInv ∧ 0x0000#16 ≠ 0xFFFF ∧ 0xFFFE#16 ≠ 0xFFFF := ⟨memo_core, by decide, by decide⟩

theorem witness_CacheController :
    (machine { Config.reference with placement := .directMapped, numLines := 1, writePolicy := .writeThrough } [] [] [] 0x0100).CoreInv ∧
      memo.CoreInv ∧ 0xFFFE#16 ≠ 0xFFFF :=
  ⟨coreInv_machine _ _ _ _ _ (by decide +kernel), memo_core, by decide⟩

theorem witness_PushPop :
    (∃ t, PushAt ext 0x5A t) ∧ (∃ v t, PopAt ext v t) ∧ (∃ t, PushAt int 0x5A t) ∧ (∃ v t, PopAt int v t) ∧
    (let s := start [(0xF8, 4), (0xFD, 0x0E), (0xFF, 0xE0)]
     (s.reg 0xF8).getLsbD 2 = true ∧ resolve (s.reg 0xFD) (s.reg 0xFF) = none) ∧
    (let s := start [(0xF8, 4), (0xFD, 0x0F), (0xFF, 0xF0)]
     (s.reg 0xF8).getLsbD 2 = true ∧ resolve (s.reg 0xFD) (s.reg 0xFF - 1) = none) ∧
    ((ext.reg 0xF8).getLsbD 2 = false ∧ Memory.wf ext.data = true) :=
  ⟨⟨_, pushAt_external _ (by decide +kernel)⟩, ⟨_, _, popAt_external (by decide +kernel)⟩,
    ⟨_, pushAt_internal (q := 0x7F) _ (by decide +kernel) (by decide +kernel)⟩,
    ⟨_, _, popAt_internal (q := 0x80) (by decide +kernel) (by decide +kernel)⟩, by decide +kernel, by decide +kernel,
    by decide +kernel, by decide +kernel⟩

/-- The later state is the one the CALL left, on the internal stack with the configuration of the start written back (it is the
same); on the external stack the pointer wraps. -/
theorem witness_CallThenReturn :
    (Memory.wf ext.data = true ∧ (ext.reg 0xF8).getLsbD 2 = false ∧
      (∃ t, exec (.callDA 0x1234) ext = .next t ∧ decide ((t.reg 0xF8).getLsbD 2 = false) = true) ∧
      (0x40#8).toNat % 2 = 0 ∧ Reaches ext 0x40 0x40 ∧
      ∃ t, exec (.callIRR 0x40) ext = .next t ∧ decide ((t.reg 0xF8).getLsbD 2 = false) = true) ∧
    Memory.wf int.data = true ∧ (int.reg 0xF8).getLsbD 2 = true ∧ Reaches int (int.reg 0xFF - 1) 0x7F ∧
      Reaches int (int.reg 0xFF - 2) 0x7E ∧ 0x7F#8 < 0xF8#8 ∧ int.policy 0x7F = .readWrite ∧ int.policy 0x7E = .readWrite ∧
      ∃ t, exec (.callDA 0x1234) int = .next t ∧ { t with cfg := int.cfg }.cfg = int.cfg :=
  ⟨⟨by decide +kernel, by decide +kernel, exec_of_run (by decide +kernel), by decide, by decide +kernel,
    exec_of_run (by decide +kernel)⟩, by decide +kernel, by decide +kernel, by decide +kernel,
    by decide +kernel, by decide, by decide +kernel, by decide +kernel,
    (exec_of_run (p := fun _ => true) (by decide +kernel)).imp fun _ h => ⟨h.1, rfl⟩⟩

theorem witness_ActiveAndPoll :
    (∀ i : Nat, i < 6 → State.reset.active.getLsbD i = false) ∧
    (let s := start [(0xFB, 0xA1), (0xFA, 0x21)]
     (∃ i : Nat, i < 6 ∧ s.active.getLsbD i = true) ∧ selectSource s.active (s.reg 0xF9) = none) ∧
    (let s := start [(0xFB, 0xA1), (0xFA, 0x21), (0xF9, 0x08)]
     (∃ i : Nat, i < 6 ∧ s.active.getLsbD i = true) ∧ selectSource s.active (s.reg 0xF9) = some 5) := by
  refine ⟨by decide +kernel, ⟨⟨5, by decide, by decide +kernel⟩, by decide +kernel⟩, ⟨5, by decide, by decide +kernel⟩,
    by decide +kernel⟩

/-- One source at each end, two sources, a reserved code and a valid one. -/
theorem witness_SelectPriority :
    (∀ j : Fin 6, (0x01#6).getLsbD j = true ↔ j = 0) ∧ (∀ j : Fin 6, (0x20#6).getLsbD j = true ↔ j = 5) ∧
    ((0 : Fin 6) ≠ 5 ∧ (0x21#6).getLsbD 0 = true ∧ (0x21#6).getLsbD 5 = true) ∧
    (∀ ipr ∈ [0x00#8, 0x19#8], let g := 4 * (ipr.toNat / 16 % 2) + 2 * (ipr.toNat / 8 % 2) + ipr.toNat % 2
      g = 0 ∨ g = 7) ∧
    ∀ ipr ∈ [0x01#8, 0x18#8], let g := 4 * (ipr.toNat / 16 % 2) + 2 * (ipr.toNat / 8 % 2) + ipr.toNat % 2
      ¬(g = 0 ∨ g = 7) := by
  decide

/-- An entry on each stack. -/
theorem witness_InterruptEntry :
    memo.CoreInv ∧ (memo.reg 0xF8).getLsbD 2 = false ∧
    (let v : Word := memo.progView 10 ++ memo.progView 11
     ∃ a b c, PushAt memo (memo.pc.extractLsb' 8 8) a ∧ PushAt a (memo.pc.extractLsb' 0 8) b ∧
       PushAt (State.setReg { b with pc := v } 0xFB (b.reg 0xFB &&& 0x7F#8)) (b.reg 0xFC) c) ∧
    (let s := machine Config.reference [(0xF8, 4), (0xFF, 0x80)] [] [] 0x0100
     let v : Word := s.progView 0 ++ s.progView 1
     s.CoreInv ∧ ∃ a b c, PushAt s (s.pc.extractLsb' 8 8) a ∧ PushAt a (s.pc.extractLsb' 0 8) b ∧
       PushAt (State.setReg { b with pc := v } 0xFB (b.reg 0xFB &&& 0x7F#8)) (b.reg 0xFC) c) := by
  refine ⟨memo_core, by decide +kernel, ⟨_, _, _, pushAt_external _ (by decide +kernel), pushAt_external _ (by decide +kernel),
    pushAt_external _ (by decide +kernel)⟩, coreInv_machine _ _ _ _ _ (by decide +kernel), _, _, _,
    pushAt_internal (q := 0x7F) _ (by decide +kernel) (by decide +kernel),
    pushAt_internal (q := 0x7E) _ (by decide +kernel) (by decide +kernel),
    pushAt_internal (q := 0x7D) _ (by decide +kernel) (by decide +kernel)⟩

/-- On the internal stack under RP = 0x0E: a first push refused at 0xEF, a second at 0xEF (the first at 0xF0), a third at 0xEF
(the first two at 0xF1 and 0xF0). -/
theorem witness_InterruptEntry_refused :
    let m := fun spl => machine Config.reference [(0xF8, 4), (0xFD, 0x0E), (0xFF, spl)] [] [] 0x0100
    let refused := fun s : State => (s.reg 0xF8).getLsbD 2 = true ∧ resolve (s.reg 0xFD) (s.reg 0xFF - 1) = none
    ((m 0xF0).CoreInv ∧ refused (m 0xF0)) ∧
    (∃ a, PushAt (m 0xF1) ((m 0xF1).pc.extractLsb' 8 8) a ∧ refused a) ∧
    (let v : Word := (m 0xF2).progView 0 ++ (m 0xF2).progView 1
     ∃ a b, PushAt (m 0xF2) ((m 0xF2).pc.extractLsb' 8 8) a ∧ PushAt a ((m 0xF2).pc.extractLsb' 0 8) b ∧
       refused (State.setReg { b with pc := v } 0xFB (b.reg 0xFB &&& 0x7F#8))) :=
  ⟨⟨coreInv_machine _ _ _ _ _ (by decide +kernel), by decide +kernel⟩,
    ⟨_, pushAt_internal (q := 0xF0) _ (by decide +kernel) (by decide +kernel), by decide +kernel⟩,
    _, _, pushAt_internal (q := 0xF1) _ (by decide +kernel) (by decide +kernel),
    pushAt_internal (q := 0xF0) _ (by decide +kernel) (by decide +kernel), by decide +kernel⟩

/-- The later state is the one the entry left, on the internal stack `{ t with cfg := s.cfg }`. -/
theorem witness_InterruptReturn :
    (memo.CoreInv ∧ (memo.reg 0xF8).getLsbD 2 = false ∧
      ∃ a t, service 5 memo = .ok a t ∧ decide ((t.reg 0xF8).getLsbD 2 = false) = true) ∧
    (let s := machine Config.reference [(0xF8, 4), (0xFF, 0x80)] [] [] 0x0100
     s.CoreInv ∧ (s.reg 0xF8).getLsbD 2 = true ∧ Reaches s (s.reg 0xFF - 1) 0x7F ∧ Reaches s (s.reg 0xFF - 2) 0x7E ∧
       Reaches s (s.reg 0xFF - 3) 0x7D ∧ (∀ a ∈ [0x7F#8, 0x7E#8, 0x7D#8], a < 0xF8#8 ∧ s.policy a = .readWrite) ∧
       ∃ a t, service 0 s = .ok a t ∧ true) :=
  ⟨⟨memo_core, by decide +kernel, ok_of_run (by decide +kernel)⟩, coreInv_machine _ _ _ _ _ (by decide +kernel), by decide +kernel,
    by decide +kernel, by decide +kernel, by decide +kernel, by decide +kernel, ok_of_run (p := fun _ => true) (by decide +kernel)⟩

/-- A predication context for each clause: the last true instruction of a block with no false part, the first of three. -/
theorem witness_BookkeepingCounts :
    (State.reset.pred.tcnt = 0 ∧ State.reset.pred.fcnt = 0) ∧
    (∀ p ∈ [(⟨1, 0, true, 0⟩ : PredContext), ⟨3, 3, true, 0⟩], p.cond = true ∧ p.tcnt ≠ 0 ∧ (p.tcnt ≠ 1 ∨ p.fcnt = 0)) ∧
    (let p : PredContext := ⟨0, 3, false, 0⟩
     p.cond = false ∧ p.tcnt = 0 ∧ p.fcnt ≠ 0) := by
  decide +kernel

/-- A skip that ends, one that meets an illegal byte, one that runs into 0xFFFF; for each part. -/
theorem witness_BookkeepingSkips :
    (let s := { machine Config.reference [] (bytesAt 0x0100 [0xFF, 0xE6, 0x20, 0x55] []) [] 0x0100 with pred := ⟨1, 2, true, 0⟩ }
     s.CoreInv ∧ s.pred.cond = true ∧ s.pred.tcnt = 1 ∧ s.pred.fcnt ≠ 0 ∧ skipEnd s.progView s.pred.fcnt.toNat s.pc = .ok 0x0104) ∧
    (let s := { machine Config.reference [] [(0x0100, 0x1F)] [] 0x0100 with pred := ⟨1, 0, false, 0⟩ }
     s.CoreInv ∧ s.pred.cond = false ∧ s.pred.tcnt ≠ 0 ∧ skipEnd s.progView s.pred.tcnt.toNat s.pc = .error .illegalOpcode) ∧
    (let s := { machine Config.reference [] [(0xFFFE, 0xFF)] [] 0xFFFE with pred := ⟨0, 2, true, 0⟩ }
     s.CoreInv ∧ s.pred.cond = true ∧ s.pred.tcnt = 0 ∧ s.pred.fcnt ≠ 0 ∧ skipEnd s.progView s.pred.fcnt.toNat s.pc = .error .sentinelAddress) ∧
    (let s := { machine Config.reference [] [(0xFFFE, 0xFF)] [] 0xFFFE with pred := ⟨1, 3, false, 0⟩ }
     s.CoreInv ∧ s.pred.cond = false ∧ s.pred.tcnt ≠ 0 ∧ skipEnd s.progView s.pred.tcnt.toNat s.pc = .ok 0xFFFF) := by
  have hp : ∀ (s : State) (p : PredContext), s.CoreInv → ({ s with pred := p } : State).CoreInv :=
    fun s p h => State.CoreStep.control s s.pc p s.run h
  refine ⟨⟨hp _ _ (coreInv_machine _ _ _ _ _ ?_), ?_⟩, ⟨hp _ _ (coreInv_machine _ _ _ _ _ ?_), ?_⟩,
    ⟨hp _ _ (coreInv_machine _ _ _ _ _ ?_), ?_⟩, hp _ _ (coreInv_machine _ _ _ _ _ ?_), ?_⟩ <;> decide +kernel

theorem witness_DevicesAndTick :
    (let s := machine timerConfig [(0xFA, 0x20)] [] [] 0x0100
     (s.reg 0xFA).getLsbD 5 = true ∧ s.CoreInv ∧ ∀ a ∈ [0x00#8, 0xF0#8], (∀ d ∈ s.cfg.devices, a ∉ d.slots) ∧ a ≠ 0xFA) ∧
    (∃ (d : Device) (st st' : DevState) (view : Byte → Byte) (irq : Irq6), memo.cfg.devices[0]? = some d ∧ memo.dev[0]? = some st ∧
      deviceOnTick st 1 (d.slots.map fun a => (a, memo.reg a)) = (st', view, irq)) ∧
    State.reset.cfg.devices = [] :=
  ⟨⟨by decide +kernel, coreInv_machine _ _ _ _ _ (by decide +kernel), by decide +kernel⟩,
    ⟨_, _, _, _, _, rfl, rfl, rfl⟩, rfl⟩

/-- The same machine with every opcode at cost 1 and the clock at 7; a step that goes on, and a stop. -/
theorem witness_CostIndependence :
    (let t : State := { State.reset with cfg := { State.reset.cfg with cost := timerConfig.cost }, cycles := 7 }
     State.reset.cfg.devices = [] ∧ State.reset.cfg.ceiling = none ∧ SameButCosts State.reset t ∧ ∃ u, step State.reset = .next u ∧ true) ∧
    step { State.reset with run := .stopped } = .fault .quiescentStopped :=
  ⟨⟨rfl, rfl, rfl, step_of_run (p := fun _ => true) (by decide +kernel)⟩, rfl⟩

end Sys2Proof.Tests
end

section
/-! SUPPORT. The predication context between two steps (`45_predicated_execution.md` R305), and the machine invariant through
a step. -/

namespace Sys2Proof.Machine

variable {α β : Type}

/-! ### What a skip leaves in the predication context -/

theorem programAccess_pred {a : Word} {op : CacheOp} {s t : State} {b : Byte} (h : programAccess a op s = .ok b t) :
    t.pred = s.pred := by
  unfold programAccess at h
  by_cases ha : a = sentinel
  · simp [ha] at h
  · simp only [if_neg ha, EStateM.Result.ok.injEq] at h
    rw [← h.2]

theorem fetch_pred {s t : State} {b : Byte} (h : fetch s = .ok b t) : t.pred = s.pred := by
  obtain ⟨_, _, hget, h⟩ := M.bind_eq_ok.mp h
  cases hget
  obtain ⟨_, u, hread, h⟩ := M.bind_eq_ok.mp h
  cases h
  have hu : u.pred = s.pred := programAccess_pred hread
  exact hu

theorem skipOne_pred {s t : State} (h : skipOne s = .ok () t) : t.pred = s.pred := by
  obtain ⟨b, u, hf, h⟩ := M.bind_eq_ok.mp h
  rw [← fetch_pred hf]
  cases hw : operandWidth b with
  | none => rw [hw] at h; cases h
  | some n => rw [hw] at h; cases h; rfl

/-- `n` skips change the predication context by their `n` counts alone (`45_predicated_execution.md` R305). -/
theorem skipMany_pred {count : State → State} {f : PredContext → PredContext} (hf : ∀ s : State, (count s).pred = f s.pred)
    {n : Nat} {s t : State} (h : skipMany count n s = .ok () t) : t.pred = f^[n] s.pred := by
  induction n generalizing s with
  | zero => cases h; rfl
  | succ n ih =>
    obtain ⟨_, u, hone, h⟩ := M.bind_eq_ok.mp h
    obtain ⟨_, v, hcount, h⟩ := M.bind_eq_ok.mp h
    cases hcount
    rw [ih h, hf, skipOne_pred hone, Function.iterate_succ_apply]

theorem skipPart_pred {count : State → State} {f : PredContext → PredContext} (hf : ∀ s : State, (count s).pred = f s.pred)
    {n : Nat} {s t : State} (h : skipPart count n s = .ok () t) : t.pred = f^[n] s.pred := by
  obtain ⟨_, u, hmany, h⟩ := M.bind_eq_ok.mp h
  cases h
  exact (State.restoreFlags_pred u).trans (skipMany_pred hf hmany)

/-- A part counted down as often as its count says has nothing left. -/
theorem iterate_sub_one (c : Count) : (fun x : Count => x - 1)^[c.toNat] c = 0 := by
  revert c; decide

/-- A skipped false part has run out and changes no other field of the context (`45_predicated_execution.md` R305). -/
theorem skipPart_countFalse_pred {s t : State} (h : skipPart State.countFalse s.pred.fcnt.toNat s = .ok () t) :
    t.pred = { s.pred with fcnt := 0 } := by
  have hcount : Function.Semiconj (fun c : Count => { s.pred with fcnt := c }) (fun x => x - 1)
      (fun p : PredContext => { p with fcnt := p.fcnt - 1 }) := fun _ => rfl
  rw [skipPart_pred (f := fun p => { p with fcnt := p.fcnt - 1 }) (fun _ => rfl) h, ← iterate_sub_one s.pred.fcnt]
  exact (hcount.iterate_right _ _).symm

/-- A skipped true part has run out and changes no other field of the context (`45_predicated_execution.md` R305). -/
theorem skipPart_countTrue_pred {s t : State} (h : skipPart State.countTrue s.pred.tcnt.toNat s = .ok () t) :
    t.pred = { s.pred with tcnt := 0 } := by
  have hcount : Function.Semiconj (fun c : Count => { s.pred with tcnt := c }) (fun x => x - 1)
      (fun p : PredContext => { p with tcnt := p.tcnt - 1 }) := fun _ => rfl
  rw [skipPart_pred (f := fun p => { p with tcnt := p.tcnt - 1 }) (fun _ => rfl) h, ← iterate_sub_one s.pred.tcnt]
  exact (hcount.iterate_right _ _).symm

/-! ### No skip is owed after a step -/

/-- The end of the bookkeeping under a true condition: whatever false part has become due is skipped. -/
theorem settled_of_skipDue {s t : State} (hc : s.pred.cond = true)
    (h : (if s.pred.tcnt = 0 ∧ s.pred.fcnt ≠ 0 then skipPart State.countFalse s.pred.fcnt.toNat else pure () : M Unit) s =
      .ok () t) : t.pred.settled = true := by
  split at h
  · simp [skipPart_countFalse_pred h, PredContext.settled, hc]
  · next hdue =>
    cases h
    simpa [PredContext.settled, hc, or_iff_not_imp_left] using hdue

/-- THE BOOKKEEPING LEAVES NO SKIP OWED, from any predication context (`45_predicated_execution.md` R305). -/
theorem predBookkeeping_settled {wasIf : Bool} {s t : State} (h : predBookkeeping wasIf s = .ok () t) :
    t.pred.settled = true := by
  unfold predBookkeeping at h
  simp only [M.bind_apply, M.get_apply] at h
  cases hc : s.pred.cond
  case true =>
    rw [if_pos hc] at h
    by_cases hcount : s.pred.tcnt ≠ 0 ∧ wasIf = false
    · rw [if_pos hcount] at h
      exact settled_of_skipDue (s := s.countTrue.restoreFlags) hc h
    · rw [if_neg hcount] at h
      exact settled_of_skipDue hc h
  case false =>
    rw [if_neg (by simp [hc])] at h
    by_cases htrue : s.pred.tcnt ≠ 0
    · rw [if_pos htrue] at h
      simp [skipPart_countTrue_pred h, PredContext.settled, hc]
    · rw [if_neg htrue] at h
      split at h
      · cases h; simpa [PredContext.settled, hc, State.countFalse] using htrue
      · cases h; simpa [PredContext.settled, hc] using htrue

/-- Every state the computation answers has the property, wherever it started. -/
def M.Leaves (P : State → Prop) (m : M α) : Prop := ∀ s a t, m s = .ok a t → P t

theorem M.Leaves.bind {P : State → Prop} {x : M α} {f : α → M β} (h : ∀ a, M.Leaves P (f a)) : M.Leaves P (x >>= f) := by
  intro s b t hb
  obtain ⟨a, u, -, hf⟩ := M.bind_eq_ok.mp hb
  exact h a u b t hf

theorem M.Leaves.modify {P : State → Prop} {f : State → State} (h : ∀ s, P (f s)) : M.Leaves P (modify f : M PUnit) := by
  intro s a t hf
  cases hf
  exact h s

/-- A cleared context owes no skip (`45_predicated_execution.md` R304). -/
theorem PredContext.settled_zero (p : PredContext) : p.zero.settled = true := by
  simp [PredContext.settled, PredContext.zero]

/-- An interrupt entry ends by clearing the predication context (`60_exceptions.md` R352). -/
theorem service_settled (i : Fin 6) : M.Leaves (fun t => t.pred.settled = true) (service i) :=
  .bind fun _ => .bind fun _ => .bind fun _ => .bind fun _ => .bind fun _ => .bind fun _ => .bind fun _ => .bind fun _ =>
    .bind fun _ => .bind fun _ => .bind fun _ => .modify fun s => s.pred.settled_zero

/-- A poll enters an interrupt or does nothing (`60_exceptions.md` R344). -/
theorem poll_settled {s t : State} (hs : s.pred.settled = true) (h : poll s = .ok () t) : t.pred.settled = true := by
  obtain ⟨_, _, hget, h⟩ := M.bind_eq_ok.mp h
  cases hget
  by_cases hact : s.active ≠ 0
  · rw [if_pos hact] at h
    cases hsel : selectSource s.active (s.reg slotIPR) with
    | none => rw [hsel] at h; cases h
    | some i => rw [hsel] at h; exact service_settled i s () t h
  · rw [if_neg hact] at h; cases h; exact hs

theorem State.pred_tick (s : State) : s.tick.pred = s.pred := s.tick_rest.1.pred

theorem endOfCycle_settled {wasIf : Bool} {s t : State} (h : endOfCycle wasIf s = .ok () t) : t.pred.settled = true := by
  obtain ⟨_, u, hbook, h⟩ := M.bind_eq_ok.mp h
  obtain ⟨_, v, htick, h⟩ := M.bind_eq_ok.mp h
  cases htick
  obtain ⟨_, w, hpoll, h⟩ := M.bind_eq_ok.mp h
  have hw : w.pred.settled = true := poll_settled (u.pred_tick ▸ predBookkeeping_settled hbook) hpoll
  cases h
  dsimp only
  split
  · exact hw
  · exact hw

theorem waitingStep_settled {s t : State} (hs : s.pred.settled = true) (h : waitingStep s = .ok () t) :
    t.pred.settled = true := by
  obtain ⟨_, u, hcharge, h⟩ := M.bind_eq_ok.mp h
  obtain ⟨_, v, htick, h⟩ := M.bind_eq_ok.mp h
  cases hcharge
  cases htick
  exact poll_settled ((State.pred_tick _).symm ▸ hs) h

/-- A finished computation whose state is not Faulted answered a value. -/
theorem M.finish_not_faulted {m : M Unit} {s t : State} (h : M.finish m s = .next t) (ht : t.run.isFaulted = false) :
    m s = .ok () t := by
  rcases M.finish_cases h with hok | ⟨r, u, -, rfl⟩
  · exact hok
  · cases ht

/-- A CYCLE THAT FAULTS NOWHERE LEAVES NO SKIP OWED: it got as far as the bookkeeping. -/
theorem instructionCycle_settled {s t : State} (h : instructionCycle s = .next t) (ht : t.run.isFaulted = false) :
    t.pred.settled = true := by
  unfold instructionCycle at h
  split at h
  · cases h; cases ht
  · next i u _ =>
    obtain ⟨v, hv⟩ := exec_next i u
    rw [hv] at h
    simp only [closeCycle] at h
    split at h
    · next hf => cases h; rw [hf] at ht; cases ht
    · exact endOfCycle_settled (M.finish_not_faulted h ht)

/-- A step from a state that owes no skip leaves none owed, but where it faults (`45_predicated_execution.md` R305). -/
theorem step_settled {s t : State} (hs : s.Inv) (h : step s = .next t) (ht : t.run.isFaulted = false) :
    t.pred.settled = true := by
  unfold step at h
  split at h
  · cases h
  · cases h
  · cases h
  · next hrun =>
    split at h
    · cases h; exact hs.settled (by rw [hrun]; rfl)
    · exact instructionCycle_settled h ht
  · next hrun =>
    have hset : s.pred.settled = true := hs.settled (by rw [hrun]; rfl)
    split at h
    · cases h; exact hset
    · exact waitingStep_settled hset (M.finish_not_faulted h ht)

/-- Settles O12: the core invariant is kept by every operation of a step, and a step that faults nowhere ends in a settled
predication context. -/
theorem invStep : Obligations.InvStep := by
  intro s t hs h
  exact { toCoreInv := step_keeps State.CoreStep.stepRel h hs.toCoreInv, settled := step_settled hs h }

end Sys2Proof.Machine
end

section
/-! SUPPORT. Control flow of the instructions: what a relation must hold of so that the instruction `i` keeps it, and what
each instruction leaves of pc, the predication context and the run state (`10_state.md` R45, `45_predicated_execution.md`
R304). -/

namespace Sys2Proof.Machine

open Sys2Proof.Statements

variable {R : State → State → Prop}

/-- What the operations of every instruction need of a relation, its changes of pc, the predication context and the run
state apart. -/
structure AccessRel (R : State → State → Prop) : Prop extends StackRel R where
  core : ∀ s a v, 0xF8#8 ≤ a → R s (s.setReg a v)
  program : ∀ a op, M.Keeps R (programAccess a op)
  store : ∀ a v, M.Keeps R (dataWrite a v)

/-- What the instruction `i` needs beside: the control changes of its own kind, a transfer's, IF's or that of STOP and
HALT. -/
structure ControlRel (R : State → State → Prop) (i : Instr) : Prop extends AccessRel R where
  pc : transfers i = true → ∀ s pc, R s { s with pc := pc }
  clear : transfers i = true → ∀ s, R s { s with pred := s.pred.zero }
  begins : isIf i = true → ∀ s pred, R s { s with pred := pred }
  stops : i = .stop ∨ i = .halt → ∀ s run, R s { s with run := run }

theorem ControlRel.jump {i : Instr} (hR : ControlRel R i) (hi : transfers i = true) (f : State → Word) :
    M.Keeps R (modify fun t => t.jump (f t) : M PUnit) :=
  .modify fun s => hR.trans (hR.pc hi s (f s)) (hR.clear hi _)

theorem ControlRel.jumpIf {i : Instr} (hR : ControlRel R i) (hi : transfers i = true) (c : Prop) [Decidable c]
    (f : State → Word) : M.Keeps R (if c then modify fun t => t.jump (f t) else pure () : M PUnit) :=
  .ite (hR.jump hi f) (.pure hR.toStateRel _)

theorem ControlRel.call {i : Instr} (hR : ControlRel R i) (hi : transfers i = true) (t : Word) : M.Keeps R (callTo t) :=
  .bind hR.toStateRel (pushPc_keeps hR.toStackRel hR.store) fun _ => hR.jump hi fun _ => t

theorem ControlRel.iret {i : Instr} (hR : ControlRel R i) (hi : transfers i = true) : M.Keeps R returnFromInterrupt := by
  have h0 := hR.toStateRel
  refine .bind h0 (pop_keeps hR.toStackRel) fun f => .bind h0 (.modify fun s => hR.core s _ _ (by decide)) fun _ => ?_
  refine .bind h0 (popPc_keeps hR.toStackRel) fun t => .bind h0 (.modify fun s => ?_) fun _ => .modify (hR.clear hi)
  exact h0.trans (hR.pc hi s t) (hR.core _ _ _ (by decide))

/-- WHAT THE INSTRUCTION `i` KEEPS: any relation its operations and its own control changes keep. -/
theorem body_keeps_control {i : Instr} (hR : ControlRel R i) : M.Keeps R (body i) := by
  have h0 := hR.toStateRel
  have hr := hR.toRegRel
  have hs := hR.toStackRel
  have hload : ∀ a, M.Keeps R (programRead a) := fun a => hR.program a .read
  have hstore : ∀ a v, M.Keeps R (programWrite a v) := fun a v => .bind h0 (hR.program a _) fun _ => .pure h0 _
  cases i <;> simp only [body]
  case jpIRR => exact .bind h0 (pairRead_keeps hr _) fun t => hR.jump rfl fun _ => t
  case callIRR => exact .bind h0 (pairRead_keeps hr _) fun _ => hR.call rfl _
  case callDA => exact hR.call rfl _
  case djnz => exact .bind h0 (regRead_keeps hr _) fun _ => .bind h0 (regWrite_keeps hr _ _) fun _ => hR.jumpIf rfl _ _
  case jr => exact .bind h0 (condition_keeps hr _) fun _ => hR.jumpIf rfl _ _
  case jp => exact .bind h0 (condition_keeps hr _) fun _ => hR.jumpIf rfl _ _
  case ret => exact .bind h0 (popPc_keeps hs) fun t => hR.jump rfl fun _ => t
  case iret => exact hR.iret rfl
  case ifPred => exact .bind h0 (condition_keeps hr _) fun _ => .modify fun s => hR.begins rfl s _
  case stop => exact .modify fun s => hR.stops (.inl rfl) s _
  case halt => exact .modify fun s => hR.stops (.inr rfl) s _
  case srp => exact .modify fun s => hR.core s _ _ (by decide)
  case di => exact .modify fun s => hR.core s _ _ (by decide)
  case ei => exact .modify fun s => hR.core s _ _ (by decide)
  case rcf => exact updateFlags_keeps hr _
  case scf => exact updateFlags_keeps hr _
  case ccf => exact .modify fun s => hr.flags s _
  case nop => exact .pure h0 _
  case ldeLoad => exact memoryLoad_keeps hr (dataRead_keeps h0) _ _
  case ldeStore => exact memoryStore_keeps hr hR.store _ _
  case ldeiLoad => exact memoryLoadIncrement_keeps hr (dataRead_keeps h0) _ _
  case ldeiStore => exact memoryStoreIncrement_keeps hr hR.store _ _
  case ldcLoad => exact memoryLoad_keeps hr hload _ _
  case ldcStore => exact memoryStore_keeps hr hstore _ _
  case ldciLoad => exact memoryLoadIncrement_keeps hr hload _ _
  case ldciStore => exact memoryStoreIncrement_keeps hr hstore _ _
  case ldWX | ldXW =>
    exact .bind h0 (regRead_keeps hr _) fun _ => .bind h0 (regRead_keeps hr _) fun _ => regWrite_keeps hr _ _
  case ldWR | ldRW => exact moveRegister_keeps hr _ _
  case ldWIM => exact regWrite_keeps hr _ _
  case incW => exact modifyRegister_keeps hr _ _
  case pushR | pushIR => exact pushInstruction_keeps hs hR.store _
  case popR | popIR => exact popInstruction_keeps hs _
  case decwRR | decwIR | incwRR | incwIR => exact wordInstruction_keeps hr _ _ _
  case clrR | clrIR => exact clearInstruction_keeps hr _
  case ldWIW | ldRR | ldRIR | ldRIM | ldIRIM => exact loadInstruction_keeps hr _
  case ldIWW | ldIRR => exact storeIndirect_keeps hr _ _ _
  case decR | decIR | rlcR | rlcIR | incR | incIR | daR | daIR | comR | comIR | rlR | rlIR | rrcR | rrcIR | sraR | sraIR |
      rrR | rrIR | swapR | swapIR => exact singleInstruction_keeps hr _ _
  all_goals exact aluInstruction_keeps hr _ _

/-- What the computation of the instruction `i` may do outside registers and memory: the clock moves forward, pc and the
predication context change in a transfer, the latter in IF too, the run state in STOP and HALT. -/
structure ControlFrame (i : Instr) (s t : State) : Prop where
  cfg : t.cfg = s.cfg
  lastTick : t.lastTick = s.lastTick
  cycles : s.cycles ≤ t.cycles
  pc : transfers i = false → t.pc = s.pc
  pred : transfers i = false → isIf i = false → t.pred = s.pred
  snap : isIf i = false → t.pred.snap = s.pred.snap
  run : i ≠ .stop → i ≠ .halt → t.run = s.run

theorem ControlFrame.rel (i : Instr) : StateRel (ControlFrame i) where
  refl := fun _ => ⟨rfl, rfl, Nat.le_refl _, fun _ => rfl, fun _ _ => rfl, fun _ => rfl, fun _ _ => rfl⟩
  trans := fun h k =>
    ⟨k.cfg.trans h.cfg, k.lastTick.trans h.lastTick, Nat.le_trans h.cycles k.cycles, fun a => (k.pc a).trans (h.pc a),
      fun a b => (k.pred a b).trans (h.pred a b), fun a => (k.snap a).trans (h.snap a), fun a b => (k.run a b).trans (h.run a b)⟩

/-- A change of nothing but registers, devices, the memories, the cache, or an advance of the clock. -/
theorem ControlFrame.of_eq {i : Instr} {s t : State} (cfg : t.cfg = s.cfg) (lastTick : t.lastTick = s.lastTick)
    (cycles : s.cycles ≤ t.cycles) (pc : t.pc = s.pc) (pred : t.pred = s.pred) (run : t.run = s.run) : ControlFrame i s t :=
  ⟨cfg, lastTick, cycles, fun _ => pc, fun _ _ => pred, fun _ => by rw [pred], fun _ _ => run⟩

theorem ControlFrame.of_regOnly {i : Instr} {s t : State} (h : s.RegOnly t) (hc : s.cycles ≤ t.cycles) : ControlFrame i s t :=
  .of_eq h.cfg h.lastTick hc h.pc h.pred h.run

theorem ControlFrame.setReg {i : Instr} (s : State) (a v : Byte) : ControlFrame i s (s.setReg a v) :=
  .of_regOnly (.setReg s a v) (Nat.le_refl _)

theorem ControlFrame.programAccess (i : Instr) (a : Word) (op : CacheOp) : M.Keeps (ControlFrame i) (programAccess a op) := by
  intro s
  unfold Machine.programAccess
  split
  · refine ⟨fun _ _ h => ?_, fun _ _ h => ?_⟩ <;> cases h
    exact (ControlFrame.rel i).refl s
  · refine ⟨fun _ _ h => ?_, fun _ _ h => ?_⟩ <;> cases h
    exact .of_eq rfl rfl (Nat.le_refl _) rfl rfl rfl

theorem ControlFrame.dataWrite (i : Instr) (a : Word) (v : Byte) : M.Keeps (ControlFrame i) (dataWrite a v) := by
  intro s
  refine ⟨fun _ _ h => ?_, fun _ _ h => ?_⟩ <;> cases h
  exact .of_eq rfl rfl (Nat.le_refl _) rfl rfl rfl

/-- THE FRAME OF CONTROL IS KEPT by everything an instruction does, its own kind of control change included. -/
theorem ControlFrame.controlRel (i : Instr) : ControlRel (ControlFrame i) i where
  toStateRel := ControlFrame.rel i
  read := fun s p => .of_regOnly (.slotRead s p) (s.cycles_slotRead p).ge
  write := fun s p v => .of_regOnly (.slotWrite s p v) (s.cycles_slotWrite p v).ge
  flags := fun s u => .setReg s _ _
  charge := fun s k => .of_regOnly (.charge s k) (Nat.le_add_right _ _)
  spl := fun s v => .setReg s _ v
  setSp := fun s w => (ControlFrame.rel i).trans (.setReg s _ _) (.setReg _ _ _)
  core := fun s a v _ => .setReg s a v
  program := ControlFrame.programAccess i
  store := ControlFrame.dataWrite i
  pc := fun hi s pc => ⟨rfl, rfl, Nat.le_refl _, by simp [hi], fun _ _ => rfl, fun _ => rfl, fun _ _ => rfl⟩
  clear := fun hi s => ⟨rfl, rfl, Nat.le_refl _, fun _ => rfl, by simp [hi], fun _ => rfl, fun _ _ => rfl⟩
  begins := fun hi s pred => ⟨rfl, rfl, Nat.le_refl _, fun _ => rfl, by simp [hi], by simp [hi], fun _ _ => rfl⟩
  stops := fun hi s run => ⟨rfl, rfl, Nat.le_refl _, fun _ => rfl, fun _ _ => rfl, fun _ => rfl, fun h1 h2 =>
    (hi.elim h1 h2).elim⟩

/-- Settles O46: the computation of an instruction keeps its frame of control, and a fault at its end changes the run state
alone. -/
theorem onlyTransfersWritePc : Obligations.OnlyTransfersWritePc := by
  intro i s t h
  rw [exec_eq] at h
  rcases M.finish_cases h with hok | ⟨r, u, herr, rfl⟩
  · have hf := (body_keeps_control (ControlFrame.controlRel i) s).1 _ _ hok
    exact ⟨hf.cfg, hf.lastTick, hf.cycles, hf.pc, hf.pred, hf.snap, fun h1 h2 => .inl (hf.run h1 h2)⟩
  · have hf := (body_keeps_control (ControlFrame.controlRel i) s).2 _ _ herr
    exact ⟨hf.cfg, hf.lastTick, hf.cycles, hf.pc, hf.pred, hf.snap, fun _ _ => .inr ⟨r, rfl⟩⟩

end Sys2Proof.Machine
end

section
/-! SUPPORT. What a launch gives: register memory slot by slot, the empty cache, and the launch check as a proposition
(`10_state.md` R24, R55, R57). -/

namespace Sys2Proof.Machine

/-- When the launch check passes (`10_state.md` R57). -/
theorem Config.valid_iff {c : Config} : Config.valid c = true ↔
    0 < c.numLines ∧ 0 < c.cost.wait ∧ (∀ d ∈ c.devices, ∀ a ∈ d.slots, mayBack a = true) ∧
      (c.devices.map Device.slots).flatten.Nodup := by
  simp only [Config.valid, Bool.and_eq_true, decide_eq_true_eq, List.all_eq_true, List.mem_flatten, List.mem_map, and_assoc]
  refine and_congr_right fun _ => and_congr_right fun _ => and_congr_left fun _ => ?_
  exact ⟨fun h d hd a ha => h a ⟨d.slots, ⟨d, hd, rfl⟩, ha⟩, fun h a ⟨_, ⟨d, hd, e⟩, ha⟩ => h d hd a (e ▸ ha)⟩

theorem mayBack_iff {a : Byte} : mayBack a = true ↔ a ≤ 0x7F#8 ∨ (0xF0#8 ≤ a ∧ a ≤ 0xF7#8) := by
  simp [mayBack]

theorem launch_isSome {c : Config} {img : Image} : (launch c img).isSome = true ↔ Config.valid c = true := by
  unfold launch
  split <;> simp [*]

/-- A launch that succeeds passed the check and is the state of R55. -/
theorem launch_eq_some {c : Config} {img : Image} {s : State} (h : launch c img = some s) :
    Config.valid c = true ∧
      s = { cfg := c, regs := launchRegs c img.reg, pc := img.entry, prog := img.prog, data := img.data,
            lines := State.emptyLines c.numLines, pred := { tcnt := 0, fcnt := 0, cond := false, snap := 0x00 },
            run := .running, cycles := 0, lastTick := 0, dev := c.devices.map Device.s0 } := by
  unfold launch at h
  split at h
  · next hv => exact ⟨hv, (Option.some.inj h).symm⟩
  · cases h

/-! ### Register memory at launch, by the policy of the slot (`10_state.md` R55) -/

theorem launchRegs_readOnly {c : Config} {a : Byte} (reg : Vector Byte 256) (h : slotPolicy c.devices a = .readOnly) :
    (launchRegs c reg)[a.toNat]'a.isLt = 0xFF := by
  simp [launchRegs, h]

theorem launchRegs_readWrite {c : Config} {a : Byte} (reg : Vector Byte 256) (h : slotPolicy c.devices a = .readWrite) :
    (launchRegs c reg)[a.toNat]'a.isLt = reg[a.toNat]'a.isLt := by
  simp [launchRegs, h, Vector.get]

theorem launchRegs_deviceBacked {c : Config} {a : Byte} {i : Nat} {d : Device} (reg : Vector Byte 256)
    (h : slotPolicy c.devices a = .deviceBacked i) (hd : c.devices[i]? = some d) :
    (launchRegs c reg)[a.toNat]'a.isLt = deviceInit d a := by
  simp [launchRegs, h, hd]

/-! ### The empty cache -/

theorem State.length_emptyLines (n : Nat) : (State.emptyLines n).length = n := by
  simp [State.emptyLines]

theorem State.getElem?_emptyLines {n i : Nat} (hi : i < n) :
    (State.emptyLines n)[i]? = some { tag := 0xFFFF, data := 0x00, dirty := false, rank := i } := by
  simp [State.emptyLines, hi]

theorem State.ranks_emptyLines (n : Nat) : (State.emptyLines n).map CacheLine.rank = List.range n := by
  simp [State.emptyLines, Function.comp_def]

/-- Every line of the empty cache is empty and clean. -/
theorem State.empty_of_emptyLines {n i : Nat} {l : CacheLine} (h : (State.emptyLines n)[i]? = some l) :
    l.tag = sentinel ∧ l.dirty = false := by
  obtain ⟨k, -, rfl⟩ := List.mem_map.mp (List.mem_of_getElem? h)
  exact ⟨rfl, rfl⟩

/-- The empty cache has the controller's invariant over any bus memory in canonical form (`10_state.md` R47, R55). -/
theorem CacheInv.emptyLines (c : Config) {prog : Memory} (hw : Memory.wf prog = true) :
    CacheInv c (State.emptyLines c.numLines) prog where
  ranks := by rw [State.ranks_emptyLines]
  tags := fun _ _ _ _ ha _ _ hne => absurd (State.empty_of_emptyLines ha).1 hne
  placed := fun _ _ _ ha hne => absurd (State.empty_of_emptyLines ha).1 hne
  clean := fun _ _ _ ha => (State.empty_of_emptyLines ha).2
  coherent := fun _ _ ha hne => absurd (State.empty_of_emptyLines ha).1 hne
  wf := hw

/-! ### The statements about a launch -/

/-- Settles O13: the launched state is the one R55 writes down, its registers by the policy of each slot. -/
theorem launchValues : Obligations.LaunchValues := by
  intro c img s h
  have hro : ∀ a : Byte, 0x80#8 ≤ a → a ≤ 0xDF#8 → s.policy a = .readOnly := fun a h1 h2 => policy_readOnly.mpr ⟨h1, h2⟩
  obtain ⟨-, rfl⟩ := launch_eq_some h
  exact ⟨fun a h1 h2 => launchRegs_readOnly img.reg (hro a h1 h2),
    fun a hp => launchRegs_readWrite img.reg hp, fun a i d hp hd => launchRegs_deviceBacked img.reg hp hd,
    rfl, rfl, rfl, rfl, State.length_emptyLines _, fun i hi => State.getElem?_emptyLines hi, rfl, rfl, rfl, rfl, rfl⟩

/-- Settles O14: a launch succeeds exactly when the launch check passes. -/
theorem launchRefused : Obligations.LaunchRefused := by
  intro c img
  simp only [launch_isSome, Config.valid_iff, mayBack_iff, Nat.succ_le_iff]

/-- Settles O15: the empty cache has the controller's invariant, and the launch values are those of the rest. -/
theorem launchInv : Obligations.LaunchInv := by
  intro c img s hprog hdata h
  have hro : ∀ a : Byte, 0x80#8 ≤ a → a ≤ 0xDF#8 → s.reg a = 0xFF := (launchValues c img s h).1
  obtain ⟨hv, rfl⟩ := launch_eq_some h
  exact { valid := hv, cache := .emptyLines c hprog, dataWf := hdata, readOnly := hro, devices := List.length_map _,
          ticked := Nat.le_refl 0, settled := fun _ => rfl }

end Sys2Proof.Machine
end

section
/-! SUPPORT. Register addresses and slots: window resolution in the arithmetic of the spec, the two accesses by the policy of
the slot, pairs, and the bits of a flag update (`10_state.md` R22 to R36). -/

namespace Sys2Proof.Machine

open Sys2Proof.Statements

/-! ### Window resolution -/

theorem hiNib_eq_window (a : Byte) : hiNib a = 0xE#4 ↔ 0xE0#8 ≤ a ∧ a ≤ 0xEF#8 := by
  revert a; decide

theorem loNib_eq_iff (b : Byte) (n : Nib) : loNib b = n ↔ b &&& 0x0F#8 = n.setWidth 8 := by
  have hlow : (loNib b).setWidth 8 = b &&& 0x0F#8 := by revert b; decide
  have hinj : ∀ m : Nib, m.setWidth 8 = n.setWidth 8 → m = n := by revert n; decide
  exact ⟨fun h => by rw [← hlow, h], fun h => hinj _ (hlow.trans h)⟩

/-- A byte of two nibbles, as the spec shifts and joins them (`10_state.md` R25). -/
theorem ofNibs_loNib (x y : Byte) : ofNibs (loNib x) (loNib y) = ((x &&& 0x0F#8) <<< 4) ||| (y &&& 0x0F#8) := by
  have hjoin : ∀ h l : Nib, ofNibs h l = (h.setWidth 8 <<< 4) ||| l.setWidth 8 := by decide
  rw [hjoin, (loNib_eq_iff x _).mp rfl, (loNib_eq_iff y _).mp rfl]

theorem wreg_eq_add (n : Nib) : wreg n = 0xE0#8 + n.setWidth 8 := by
  revert n; decide

/-- The selected slot of a working register, as the spec adds it up (`10_state.md` R29). -/
theorem ofNibs_loNib_eq_add (v : Byte) (n : Nib) : ofNibs (loNib v) n = (v <<< 4) + n.setWidth 8 := by
  have hblock : v <<< 4 = ofNibs (loNib v) 0 := by revert v; decide
  have hadd : ∀ h l : Nib, ofNibs h l = ofNibs h 0 + l.setWidth 8 := by decide
  rw [hblock, ← hadd]

/-- Settles O16: `resolve` splits on the high nibble of the address, which is 0xE in the window alone. -/
theorem windowResolve : Obligations.WindowResolve := by
  intro rp a
  refine ⟨?_, fun p h hw => hiNib_of_resolve h ((hiNib_eq_window p).mpr hw)⟩
  simp only [resolve, hiNib_eq_window, loNib_eq_iff, ofNibs_loNib]
  rfl

theorem regRead_congr {a b : Byte} {s : State} (h : resolve (s.reg slotRP) a = resolve (s.reg slotRP) b) :
    regRead a s = regRead b s := by
  rw [regRead_eq, regRead_eq, h]

theorem regWrite_congr {a b : Byte} (v : Byte) {s : State} (h : resolve (s.reg slotRP) a = resolve (s.reg slotRP) b) :
    regWrite a v s = regWrite b v s := by
  rw [regWrite_eq, regWrite_eq, h]

/-- A write of RP stores the byte: its slot is ReadWrite and outside the window (`10_state.md` R38). -/
theorem regWrite_rp (v : Byte) (s : State) : regWrite slotRP v s = .ok () (s.setReg slotRP v) := by
  rw [regWrite_some v (resolve_direct _ (by decide)), State.slotWrite_readWrite v (policy_core s (by decide))]

/-- Settles O17: under the new RP the working register and the register address resolve to the same slot. -/
theorem windowLaw : Obligations.WindowLaw := by
  intro s t v x n hE hF hw
  obtain rfl : s.setReg slotRP v = t := (EStateM.Result.ok.inj ((regWrite_rp v s).symm.trans hw)).2
  have hE' : loNib v ≠ 0xE#4 := fun h => hE ((loNib_eq_iff v _).mp h)
  have hF' : loNib v ≠ 0xF#4 := fun h => hF ((loNib_eq_iff v _).mp h)
  have hsame : resolve ((s.setReg slotRP v).reg slotRP) (0xE0#8 + n.setWidth 8) =
      resolve ((s.setReg slotRP v).reg slotRP) ((v <<< 4) + n.setWidth 8) := by
    rw [State.reg_setReg_self, ← wreg_eq_add, ← ofNibs_loNib_eq_add, resolve_wreg n hE' hF',
      resolve_direct v (by rwa [hiNib_ofNibs])]
  exact ⟨regRead_congr hsame, regWrite_congr x hsame⟩

/-! ### The two accesses by the policy of the slot -/

/-- What the callback of a device leaves after an access to its slot `p`, which is never the pending register
(`10_state.md` R26, R27). -/
theorem State.deviceAccess_effect {s : State} {i : Nat} {p : Byte} {k : Access} {d d' : DevState} {b : Byte} {q : Irq6}
    (hp : p ≠ slotIRQ) (hd : s.dev[i]? = some d) (ha : deviceOnAccess d p k (s.reg p) = (d', b, q)) :
    (s.deviceAccess i p k).reg p = b ∧ (s.deviceAccess i p k).reg slotIRQ = (s.reg slotIRQ ||| q.setWidth 8) ∧
      s.deviceAccess i p k = { s with regs := (s.deviceAccess i p k).regs, dev := s.dev.set i d' } := by
  have hacc : s.deviceAccess i p k = (State.setReg { s with dev := s.dev.set i d' } p b).markPending q := by
    simp only [State.deviceAccess, hd, ha]
  rw [hacc]
  refine ⟨?_, ?_, rfl⟩
  · rw [State.reg_markPending, if_neg hp, State.reg_setReg_self]
  · rw [State.reg_markPending, if_pos rfl, State.reg_setReg_ne _ _ hp.symm]
    rfl

theorem ne_slotIRQ_of_deviceBacked {s : State} {p : Byte} {i : Nat} (h : s.policy p = .deviceBacked i) : p ≠ slotIRQ := by
  rintro rfl
  exact (slotPolicy_deviceBacked h).2.2 (by decide)

theorem State.slotRead_deviceBacked {s : State} {p : Byte} {i : Nat} (h : s.policy p = .deviceBacked i) :
    s.slotRead p = ((s.deviceAccess i p .read).reg p, s.deviceAccess i p .read) := by
  simp [State.slotRead, h]

theorem State.slotWrite_deviceBacked {s : State} {p : Byte} {i : Nat} (v : Byte) (h : s.policy p = .deviceBacked i) :
    s.slotWrite p v = (s.setReg p v).deviceAccess i p .write := by
  simp [State.slotWrite, h]

/-- Settles O18: resolution first, then the policy of the slot reached. -/
theorem regReadPolicy : Obligations.RegReadPolicy := by
  intro s a
  refine ⟨regRead_none, fun p hp => ⟨regRead_some hp, fun hpol => ?_, fun i d d' b' q hpol hd hacc => ?_⟩⟩
  · have hplain : ∀ i, s.policy p ≠ .deviceBacked i := by
      intro i h
      rcases hpol with h' | h' <;> rw [h'] at h <;> cases h
    rw [regRead_some hp, State.slotRead_plain hplain]
  · obtain ⟨hval, hirq, hrest⟩ := State.deviceAccess_effect (ne_slotIRQ_of_deviceBacked hpol) hd hacc
    refine ⟨s.deviceAccess i p .read, ?_, hval, hirq, fun c hc hq => s.reg_deviceAccess i p .read hc hq, hrest⟩
    rw [regRead_some hp, State.slotRead_deviceBacked hpol, hval]

/-- Settles O19: resolution first, then the policy of the slot reached; a device is called after the store. -/
theorem regWritePolicy : Obligations.RegWritePolicy := by
  intro s a v
  refine ⟨regWrite_none v, fun p hp => ⟨regWrite_some v hp, fun hpol => ?_, fun hpol => ?_, fun i d d' b' q hpol hd hacc => ?_⟩⟩
  · refine ⟨s.setReg p v, ?_, State.reg_setReg_self s p v, fun c hc => State.reg_setReg_ne s v hc, rfl⟩
    rw [regWrite_some v hp, State.slotWrite_readWrite v hpol]
  · rw [regWrite_some v hp, State.slotWrite_readOnly v hpol]
  · have hne := ne_slotIRQ_of_deviceBacked hpol
    have hacc' : deviceOnAccess d p .write ((s.setReg p v).reg p) = (d', b', q) := by rw [State.reg_setReg_self]; exact hacc
    obtain ⟨hval, hirq, hrest⟩ := State.deviceAccess_effect (s := s.setReg p v) hne hd hacc'
    rw [State.reg_setReg_ne s v hne.symm] at hirq
    refine ⟨(s.setReg p v).deviceAccess i p .write, ?_, hval, hirq, fun c hc hq => ?_, hrest⟩
    · rw [regWrite_some v hp, State.slotWrite_deviceBacked v hpol]
    · rw [State.reg_deviceAccess _ i p .write hc hq, State.reg_setReg_ne s v hc]

/-! ### The policy of every slot -/

/-- No slot is backed twice: the slot lists of the devices are disjoint (`10_state.md` R24). -/
theorem Config.devices_disjoint {c : Config} (h : Config.valid c = true) :
    c.devices.Pairwise fun d e => List.Disjoint d.slots e.slots := by
  obtain ⟨-, -, -, hnodup⟩ := Config.valid_iff.mp h
  exact List.pairwise_map.mp (List.nodup_flatten.mp hnodup).2

theorem Config.device_unique {c : Config} (h : Config.valid c = true) {i j : Nat} {d e : Device} {a : Byte}
    (hd : c.devices[i]? = some d) (he : c.devices[j]? = some e) (ha : a ∈ d.slots) (hb : a ∈ e.slots) : i = j := by
  have hdisj := List.pairwise_iff_getElem.mp (Config.devices_disjoint h)
  obtain ⟨hi, rfl⟩ := List.getElem?_eq_some_iff.mp hd
  obtain ⟨hj, rfl⟩ := List.getElem?_eq_some_iff.mp he
  rcases Nat.lt_trichotomy i j with hlt | heq | hgt
  · exact absurd hb (hdisj i j hi hj hlt ha)
  · exact heq
  · exact absurd ha (hdisj j i hj hi hgt hb)

/-- A slot a device may back is backed by a device that lists it, or it is ReadWrite and no device lists it
(`10_state.md` R24). -/
theorem policy_of_mayBack (s : State) {a : Byte} (h : mayBack a = true) :
    (∃ i d, s.policy a = .deviceBacked i ∧ s.cfg.devices[i]? = some d ∧ a ∈ d.slots) ∨
      (s.policy a = .readWrite ∧ ∀ d ∈ s.cfg.devices, a ∉ d.slots) := by
  rw [mayBack_iff] at h
  have h1 : ¬(0x80#8 ≤ a ∧ a ≤ 0xDF#8) := by bv_omega
  have h2 : ¬(0xE0#8 ≤ a ∧ a ≤ 0xEF#8) := by bv_omega
  have h3 : ¬0xF8#8 ≤ a := by bv_omega
  simp only [State.policy, slotPolicy, if_neg h1, if_neg h2, if_neg h3]
  cases hfind : s.cfg.devices.findIdx? (fun d => d.slots.contains a) with
  | some i =>
    obtain ⟨hi, hmem, -⟩ := List.findIdx?_eq_some_iff_getElem.mp hfind
    exact .inl ⟨i, s.cfg.devices[i], rfl, List.getElem?_eq_getElem hi, List.contains_iff_mem.mp hmem⟩
  | none => exact .inr ⟨rfl, by simpa using hfind⟩

/-- Which device backs a slot, in a machine that passes the launch check (`10_state.md` R24). -/
theorem policy_deviceBacked_iff {s : State} (hv : Config.valid s.cfg = true) {a : Byte} {i : Nat} :
    s.policy a = .deviceBacked i ↔ ∃ d, s.cfg.devices[i]? = some d ∧ a ∈ d.slots := by
  constructor
  · intro h
    have hmay : mayBack a = true := by
      obtain ⟨h1, h2, h3⟩ := slotPolicy_deviceBacked h
      rw [mayBack_iff]
      bv_omega
    rcases policy_of_mayBack s hmay with ⟨j, d, hj, hd, ha⟩ | ⟨hrw, -⟩
    · obtain rfl : i = j := SlotPolicy.deviceBacked.inj (h.symm.trans hj)
      exact ⟨d, hd, ha⟩
    · rw [h] at hrw; cases hrw
  · rintro ⟨d, hd, ha⟩
    rcases policy_of_mayBack s (Config.mayBack_of_valid hv (List.mem_of_getElem? hd) ha) with ⟨j, e, hj, he, hb⟩ | ⟨-, hnone⟩
    · rw [hj, Config.device_unique hv hd he ha hb]
    · exact absurd ha (hnone d (List.mem_of_getElem? hd))

/-- A slot outside the fixed ranges that no device lists is ReadWrite (`10_state.md` R24). -/
theorem policy_readWrite_of_not_listed {s : State} {a : Byte} (ha : a ≤ 0x7F#8 ∨ 0xF0#8 ≤ a)
    (h : ∀ d ∈ s.cfg.devices, a ∉ d.slots) : s.policy a = .readWrite := by
  by_cases hcore : 0xF8#8 ≤ a
  · exact policy_core s hcore
  · have hmay : mayBack a = true := by rw [mayBack_iff]; bv_omega
    rcases policy_of_mayBack s hmay with ⟨i, d, -, hd, hmem⟩ | ⟨hrw, -⟩
    · exact absurd hmem (h d (List.mem_of_getElem? hd))
    · exact hrw

/-- Settles O20: the fixed ranges by the policy laws, the others by the device list; a ReadOnly slot is outside the window
and holds 0xFF by the core invariant. -/
theorem slotPolicies : Obligations.SlotPolicies := by
  refine ⟨fun s a => ⟨policy_readOnly, policy_window, policy_core s, fun hv =>
    ⟨fun i => policy_deviceBacked_iff hv, policy_readWrite_of_not_listed⟩⟩, fun s a v hs h1 h2 => ?_⟩
  have hpol : s.policy a = .readOnly := policy_readOnly.mpr ⟨h1, h2⟩
  have hres : resolve (s.reg slotRP) a = some a := resolve_direct _ fun h => by
    have := ((hiNib_eq_window a).mp h).1
    bv_omega
  constructor
  · rw [regRead_some hres, State.slotRead_plain (by simp [hpol]), hs.readOnly a h1 h2]
  · rw [regWrite_some v hres, State.slotWrite_readOnly v hpol]

/-! ### Pairs and flags -/

/-- The two reads of a pair at an even address, in order (`10_state.md` R34). -/
theorem pairRead_of_reads {a h l : Byte} {s t u : State} (ha : bit a 0 = false) (hh : regRead a s = .ok h t)
    (hl : regRead (a + 1) t = .ok l u) : pairRead a s = .ok (ofBytes h l) u := by
  unfold pairRead
  rw [if_neg (by simp [ha])]
  exact M.bind_eq_ok.mpr ⟨h, t, hh, M.bind_eq_ok.mpr ⟨l, u, hl, rfl⟩⟩

/-- The two writes of a pair at an even address, in order (`10_state.md` R34). -/
theorem pairWrite_of_writes {a : Byte} {w : Word} {s t u : State} (ha : bit a 0 = false)
    (hh : regWrite a (hiByte w) s = .ok () t) (hl : regWrite (a + 1) (loByte w) t = .ok () u) :
    pairWrite a w s = .ok () u := by
  unfold pairWrite
  rw [if_neg (by simp [ha])]
  exact M.bind_eq_ok.mpr ⟨(), t, hh, hl⟩

/-- Settles O21: an odd address is refused first; at an even one the two accesses run in order, and resolution and RP keep
the two bytes of the pair together. -/
theorem registerPairs : Obligations.RegisterPairs := by
  intro s a w
  refine ⟨fun hodd => ?_, fun heven => ?_⟩
  · have hbit : bit a 0 = true := by simp [bit_zero_eq, hodd]
    exact ⟨pairRead_odd s hbit, pairWrite_odd w s hbit⟩
  · have hbit : bit a 0 = false := by simp [bit_zero_eq, heven]
    refine ⟨fun h l t u hh hl => pairRead_of_reads hbit hh hl, fun t u hh hl => pairWrite_of_writes hbit hh hl,
      fun p hp => ⟨resolve_succ hbit hp, fun v t hw => ?_⟩⟩
    have hne : p ≠ slotRP := ne_rp_of_even (by rw [bit_zero_of_resolve hp, hbit])
    obtain rfl : s.slotWrite p v = t := (EStateM.Result.ok.inj ((regWrite_some v hp).symm.trans hw)).2
    rw [Reaches, State.rp_slotWrite s v hne]
    exact resolve_succ hbit hp

/-- Settles O30: each bit of FLAGS after the update is the bit written, else the bit before. -/
theorem flagsUpdate : Obligations.FlagsUpdate := by
  intro s u
  have hflags : (s.updateFlags u).reg 0xFC = applyFlags u (s.reg 0xFC) := State.flags_updateFlags s u
  have hbit : ∀ j : Nat, j < 8 → ((s.updateFlags u).reg 0xFC).getLsbD j = (u.at j).getD ((s.reg 0xFC).getLsbD j) :=
    fun j hj => hflags ▸ bit_applyFlags u _ j hj
  exact ⟨hbit 7 (by decide), hbit 6 (by decide), hbit 5 (by decide), hbit 4 (by decide), hbit 3 (by decide),
    hbit 2 (by decide), hbit 1 (by decide), hbit 0 (by decide), fun a ha => State.reg_setReg_ne s _ ha, rfl⟩

end Sys2Proof.Machine
end

section
/-! SUPPORT. The device tick (`10_state.md` R32, `40_cycle_and_alu.md` R135): what one device's tick leaves, and the whole tick
device by device. -/

namespace Sys2Proof.Machine

/-! ### Pending bits through a register access -/

/-- A device callback clears no pending bit (`60_exceptions.md` R342). -/
theorem State.pending_deviceAccess {s : State} {i : Nat} {p : Byte} (k : Access) (hp : p ≠ slotIRQ) {j : Nat}
    (hj : (s.reg slotIRQ).getLsbD j = true) : ((s.deviceAccess i p k).reg slotIRQ).getLsbD j = true := by
  cases hd : s.dev[i]? with
  | none => simpa [State.deviceAccess, hd] using hj
  | some d =>
    obtain ⟨-, hirq, -⟩ := State.deviceAccess_effect (k := k) hp hd rfl
    rw [hirq, BitVec.getLsbD_or, hj, Bool.true_or]

theorem State.pending_slotRead {s : State} (p : Byte) {j : Nat} (hj : (s.reg slotIRQ).getLsbD j = true) :
    ((s.slotRead p).2.reg slotIRQ).getLsbD j = true := by
  by_cases hdev : ∃ i, s.policy p = .deviceBacked i
  · obtain ⟨i, hpol⟩ := hdev
    rw [State.slotRead_deviceBacked hpol]
    exact State.pending_deviceAccess .read (ne_slotIRQ_of_deviceBacked hpol) hj
  · rw [State.slotRead_plain (not_exists.mp hdev)]
    exact hj

theorem State.pending_slotWrite {s : State} {p : Byte} (v : Byte) (hp : p ≠ slotIRQ) {j : Nat}
    (hj : (s.reg slotIRQ).getLsbD j = true) : ((s.slotWrite p v).reg slotIRQ).getLsbD j = true := by
  have hset : ((s.setReg p v).reg slotIRQ).getLsbD j = true := by rwa [State.reg_setReg_ne s v hp.symm]
  cases hpol : s.policy p with
  | readWrite => rwa [State.slotWrite_readWrite v hpol]
  | readOnly => rwa [State.slotWrite_readOnly v hpol]
  | windowedPointer => simpa [State.slotWrite, hpol] using hj
  | deviceBacked i =>
    rw [State.slotWrite_deviceBacked v hpol]
    exact State.pending_deviceAccess .write hp hset

/-! ### The tick of one device -/

/-- What the callback of device `d` in private state `st` answers to `k` elapsed cycles, its slots as stored in `s`. -/
def State.onTick (s : State) (k : Nat) (d : Device) (st : DevState) : DevState × (Byte → Byte) × Irq6 :=
  deviceOnTick st k (d.slots.map fun a => (a, s.reg a))

/-- A callback sees nothing but the bytes of its own slots (`10_state.md` R32). -/
theorem State.onTick_congr {s t : State} {d : Device} (h : ∀ a ∈ d.slots, t.reg a = s.reg a) (k : Nat) (st : DevState) :
    t.onTick k d st = s.onTick k d st := by
  unfold State.onTick
  rw [List.map_congr_left fun a ha => by rw [h a ha]]

theorem State.reg_writeSlots_eq (s : State) (slots : List Byte) (view : Byte → Byte) (a : Byte) :
    (s.writeSlots slots view).reg a = if a ∈ slots then view a else s.reg a := by
  split
  · next h => exact State.reg_writeSlots_mem s slots view h
  · next h => exact State.reg_writeSlots s slots view h

/-- Everything the tick of one device with a private state does (`10_state.md` R32). -/
theorem State.tickDevice_effect {s : State} {i : Nat} {st : DevState} (k : Nat) (d : Device) (hst : s.dev[i]? = some st) :
    s.tickDevice i k d = { s with regs := (s.tickDevice i k d).regs, dev := s.dev.set i (s.onTick k d st).1 } ∧
      (∀ a, a ≠ slotIRQ → (s.tickDevice i k d).reg a = if a ∈ d.slots then (s.onTick k d st).2.1 a else s.reg a) ∧
      (s.tickDevice i k d).reg slotIRQ =
        ((if slotIRQ ∈ d.slots then (s.onTick k d st).2.1 slotIRQ else s.reg slotIRQ) ||| (s.onTick k d st).2.2.setWidth 8) := by
  have ht : s.tickDevice i k d =
      (State.writeSlots { s with dev := s.dev.set i (s.onTick k d st).1 } d.slots (s.onTick k d st).2.1).markPending
        (s.onTick k d st).2.2 := by
    simp only [State.tickDevice, hst, State.onTick]
  obtain ⟨hrest, hdev, hcycles⟩ := State.writeSlots_rest { s with dev := s.dev.set i (s.onTick k d st).1 } d.slots
    (s.onTick k d st).2.1
  rw [ht]
  refine ⟨?_, fun a ha => ?_, ?_⟩
  · exact State.ext hrest.cfg rfl hrest.pc hrest.prog hrest.data hrest.lines hrest.pred hrest.run hcycles hrest.lastTick hdev
  · rw [State.reg_markPending, if_neg ha, State.reg_writeSlots_eq]
    rfl
  · rw [State.reg_markPending, if_pos rfl, State.reg_writeSlots_eq]
    rfl

theorem State.dev_tickDevice (s : State) (i k : Nat) (d : Device) :
    (s.tickDevice i k d).dev = s.dev.modify i fun st => (s.onTick k d st).1 := by
  cases hst : s.dev[i]? with
  | none => simp [State.tickDevice, hst, List.modify_eq_self (List.getElem?_eq_none_iff.mp hst)]
  | some st =>
    rw [(State.tickDevice_effect k d hst).1]
    simp [List.modify_eq_set_getElem?, hst]

/-- A pending bit after the tick of one device: set before, or raised by it (`60_exceptions.md` R342). -/
theorem State.pending_tickDevice {s : State} (i k : Nat) {d : Device} (hd : slotIRQ ∉ d.slots) (b : Nat) :
    ((s.tickDevice i k d).reg slotIRQ).getLsbD b = true ↔
      (s.reg slotIRQ).getLsbD b = true ∨ ∃ st, s.dev[i]? = some st ∧ (s.onTick k d st).2.2.getLsbD b = true := by
  cases hst : s.dev[i]? with
  | none => simp [State.tickDevice, hst]
  | some st =>
    have hwidth : ((s.onTick k d st).2.2.setWidth 8).getLsbD b = (s.onTick k d st).2.2.getLsbD b := by
      rw [BitVec.getLsbD_setWidth, Bool.and_eq_right_iff_imp, decide_eq_true_eq]
      exact fun h => Nat.lt_of_lt_of_le (BitVec.lt_of_getLsbD h) (by decide)
    obtain ⟨-, -, hirq⟩ := State.tickDevice_effect k d hst
    rw [hirq, if_neg hd, BitVec.getLsbD_or, hwidth, Bool.or_eq_true]
    simp

/-! ### The ticks of all devices -/

theorem State.tickFrom_eq_foldl (s : State) (i k : Nat) (ds : List Device) :
    s.tickFrom i k ds = (ds.zipIdx i).foldl (fun t d => t.tickDevice d.2 k d.1) s := by
  induction ds generalizing s i with
  | nil => rfl
  | cons d r ih => exact ih (s.tickDevice i k d) (i + 1)

/-- The devices from place `i` on leave the private states before it. -/
theorem State.dev_tickFrom_lt (s : State) {m i : Nat} (hm : m < i) (k : Nat) (ds : List Device) :
    (s.tickFrom i k ds).dev[m]? = s.dev[m]? := by
  induction ds generalizing s i with
  | nil => rfl
  | cons d r ih =>
    rw [State.tickFrom, ih _ (Nat.lt_succ_of_lt hm), State.dev_tickDevice, List.getElem?_modify_ne _ _ hm.ne']

/-- What a later device finds after the tick of an earlier one: its private state and its slots as they were. -/
theorem State.tickDevice_later {s : State} {i m : Nat} (k : Nat) {d e : Device} (hm : i < m)
    (hdisj : List.Disjoint d.slots e.slots) (he : slotIRQ ∉ e.slots) :
    (s.tickDevice i k d).dev[m]? = s.dev[m]? ∧ ∀ st, (s.tickDevice i k d).onTick k e st = s.onTick k e st := by
  obtain ⟨-, -, -, hreg⟩ := State.tickDevice_rest s i k d
  refine ⟨by rw [State.dev_tickDevice, List.getElem?_modify_ne _ _ hm.ne], fun st => State.onTick_congr (fun a ha => ?_) k st⟩
  exact hreg a (fun had => hdisj had ha) (fun h => he (h ▸ ha))

/-- EACH DEVICE TICKS AS IF ALONE: no slot being backed twice, it finds its private state and its slots as they were before
the first tick, and no later tick touches what it leaves (`40_cycle_and_alu.md` R135). -/
theorem State.tickFrom_device {ds : List Device} (hdisj : ds.Pairwise fun d e => List.Disjoint d.slots e.slots)
    (hirq : ∀ d ∈ ds, slotIRQ ∉ d.slots) (k : Nat) {s : State} {i j : Nat} {d : Device} {st : DevState}
    (hd : ds[j]? = some d) (hst : s.dev[i + j]? = some st) :
    (s.tickFrom i k ds).dev[i + j]? = some (s.onTick k d st).1 ∧
      ∀ a ∈ d.slots, (s.tickFrom i k ds).reg a = (s.onTick k d st).2.1 a := by
  induction ds generalizing s i j with
  | nil => cases hd
  | cons e r ih =>
    obtain ⟨hhead, htail⟩ := List.pairwise_cons.mp hdisj
    obtain ⟨hirqe, hirqr⟩ := List.forall_mem_cons.mp hirq
    cases j with
    | zero =>
      obtain rfl : e = d := Option.some.inj hd
      rw [Nat.add_zero] at hst ⊢
      obtain ⟨-, hreg, -⟩ := State.tickDevice_effect k e hst
      refine ⟨?_, fun a ha => ?_⟩
      · rw [State.tickFrom, State.dev_tickFrom_lt _ (Nat.lt_succ_self i), State.dev_tickDevice,
          List.getElem?_modify_eq, hst]
        rfl
      · have hq : a ≠ slotIRQ := fun h => hirqe (h ▸ ha)
        obtain ⟨-, -, -, hlater⟩ := State.tickFrom_rest (s.tickDevice i k e) (i + 1) k r
        rw [State.tickFrom, hlater a (fun d' hd' ha' => hhead d' hd' ha ha') hq, hreg a hq, if_pos ha]
    | succ j =>
      have hmem : d ∈ r := List.mem_of_getElem? hd
      have hplace : i + (j + 1) = i + 1 + j := by omega
      obtain ⟨hdev, htick⟩ := State.tickDevice_later (s := s) (i := i) (m := i + 1 + j) k (by omega) (hhead d hmem) (hirqr d hmem)
      rw [hplace] at hst ⊢
      have := ih htail hirqr hd (hdev.trans hst)
      rwa [htick] at this

/-- A pending bit after the ticks of all devices: set before, or raised by one of them (`60_exceptions.md` R342). -/
theorem State.pending_tickFrom {ds : List Device} (hdisj : ds.Pairwise fun d e => List.Disjoint d.slots e.slots)
    (hirq : ∀ d ∈ ds, slotIRQ ∉ d.slots) (s : State) (i k b : Nat) :
    ((s.tickFrom i k ds).reg slotIRQ).getLsbD b = true ↔
      (s.reg slotIRQ).getLsbD b = true ∨ ∃ (j : Nat) (d : Device) (st : DevState),
        ds[j]? = some d ∧ s.dev[i + j]? = some st ∧ (s.onTick k d st).2.2.getLsbD b = true := by
  induction ds generalizing s i with
  | nil => simp [State.tickFrom]
  | cons e r ih =>
    obtain ⟨hhead, htail⟩ := List.pairwise_cons.mp hdisj
    obtain ⟨hirqe, hirqr⟩ := List.forall_mem_cons.mp hirq
    rw [State.tickFrom, ih htail hirqr, State.pending_tickDevice i k hirqe, or_assoc]
    refine or_congr_right ((or_congr ?_ ?_).trans Nat.or_exists_add_one)
    · simp
    · refine exists_congr fun j => exists_congr fun d => exists_congr fun st => and_congr_right fun hd => ?_
      have hmem : d ∈ r := List.mem_of_getElem? hd
      obtain ⟨hdev, htick⟩ := State.tickDevice_later (s := s) (i := i) (m := i + 1 + j) k (by omega) (hhead d hmem) (hirqr d hmem)
      rw [hdev, htick, Nat.add_right_comm]
      rfl

/-! ### The whole tick, and the statement -/

theorem slotIRQ_not_backed {c : Config} (h : Config.valid c = true) : ∀ d ∈ c.devices, slotIRQ ∉ d.slots := by
  intro d hd ha
  exact absurd (Config.mayBack_of_valid h hd ha) (by decide)

theorem State.tick_device {s : State} (hs : s.CoreInv) {i : Nat} {d : Device} {st : DevState} (hd : s.cfg.devices[i]? = some d)
    (hst : s.dev[i]? = some st) :
    s.tick.dev[i]? = some (s.onTick (s.cycles - s.lastTick) d st).1 ∧
      ∀ a ∈ d.slots, s.tick.reg a = (s.onTick (s.cycles - s.lastTick) d st).2.1 a := by
  have := State.tickFrom_device (Config.devices_disjoint hs.valid) (slotIRQ_not_backed hs.valid) (s.cycles - s.lastTick)
    (s := { s with lastTick := s.cycles }) (i := 0) hd (by rwa [Nat.zero_add])
  rwa [Nat.zero_add] at this

theorem State.pending_tick {s : State} (hs : s.CoreInv) (b : Nat) :
    (s.tick.reg slotIRQ).getLsbD b = true ↔
      (s.reg slotIRQ).getLsbD b = true ∨ ∃ (i : Nat) (d : Device) (st : DevState),
        s.cfg.devices[i]? = some d ∧ s.dev[i]? = some st ∧
          (s.onTick (s.cycles - s.lastTick) d st).2.2.getLsbD b = true := by
  have := State.pending_tickFrom (Config.devices_disjoint hs.valid) (slotIRQ_not_backed hs.valid)
    { s with lastTick := s.cycles } 0 (s.cycles - s.lastTick) b
  simp only [Nat.zero_add] at this
  exact this

/-- Settles O58: one device's tick, then the whole tick as the fold of these over disjoint slot lists. -/
theorem devicesAndTick : Obligations.DevicesAndTick := by
  refine ⟨fun s p v j hj => ⟨State.pending_slotRead p hj, fun hp => State.pending_slotWrite v hp hj,
    fun hs => (State.pending_tick hs j).mpr (.inl hj)⟩, fun s i k d st st' view irq hst htick => ?_, fun s => ?_⟩
  · have heq : s.onTick k d st = (st', view, irq) := htick
    have heffect := State.tickDevice_effect k d hst
    rwa [heq] at heffect
  · obtain ⟨hrest, -, hcycles, hreg⟩ := s.tick_rest
    exact ⟨State.tickFrom_eq_foldl _ 0 _ _, fun hs => ⟨fun i d st hd hst => State.tick_device hs hd hst, State.pending_tick hs⟩,
      State.ext hrest.cfg rfl hrest.pc hrest.prog hrest.data hrest.lines hrest.pred hrest.run hcycles hrest.lastTick rfl,
      hreg, State.tick_no_devices⟩

end Sys2Proof.Machine
end

section
/-! SUPPORT. The two stacks (`20_memory.md` R82, R83): the push and the pop of the statements are those of the model, and on the
external stack a pop undoes a push. -/

namespace Sys2Proof.Machine

open Sys2Proof.Statements

theorem push_of_pushAt {s t : State} {v : Byte} (h : PushAt s v t) : push v s = .ok () t := by
  unfold PushAt at h
  split at h
  · next hmode =>
    obtain ⟨q, hq, rfl⟩ := h
    exact push_internal v hmode hq
  · next hmode =>
    obtain rfl := h
    exact push_external v (eq_false_of_ne_true hmode)

theorem pop_of_popAt {s t : State} {v : Byte} (h : PopAt s v t) : pop s = .ok v t := by
  unfold PopAt at h
  split at h
  · next hmode =>
    obtain ⟨q, hq, rfl, rfl⟩ := h
    exact pop_internal hmode hq
  · next hmode =>
    obtain ⟨rfl, rfl⟩ := h
    exact pop_external (eq_false_of_ne_true hmode)

theorem State.internalStack_setSp (s : State) (w : Word) : (s.setSp w).internalStack = s.internalStack := by
  simp [State.internalStack, State.reg_setSp, slotP01M, slotSPL, slotSPH]

/-- The pointer moved and moved back leaves register memory as it was (`20_memory.md` R82, R83). -/
theorem State.regs_setSp_sp (s : State) (w : Word) : ((s.setSp w).setSp s.sp).regs = s.regs := by
  refine State.regs_ext fun a => ?_
  rw [State.reg_setSp, State.reg_setSp]
  split
  · next h => rw [h, State.sp, loByte_ofBytes]
  · split
    · next h => rw [h, State.sp, hiByte_ofBytes]
    · rfl

/-- The state a push on the external stack leaves (`20_memory.md` R82). -/
def State.pushedExternal (s : State) (v : Byte) : State :=
  { s.setSp (s.sp - 1) with data := Memory.write s.data (s.sp - 1) v }

theorem State.sp_pushedExternal (s : State) (v : Byte) : (s.pushedExternal v).sp = s.sp - 1 := s.sp_setSp _

/-- A pop undoes a push (`20_memory.md` R83), the byte of DATA apart. -/
theorem pop_pushedExternal {s : State} (v : Byte) (hmode : s.internalStack = false) (hw : Memory.wf s.data = true) :
    ∃ u, pop (s.pushedExternal v) = .ok v u ∧ u.regs = s.regs ∧ u.data = (s.pushedExternal v).data := by
  have hmode' : (s.pushedExternal v).internalStack = false := (s.internalStack_setSp _).trans hmode
  have hbyte : Memory.read (s.pushedExternal v).data (s.sp - 1) = v := Memory.read_write_self hw _ _
  have hpop := pop_external hmode'
  rw [s.sp_pushedExternal, hbyte, BitVec.sub_add_cancel] at hpop
  exact ⟨_, hpop, s.regs_setSp_sp _, rfl⟩

/-- Settles O50: the equations of the two operations, stack by stack; on the external one a pop undoes a push. -/
theorem pushPop : Obligations.PushPop := by
  intro s v
  refine ⟨fun t => push_of_pushAt, fun t => pop_of_popAt,
    fun hmode => ⟨push_internal_none v hmode, pop_internal_none hmode⟩, fun hmode hw => ?_⟩
  have hsp : ((s.pushedExternal v).reg 0xFE ++ (s.pushedExternal v).reg 0xFF : Word) = s.reg 0xFE ++ s.reg 0xFF - 1 :=
    s.sp_pushedExternal v
  refine ⟨s.pushedExternal v, push_external v hmode, hsp, ?_, fun b hb => Memory.read_write_ne _ _ hb,
    pop_pushedExternal v hmode hw⟩
  rw [hsp]
  exact Memory.read_write_self hw _ _

end Sys2Proof.Machine
end

section
/-! SUPPORT. A PROGRAM access through the cache (`20_memory.md` R66, R67, R70, R73): what it does to the core's view, and what it
does to every line, every rank and every bus byte. -/

namespace Sys2Proof.Machine

open Sys2Proof.Statements

/-! ### The core's view -/

theorem programAccess_sentinel (op : CacheOp) (s : State) : programAccess sentinel op s = .error .sentinelAddress s := by
  simp [programAccess]

theorem programAccess_of_cacheAccess {s : State} {a : Word} {op : CacheOp} {v : Byte} {lines : List CacheLine} {prog : Memory}
    (ha : a ≠ sentinel) (hacc : cacheAccess s.cfg s.lines s.prog a op = (v, lines, prog)) :
    programAccess a op s = .ok v { s with lines := lines, prog := prog } := by
  simp [programAccess, ha, hacc]

/-- What an access keeps in any state (`20_memory.md` R66, R70): a relation that changes of the cache and the bus keep. -/
theorem programAccess_keeps {R : State → State → Prop} (hR : StateRel R) {a : Word} {op : CacheOp}
    (h : ∀ (s : State) (v : Byte) (lines : List CacheLine) (prog : Memory), a ≠ sentinel →
      programAccess a op s = .ok v { s with lines := lines, prog := prog } → R s { s with lines := lines, prog := prog }) :
    M.Keeps R (programAccess a op) := by
  intro s
  by_cases ha : a = sentinel
  · rw [ha, programAccess_sentinel]
    refine ⟨fun _ _ hok => ?_, fun _ _ herr => ?_⟩
    · cases hok
    · cases herr; exact hR.refl s
  · have hacc := programAccess_of_cacheAccess ha (op := op) (s := s) rfl
    refine ⟨fun _ _ hok => ?_, fun _ _ herr => ?_⟩
    · rw [hacc] at hok; cases hok; exact h s _ _ _ ha hacc
    · rw [hacc] at herr; cases herr

/-- WHAT AN ACCESS IS TO THE CORE (`20_memory.md` R73): it answers the byte of the view, a write the byte written, and changes
the view at its address alone and nothing outside the cache and the bus. -/
theorem programAccess_view {s : State} (hs : s.CoreInv) {a : Word} (ha : a ≠ sentinel) (op : CacheOp) :
    ∃ t, programAccess a op s = .ok (op.answer (s.progView a)) t ∧ t = { s with lines := t.lines, prog := t.prog } ∧
      ∀ b, b ≠ sentinel → t.progView b = if b = a then op.answer (s.progView a) else s.progView b := by
  obtain ⟨⟨v, lines, prog⟩, hacc⟩ : ∃ r, cacheAccess s.cfg s.lines s.prog a op = r := ⟨_, rfl⟩
  obtain ⟨-, rfl, hview⟩ := cacheAccess_spec hs.cache hs.numLines ha hacc
  exact ⟨_, programAccess_of_cacheAccess ha hacc, rfl, hview⟩

/-- A read answers the byte the view has, so it leaves the whole view (`20_memory.md` R73). -/
theorem programRead_view {s : State} (hs : s.CoreInv) {a : Word} (ha : a ≠ sentinel) :
    ∃ t, programRead a s = .ok (s.progView a) t ∧ SameProgram s t ∧ t = { s with lines := t.lines, prog := t.prog } := by
  obtain ⟨t, hread, hrest, hview⟩ := programAccess_view hs ha .read
  refine ⟨t, hread, fun b hb => ?_, hrest⟩
  rw [hview b hb]
  split
  · next h => rw [h]; rfl
  · rfl

/-- A write changes the byte of the view at its address alone (`20_memory.md` R73). -/
theorem programWrite_view {s : State} (hs : s.CoreInv) {a : Word} (ha : a ≠ sentinel) (v : Byte) :
    ∃ t, programWrite a v s = .ok () t ∧ t.progView a = v ∧ (∀ b, b ≠ sentinel → b ≠ a → t.progView b = s.progView b) ∧
      t = { s with lines := t.lines, prog := t.prog } := by
  obtain ⟨t, hwrite, hrest, hview⟩ := programAccess_view hs ha (.write v)
  refine ⟨t, M.bind_eq_ok.mpr ⟨_, t, hwrite, rfl⟩, ?_, fun b hb hne => ?_, hrest⟩
  · rw [hview a ha, if_pos rfl]; rfl
  · rw [hview b hb, if_neg hne]

/-- Settles O48: a read and a write in terms of the view, and the refused address. -/
theorem programView : Obligations.ProgramView :=
  ⟨fun _ _ hs ha => ⟨programRead_view hs ha, programWrite_view hs ha⟩, fun s _ =>
    ⟨programAccess_sentinel _ s, M.bind_eq_error.mpr (.inl (programAccess_sentinel _ s))⟩⟩

/-! ### The parts of an access -/

/-- The bus after the victim of a miss has gone to it, if it needs to (`20_memory.md` R66). -/
def cacheEvict (hit : Bool) (l : CacheLine) (prog : Memory) : Memory :=
  if !hit && l.needsFlush then Memory.write prog l.tag l.data else prog

/-- The bus after the write-through of an access (`20_memory.md` R66, R71). -/
def cacheMirror (wp : WritePolicy) (addr : Word) (op : CacheOp) (bus : Memory) : Memory :=
  match op, wp with
  | .write v, .writeThrough => Memory.write bus addr v
  | .write _, .writeBack | .read, _ => bus

/-- An access to a selected line, in its parts (`20_memory.md` R66): evict, install, promote, mirror. -/
theorem cacheAccess_eq {cfg : Config} {lines : List CacheLine} {addr : Word} {i : Nat} {hit : Bool} {l : CacheLine}
    (hsel : cacheSelect cfg lines addr = (i, hit)) (hl : lines[i]? = some l) (prog : Memory) (op : CacheOp) :
    cacheAccess cfg lines prog addr op =
      ((cacheInstall cfg.writePolicy (cacheEvict hit l prog) addr op hit l).data,
        cachePromote cfg.numLines (lines.set i (cacheInstall cfg.writePolicy (cacheEvict hit l prog) addr op hit l)) i,
        cacheMirror cfg.writePolicy addr op (cacheEvict hit l prog)) := by
  cases op <;> cases hwp : cfg.writePolicy <;> simp [cacheAccess, cacheMirror, cacheEvict, hsel, hl, hwp]

/-- A direct-mapped cache selects by the address (`20_memory.md` R65). -/
theorem cacheSelect_directMapped {cfg : Config} {lines : List CacheLine} {addr : Word} {i : Nat} {hit : Bool}
    (hp : cfg.placement = .directMapped) (hsel : cacheSelect cfg lines addr = (i, hit)) : i = addr.toNat % cfg.numLines := by
  simp only [cacheSelect, hp] at hsel
  exact (Prod.mk.inj hsel).1.symm

/-- A fully associative cache selects the line that holds the address, when none does the oldest (`20_memory.md` R65). -/
theorem cacheSelect_fullyAssociative {cfg : Config} {lines : List CacheLine} {addr : Word} {i : Nat} {hit : Bool} {l : CacheLine}
    (hp : cfg.placement = .fullyAssociative) (hsel : cacheSelect cfg lines addr = (i, hit)) (hl : lines[i]? = some l) :
    l.tag = addr ∨ ((∀ k ∈ lines, k.tag ≠ addr) ∧ l.rank = 0) := by
  obtain ⟨hlt, rfl⟩ := List.getElem?_eq_some_iff.mp hl
  simp only [cacheSelect, hp] at hsel
  split at hsel
  · next j hj =>
    obtain ⟨rfl, -⟩ := Prod.mk.inj hsel
    obtain ⟨_, htag, -⟩ := List.findIdx?_eq_some_iff_getElem.mp hj
    exact .inl (by simpa using htag)
  · next hnone =>
    obtain ⟨rfl, -⟩ := Prod.mk.inj hsel
    exact .inr ⟨by simpa using hnone, by simpa using List.findIdx_getElem (w := hlt)⟩

/-! ### The promotion, place by place -/

theorem cachePromote_self {n i : Nat} {lines : List CacheLine} {l : CacheLine} (hl : lines[i]? = some l) :
    (cachePromote n lines i)[i]? = some { l with rank := n - 1 } := by
  obtain ⟨hlt, -⟩ := List.getElem?_eq_some_iff.mp hl
  simp only [cachePromote, hl]
  exact List.getElem?_set_self (by rwa [List.length_map])

theorem cachePromote_other {n i j : Nat} {lines : List CacheLine} {l k : CacheLine} (hl : lines[i]? = some l) (hj : j ≠ i)
    (hk : lines[j]? = some k) :
    (cachePromote n lines i)[j]? = some { k with rank := if l.rank < k.rank then k.rank - 1 else k.rank } := by
  simp only [cachePromote, hl, List.getElem?_set_ne hj.symm, List.getElem?_map, hk, Option.map_some]
  split <;> rfl

/-! ### The bus -/

theorem wf_cacheEvict {prog : Memory} (hw : Memory.wf prog = true) (hit : Bool) (l : CacheLine) :
    Memory.wf (cacheEvict hit l prog) = true := by
  unfold cacheEvict
  split
  · exact Memory.wf_write hw _ _
  · exact hw

/-- Only the byte of a dirty occupied victim reaches the bus, on a miss (`20_memory.md` R66). -/
theorem read_cacheEvict {prog : Memory} (hw : Memory.wf prog = true) {addr : Word} {hit : Bool} {l : CacheLine}
    (hhit : hit = true ↔ l.tag = addr) (b : Word) :
    Memory.read (cacheEvict hit l prog) b =
      if b = l.tag ∧ l.tag ≠ addr ∧ l.tag ≠ sentinel ∧ l.dirty = true then l.data else Memory.read prog b := by
  have hflush : (!hit && l.needsFlush) = true ↔ l.tag ≠ addr ∧ l.tag ≠ sentinel ∧ l.dirty = true := by
    simp [CacheLine.needsFlush, ← hhit]
  by_cases h : l.tag ≠ addr ∧ l.tag ≠ sentinel ∧ l.dirty = true
  · rw [cacheEvict, if_pos (hflush.mpr h), Memory.read_write hw]
    simp [h]
  · rw [cacheEvict, if_neg (h ∘ hflush.mp), if_neg fun hb => h hb.2]

/-- Only the byte written is mirrored, under write-through (`20_memory.md` R71). -/
theorem read_cacheMirror {bus : Memory} (hw : Memory.wf bus = true) (wp : WritePolicy) (addr : Word) (op : CacheOp) (old : Byte)
    (b : Word) :
    Memory.read (cacheMirror wp addr op bus) b =
      if b = addr ∧ op = .write (op.answer old) ∧ wp = .writeThrough then op.answer old else Memory.read bus b := by
  cases op <;> cases wp <;> simp [cacheMirror, CacheOp.answer, Memory.read_write hw]

/-! ### The installed line -/

/-- The byte at `addr` when the selected line is `l` (`20_memory.md` R66): the line's own on a hit, else the bus's. -/
def CacheLine.byteAt (l : CacheLine) (prog : Memory) (addr : Word) : Byte :=
  if l.tag = addr then l.data else Memory.read prog addr

/-- What becomes of the selected line `l` before the promotion (`20_memory.md` R66, R71). -/
def CacheLine.installed (l : CacheLine) (wp : WritePolicy) (prog : Memory) (addr : Word) (op : CacheOp) : CacheLine where
  tag := addr
  data := op.answer (l.byteAt prog addr)
  dirty :=
    match op with
    | .read => if l.tag = addr then l.dirty else false
    | .write _ => decide (wp = .writeBack)
  rank := l.rank

/-- A line that is clean under write-through is installed as `CacheLine.installed` says, from a bus that has the address's
byte. -/
theorem cacheInstall_eq {wp : WritePolicy} {prog bus : Memory} {addr : Word} {hit : Bool} {l : CacheLine} (op : CacheOp)
    (hhit : hit = true ↔ l.tag = addr) (hclean : wp = .writeThrough → l.dirty = false)
    (hbus : l.tag ≠ addr → Memory.read bus addr = Memory.read prog addr) :
    cacheInstall wp bus addr op hit l = l.installed wp prog addr op := by
  cases hit with
  | true =>
    obtain rfl : l.tag = addr := hhit.mp rfl
    cases op <;> cases wp <;> simp [cacheInstall, CacheLine.installed, CacheLine.byteAt, CacheOp.answer]
    exact hclean rfl
  | false =>
    have hne : l.tag ≠ addr := by simpa using hhit
    cases op <;> cases wp <;>
      simp [cacheInstall, CacheLine.installed, CacheLine.byteAt, CacheOp.answer, hne, hbus hne]

/-- Settles O49: the selected line, its installation, the promotion place by place, and the two bytes of the bus. -/
theorem cacheController : Obligations.CacheController := by
  refine ⟨programAccess_sentinel, fun s a op hs ha => ?_⟩
  obtain ⟨⟨i, hit⟩, hsel⟩ : ∃ r, cacheSelect s.cfg s.lines a = r := ⟨_, rfl⟩
  obtain ⟨l, hl, hhit, -⟩ := cacheSelect_spec hs.cache hs.numLines ha hsel
  have hevict := read_cacheEvict hs.cache.wf hhit
  have hinstall := cacheInstall_eq op hhit (fun hw => hs.cache.clean hw i l hl)
    fun hne => (hevict a).trans (if_neg fun h => hne h.1.symm)
  have hacc := cacheAccess_eq hsel hl s.prog op
  rw [hinstall] at hacc
  have hself := List.getElem?_set_self (a := l.installed s.cfg.writePolicy s.prog a op) (List.getElem?_eq_some_iff.mp hl).1
  refine ⟨_, _, _, i, l, programAccess_of_cacheAccess ha hacc, hl, ?_, cachePromote_self hself, fun j k hj hk => ?_, ?_,
    fun b => ?_⟩
  · split
    · next hp => exact cacheSelect_directMapped hp hsel
    · next hp => exact cacheSelect_fullyAssociative hp hsel hl
  · exact (cachePromote_other (n := s.cfg.numLines) hself hj ((List.getElem?_set_ne hj.symm).trans hk) :)
  · cases op <;> rfl
  · rw [read_cacheMirror (wf_cacheEvict hs.cache.wf hit l) _ _ _ (l.byteAt s.prog a), hevict]
    rfl

end Sys2Proof.Machine
end

section
/-! SUPPORT. Which instruction reaches which memory (`20_memory.md` R60, R61): what a relation must hold of so that the
instruction `i` keeps it, and what each instruction leaves of DATA and PROGRAM memory. -/

namespace Sys2Proof.Machine

open Sys2Proof.Statements

variable {R : State → State → Prop}

/-- What the instruction `i` needs of a relation: registers, the stack pointer and control, and the memory accesses of its own
kind alone. -/
structure MemoryRel (R : State → State → Prop) (i : Instr) : Prop extends StackRel R where
  core : ∀ s a v, 0xF8#8 ≤ a → R s (s.setReg a v)
  control : ∀ s pc pred run, R s { s with pc := pc, pred := pred, run := run }
  store : storesData i = true → ∀ a v, M.Keeps R (dataWrite a v)
  load : loadsProgram i = true → ∀ a, M.Keeps R (programRead a)
  save : storesProgram i = true → ∀ a v, M.Keeps R (programWrite a v)

theorem MemoryRel.jump {i : Instr} (hR : MemoryRel R i) (f : State → Word) :
    M.Keeps R (modify fun t => t.jump (f t) : M PUnit) :=
  .modify fun s => hR.control s (f s) s.pred.zero s.run

theorem MemoryRel.jumpIf {i : Instr} (hR : MemoryRel R i) (c : Prop) [Decidable c] (f : State → Word) :
    M.Keeps R (if c then modify fun t => t.jump (f t) else pure () : M PUnit) :=
  .ite (hR.jump f) (.pure hR.toStateRel _)

theorem MemoryRel.call {i : Instr} (hR : MemoryRel R i) (hi : storesData i = true) (t : Word) : M.Keeps R (callTo t) :=
  .bind hR.toStateRel (pushPc_keeps hR.toStackRel (hR.store hi)) fun _ => hR.jump fun _ => t

theorem MemoryRel.iret {i : Instr} (hR : MemoryRel R i) : M.Keeps R returnFromInterrupt := by
  have h0 := hR.toStateRel
  refine .bind h0 (pop_keeps hR.toStackRel) fun f => .bind h0 (.modify fun s => hR.core s _ _ (by decide)) fun _ => ?_
  refine .bind h0 (popPc_keeps hR.toStackRel) fun t => .bind h0 (.modify fun s => ?_) fun _ =>
    .modify fun s => hR.control s s.pc _ s.run
  exact h0.trans (hR.control s t s.pred s.run) (hR.core _ _ _ (by decide))

/-- WHAT THE INSTRUCTION `i` KEEPS: any relation its register and control operations and its own memory accesses keep. -/
theorem body_keeps_memory {i : Instr} (hR : MemoryRel R i) : M.Keeps R (body i) := by
  have h0 := hR.toStateRel
  have hr := hR.toRegRel
  have hs := hR.toStackRel
  cases i <;> simp only [body]
  case ldeStore => exact memoryStore_keeps hr (hR.store rfl) _ _
  case ldeiStore => exact memoryStoreIncrement_keeps hr (hR.store rfl) _ _
  case pushR | pushIR => exact pushInstruction_keeps hs (hR.store rfl) _
  case callDA => exact hR.call rfl _
  case callIRR => exact .bind h0 (pairRead_keeps hr _) fun _ => hR.call rfl _
  case ldcLoad => exact memoryLoad_keeps hr (hR.load rfl) _ _
  case ldciLoad => exact memoryLoadIncrement_keeps hr (hR.load rfl) _ _
  case ldcStore => exact memoryStore_keeps hr (hR.save rfl) _ _
  case ldciStore => exact memoryStoreIncrement_keeps hr (hR.save rfl) _ _
  case ldeLoad => exact memoryLoad_keeps hr (dataRead_keeps h0) _ _
  case ldeiLoad => exact memoryLoadIncrement_keeps hr (dataRead_keeps h0) _ _
  case jpIRR => exact .bind h0 (pairRead_keeps hr _) fun t => hR.jump fun _ => t
  case djnz => exact .bind h0 (regRead_keeps hr _) fun _ => .bind h0 (regWrite_keeps hr _ _) fun _ => hR.jumpIf _ _
  case jr | jp => exact .bind h0 (condition_keeps hr _) fun _ => hR.jumpIf _ _
  case ret => exact .bind h0 (popPc_keeps hs) fun t => hR.jump fun _ => t
  case iret => exact hR.iret
  case ifPred => exact .bind h0 (condition_keeps hr _) fun _ => .modify fun s => hR.control s s.pc _ s.run
  case stop | halt => exact .modify fun s => hR.control s s.pc s.pred _
  case srp | di | ei => exact .modify fun s => hR.core s _ _ (by decide)
  case rcf | scf | ccf => exact .modify fun s => hr.flags s _
  case nop => exact .pure h0 _
  case ldWX | ldXW =>
    exact .bind h0 (regRead_keeps hr _) fun _ => .bind h0 (regRead_keeps hr _) fun _ => regWrite_keeps hr _ _
  case ldWR | ldRW => exact moveRegister_keeps hr _ _
  case ldWIM => exact regWrite_keeps hr _ _
  case incW => exact modifyRegister_keeps hr _ _
  case popR | popIR => exact popInstruction_keeps hs _
  case decwRR | decwIR | incwRR | incwIR => exact wordInstruction_keeps hr _ _ _
  case clrR | clrIR => exact clearInstruction_keeps hr _
  case ldWIW | ldRR | ldRIR | ldRIM | ldIRIM => exact loadInstruction_keeps hr _
  case ldIWW | ldIRR => exact storeIndirect_keeps hr _ _ _
  case decR | decIR | rlcR | rlcIR | incR | incIR | daR | daIR | comR | comIR | rlR | rlIR | rrcR | rrcIR | sraR | sraIR |
      rrR | rrIR | swapR | swapIR => exact singleInstruction_keeps hr _ _
  all_goals exact aluInstruction_keeps hr _ _

/-- What the instruction `i` leaves of the two memories: DATA but for its own stores, PROGRAM and the cache but for its own
accesses, and the core's view of PROGRAM but for its own stores. -/
structure MemoryFrame (i : Instr) (s t : State) : Prop where
  core : s.CoreStep t
  data : storesData i = false → t.data = s.data
  program : storesProgram i = false → loadsProgram i = false → t.prog = s.prog ∧ t.lines = s.lines
  view : storesProgram i = false → s.CoreInv → SameProgram s t

theorem MemoryFrame.rel (i : Instr) : StateRel (MemoryFrame i) where
  refl := fun s => ⟨State.CoreStep.rel.refl s, fun _ => rfl, fun _ _ => ⟨rfl, rfl⟩, fun _ _ _ _ => rfl⟩
  trans := fun h k =>
    { core := State.CoreStep.rel.trans h.core k.core
      data := fun hi => (k.data hi).trans (h.data hi)
      program := fun hi hj => ⟨(k.program hi hj).1.trans (h.program hi hj).1, (k.program hi hj).2.trans (h.program hi hj).2⟩
      view := fun hi hs a ha => (k.view hi (h.core hs) a ha).trans (h.view hi hs a ha) }

/-- A change that reaches neither the bus of PROGRAM nor the cache. -/
theorem MemoryFrame.of_program {i : Instr} {s t : State} (core : s.CoreStep t) (data : storesData i = false → t.data = s.data)
    (prog : t.prog = s.prog) (lines : t.lines = s.lines) : MemoryFrame i s t :=
  ⟨core, data, fun _ _ => ⟨prog, lines⟩, fun _ _ a _ => by rw [State.progView, State.progView, prog, lines]⟩

theorem MemoryFrame.of_regOnly {i : Instr} {s t : State} (h : s.RegOnly t) (core : s.CoreStep t) : MemoryFrame i s t :=
  .of_program core (fun _ => h.data) h.prog h.lines

theorem MemoryFrame.dataWrite {i : Instr} (hi : storesData i = true) (a : Word) (v : Byte) :
    M.Keeps (MemoryFrame i) (dataWrite a v) := by
  intro s
  refine ⟨fun _ _ h => ?_, fun _ _ h => ?_⟩ <;> cases h
  exact .of_program ((dataWrite_core a v s).1 _ _ rfl) (by simp [hi]) rfl rfl

/-- A load of PROGRAM may change a line and the bus, and leaves the view (`20_memory.md` R73). -/
theorem MemoryFrame.programRead {i : Instr} (hi : loadsProgram i = true) (a : Word) :
    M.Keeps (MemoryFrame i) (programRead a) := by
  refine programAccess_keeps (MemoryFrame.rel i) fun s v lines prog ha hacc => ?_
  refine ⟨(programAccess_core a .read s).1 _ _ hacc, fun _ => rfl, by simp [hi], fun _ hs => ?_⟩
  obtain ⟨t, hread, hsame, -⟩ := programRead_view hs ha
  obtain ⟨-, rfl⟩ := EStateM.Result.ok.inj (hacc.symm.trans hread)
  exact hsame

theorem MemoryFrame.programWrite {i : Instr} (hi : storesProgram i = true) (a : Word) (v : Byte) :
    M.Keeps (MemoryFrame i) (programWrite a v) := by
  refine .bind (MemoryFrame.rel i) (programAccess_keeps (MemoryFrame.rel i) fun s w lines prog _ hacc => ?_) fun _ =>
    .pure (MemoryFrame.rel i) _
  exact ⟨(programAccess_core a (.write v) s).1 _ _ hacc, fun _ => rfl, by simp [hi], by simp [hi]⟩

theorem MemoryFrame.memoryRel (i : Instr) : MemoryRel (MemoryFrame i) i where
  toStateRel := MemoryFrame.rel i
  read := fun s p => .of_regOnly (.slotRead s p) (.slotRead s p)
  write := fun s p v => .of_regOnly (.slotWrite s p v) (.slotWrite s p v)
  flags := fun s u => .of_regOnly (.updateFlags s u) (State.CoreStep.regRel.flags s u)
  charge := fun s k => .of_regOnly (.charge s k) (State.CoreStep.regRel.charge s k)
  spl := fun s v => .of_regOnly (.setReg s _ v) (State.CoreStep.stackRel.spl s v)
  setSp := fun s w => .of_regOnly (State.RegOnly.stackRel.setSp s w) (State.CoreStep.stackRel.setSp s w)
  core := fun s a v ha => .of_regOnly (.setReg s a v) (State.CoreStep.stepRel.core s a v ha)
  control := fun s pc pred run => .of_program (.control s pc pred run) (fun _ => rfl) rfl rfl
  store := MemoryFrame.dataWrite
  load := MemoryFrame.programRead
  save := MemoryFrame.programWrite

/-- Settles O43: the computation of an instruction keeps its frame of the memories, and so does a fault at its end. -/
theorem onlyStoresChangeMemory : Obligations.OnlyStoresChangeMemory := by
  intro i s t h
  rw [exec_eq] at h
  have hR := MemoryFrame.memoryRel i
  have hf := (body_keeps_memory hR).finish hR.toStateRel (fun u r => hR.control u u.pc u.pred (.faulted r)) h
  exact ⟨hf.data, hf.program, hf.view⟩

end Sys2Proof.Machine
end

section
/-! SUPPORT. The end of a run (`20_memory.md` R74, `40_cycle_and_alu.md` R131, R132): what each phase of a step leaves of the run
state, and that the step which ends a run leaves no occupied line dirty. -/

namespace Sys2Proof.Machine

variable {R : State → State → Prop}

/-! ### The phases around an instruction, over a relation that need not allow every change of the run state -/

/-- What the fetch, the bookkeeping and the poll need of a relation: of the run state, only that a machine may be woken
(`60_exceptions.md` R354). A `MachineRel` allows every change of it, so what is kept over one says nothing of the run state. -/
structure PhaseRel (R : State → State → Prop) : Prop extends AccessRel R where
  flow : ∀ s pc pred, R s { s with pc := pc, pred := pred }
  wake : ∀ s : State, R s { s with run := if s.run = .waiting then .running else s.run }

theorem PhaseRel.fetch (hR : PhaseRel R) : M.Keeps R fetch :=
  have h0 := hR.toStateRel
  .bind h0 (.get h0) fun s => .bind h0 (hR.program _ .read) fun _ => .bind h0 (.modify fun t => hR.flow t (s.pc + 1) t.pred)
    fun _ => .pure h0 _

theorem PhaseRel.fetchMany (hR : PhaseRel R) (n : Nat) : M.Keeps R (fetchMany n) := by
  have h0 := hR.toStateRel
  induction n with
  | zero => exact .pure h0 _
  | succ n ih => exact .bind h0 hR.fetch fun _ => .bind h0 ih fun _ => .pure h0 _

theorem PhaseRel.fetchOperandBytes (hR : PhaseRel R) (b0 : Byte) (n : Nat) : M.Keeps R (fetchOperandBytes b0 n) := by
  intro s
  obtain ⟨hok, herr⟩ := hR.fetchMany n s
  unfold Machine.fetchOperandBytes
  cases hmany : Machine.fetchMany n s with
  | ok bytes t =>
    refine ⟨fun _ _ h => ?_, fun _ _ h => ?_⟩ <;> cases h
    exact hok _ _ hmany
  | error r t =>
    refine ⟨fun _ _ h => ?_, fun _ _ h => ?_⟩ <;> cases h
    exact hR.trans (herr _ _ hmany) (hR.charge _ _)

theorem PhaseRel.fetchInstr (hR : PhaseRel R) : M.Keeps R fetchInstr := by
  have h0 := hR.toStateRel
  refine .bind h0 hR.fetch fun b0 => ?_
  split
  · exact .throw h0 _
  · refine .bind h0 (.modify fun s => hR.charge s _) fun _ => .bind h0 (hR.fetchOperandBytes _ _) fun rest => ?_
    split
    · exact .pure h0 _
    · exact .throw h0 _

theorem PhaseRel.skipOne (hR : PhaseRel R) : M.Keeps R skipOne := by
  have h0 := hR.toStateRel
  refine .bind h0 hR.fetch fun b => ?_
  split
  · exact .throw h0 _
  · next n _ => exact .modify fun s => hR.trans (hR.flow s (s.pc + BitVec.ofNat 16 n) s.pred) (hR.charge _ _)

theorem PhaseRel.skipPart (hR : PhaseRel R) {count : State → State} (hc : ∀ s : State, R s (count s)) (n : Nat) :
    M.Keeps R (skipPart count n) := by
  have h0 := hR.toStateRel
  refine .bind h0 ?_ fun _ => .modify fun s => hR.core s _ _ (by decide)
  induction n with
  | zero => exact .pure h0 _
  | succ n ih => exact .bind h0 hR.skipOne fun _ => .bind h0 (.modify hc) fun _ => ih

theorem PhaseRel.predBookkeeping (hR : PhaseRel R) (wasIf : Bool) : M.Keeps R (predBookkeeping wasIf) := by
  have h0 := hR.toStateRel
  have hrestore : ∀ s : State, R s s.restoreFlags := fun s => hR.core s _ _ (by decide)
  have htrue : ∀ s : State, R s s.countTrue := fun s => hR.flow s s.pc _
  have hfalse : ∀ s : State, R s s.countFalse := fun s => hR.flow s s.pc _
  have hdue : M.Keeps R (do
      let s ← get
      if s.pred.tcnt = 0 ∧ s.pred.fcnt ≠ 0 then Machine.skipPart State.countFalse s.pred.fcnt.toNat : M Unit) :=
    .bind h0 (.get h0) fun s => .ite (hR.skipPart hfalse _) (.pure h0 _)
  refine .bind h0 (.get h0) fun s => .ite (.ite ?_ hdue) (.ite (hR.skipPart htrue _) (.ite ?_ (.pure h0 _)))
  · exact .bind h0 (.modify fun s => hR.trans (htrue s) (hrestore _)) fun _ => hdue
  · exact .modify fun s => hR.trans (hfalse s) (hrestore _)

theorem PhaseRel.service (hR : PhaseRel R) (i : Fin 6) : M.Keeps R (service i) := by
  have h0 := hR.toStateRel
  have hcharge : ∀ f : State → Nat, M.Keeps R (modify fun s => s.charge (f s) : M PUnit) := fun f =>
    .modify fun s => hR.charge s _
  have hcore : ∀ (a : Byte) (f : State → Byte), 0xF8#8 ≤ a → M.Keeps R (modify fun s => s.setReg a (f s) : M PUnit) :=
    fun a f ha => .modify fun s => hR.core s a _ ha
  refine .bind h0 (pushPc_keeps hR.toStackRel hR.store) fun _ => .bind h0 (hcharge _) fun _ => ?_
  refine .bind h0 (hR.program _ .read) fun h => .bind h0 (hR.program _ .read) fun l => ?_
  refine .bind h0 (.modify fun s => hR.flow s (ofBytes h l) s.pred) fun _ => ?_
  refine .bind h0 (hcore _ _ (by decide)) fun _ => .bind h0 (.get h0) fun _ => ?_
  refine .bind h0 (push_keeps hR.toStackRel hR.store _) fun _ => .bind h0 (hcharge _) fun _ => ?_
  refine .bind h0 (hcore _ _ (by decide)) fun _ => .bind h0 (hcharge _) fun _ => .modify fun s => ?_
  exact hR.trans (hR.flow s s.pc s.pred.zero) (hR.wake _)

theorem PhaseRel.poll (hR : PhaseRel R) : M.Keeps R poll := by
  have h0 := hR.toStateRel
  refine .bind h0 (.get h0) fun s => .ite ?_ (.pure h0 _)
  split
  · exact .throw h0 _
  · exact hR.service _

/-! ### The run state -/

/-- The run state is kept, or a waiting machine is woken. -/
def State.KeepsOrWakes (s t : State) : Prop := t.run = s.run ∨ (s.run = .waiting ∧ t.run = .running)

theorem State.KeepsOrWakes.rel : StateRel State.KeepsOrWakes where
  refl := fun _ => .inl rfl
  trans := by
    rintro s t u (h | ⟨hs, ht⟩) (k | ⟨kt, ku⟩)
    · exact .inl (k.trans h)
    · exact .inr ⟨h ▸ kt, ku⟩
    · exact .inr ⟨hs, k.trans ht⟩
    · rw [ht] at kt; cases kt

/-- The phases around an instruction keep the run state or wake the machine. -/
theorem State.KeepsOrWakes.phaseRel : PhaseRel State.KeepsOrWakes where
  toStateRel := State.KeepsOrWakes.rel
  read := fun s p => .inl (State.RegOnly.slotRead s p).run
  write := fun s p v => .inl (State.RegOnly.slotWrite s p v).run
  flags := fun _ _ => .inl rfl
  charge := fun _ _ => .inl rfl
  spl := fun _ _ => .inl rfl
  setSp := fun _ _ => .inl rfl
  core := fun _ _ _ _ => .inl rfl
  program := fun _ _ => programAccess_keeps State.KeepsOrWakes.rel fun _ _ _ _ _ _ => .inl rfl
  store := fun _ _ _ => ⟨fun _ _ h => by cases h; exact .inl rfl, fun _ _ h => by cases h⟩
  flow := fun _ _ _ => .inl rfl
  wake := fun s => by
    by_cases h : s.run = .waiting
    · exact .inr ⟨h, if_pos h⟩
    · exact .inl (if_neg h)

theorem State.KeepsOrWakes.tick (s : State) : s.KeepsOrWakes s.tick := .inl s.tick_rest.1.run

theorem endOfCycle_keepsOrWakes (wasIf : Bool) : M.Keeps State.KeepsOrWakes (endOfCycle wasIf) := by
  have hR := State.KeepsOrWakes.phaseRel
  have h0 := hR.toStateRel
  refine .bind h0 (hR.predBookkeeping _) fun _ => .bind h0 (.modify .tick) fun _ => .bind h0 hR.poll fun _ => .modify fun s => ?_
  split
  · exact .inl rfl
  · exact h0.refl s

theorem waitingStep_keepsOrWakes : M.Keeps State.KeepsOrWakes waitingStep :=
  have hR := State.KeepsOrWakes.phaseRel
  have h0 := hR.toStateRel
  .bind h0 (.modify fun s => hR.charge s _) fun _ => .bind h0 (.modify .tick) fun _ => hR.poll

/-- No instruction ends a run as Exhausted (`40_cycle_and_alu.md` R132). -/
theorem exec_run_ne_exhausted {i : Instr} {s t : State} (h : exec i s = .next t) (hs : s.run ≠ .exhausted) :
    t.run ≠ .exhausted := by
  by_cases hstop : i = .stop
  · subst hstop; cases h; nofun
  by_cases hhalt : i = .halt
  · subst hhalt; cases h; nofun
  obtain ⟨-, -, -, -, -, -, hrun⟩ := onlyTransfersWritePc i s t h
  rcases hrun hstop hhalt with hrun | ⟨r, hrun⟩
  · rw [hrun]; exact hs
  · rw [hrun]; nofun

/-! ### Steps by their phases -/

/-- What a step is (`40_cycle_and_alu.md` R130): the end at the ceiling, an instruction cycle, or a waiting step. -/
theorem step_cases {s t : State} (h : step s = .next t) :
    (s.ceilingReached = true ∧ t = s.exhaust) ∨ (s.run = .running ∧ instructionCycle s = .next t) ∨
      (s.run = .waiting ∧ M.finish waitingStep s = .next t) := by
  unfold step at h
  split at h
  · cases h
  · cases h
  · cases h
  · next hrun =>
    split at h
    · next hc => cases h; exact .inl ⟨hc, rfl⟩
    · exact .inr (.inl ⟨hrun, h⟩)
  · next hrun =>
    split at h
    · next hc => cases h; exact .inl ⟨hc, rfl⟩
    · exact .inr (.inr ⟨hrun, h⟩)

/-- A cycle that faults nowhere goes through all its phases (`40_cycle_and_alu.md` R131). -/
theorem instructionCycle_phases {s t : State} (h : instructionCycle s = .next t) (ht : t.run.isFaulted = false) :
    ∃ i u v, fetchInstr s = .ok i u ∧ exec i u = .next v ∧ endOfCycle (isIf i) v = .ok () t := by
  unfold instructionCycle at h
  split at h
  · cases h; cases ht
  · next i u hfetch =>
    obtain ⟨v, hexec⟩ := exec_next i u
    rw [hexec] at h
    simp only [closeCycle] at h
    split at h
    · next hf => cases h; rw [hf] at ht; cases ht
    · exact ⟨i, u, v, hfetch, hexec, M.finish_not_faulted h ht⟩

/-- A running machine becomes Exhausted at the ceiling alone (`40_cycle_and_alu.md` R132). -/
theorem instructionCycle_run_ne_exhausted {s t : State} (h : instructionCycle s = .next t) (hs : s.run = .running) :
    t.run ≠ .exhausted := by
  intro ht
  obtain ⟨i, u, v, hfetch, hexec, hend⟩ := instructionCycle_phases h (by rw [ht]; rfl)
  have hu : u.run ≠ .exhausted := by
    rcases (State.KeepsOrWakes.phaseRel.fetchInstr s).1 _ _ hfetch with hk | ⟨-, hk⟩ <;> simp [hk, hs]
  have hv := exec_run_ne_exhausted hexec hu
  rcases (endOfCycle_keepsOrWakes _ v).1 _ _ hend with hk | ⟨-, hk⟩
  · exact hv (hk.symm.trans ht)
  · rw [hk] at ht; cases ht

/-- A waiting step waits on, wakes the machine, or faults (`60_exceptions.md` R360). -/
theorem waitingStep_run {s t : State} (h : M.finish waitingStep s = .next t) (hs : s.run = .waiting) :
    t.run = .waiting ∨ t.run = .running ∨ t.run.isFaulted = true := by
  rcases M.finish_cases h with hok | ⟨r, u, -, rfl⟩
  · rcases (waitingStep_keepsOrWakes s).1 _ _ hok with hk | ⟨-, hk⟩
    · exact .inl (hk.trans hs)
    · exact .inr (.inl hk)
  · exact .inr (.inr rfl)

/-! ### No line is left dirty -/

/-- No occupied line owes the bus its byte (`20_memory.md` R74). -/
def State.Flushed (s : State) : Prop := ∀ l ∈ s.lines, l.tag ≠ sentinel → l.dirty = false

theorem cacheFlushLines_clean {lines : List CacheLine} {l : CacheLine} (hl : l ∈ cacheFlushLines lines)
    (ht : l.tag ≠ sentinel) : l.dirty = false := by
  obtain ⟨k, -, rfl⟩ := List.mem_map.mp hl
  split at ht
  · next hf => rw [if_pos hf]
  · next hf =>
    rw [if_neg hf]
    simpa [CacheLine.needsFlush, ht] using hf

theorem State.flushed_flushAll (s : State) : s.flushAll.Flushed := fun _ hl ht => cacheFlushLines_clean hl ht

/-- The bus has what the core sees when no occupied line is dirty (`20_memory.md` R74). -/
theorem State.read_prog_of_flushed {s : State} (hs : s.CoreInv) (hf : s.Flushed) {a : Word} (ha : a ≠ sentinel) :
    Memory.read s.prog a = s.progView a := by
  by_cases hc : ∃ (i : Nat) (l : CacheLine), s.lines[i]? = some l ∧ l.tag = a
  · obtain ⟨i, l, hl, rfl⟩ := hc
    have hview : s.progView l.tag = l.data := cacheView_of_cached s.prog hl ha fun j k hk ht =>
      hs.cache.tags j i k l hk hl ht (by rwa [ht])
    rw [hview, hs.cache.coherent i l hl ha (hf l (List.mem_of_getElem? hl) ha)]
  · exact (cacheView_of_not_cached s.prog fun i l hl ht => hc ⟨i, l, hl, ht⟩).symm

theorem endOfCycle_flushed {wasIf : Bool} {s t : State} (h : endOfCycle wasIf s = .ok () t) (ht : t.run = .stopped) :
    t.Flushed := by
  obtain ⟨_, u, -, h⟩ := M.bind_eq_ok.mp h
  obtain ⟨_, v, -, h⟩ := M.bind_eq_ok.mp h
  obtain ⟨_, w, -, h⟩ := M.bind_eq_ok.mp h
  cases h
  by_cases hw : w.run = .stopped
  · simp only [if_pos hw]; exact w.flushed_flushAll
  · simp only [if_neg hw] at ht; exact absurd ht hw

/-- THE STEP THAT ENDS A RUN FLUSHES (`40_cycle_and_alu.md` R131, R132). -/
theorem step_flushed {s t : State} (h : step s = .next t) (ht : t.run = .stopped ∨ t.run = .exhausted) : t.Flushed := by
  rcases step_cases h with ⟨-, rfl⟩ | ⟨hrun, hcycle⟩ | ⟨hrun, hwait⟩
  · exact s.flushed_flushAll
  · rcases ht with ht | ht
    · obtain ⟨i, u, v, -, -, hend⟩ := instructionCycle_phases hcycle (by rw [ht]; rfl)
      exact endOfCycle_flushed hend ht
    · exact absurd ht (instructionCycle_run_ne_exhausted hcycle hrun)
  · have := waitingStep_run hwait hrun
    rcases ht with ht | ht <;> simp [ht, RunState.isFaulted] at this

/-- Settles O10: the last step flushes, and in a flushed state with the core invariant the bus has the view. -/
theorem programEndFlushes : Obligations.ProgramEndFlushes := by
  intro s t hs h ht
  have hf := step_flushed h ht
  exact ⟨fun a ha => State.read_prog_of_flushed (step_keeps State.CoreStep.stepRel h hs) hf ha, hf⟩

end Sys2Proof.Machine
end

section
/-! SUPPORT. The encoding (`30_encoding.md`): what the first byte of an instruction says of its length, and that the decoder and
the encoder are inverse to each other. -/

namespace Sys2Proof

open Sys2Proof.Statements

/-! ### The fields of an instruction's bytes -/

@[simp] theorem CC.ofCode_code (cc : CC) : CC.ofCode cc.code = cc := by cases cc <;> rfl

@[simp] theorem CC.code_ofCode (c : Nib) : (CC.ofCode c).code = c := by revert c; decide

/-- The second byte of IF (`30_encoding.md` R102 F12) from its three fields. -/
theorem fields_ifByte : ∀ (c : Nib) (t f : Count),
    hiNib (c ++ t ++ f) = c ∧ (c ++ t ++ f).extractLsb' 2 2 = t ∧ (c ++ t ++ f).extractLsb' 0 2 = f := by decide

@[simp] theorem ifByte_fields (b : Byte) : hiNib b ++ b.extractLsb' 2 2 ++ b.extractLsb' 0 2 = b := by revert b; decide

/-- A byte by its row and its column in the opcode map (`30_encoding.md` R100). -/
theorem eq_ofNat_row_column {b : Byte} {row col : Nat} (hrow : (hiNib b).toNat = row) (hcol : (loNib b).toNat = col) :
    b = BitVec.ofNat 8 (16 * row + col) := by
  subst hrow hcol; revert b; decide

/-- A byte of a column whose high nibble is an operand (`30_encoding.md` R109). -/
theorem ofNibs_hiNib_column {b : Byte} {col : Nat} (hcol : (loNib b).toNat = col) :
    ofNibs (hiNib b) (BitVec.ofNat 4 col) = b := by
  rw [← hcol, BitVec.ofNat_toNat, BitVec.setWidth_eq, ofNibs_hiNib_loNib]

/-! ### Lengths -/

/-- Every cell of columns 8 to E is legal, and its length is its column's (`30_encoding.md` R101, R109). -/
theorem operandWidth_ofNibs : ∀ h l : Nib, 8 ≤ l → l ≠ 15 →
    operandWidth (ofNibs h l) = some (if l = 14 then 0 else if l = 13 then 2 else 1) := by decide

theorem exists_encode_eq_cons (i : Instr) : ∃ b0 ops, encode i = b0 :: ops := by
  cases i <;> exact ⟨_, _, rfl⟩

/-- The size table has the number of operand bytes of every encoding (`30_encoding.md` R101, R114). -/
theorem operandWidth_encode {i : Instr} {b0 : Byte} {ops : List Byte} (h : encode i = b0 :: ops) :
    operandWidth b0 = some ops.length := by
  cases i <;> cases h
  case ldWR d r => exact operandWidth_ofNibs d 8 (by decide) (by decide)
  case ldRW d w => exact operandWidth_ofNibs w 9 (by decide) (by decide)
  case djnz w ra => exact operandWidth_ofNibs w 10 (by decide) (by decide)
  case jr cc ra => exact operandWidth_ofNibs cc.code 11 (by decide) (by decide)
  case ldWIM d im => exact operandWidth_ofNibs d 12 (by decide) (by decide)
  case jp cc da => exact operandWidth_ofNibs cc.code 13 (by decide) (by decide)
  case incW w => exact operandWidth_ofNibs w 14 (by decide) (by decide)
  all_goals rfl

/-- The size table and the lengths by position agree on every legal byte (`30_encoding.md` R101, R114). -/
theorem lengthByPosition_of_operandWidth {b0 : Byte} {n : Nat} (h : operandWidth b0 = some n) :
    n + 1 = lengthByPosition b0 := by
  have hall : ∀ b : Byte, ∀ n ∈ operandWidth b, n + 1 = lengthByPosition b := by decide
  exact hall b0 n h

/-- Settles O3: the size table has the length of every encoding, and at every byte it has the length by position. -/
theorem instructionLength : Obligations.InstructionLength := by
  intro i
  obtain ⟨b0, ops, h⟩ := exists_encode_eq_cons i
  have hw := operandWidth_encode h
  exact ⟨b0, ops, h, lengthByPosition_of_operandWidth hw, hw⟩

/-! ### The decoder takes back what the encoder wrote -/

/-- An instruction of two nibbles is read back from the byte that holds them (`30_encoding.md` R102 F4, F7). -/
theorem some_nibs (f : Nib → Nib → Instr) (h l : Nib) :
    some (f (hiNib (ofNibs h l)) (loNib (ofNibs h l))) = some (f h l) := by
  simp

/-- An instruction of an address is read back from its two bytes (`30_encoding.md` R102 F10, F11). -/
theorem some_bytes (f : Word → Instr) (w : Word) : some (f (ofBytes (hiByte w) (loByte w))) = some (f w) := by
  simp

/-- IF is read back from its second byte (`30_encoding.md` R102 F12). -/
theorem some_ifFields (cc : CC) (t f : Count) :
    some (Instr.ifPred (CC.ofCode (hiNib (cc.code ++ t ++ f))) ((cc.code ++ t ++ f).extractLsb' 2 2)
      ((cc.code ++ t ++ f).extractLsb' 0 2)) = some (.ifPred cc t f) := by
  simp [fields_ifByte]

/-- The opcode map at the first byte of an encoding gives the instruction back from its operand bytes, whatever follows
(`30_encoding.md` R102, R106). -/
theorem decodeOpcode_encode {i : Instr} {b0 : Byte} {ops : List Byte} (rest : List Byte) (h : encode i = b0 :: ops) :
    decodeOpcode b0 ((ops ++ rest).getD 0 0) ((ops ++ rest).getD 1 0) = some i := by
  cases i <;> cases h
  case addWW d w | adcWW d w | subWW d w | sbcWW d w | orWW d w | andWW d w | tcmWW d w | tmWW d w | cpWW d w | xorWW d w
      | addWIW d w | adcWIW d w | subWIW d w | sbcWIW d w | orWIW d w | andWIW d w | tcmWIW d w | tmWIW d w | cpWIW d w
      | xorWIW d w | ldWIW d w | ldIWW d w | ldeLoad d w | ldeStore d w | ldeiLoad d w | ldeiStore d w | ldcLoad d w
      | ldcStore d w | ldciLoad d w | ldciStore d w => exact some_nibs _ d w
  case ldWX d x off => exact some_nibs (.ldWX · · off) d x
  case ldXW d x off => exact some_nibs (.ldXW · · off) d x
  case callDA da => exact some_bytes .callDA da
  case ldWR | ldRW | djnz | jr | ldWIM | jp | incW => simp [decodeOpcode]
  case ifPred cc t f => exact some_ifFields cc t f
  all_goals rfl

/-- A long enough byte list with a legal first byte decodes to what the opcode map gives. -/
theorem decode_cons {b0 : Byte} {rest : List Byte} {n : Nat} {i : Instr} (hw : operandWidth b0 = some n)
    (hlen : n ≤ rest.length) (hop : decodeOpcode b0 (rest.getD 0 0) (rest.getD 1 0) = some i) :
    decode (b0 :: rest) = .ok (i, rest.drop n) := by
  simp only [decode, hw, if_neg (Nat.not_lt.mpr hlen), hop]

/-- Settles O1: the length is the size table's, and the opcode map reads back every operand field. -/
theorem decodeEncode : Obligations.DecodeEncode := by
  intro i rest
  obtain ⟨b0, ops, h⟩ := exists_encode_eq_cons i
  rw [h, List.cons_append, decode_cons (operandWidth_encode h) (by simp) (decodeOpcode_encode rest h), List.drop_left]

/-- Settles O5: each word is the encoding of its instruction. -/
theorem decodeWords : Obligations.DecodeWords :=
  have h := decodeEncode
  ⟨h .nop [], h (.incW 3) [], h (.rlcIR 0x20) [], h (.srp 0x70) [], h (.ldeiStore 4 2) [], h (.ldRR 0x41 0x40) [],
    h (.addRIM 0x20 0x01) [], h (.ldWX 3 4 0x10) [], h (.djnz 2 0xFC) [], h (.jr .eq 0x05) [], h (.jp .ne 0x1234) [],
    h (.callDA 0x1234) [], h (.ifPred .always 2 1) []⟩

/-! ### The encoder writes what the decoder read -/

/-- The encoding of what the opcode map gives is made of the bytes the map was asked for (`30_encoding.md` R102, R106): by the
columns of the map, and in columns 0 to 7 and F by the rows. -/
theorem encode_of_decodeOpcode {b0 b1 b2 : Byte} {i : Instr} (h : decodeOpcode b0 b1 b2 = some i) :
    encode i <+: [b0, b1, b2] := by
  obtain ⟨row, hrow⟩ : ∃ row, (hiNib b0).toNat = row := ⟨_, rfl⟩
  obtain ⟨col, hcol⟩ : ∃ col, (loNib b0).toNat = col := ⟨_, rfl⟩
  simp only [decodeOpcode, hrow, hcol] at h
  split at h
  case h_9 | h_10 | h_11 | h_12 | h_13 | h_14 | h_15 => cases h; simp [encode, ofNibs_hiNib_column hcol]
  case h_16 =>
    have hlt : col < 16 := hcol ▸ (loNib b0).isLt
    obtain rfl : col = 15 := by simp only [imp_false] at *; omega
    obtain rfl := eq_ofNat_row_column hrow hcol
    unfold decodeColumnF at h
    split at h <;> cases h <;> simp [encode]
  all_goals
    obtain rfl := eq_ofNat_row_column hrow hcol
    simp only [decodeColumn0, decodeColumn1, decodeColumn2, decodeColumn3, decodeColumn4, decodeColumn5, decodeColumn6,
      decodeColumn7] at h
    split at h <;> cases h <;> simp [encode]

/-- The operand bytes the opcode map is asked for are those of the list, where the list has them. -/
theorem take_getD_pair {l : List Byte} {n : Nat} (hn : n ≤ 2) (hl : n ≤ l.length) :
    [l.getD 0 0, l.getD 1 0].take n = l.take n := by
  match n, l, hn, hl with
  | 0, _, _, _ => rfl
  | 1, _ :: _, _, _ => rfl
  | 2, _ :: _ :: _, _, _ => rfl

/-- What bytes that decode are: a legal first byte, its operand bytes, the rest (`30_encoding.md` R100, R101). -/
theorem decode_eq_ok {bytes rest : List Byte} {i : Instr} (h : decode bytes = .ok (i, rest)) :
    ∃ b0 tail n, bytes = b0 :: tail ∧ operandWidth b0 = some n ∧ n ≤ tail.length ∧
      decodeOpcode b0 (tail.getD 0 0) (tail.getD 1 0) = some i ∧ rest = tail.drop n := by
  unfold decode at h
  split at h
  · cases h
  · next b0 tail =>
    split at h
    · cases h
    · next n hw =>
      split at h
      · cases h
      · next hlen =>
        split at h
        · next hop => cases h; exact ⟨b0, tail, n, rfl, hw, Nat.not_lt.mp hlen, hop, rfl⟩
        · cases h

/-- Settles O2: the bytes a decoding takes are those the opcode map was asked for, as many as the encoding has. -/
theorem encodeDecode : Obligations.EncodeDecode := by
  intro bytes rest i h
  obtain ⟨b0, tail, n, rfl, hw, hlen, hop, rfl⟩ := decode_eq_ok h
  obtain ⟨b, ops, henc⟩ := exists_encode_eq_cons i
  have hpre := encode_of_decodeOpcode hop
  rw [henc, List.cons_prefix_cons] at hpre
  obtain ⟨rfl, hpre⟩ := hpre
  obtain rfl : ops.length = n := Option.some.inj ((operandWidth_encode henc).symm.trans hw)
  have hops : ops = tail.take ops.length := by
    rw [← take_getD_pair hpre.length_le hlen]
    obtain ⟨more, hmore⟩ := hpre
    rw [← hmore, List.take_left]
  rw [henc, List.cons_append, hops, List.length_take, Nat.min_eq_left hlen, List.take_append_drop]

/-! ### Illegal first bytes -/

/-- The size table lacks exactly the 22 illegal bytes (`30_encoding.md` R112, R114). -/
theorem operandWidth_eq_none {b0 : Byte} : operandWidth b0 = none ↔ b0 ∈ illegalOpcodes := by revert b0; decide

/-- The opcode map has an instruction exactly where the size table has an entry, whatever the operand bytes
(`30_encoding.md` R106, R112, R114). -/
theorem isSome_decodeOpcode (b0 b1 b2 : Byte) : (decodeOpcode b0 b1 b2).isSome = (operandWidth b0).isSome := by
  have hcell : (decodeOpcode b0 b1 b2).isSome = (decodeOpcode b0 0 0).isSome := by
    simp only [decodeOpcode]
    split
    case h_9 | h_10 | h_11 | h_12 | h_13 | h_14 | h_15 => rfl
    all_goals
      simp only [decodeColumn0, decodeColumn1, decodeColumn2, decodeColumn3, decodeColumn4, decodeColumn5, decodeColumn6,
        decodeColumn7, decodeColumnF]
      split <;> rfl
  have hlegal : ∀ b : Byte, (decodeOpcode b 0 0).isSome = (operandWidth b).isSome := by decide
  rw [hcell, hlegal]

/-- The decoder refuses a first byte exactly when the size table has no entry for it (`30_encoding.md` R112). -/
theorem decode_eq_illegalOpcode (b0 : Byte) (rest : List Byte) :
    decode (b0 :: rest) = .error (.illegalOpcode b0) ↔ operandWidth b0 = none := by
  constructor
  · intro h
    by_contra hw
    obtain ⟨n, hw⟩ := Option.ne_none_iff_exists'.mp hw
    have hsome := isSome_decodeOpcode b0 (rest.getD 0 0) (rest.getD 1 0)
    rw [hw, Option.isSome_some] at hsome
    obtain ⟨i, hop⟩ := Option.isSome_iff_exists.mp hsome
    by_cases hlen : rest.length < n
    · simp [decode, hw, hlen] at h
    · rw [decode_cons hw (Nat.not_lt.mp hlen) hop] at h
      cases h
  · intro hw
    simp only [decode, hw]

end Sys2Proof
end

section
/-! SUPPORT. The start of an instruction cycle (`40_cycle_and_alu.md` R131): the fetch in terms of the core's view, and the cycle
that meets an illegal opcode (`30_encoding.md` R112). -/

namespace Sys2Proof.Machine

open Sys2Proof.Statements

/-- A fetch answers the byte of the view at pc and moves pc past it (`20_memory.md` R73, R78). -/
theorem fetch_view {s : State} (hs : s.CoreInv) (hpc : s.pc ≠ sentinel) :
    ∃ t, fetch s = .ok (s.progView s.pc) t ∧ SameProgram s t ∧
      t = { s with pc := s.pc + 1, lines := t.lines, prog := t.prog } := by
  obtain ⟨t, hread, hview, ht⟩ := programRead_view hs hpc
  refine ⟨{ t with pc := s.pc + 1 }, ?_, hview, by rw [ht]⟩
  simp [fetch, hread]

/-- At an illegal byte the fetch faults after that byte, its cost not charged (`30_encoding.md` R112). -/
theorem fetchInstr_illegal {s : State} (hs : s.CoreInv) (hpc : s.pc ≠ sentinel)
    (hw : operandWidth (s.progView s.pc) = none) :
    ∃ t, fetchInstr s = .error .illegalOpcode t ∧ t = { s with pc := s.pc + 1, lines := t.lines, prog := t.prog } := by
  obtain ⟨t, hfetch, -, ht⟩ := fetch_view hs hpc
  refine ⟨t, M.bind_eq_error.mpr (.inr ⟨_, t, hfetch, ?_⟩), ht⟩
  rw [hw]; rfl

/-- Below the ceiling a running machine's step is an instruction cycle (`40_cycle_and_alu.md` R130). -/
theorem step_running {s : State} (hrun : s.run = .running) (hceil : s.ceilingReached = false) :
    step s = instructionCycle s := by
  simp [step, hrun, hceil]

/-- Settles O4: the size table lacks exactly the illegal bytes, and at one of them the cycle ends with its fetch. -/
theorem illegalOpcodes : Obligations.IllegalOpcodes := by
  refine ⟨fun b0 rest => (decode_eq_illegalOpcode b0 rest).trans operandWidth_eq_none, fun s hs hrun hceil hpc hw => ?_⟩
  obtain ⟨t, hfetch, ht⟩ := fetchInstr_illegal hs hpc hw
  refine ⟨t.raise .illegalOpcode, by rw [step_running hrun hceil, instructionCycle, hfetch], rfl, ?_⟩
  rw [ht]
  exact ⟨rfl, rfl, rfl, rfl, rfl⟩

end Sys2Proof.Machine
end

section
/-! SUPPORT. One step by its phases (`40_cycle_and_alu.md` R130 to R133): what a step is in each run state and at the ceiling, the
fetch of a decoded instruction, and the phases after its execution. -/

namespace Sys2Proof.Machine

open Sys2Proof.Statements

/-! ### The ceiling -/

theorem State.ceilingReached_iff {s : State} :
    s.ceilingReached = true ↔ ∃ c, s.cfg.ceiling = some c ∧ c ≤ s.cycles := by
  cases hc : s.cfg.ceiling <;> simp [State.ceilingReached, hc]

/-- At the ceiling a running or waiting machine's step is the end of the run (`40_cycle_and_alu.md` R132). -/
theorem step_ceiling {s : State} (hrun : s.run = .running ∨ s.run = .waiting) (hceil : s.ceilingReached = true) :
    step s = .next s.exhaust := by
  rcases hrun with hrun | hrun <;> simp [step, hrun, hceil]

/-- Below the ceiling no step ends Exhausted (`40_cycle_and_alu.md` R132). -/
theorem step_run_ne_exhausted {s t : State} (hceil : s.ceilingReached = false) (h : step s = .next t) :
    t.run ≠ .exhausted := by
  rcases step_cases h with ⟨hc, -⟩ | ⟨hrun, hcycle⟩ | ⟨hrun, hwait⟩
  · rw [hceil] at hc; cases hc
  · exact instructionCycle_run_ne_exhausted hcycle hrun
  · intro ht
    have := waitingStep_run hwait hrun
    simp [ht, RunState.isFaulted] at this

/-- Settles O9: the step at the ceiling flushes, and the flush leaves on the bus what the core saw; below it no phase ends a
run as Exhausted. -/
theorem ceilingExhausts : Obligations.CeilingExhausts := by
  refine ⟨fun s c hs hrun hc hle => ?_, fun s t hbelow h => step_run_ne_exhausted ?_ h⟩
  · exact ⟨s.exhaust, step_ceiling hrun (State.ceilingReached_iff.mpr ⟨c, hc, hle⟩), rfl,
      fun a _ => ((cacheFlush_spec hs.cache).2 a).1, rfl, rfl, rfl, rfl, rfl, rfl⟩
  · rw [← Bool.not_eq_true, State.ceilingReached_iff]
    rintro ⟨c, hc, hle⟩
    exact absurd (hbelow c hc) (Nat.not_lt.mpr hle)

/-! ### The run states -/

/-- Below the ceiling a waiting machine's step is a waiting step (`40_cycle_and_alu.md` R130). -/
theorem step_waiting {s : State} (hrun : s.run = .waiting) (hceil : s.ceilingReached = false) :
    step s = M.finish waitingStep s := by
  simp [step, hrun, hceil]

/-- A waiting step is the poll after the charge and the tick (`60_exceptions.md` R360). -/
theorem waitingStep_apply (s : State) : waitingStep s = poll (s.charge s.cfg.cost.wait).tick := rfl

/-- A fetch at 0xFFFF is refused before anything moves (`20_memory.md` R70). -/
theorem fetchInstr_sentinel {s : State} (hpc : s.pc = sentinel) : fetchInstr s = .error .sentinelAddress s := by
  simp [fetchInstr, fetch, programRead, hpc, programAccess_sentinel]

/-- Settles O8: one clause for each run state. -/
theorem stepByRunState : Obligations.StepByRunState := by
  intro s
  refine ⟨fun hrun => by simp [step, hrun], fun hrun => by simp [step, hrun], fun r hrun => by simp [step, hrun],
    fun hrun hceil => ?_, fun hrun hceil hpc => ?_⟩
  · rw [step_waiting hrun hceil]
    exact ⟨fun t h => M.finish_ok ((waitingStep_apply s).trans h), fun r t h => M.finish_error ((waitingStep_apply s).trans h)⟩
  · rw [step_running hrun hceil, instructionCycle, fetchInstr_sentinel hpc]
    rfl

/-! ### The phases after the execution -/

theorem closeCycle_of_faulted (i : Instr) {t : State} (ht : t.run.isFaulted = true) : closeCycle i (.next t) = .next t := by
  simp [closeCycle, ht]

theorem closeCycle_of_not_faulted (i : Instr) {t : State} (ht : t.run.isFaulted = false) :
    closeCycle i (.next t) = M.finish (endOfCycle (isIf i)) t := by
  simp [closeCycle, ht]

/-- Settles O7: the phases in their order, each reached when the one before it did not fault. -/
theorem cyclePhases : Obligations.CyclePhases := by
  intro i u t hexec
  rw [hexec]
  refine ⟨closeCycle_of_faulted i, fun ht => ?_⟩
  rw [closeCycle_of_not_faulted i ht]
  refine ⟨fun r v hbook => M.finish_error (M.bind_eq_error.mpr (.inl hbook)), fun v hbook => ?_⟩
  refine ⟨fun r w hpoll => M.finish_error ?_, fun w hpoll => M.finish_ok ?_⟩
  · simp [endOfCycle, hbook, hpoll]
  · simp [endOfCycle, hbook, hpoll]

/-! ### The fetch of a decoded instruction -/

theorem add_ofNat_succ (a : Word) (k : Nat) : a + BitVec.ofNat 16 (k + 1) = a + 1 + BitVec.ofNat 16 k := by
  rw [BitVec.ofNat_add, BitVec.add_comm (BitVec.ofNat 16 k), ← BitVec.add_assoc]
  rfl

/-- The core's view holds `bytes` from pc on, none of them at 0xFFFF. -/
def State.Holds (s : State) (bytes : List Byte) : Prop :=
  ∀ (k : Nat) (hk : k < bytes.length),
    s.pc + BitVec.ofNat 16 k ≠ sentinel ∧ s.progView (s.pc + BitVec.ofNat 16 k) = bytes[k]

/-- A fetch answers the first byte the view holds and leaves the others before it (`20_memory.md` R73, R78). -/
theorem State.Holds.fetch {s : State} (hs : s.CoreInv) {b : Byte} {ops : List Byte} (h : s.Holds (b :: ops)) :
    ∃ t, Machine.fetch s = .ok b t ∧ t.CoreInv ∧ t.Holds ops ∧ SameProgram s t ∧
      t = { s with pc := s.pc + 1, lines := t.lines, prog := t.prog } := by
  obtain ⟨hpc, hb⟩ := h 0 (Nat.zero_lt_succ _)
  simp only [BitVec.add_zero, List.getElem_cons_zero] at hpc hb
  obtain ⟨t, hfetch, hview, ht⟩ := fetch_view hs hpc
  refine ⟨t, hb ▸ hfetch, (fetch_keeps State.CoreStep.stepRel.toMachineRel s).1 _ _ hfetch hs, fun k hk => ?_, hview, ht⟩
  have hnext : t.pc + BitVec.ofNat 16 k = s.pc + BitVec.ofNat 16 (k + 1) := by
    rw [ht, add_ofNat_succ]
  obtain ⟨hne, hbyte⟩ := h (k + 1) (Nat.succ_lt_succ hk)
  rw [hnext, hview _ hne]
  exact ⟨hne, hbyte⟩

/-- Fetching as many bytes as the view holds answers them and moves pc past them (`20_memory.md` R80). -/
theorem State.Holds.fetchMany {s : State} (hs : s.CoreInv) {ops : List Byte} (h : s.Holds ops) :
    ∃ t, Machine.fetchMany ops.length s = .ok ops t ∧ SameProgram s t ∧
      t = { s with pc := s.pc + BitVec.ofNat 16 ops.length, lines := t.lines, prog := t.prog } := by
  induction ops generalizing s with
  | nil => exact ⟨s, rfl, fun _ _ => rfl, by simp⟩
  | cons b ops ih =>
    obtain ⟨t, hfetch, hcore, hrest, hview, ht⟩ := h.fetch hs
    obtain ⟨u, hmany, hview', hu⟩ := ih hcore hrest
    refine ⟨u, by simp [Machine.fetchMany, hfetch, hmany], fun a ha => (hview' a ha).trans (hview a ha), ?_⟩
    rw [hu, ht, List.length_cons, add_ofNat_succ]

/-- THE FETCH OF AN INSTRUCTION whose encoding the view holds: that instruction, pc past its bytes, the cost of its first byte
charged (`40_cycle_and_alu.md` R131). -/
theorem State.Holds.fetchInstr {s : State} (hs : s.CoreInv) {i : Instr} {b : Byte} {ops : List Byte}
    (henc : encode i = b :: ops) (h : s.Holds (b :: ops)) :
    ∃ u, Machine.fetchInstr s = .ok i u ∧ SameProgram s u ∧
      u = { s with
            pc := s.pc + BitVec.ofNat 16 (ops.length + 1), cycles := s.cycles + s.cfg.cost.op[b.toNat]'b.isLt
            lines := u.lines, prog := u.prog } := by
  obtain ⟨t, hfetch, hcore, hrest, hview, ht⟩ := h.fetch hs
  have hcharged : (t.charge (t.cfg.cost.op[b.toNat]'b.isLt)).CoreInv := State.CoreStep.stepRel.charge t _ hcore
  obtain ⟨u, hmany, hview', hu⟩ := State.Holds.fetchMany hcharged hrest
  have hop := decodeOpcode_encode [] henc
  rw [List.append_nil] at hop
  refine ⟨u, ?_, fun a ha => (hview' a ha).trans (hview a ha), ?_⟩
  · simp only [Machine.fetchInstr, Machine.fetchOperandBytes, M.bind_apply, M.modify_apply, M.pure_apply, hfetch,
      operandWidth_encode henc, hmany, hop]
  · rw [hu, ht, add_ofNat_succ]
    rfl

/-- Settles O6: the bytes at pc are the encoding of what they decode to, the fetch takes them, and a relation every fetch keeps
gives the core invariant after it. -/
theorem stepRunsDecoded : Obligations.StepRunsDecoded := by
  intro s i rest hs hrun hceil hdec hpc
  obtain ⟨b, ops, henc, hlen, -⟩ := instructionLength i
  have hpre : b :: ops <+: [s.progView s.pc, s.progView (s.pc + 1), s.progView (s.pc + 2)] :=
    henc ▸ ⟨rest, (encodeDecode _ _ _ hdec).symm⟩
  obtain ⟨rfl, -⟩ := List.cons_prefix_cons.mp hpre
  have hholds : s.Holds (s.progView s.pc :: ops) := by
    refine fun k hk => ⟨hpc k (hlen ▸ hk), ?_⟩
    rw [hpre.getElem hk]
    match k, Nat.lt_of_lt_of_le hk hpre.length_le with
    | 0, _ => simp
    | 1, _ | 2, _ => rfl
  obtain ⟨u, hfetch, hview, hu⟩ := hholds.fetchInstr hs henc
  refine ⟨u, by rw [step_running hrun hceil, instructionCycle, hfetch],
    (fetchInstr_keeps State.CoreStep.stepRel.toMachineRel s).1 _ _ hfetch hs, ?_⟩
  rw [← hlen]
  refine ⟨?_, ?_, ?_, ?_, ?_, ?_, ?_, ?_, ?_, hview⟩ <;> rw [hu]

end Sys2Proof.Machine
end

section
/-! SUPPORT. The ALU primitives and their flags in the arithmetic of the spec (`40_cycle_and_alu.md` R140 to R150): the sums and
differences in integers, the logic, rotate and shift results bit by bit, the decimal adjust, the condition codes. -/

namespace Sys2Proof.Machine

open Sys2Proof.Statements

/-! ### Bits as arithmetic -/

/-- Bit `i` of a byte as a digit of its number (`00_scope.md` R10). -/
theorem bit_eq_decide (b : Byte) (i : Nat) : bit b i = decide (b.toNat / 2 ^ i % 2 = 1) :=
  Nat.testBit_eq_decide_div_mod_eq

/-- The sign bit of a byte. -/
theorem bit_seven (b : Byte) : bit b 7 = decide (128 ≤ b.toNat) := by
  rw [bit_eq_decide, decide_eq_decide]; omega

/-- The sign bit of a word. -/
theorem getLsbD_fifteen (w : Word) : w.getLsbD 15 = decide (32768 ≤ w.toNat) := by
  rw [BitVec.getLsbD, Nat.testBit_eq_decide_div_mod_eq, decide_eq_decide]; omega

/-- The comparison of H: bit 4 of two bytes is equal (`40_cycle_and_alu.md` R144). -/
theorem bit_four_beq (r a : Byte) : (bit r 4 == bit a 4) = decide (a.toNat / 16 % 2 = r.toNat / 16 % 2) := by
  rw [bit_eq_decide, bit_eq_decide, Bool.eq_iff_iff, beq_iff_eq, decide_eq_decide, decide_eq_true_iff]
  omega

/-- A byte is zero when its number is. -/
theorem byte_beq_zero (r : Byte) : (r == 0) = decide (r.toNat = 0) := by
  rw [Bool.eq_iff_iff, beq_iff_eq, decide_eq_true_iff, BitVec.toNat_eq]; rfl

theorem xor_ones (b : Byte) : b ^^^ 0xFF#8 = ~~~b := BitVec.xor_allOnes

theorem bitNat_le (v : Bool) : bitNat v ≤ 1 := by cases v <;> decide

/-- Bit 8 of a sum of two bytes and a carry is the carry out of the byte. -/
theorem testBit_eight {t : Nat} (ht : t < 512) : t.testBit 8 = decide (256 ≤ t) := by
  rw [Nat.testBit_eq_decide_div_mod_eq, decide_eq_decide]; omega

/-! ### Addition and subtraction -/

/-- The result of `AddPrim` in the integers (`40_cycle_and_alu.md` R140). -/
theorem toNat_addPrim (a b : Byte) (cin : Bool) :
    (addPrim a b cin).1.toNat = (a.toNat + b.toNat + bitNat cin) % 256 := by
  simp [addPrim]

/-- The flags of `AddPrim` (`40_cycle_and_alu.md` R140, R143 to R145). -/
theorem flags_addPrim (a b : Byte) (cin : Bool) :
    let r := (addPrim a b cin).1
    (addPrim a b cin).2 =
      { c := some (decide (256 ≤ a.toNat + b.toNat + bitNat cin)), z := some (decide ((a.toNat + b.toNat + bitNat cin) % 256 = 0))
        s := some (decide (128 ≤ r.toNat)), v := some (decide (128 ≤ a.toNat) != decide (128 ≤ r.toNat)), d := some false
        h := some (decide (a.toNat / 16 % 2 ≠ r.toNat / 16 % 2)) } := by
  have hc := testBit_eight (t := a.toNat + b.toNat + bitNat cin) (by have := bitNat_le cin; omega)
  simp only [addPrim, hc, byte_beq_zero, bit_seven, bne, bit_four_beq, decide_not, BitVec.toNat_ofNat, Nat.reducePow]

/-- The sum `SubPrim` forms with the complement, the inverted carry among it (`40_cycle_and_alu.md` R141). -/
theorem complementSum_eq (a b : Byte) (cin : Bool) :
    a.toNat + (b ^^^ 0xFF#8).toNat + (1 - bitNat cin) = a.toNat + 256 - b.toNat - bitNat cin := by
  have := bitNat_le cin
  rw [xor_ones, BitVec.toNat_not]
  omega

/-- The result of `SubPrim` in the integers (`40_cycle_and_alu.md` R141). -/
theorem toNat_subPrim (a b : Byte) (cin : Bool) :
    (subPrim a b cin).1.toNat = (a.toNat + 512 - b.toNat - bitNat cin) % 256 := by
  have := bitNat_le cin
  simp only [subPrim, complementSum_eq, BitVec.toNat_ofNat]
  omega

/-- The flags of `SubPrim`: the carry is a borrow, and H says that there was no half-borrow (`40_cycle_and_alu.md` R141 to
R145). -/
theorem flags_subPrim (a b : Byte) (cin : Bool) :
    let r := (subPrim a b cin).1
    (subPrim a b cin).2 =
      { c := some (decide (a.toNat < b.toNat + bitNat cin)), z := some (decide (r.toNat = 0))
        s := some (decide (128 ≤ r.toNat)), v := some (decide (128 ≤ a.toNat) != decide (128 ≤ r.toNat)), d := some true
        h := some (decide (a.toNat / 16 % 2 = r.toNat / 16 % 2)) } := by
  have hc : (!(a.toNat + 256 - b.toNat - bitNat cin).testBit 8) = decide (a.toNat < b.toNat + bitNat cin) := by
    have := bitNat_le cin
    rw [testBit_eight (by omega), ← decide_not, decide_eq_decide]
    omega
  simp only [subPrim, complementSum_eq, hc, byte_beq_zero, bit_seven, bit_four_beq]

/-- Settles O22: the result and the flags of `AddPrim`, and the carry-in of each of its two operations. -/
theorem addPrimitive : Obligations.AddPrimitive := by
  intro a b f
  exact ⟨rfl, by rw [← bit_seven]; rfl, fun cin => ⟨toNat_addPrim a b cin, flags_addPrim a b cin⟩⟩

/-- Subtracting what was added gives the first operand back (`40_cycle_and_alu.md` R153). -/
theorem subPrim_addPrim (a b : Byte) : (subPrim (addPrim a b false).1 b false).1 = a := by
  apply BitVec.eq_of_toNat_eq
  simp only [toNat_subPrim, toNat_addPrim, bitNat, Bool.false_eq_true, if_false]
  omega

/-- Settles O23: the result and the flags of `SubPrim`, and that it undoes `AddPrim`. -/
theorem subPrimitive : Obligations.SubPrimitive := by
  refine ⟨fun a b f => ⟨rfl, by rw [← bit_seven]; rfl, fun cin => ⟨toNat_subPrim a b cin, flags_subPrim a b cin⟩⟩,
    fun a b f f' f'' => ⟨subPrim_addPrim a b, ?_, ?_⟩⟩
  · have := toNat_subPrim a a false
    simp [aluEval, comparePrim, flags_subPrim, this, bitNat]
  · simp [aluEval, comparePrim, flags_subPrim, bitNat]

/-! ### Logic -/

/-- The flags of a logic result (`40_cycle_and_alu.md` R147). -/
theorem logicFlags_eq (r : Byte) :
    logicFlags r = { z := some (decide (r = 0)), s := some (r.getLsbD 7), v := some false } := rfl

/-- Settles O24: the result bits of each operation, and the flags of its result. -/
theorem logicOperations : Obligations.LogicOperations := by
  refine ⟨fun a b f j hj => ?_, fun op a b f hop => ?_, fun a f => logicFlags_eq _, fun op => by cases op <;> decide⟩
  · simp [aluEval, opCom, xor_ones, hj]
  · simp only [List.mem_cons, List.not_mem_nil, or_false] at hop
    rcases hop with rfl | rfl | rfl | rfl | rfl <;> exact logicFlags_eq _

/-! ### The decimal adjust -/

theorem toNat_hiNib (b : Byte) : (hiNib b).toNat = b.toNat / 16 := by
  have := b.isLt
  simp only [hiNib, BitVec.extractLsb'_toNat, Nat.shiftRight_eq_div_pow]
  omega

theorem toNat_loNib (b : Byte) : (loNib b).toNat = b.toNat % 16 := by
  simp [loNib]

/-- The correction after an addition: the low nibble is corrected from 10 on or by H, the high one from 0x9A on or by C
(`40_cycle_and_alu.md` R146). -/
theorem decimalCorrection_add {d f : Byte} (low high : Bool) (hD : flagD f = false)
    (hlow : (flagH f || decide (9 < d.toNat % 16)) = low) (hhigh : (flagC f || decide (0x9A ≤ d.toNat)) = high) :
    decimalCorrection d f = ((if low then 0x06#8 else 0) + (if high then 0x60#8 else 0), high) := by
  have hsplit : (decide (9 < d.toNat / 16) || decide (d.toNat / 16 = 9) && decide (9 < d.toNat % 16)) = decide (0x9A ≤ d.toNat) := by
    rw [Bool.eq_iff_iff]
    simp only [Bool.or_eq_true, Bool.and_eq_true, decide_eq_true_eq]
    omega
  subst hlow hhigh
  simp [decimalCorrection, hD, toNat_hiNib, toNat_loNib, Bool.or_assoc, hsplit]

/-- The correction after a subtraction (`40_cycle_and_alu.md` R146). -/
theorem decimalCorrection_sub {d f : Byte} (hD : flagD f = true) :
    decimalCorrection d f = ((if flagH f then 0xFA#8 else 0) + (if flagC f then 0xA0#8 else 0), flagC f) := by
  simp [decimalCorrection, hD]

/-- DA adds its correction; V, D and H are not written (`43_single_operand.md` R237). -/
theorem opDa_eq (d f : Byte) :
    let r := d + (decimalCorrection d f).1
    opDa d f = (r, { c := some (decimalCorrection d f).2, z := some (decide (r = 0)), s := some (r.getLsbD 7) }) := rfl

/-- A row of the table gives the correction and the carry (`40_cycle_and_alu.md` R146, D21). -/
theorem decimalCorrection_of_daRow {d f corr : Byte} {cn : Bool}
    (h : daRow (flagD f) (flagC f) (d.toNat / 16) (flagH f) (d.toNat % 16) corr cn) : decimalCorrection d f = (corr, cn) := by
  unfold daRow at h
  split at h
  case h_1 hD hC hH =>
    rcases h with ⟨hhi, hlo, rfl, rfl⟩ | ⟨hhi, hlo, rfl, rfl⟩ | ⟨hhi, hlo, rfl, rfl⟩ | ⟨hhi, hlo, rfl, rfl⟩
    · exact decimalCorrection_add false false hD (by simp [hH]; omega) (by simp [hC]; omega)
    · exact decimalCorrection_add true false hD (by simp [hH]; omega) (by simp [hC]; omega)
    · exact decimalCorrection_add false true hD (by simp [hH]; omega) (by simp [hC]; omega)
    · exact decimalCorrection_add true true hD (by simp [hH]; omega) (by simp [hC]; omega)
  case h_2 hD hC hH =>
    rcases h with ⟨hhi, hlo, rfl, rfl⟩ | ⟨hhi, -, rfl, rfl⟩
    · exact decimalCorrection_add true false hD (by simp [hH]) (by simp [hC]; omega)
    · exact decimalCorrection_add true true hD (by simp [hH]) (by simp [hC]; omega)
  case h_3 hD hC hH =>
    rcases h with ⟨-, hlo, rfl, rfl⟩ | ⟨-, hlo, rfl, rfl⟩
    · exact decimalCorrection_add false true hD (by simp [hH]; omega) (by simp [hC])
    · exact decimalCorrection_add true true hD (by simp [hH]; omega) (by simp [hC])
  case h_4 hD hC hH =>
    obtain ⟨-, -, rfl, rfl⟩ := h
    exact decimalCorrection_add true true hD (by simp [hH]) (by simp [hC])
  case h_5 hD hC hH | h_6 hD hC hH | h_7 hD hC hH | h_8 hD hC hH =>
    obtain ⟨-, -, rfl, rfl⟩ := h
    simp [decimalCorrection_sub hD, hC, hH]

/-- DA after an addition, modulo 256 (`43_single_operand.md` R237). -/
theorem toNat_opDa_add {d f : Byte} (hD : flagD f = false) :
    (opDa d f).1.toNat =
      (d.toNat + (if flagH f = true ∨ 9 < d.toNat % 16 then 6 else 0) + (if flagC f = true ∨ 0x9A ≤ d.toNat then 0x60 else 0)) %
        256 := by
  rw [opDa_eq, decimalCorrection_add _ _ hD rfl rfl]
  simp [BitVec.toNat_add, apply_ite BitVec.toNat, Nat.add_assoc]

/-- DA after a subtraction, modulo 256 (`43_single_operand.md` R237). -/
theorem toNat_opDa_sub {d f : Byte} (hD : flagD f = true) :
    (opDa d f).1.toNat =
      (d.toNat + 256 - (if flagH f = true then 6 else 0) - (if flagC f = true then 0x60 else 0)) % 256 := by
  have hd : d.toNat % 256 = d.toNat := Nat.mod_eq_of_lt d.isLt
  rw [opDa_eq, decimalCorrection_sub hD]
  cases flagH f <;> cases flagC f <;> simp [hd]

/-- Settles O26: the correction of an addition, of a subtraction, and of each row. -/
theorem decimalAdjustTable : Obligations.DecimalAdjustTable := by
  refine ⟨fun d f => ⟨fun hD => ⟨toNat_opDa_add hD, ?_⟩, fun hD => ⟨toNat_opDa_sub hD, ?_⟩, rfl, ?_, rfl, rfl, rfl⟩,
    fun d f corr cn hrow => ?_⟩
  · rw [opDa_eq, decimalCorrection_add _ _ hD rfl rfl]; rfl
  · rw [opDa_eq, decimalCorrection_sub hD]; rfl
  · rw [← bit_seven]; rfl
  · rw [opDa_eq, decimalCorrection_of_daRow hrow]

/-! ### Increment and decrement -/

/-- The flags of INC by the operand that sets them (`40_cycle_and_alu.md` R148). -/
theorem flags_opInc (d f : Byte) :
    (opInc d f).2 = { z := some (decide (d = 0xFF)), s := some (decide (127 ≤ d.toNat ∧ d.toNat < 255))
                      v := some (decide (d = 0x7F)) } := by
  have hz : (d + 1 == 0) = decide (d = 0xFF) := by rw [beq_eq_decide, decide_eq_decide]; bv_omega
  have hs : bit (d + 1) 7 = decide (127 ≤ d.toNat ∧ d.toNat < 255) := by rw [bit_seven, decide_eq_decide]; bv_omega
  have hv : (d + 1 == 0x80#8) = decide (d = 0x7F) := by rw [beq_eq_decide, decide_eq_decide]; bv_omega
  simp only [opInc, incFlags, hz, hs, hv]

/-- The flags of DEC by the operand that sets them (`40_cycle_and_alu.md` R148). -/
theorem flags_opDec (d f : Byte) :
    (opDec d f).2 = { z := some (decide (d = 0x01)), s := some (decide (d.toNat = 0 ∨ 129 ≤ d.toNat))
                      v := some (decide (d = 0x80)) } := by
  have hz : (d - 1 == 0) = decide (d = 0x01) := by rw [beq_eq_decide, decide_eq_decide]; bv_omega
  have hs : bit (d - 1) 7 = decide (d.toNat = 0 ∨ 129 ≤ d.toNat) := by rw [bit_seven, decide_eq_decide]; bv_omega
  have hv : (d - 1 == 0x7F#8) = decide (d = 0x80) := by rw [beq_eq_decide, decide_eq_decide]; bv_omega
  simp only [opDec, decFlags, hz, hs, hv]

/-- Settles O27: the results modulo 256, and each flag by the operand that sets it. -/
theorem incDecFlags : Obligations.IncDecFlags := by
  refine ⟨fun d f => ⟨BitVec.toNat_add d 1, ?_, flags_opInc d f, flags_opDec d f⟩, fun w => ⟨?_, ?_⟩⟩
  · rw [opDec, BitVec.toNat_sub, Nat.add_comm]; rfl
  · rw [incwFlags, getLsbD_fifteen]; rfl
  · rw [decwFlags, getLsbD_fifteen]; rfl

/-! ### Rotates and shifts -/

/-- A left shift moves every bit up by one place, and bit 0 takes what is put there (`40_cycle_and_alu.md` R149). -/
theorem getLsbD_rotateLeft (d : Byte) (v : Bool) :
    (∀ j < 7, (putBit (d <<< 1) 0 v).getLsbD (j + 1) = d.getLsbD j) ∧ (putBit (d <<< 1) 0 v).getLsbD 0 = v := by
  refine ⟨fun j hj => ?_, bit_putBit _ 0 0 v (by decide)⟩
  rw [← bit, bit_putBit _ _ _ _ (by omega), if_neg (by omega), bit, BitVec.getLsbD_shiftLeft]
  simp [show j + 1 < 8 by omega, -BitVec.getLsbD_eq_getElem]

/-- A right shift moves every bit down by one place, and bit 7 takes what is put there (`40_cycle_and_alu.md` R149). -/
theorem getLsbD_rotateRight (d : Byte) (v : Bool) :
    (∀ j < 7, (putBit (d >>> 1) 7 v).getLsbD j = d.getLsbD (j + 1)) ∧ (putBit (d >>> 1) 7 v).getLsbD 7 = v := by
  refine ⟨fun j hj => ?_, bit_putBit _ 7 7 v (by decide)⟩
  rw [← bit, bit_putBit _ _ _ _ (by omega), if_neg (by omega), bit]
  simp [Nat.add_comm]

/-- SRA moves every bit down by one place and keeps bit 7 (`40_cycle_and_alu.md` R149). -/
theorem getLsbD_opSra (d f : Byte) :
    (∀ j < 7, (opSra d f).1.getLsbD j = d.getLsbD (j + 1)) ∧ (opSra d f).1.getLsbD 7 = d.getLsbD 7 := by
  have hsign : ∀ j < 7, (0x80#8).getLsbD j = false := by decide
  refine ⟨fun j hj => ?_, ?_⟩
  · simp only [opSra, BitVec.getLsbD_or, BitVec.getLsbD_and, BitVec.getLsbD_ushiftRight, hsign j hj, Bool.and_false,
      Bool.or_false, Nat.add_comm]
  · simp [opSra]

theorem toNat_ofNibs (h l : Nib) : (ofNibs h l).toNat = h.toNat * 16 + l.toNat := by
  rw [ofNibs, BitVec.toNat_append, ← Nat.shiftLeft_add_eq_or_of_lt l.isLt, Nat.shiftLeft_eq]

/-- SWAP exchanges the nibbles (`43_single_operand.md` R248). -/
theorem toNat_opSwap (d f : Byte) : (opSwap d f).1.toNat = d.toNat % 16 * 16 + d.toNat / 16 := by
  simp only [opSwap, toNat_ofNibs, toNat_hiNib, toNat_loNib]

/-- The flags of SWAP by its operand: the new sign is the old bit 3 (`43_single_operand.md` R248). -/
theorem flags_opSwap (d f : Byte) : (opSwap d f).2 = { z := some (decide (d = 0)), s := some (d.getLsbD 3) } := by
  have hr := toNat_opSwap d f
  have hz : ((opSwap d f).1 == 0) = decide (d = 0) := by
    rw [byte_beq_zero, hr, ← beq_eq_decide d 0, byte_beq_zero, decide_eq_decide]; omega
  have hs : bit (opSwap d f).1 7 = bit d 3 := by
    simp only [opSwap, bit, ofNibs, loNib, BitVec.getLsbD_append, BitVec.getLsbD_extractLsb']; simp
  change ({ z := some ((opSwap d f).1 == 0), s := some (bit (opSwap d f).1 7) } : FlagBits) = _
  rw [hz, hs]
  rfl

/-- Settles O28: the result bits of each rotate from those of the shift it is, its flags, and SWAP by its nibbles. -/
theorem rotatesBitwise : Obligations.RotatesBitwise := by
  refine ⟨fun d f j hj => ?_, fun d f => ?_, fun op d f hop => ?_,
    fun d f => ⟨toNat_opSwap d f, flags_opSwap d f⟩⟩
  · exact ⟨(getLsbD_rotateLeft d _).1 j hj, (getLsbD_rotateLeft d _).1 j hj, (getLsbD_rotateRight d _).1 j hj,
      (getLsbD_rotateRight d _).1 j hj, (getLsbD_opSra d f).1 j hj⟩
  · exact ⟨(getLsbD_rotateLeft d _).2, (getLsbD_rotateLeft d _).2, (getLsbD_rotateRight d _).2,
      (getLsbD_rotateRight d _).2, (getLsbD_opSra d f).2⟩
  · simp only [List.mem_cons, List.not_mem_nil, or_false] at hop
    rcases hop with rfl | rfl | rfl | rfl | rfl <;> rfl

/-! ### Conditions -/

/-- Code cc + 8 is the negation of code cc (`40_cycle_and_alu.md` R150). -/
theorem condHolds_ofCode_add_eight {k : Nib} (hk : k < 8) (f : Byte) :
    condHolds (CC.ofCode (k + 8)) f = !condHolds (CC.ofCode k) f := by
  have hcases : ∀ k : Nib, k < 8 → k = 0 ∨ k = 1 ∨ k = 2 ∨ k = 3 ∨ k = 4 ∨ k = 5 ∨ k = 6 ∨ k = 7 := by decide
  rcases hcases k hk with rfl | rfl | rfl | rfl | rfl | rfl | rfl | rfl <;> simp [condHolds, CC.ofCode]

/-- Settles O29: the table row by row, its negated half, and the evaluation of a condition. -/
theorem conditionTable : Obligations.ConditionTable := by
  intro f
  refine ⟨rfl, rfl, rfl, rfl, rfl, rfl, rfl, rfl, fun k hk => condHolds_ofCode_add_eight hk f, fun cc m hm => ?_⟩
  rw [← hm]; rfl

end Sys2Proof.Machine
end

section
/-! SUPPORT. The operand routine of the two-operand forms in the terms of the statements, and the register loads: reads in
order, then one write (`40_cycle_and_alu.md` R137, `41_short_forms.md` R161 to R165, `42_two_operand.md` R203 to R210,
`44_memory_indexed_calls.md` R279, R280). -/

namespace Sys2Proof.Machine

open Sys2Proof.Statements

/-! ### What an address reaches, read by read -/

/-- A read leaves what every address reaches (`10_state.md` R24, R26). -/
theorem reaches_slotRead {s : State} {a p : Byte} (q : Byte) (h : Reaches s a p) : Reaches (s.slotRead q).2 a p := by
  rw [Reaches, s.rp_slotRead]; exact h

/-- The mode's charge leaves what every address reaches. -/
theorem reaches_moded {s : State} {a p : Byte} (k : Fin 6) (h : Reaches s a p) : Reaches (moded s k) a p := h

/-- A read of a register that is reached, and what runs after it. -/
theorem regRead_bind {α : Type} {s : State} {a p : Byte} (h : Reaches s a p) (f : Byte → M α) :
    (regRead a >>= f) s = f (s.slotRead p).1 (s.slotRead p).2 := by
  rw [M.bind_apply, regRead_some h]

/-- A read through a pointer register, and what runs after it. -/
theorem regReadIndirect_bind {α : Type} {s : State} {a q q' : Byte} (h : Reaches s a q) (h' : Reaches s (s.slotRead q).1 q')
    (f : Byte → M α) :
    (regReadIndirect a >>= f) s = f ((s.slotRead q).2.slotRead q').1 ((s.slotRead q).2.slotRead q').2 := by
  rw [M.bind_apply, regReadIndirect_some h h']

theorem chargeMode_bind {α : Type} (k : Fin 6) (f : PUnit → M α) (s : State) :
    (chargeMode k >>= f) s = f ⟨⟩ (moded s k) := rfl

/-- THE OPERAND ROUTINE answers the source value, in the state the statements name, and an address that reaches the
destination there (`40_cycle_and_alu.md` R137). -/
theorem fetchOperands_of_operandsAt {s u : State} {o : TwoOperands} {p v : Byte} (h : OperandsAt s o p v u) :
    ∃ a, fetchOperands o s = .ok (a, v) u ∧ Reaches u a p := by
  unfold fetchOperands
  rw [chargeMode_bind]
  cases o with
  | ww d w | rr d w =>
    obtain ⟨q, hq, hp, he⟩ := h
    obtain ⟨rfl, rfl⟩ := Prod.ext_iff.mp he
    exact ⟨_, regRead_bind (reaches_moded _ hq) _, reaches_slotRead q (reaches_moded _ hp)⟩
  | wiw d w | rir d w =>
    obtain ⟨q, q', hq, hq', hp, he⟩ := h
    obtain ⟨rfl, rfl⟩ := Prod.ext_iff.mp he
    exact ⟨_, regReadIndirect_bind (reaches_moded _ hq) (reaches_moded _ hq') _,
      reaches_slotRead q' (reaches_slotRead q (reaches_moded _ hp))⟩
  | rim d im =>
    obtain ⟨hp, rfl, rfl⟩ := h
    exact ⟨_, rfl, hp⟩
  | irim d im =>
    obtain ⟨q, hq, hp, rfl, rfl⟩ := h
    exact ⟨_, regRead_bind (reaches_moded _ hq) _, reaches_slotRead q (reaches_moded _ hp)⟩

/-! ### The shapes of a load -/

/-- A load of row E at operands that are reached (`42_two_operand.md` R203 to R209). -/
theorem loadInstruction_of_operandsAt {s u : State} {o : TwoOperands} {p v : Byte} (h : OperandsAt s o p v u) :
    loadInstruction o s = .ok () (u.slotWrite p v) := by
  obtain ⟨a, hfetch, ha⟩ := fetchOperands_of_operandsAt h
  rw [loadInstruction, M.bind_apply, hfetch]
  exact regWrite_some v ha

/-- A register read, then written to another (`41_short_forms.md` R161, R162). -/
theorem moveRegister_of_reaches {s : State} {dst src p q : Byte} (hq : Reaches s src q) (hp : Reaches s dst p) :
    moveRegister dst src s = .ok () ((s.slotRead q).2.slotWrite p (s.slotRead q).1) := by
  rw [moveRegister, regRead_bind hq]
  exact regWrite_some _ (reaches_slotRead q hp)

/-- A store through a pointer register: the value, then the pointer, then the write (`42_two_operand.md` R205, R210). -/
theorem storeIndirect_of_reaches {s : State} {k : Fin 6} {ptr src p q q' : Byte} (hq : Reaches s src q)
    (hq' : Reaches s ptr q') (hp : Reaches s (((moded s k).slotRead q).2.slotRead q').1 p) :
    storeIndirect k ptr src s =
      .ok () ((((moded s k).slotRead q).2.slotRead q').2.slotWrite p ((moded s k).slotRead q).1) := by
  rw [storeIndirect, chargeMode_bind, regRead_bind (reaches_moded k hq),
    regRead_bind (reaches_slotRead q (reaches_moded k hq'))]
  exact regWrite_some _ (reaches_slotRead q' (reaches_slotRead q (reaches_moded k hp)))

/-- LD r,X(r): the index, then the register at the offset plus it, then the write (`44_memory_indexed_calls.md` R279). -/
theorem ldWX_of_reaches {s : State} {d x : Nib} {off p q q' : Byte} (hq : Reaches s (wreg x) q)
    (hq' : Reaches s (off + (s.slotRead q).1) q') (hp : Reaches s (wreg d) p) :
    body (.ldWX d x off) s =
      .ok () (((s.slotRead q).2.slotRead q').2.slotWrite p ((s.slotRead q).2.slotRead q').1) := by
  rw [body, regRead_bind hq, regRead_bind (reaches_slotRead q hq')]
  exact regWrite_some _ (reaches_slotRead q' (reaches_slotRead q hp))

/-- LD X(r),r: the value, then the index, then the write at the offset plus it (`44_memory_indexed_calls.md` R280). -/
theorem ldXW_of_reaches {s : State} {d x : Nib} {off p q q' : Byte} (hq : Reaches s (wreg d) q)
    (hq' : Reaches s (wreg x) q') (hp : Reaches s (off + ((s.slotRead q).2.slotRead q').1) p) :
    body (.ldXW d x off) s = .ok () (((s.slotRead q).2.slotRead q').2.slotWrite p (s.slotRead q).1) := by
  rw [body, regRead_bind hq, regRead_bind (reaches_slotRead q hq')]
  exact regWrite_some _ (reaches_slotRead q' (reaches_slotRead q hp))

theorem exec_of_body {i : Instr} {s t : State} (h : body i s = .ok () t) : exec i s = .next t :=
  (exec_eq i s).trans (M.finish_ok h)

/-- Settles O33: each form has one of five shapes, a move, an immediate, a load of row E, a store through a pointer or an
indexed access. -/
theorem loadInstructions : Obligations.LoadInstructions := by
  intro s
  refine ⟨fun _ _ _ _ hq hp => exec_of_body (moveRegister_of_reaches hq hp),
    fun _ _ _ _ hq hp => exec_of_body (moveRegister_of_reaches hq hp),
    fun _ im _ hp => exec_of_body (regWrite_some im hp),
    fun _ _ _ _ _ h => exec_of_body (loadInstruction_of_operandsAt h), fun _ _ _ _ _ => ?_,
    fun _ _ _ _ _ hq hq' hp => exec_of_body (storeIndirect_of_reaches hq hq' hp),
    fun _ _ _ _ _ hq hq' hp => exec_of_body (storeIndirect_of_reaches hq hq' hp),
    fun _ _ _ _ _ _ hq hq' hp => exec_of_body (ldWX_of_reaches hq hq' hp),
    fun _ _ _ _ _ _ hq hq' hp => exec_of_body (ldXW_of_reaches hq hq' hp)⟩
  exact ⟨fun h => exec_of_body (loadInstruction_of_operandsAt h), fun h => exec_of_body (loadInstruction_of_operandsAt h),
    fun h => exec_of_body (loadInstruction_of_operandsAt h), fun h => exec_of_body (loadInstruction_of_operandsAt h)⟩

end Sys2Proof.Machine
end

section
/-! SUPPORT. The jumps: a transfer taken or not, behind a condition, a counter or a register pair (`41_short_forms.md` R163, R164,
R166, R169, `43_single_operand.md` R232). -/

namespace Sys2Proof.Machine

open Sys2Proof.Statements

/-- A transfer that is taken only where `c` holds. -/
theorem jumpIf_apply (c : Prop) [Decidable c] (f : State → Word) (s : State) :
    (if c then modify fun t => t.jump (f t) else pure () : M PUnit) s = .ok ⟨⟩ (if c then transferTo s (f s) else s) := by
  split <;> rfl

/-- A condition is evaluated once, on FLAGS, and charged; then the transfer (`40_cycle_and_alu.md` R151). -/
theorem condition_jumpIf (cc : CC) (f : State → Word) (s : State) :
    (do let c ← condition cc
        if c then modify fun t => t.jump (f t) : M Unit) s =
      let u := s.charge s.cfg.cost.cc
      .ok () (if condHolds cc (s.reg 0xFC) then transferTo u (f u) else u) :=
  jumpIf_apply (condHolds cc (s.reg 0xFC) = true) f (s.charge s.cfg.cost.cc)

/-- DJNZ: the working register read and written back less one, pc untouched by both; then the transfer
(`41_short_forms.md` R163). -/
theorem djnz_of_reaches {s : State} {w : Nib} {p : Byte} (ra : Byte) (h : Reaches s (wreg w) p) :
    body (.djnz w ra) s =
      let r := s.slotRead p
      let t := r.2.slotWrite p (r.1 - 1)
      .ok () (if r.1 = 1 then t else transferTo t (s.pc + ra.signExtend 16)) := by
  have hpc : ((s.slotRead p).2.slotWrite p ((s.slotRead p).1 - 1)).pc = s.pc :=
    ((State.RegOnly.slotRead s p).trans (.slotWrite _ p _)).pc
  have hzero : (s.slotRead p).1 - 1 = 0 ↔ (s.slotRead p).1 = 1 := sub_eq_zero
  rw [body, regRead_bind h, M.bind_apply, regWrite_some _ (reaches_slotRead p h)]
  simp only [jumpIf_apply, hpc, ne_eq, ite_not, hzero, sext16]

/-- JP @RR: the pair at its even address, then the transfer (`43_single_operand.md` R232). -/
theorem jpIRR_of_reaches {s : State} {rr p : Byte} (heven : rr.toNat % 2 = 0) (h : Reaches s rr p) :
    body (.jpIRR rr) s = .ok () (transferTo (pairFrom s p).2 (pairFrom s p).1) := by
  have hbit : bit rr 0 = false := by simp [bit_zero_eq, heven]
  rw [body, M.bind_apply, pairRead_even hbit h]
  rfl

/-- Settles O37: a condition, a counter or a pair read, and after each the transfer. -/
theorem jumpInstructions : Obligations.JumpInstructions := by
  intro s
  exact ⟨fun cc ra => exec_of_body (condition_jumpIf cc (fun t => t.pc + sext16 ra) s),
    fun cc da => exec_of_body (condition_jumpIf cc (fun _ => da) s),
    fun _ ra _ hp => exec_of_body (djnz_of_reaches ra hp),
    fun _ _ heven hp => exec_of_body (jpIRR_of_reaches heven hp)⟩

end Sys2Proof.Machine
end

section
/-! SUPPORT. The two-operand ALU instructions (`42_two_operand.md` R190 to R201): the flags of CP, what the operand reads leave,
and the sixty forms, with devices and without. -/

namespace Sys2Proof.Machine

open Sys2Proof.Statements

/-! ### CP -/

/-- Without a borrow the result of `SubPrim` is the difference modulo 256 (`40_cycle_and_alu.md` R141). -/
theorem subPrim_eq_sub (a b : Byte) : (subPrim a b false).1 = a - b := by
  apply BitVec.eq_of_toNat_eq
  rw [toNat_subPrim, BitVec.toNat_sub]
  simp only [bitNat, Bool.false_eq_true, if_false]
  omega

theorem toNat_sub_eq_zero (a b : Byte) : (a - b).toNat = 0 ↔ a = b := by
  bv_omega

/-- Settles O25: the flags of the difference, D and H left out of them. -/
theorem compareFlags : Obligations.CompareFlags := by
  intro a b f
  have hflags := flags_subPrim a b false
  simp only [subPrim_eq_sub, toNat_sub_eq_zero, bitNat, Bool.false_eq_true, if_false, Nat.add_zero] at hflags
  exact ⟨by simp only [aluEval, comparePrim, hflags], rfl⟩

/-! ### What the operand reads leave -/

/-- The state after the operand reads of a two-operand form comes from the charged one by reads alone
(`40_cycle_and_alu.md` R137). -/
theorem rel_of_operandsAt {R : State → State → Prop} (hR : StateRel R) (hread : ∀ t q, R t (t.slotRead q).2)
    {s u : State} {o : TwoOperands} {p v : Byte} (h : OperandsAt s o p v u) : R (moded s o.modeIndex) u := by
  cases o with
  | ww d w | rr d w =>
    obtain ⟨q, -, -, he⟩ := h
    obtain ⟨-, rfl⟩ := Prod.ext_iff.mp he
    exact hread _ q
  | wiw d w | rir d w =>
    obtain ⟨q, q', -, -, -, he⟩ := h
    obtain ⟨-, rfl⟩ := Prod.ext_iff.mp he
    exact hR.trans (hread _ q) (hread _ q')
  | rim d im =>
    obtain ⟨-, -, rfl⟩ := h
    exact hR.refl _
  | irim d im =>
    obtain ⟨q, -, -, -, rfl⟩ := h
    exact hread _ q

/-- Unless `s` has devices, `t` is `s`. -/
def State.SameWithoutDevices (s t : State) : Prop := s.cfg.devices = [] → t = s

theorem State.SameWithoutDevices.rel : StateRel State.SameWithoutDevices where
  refl := fun _ _ => rfl
  trans := by
    intro s t u h k hd
    obtain rfl := h hd
    exact k hd

theorem State.SameWithoutDevices.slotRead (s : State) (p : Byte) : s.SameWithoutDevices (s.slotRead p).2 :=
  fun hd => by rw [State.slotRead_plain (policy_no_devices hd p)]

/-- Without devices the operand routine only charges the mode (`40_cycle_and_alu.md` R137). -/
theorem operandsAt_no_devices {s u : State} {o : TwoOperands} {p v : Byte} (hd : s.cfg.devices = [])
    (h : OperandsAt s o p v u) : u = moded s o.modeIndex :=
  rel_of_operandsAt State.SameWithoutDevices.rel .slotRead h hd

/-! ### The sixty forms -/

theorem body_aluForm (op : AluOp) (o : TwoOperands) : body (aluForm op o) = aluInstruction op o := by
  cases op <;> cases o <;> rfl

/-- The common shape at operands that are reached: the destination's old value, the write, the flags
(`42_two_operand.md` R190). -/
theorem aluInstruction_of_operandsAt {op : AluOp} {o : TwoOperands} {s u : State} {p v : Byte} (h : OperandsAt s o p v u) :
    aluInstruction op o s = .ok () (aluAt u op p v) := by
  obtain ⟨a, hfetch, ha⟩ := fetchOperands_of_operandsAt h
  rw [aluInstruction, M.bind_apply, hfetch]
  dsimp only
  rw [regRead_bind ha, M.bind_apply, M.get_apply]
  dsimp only [aluAt]
  split
  · rw [M.bind_apply, regWrite_some _ (reaches_slotRead p ha)]
    rfl
  · rfl

/-- Settles O31: each form runs the common shape. -/
theorem aluInstructions : Obligations.AluInstructions := by
  intro op o s u p v h
  refine exec_of_body ?_
  rw [body_aluForm]
  exact aluInstruction_of_operandsAt h

/-! ### Without devices -/

/-- Without devices a write reaches its slot alone, unless it is ReadOnly (`10_state.md` R27). -/
theorem State.reg_slotWrite_no_devices {s : State} {p : Byte} (v a : Byte) (hd : s.cfg.devices = [])
    (hp : ¬(0xE0#8 ≤ p ∧ p ≤ 0xEF#8)) :
    (s.slotWrite p v).reg a = if a = p ∧ ¬(0x80#8 ≤ p ∧ p ≤ 0xDF#8) then v else s.reg a := by
  cases hpol : s.policy p with
  | readWrite =>
    have hro : ¬(0x80#8 ≤ p ∧ p ≤ 0xDF#8) := fun h => by rw [policy_readOnly.mpr h] at hpol; cases hpol
    rw [State.slotWrite_readWrite v hpol, State.reg_setReg]
    simp only [hro, not_false_eq_true, and_true]
  | readOnly => rw [State.slotWrite_readOnly v hpol, if_neg fun h => h.2 (policy_readOnly.mp hpol)]
  | windowedPointer => exact absurd (policy_window.mp hpol) hp
  | deviceBacked i => exact absurd hpol (policy_no_devices hd p i)

/-- Without devices a write changes nothing but register memory (`10_state.md` R27). -/
theorem State.slotWrite_regs_only {s : State} (p v : Byte) (hd : s.cfg.devices = []) :
    s.slotWrite p v = { s with regs := (s.slotWrite p v).regs } := by
  cases hpol : s.policy p with
  | readWrite => rw [State.slotWrite_readWrite v hpol]; rfl
  | readOnly => rw [State.slotWrite_readOnly v hpol]
  | windowedPointer => simp only [State.slotWrite, hpol]
  | deviceBacked i => exact absurd hpol (policy_no_devices hd p i)

/-- A write and the flags on top, without devices (`42_two_operand.md` R190, `43_single_operand.md` R230). -/
theorem updated_slotWrite {s : State} {p : Byte} (v : Byte) (u : FlagBits) (hd : s.cfg.devices = [])
    (hp : ¬(0xE0#8 ≤ p ∧ p ≤ 0xEF#8)) : Updated s ((s.slotWrite p v).updateFlags u) p v u := by
  have hreg := fun a => State.reg_slotWrite_no_devices v a hd hp
  refine ⟨fun a ha => (State.reg_setReg_ne _ _ ha).trans (hreg a), ?_⟩
  refine (State.flags_updateFlags _ u).trans (congrArg (applyFlags u) ((hreg slotFLAGS).trans ?_))
  by_cases h : p = 0xFC
  · subst h; rfl
  · rw [if_neg fun h' => h h'.1.symm, if_neg h]; rfl

/-- The flags alone: the byte of no slot is written (`42_two_operand.md` R198 to R200). -/
theorem updated_updateFlags (s : State) (p : Byte) (u : FlagBits) : Updated s (s.updateFlags u) p (s.reg p) u := by
  refine ⟨fun a ha => (State.reg_setReg_ne s _ ha).trans ?_, (s.flags_updateFlags u).trans (congrArg (applyFlags u) ?_)⟩
  · split
    · next h => rw [h.1]
    · rfl
  · split
    · next h => rw [h]; rfl
    · rfl

/-- The end of an ALU instruction without devices (`42_two_operand.md` R190). -/
theorem aluAt_no_devices {s : State} {op : AluOp} {p : Byte} (v : Byte) (hd : s.cfg.devices = [])
    (hp : ¬(0xE0#8 ≤ p ∧ p ≤ 0xEF#8)) :
    let e := aluEval op (s.reg p) v (s.reg 0xFC)
    Updated s (aluAt s op p v) p (if aluWrites op then e.1 else s.reg p) e.2 ∧
      aluAt s op p v = { s with regs := (aluAt s op p v).regs } := by
  have hread := State.slotRead_plain (policy_no_devices hd p)
  simp only [aluAt, hread]
  split
  · refine ⟨updated_slotWrite _ _ hd hp, ?_⟩
    rw [State.updateFlags, State.slotWrite_regs_only p _ hd]
    rfl
  · exact ⟨updated_updateFlags s p _, rfl⟩

/-- The destination of a two-operand form is outside the window (`10_state.md` R25). -/
theorem operandsAt_not_window {s u : State} {o : TwoOperands} {p v : Byte} (h : OperandsAt s o p v u) :
    ¬(0xE0#8 ≤ p ∧ p ≤ 0xEF#8) := by
  obtain ⟨a, -, ha⟩ := fetchOperands_of_operandsAt h
  exact fun hw => hiNib_of_resolve ha ((hiNib_eq_window p).mpr hw)

/-- Settles O32: the operand routine only charges the mode, and the rest is one write and the flags. -/
theorem aluPlain : Obligations.AluPlain := by
  intro op o s u p v hd h
  have hexec := aluInstructions op o s u p v h
  obtain rfl := operandsAt_no_devices hd h
  obtain ⟨hregs, hrest⟩ := aluAt_no_devices (s := moded s o.modeIndex) (op := op) v hd (operandsAt_not_window h)
  exact ⟨_, hexec, hregs, hrest⟩

end Sys2Proof.Machine
end

section
/-! SUPPORT. The single-operand forms in the terms of the statements: the operand's address, the read-modify-write, INCW and DECW,
CLR (`40_cycle_and_alu.md` R138, `43_single_operand.md` R230 to R244). -/

namespace Sys2Proof.Machine

open Sys2Proof.Statements

/-- THE OPERAND ROUTINE answers an address that reaches the operand, in the state the statements name
(`40_cycle_and_alu.md` R138). -/
theorem fetchSingle_of_operandAt {s u : State} {o : OneOperand} {p : Byte} (h : OperandAt s o p u) :
    ∃ a, fetchSingle o s = .ok a u ∧ Reaches u a p := by
  cases o with
  | direct r =>
    obtain ⟨hp, rfl⟩ := h
    exact ⟨r, rfl, hp⟩
  | indirect r =>
    obtain ⟨q, hq, hp, rfl⟩ := h
    exact ⟨_, fetchSingle_indirect hq, reaches_slotRead q hp⟩

theorem body_unaryForm (op : UnaryOp) (o : OneOperand) : body (unaryForm op o) = singleInstruction (unaryEval op) o := by
  cases op <;> cases o <;> rfl

/-- A read-modify-write at an operand that is reached (`43_single_operand.md` R230). -/
theorem exec_unaryForm {s u : State} {o : OneOperand} {p : Byte} (op : UnaryOp) (h : OperandAt s o p u) :
    exec (unaryForm op o) s = .next (unaryAt u op p) := by
  obtain ⟨a, hfetch, ha⟩ := fetchSingle_of_operandAt h
  refine exec_of_body ?_
  rw [body_unaryForm, singleInstruction, M.bind_apply, hfetch]
  exact modifyRegister_some (unaryEval op) ha

/-- INC r is the read-modify-write of INC at a working register (`41_short_forms.md` R167). -/
theorem exec_incW {s : State} {w : Nib} {p : Byte} (h : Reaches s (wreg w) p) :
    exec (.incW w) s = .next (unaryAt s .inc p) :=
  exec_of_body (modifyRegister_some opInc h)

/-- The shape of INCW and DECW at an even pair that is reached: the pair read, the word written back, the flags
(`43_single_operand.md` R241, R243). -/
theorem wordInstruction_of_operandAt (f : Word → Word) (g : Word → FlagBits) {s u : State} {o : OneOperand} {p : Byte}
    (h : OperandAt s o p u) (heven : p.toNat % 2 = 0) :
    wordInstruction f g o s =
      let w := pairFrom u p
      .ok () ((pairInto w.2 p (f w.1)).updateFlags (g (f w.1))) := by
  obtain ⟨a, hfetch, ha⟩ := fetchSingle_of_operandAt h
  have hbit : bit a 0 = false := by rw [← bit_zero_of_resolve ha, bit_zero_eq, heven]; rfl
  rw [wordInstruction, M.bind_apply, hfetch]
  dsimp only
  rw [M.bind_apply, pairRead_even hbit ha]
  dsimp only
  rw [M.bind_apply, pairWrite_even _ hbit (reaches_slotRead _ (reaches_slotRead _ ha))]
  rfl

/-- CLR at an operand that is reached (`43_single_operand.md` R244). -/
theorem clearInstruction_of_operandAt {s u : State} {o : OneOperand} {p : Byte} (h : OperandAt s o p u) :
    clearInstruction o s = .ok () (u.slotWrite p 0x00) := by
  obtain ⟨a, hfetch, ha⟩ := fetchSingle_of_operandAt h
  rw [clearInstruction, M.bind_apply, hfetch]
  exact regWrite_some _ ha

end Sys2Proof.Machine
end

section
/-! SUPPORT. What the register instructions leave of a slot no device can touch, and of the bits of FLAGS they do not compute
(`10_state.md` R26, R27, R36, R37; `42_two_operand.md` R190, R203; `43_single_operand.md` R230, R241, R244). -/

namespace Sys2Proof.Machine

open Sys2Proof.Statements

/-! ### A slot left alone -/

/-- From `s` to `t` the slot `a` keeps its byte, if no device can touch it in `s`; and then none can in `t`. -/
def State.LeavesSlot (a : Byte) (s t : State) : Prop := s.still a → t.still a ∧ t.reg a = s.reg a

variable {a p : Byte} {s t u : State}

theorem State.still_congr (h : t.cfg = s.cfg) (hs : s.still a) : t.still a :=
  ⟨fun i => policy_congr h a ▸ hs.1 i, fun ha => h ▸ hs.2 ha⟩

/-- FLAGS is a slot no device can touch (`10_state.md` R24). -/
theorem State.still_flags (s : State) : s.still slotFLAGS :=
  ⟨fun i => by rw [policy_core s (by decide)]; nofun, fun h => absurd h (by decide)⟩

theorem State.LeavesSlot.rel (a : Byte) : StateRel (State.LeavesSlot a) where
  refl := fun _ hs => ⟨hs, rfl⟩
  trans := fun h k hs => ⟨(k (h hs).1).1, (k (h hs).1).2.trans (h hs).2⟩

theorem State.LeavesSlot.refl (s : State) : s.LeavesSlot a s := (State.LeavesSlot.rel a).refl s

theorem State.LeavesSlot.trans (h : s.LeavesSlot a t) (k : t.LeavesSlot a u) : s.LeavesSlot a u :=
  (State.LeavesSlot.rel a).trans h k

theorem State.LeavesSlot.charge (s : State) (k : Nat) : s.LeavesSlot a (s.charge k) := fun hs => ⟨hs, rfl⟩

theorem State.LeavesSlot.slotRead (s : State) (p : Byte) : s.LeavesSlot a (s.slotRead p).2 := fun hs =>
  ⟨State.still_congr (State.RegOnly.slotRead s p).cfg hs, s.reg_slotRead p hs⟩

theorem State.LeavesSlot.slotWrite (s : State) (v : Byte) (hp : a ≠ p) : s.LeavesSlot a (s.slotWrite p v) := fun hs =>
  ⟨State.still_congr (State.RegOnly.slotWrite s p v).cfg hs, s.reg_slotWrite p v hs hp⟩

/-- A write that may not be made. -/
theorem State.LeavesSlot.slotWrite_if (s : State) (v : Byte) {c : Bool} (hp : a = p → c = false) :
    s.LeavesSlot a (if c then s.slotWrite p v else s) := by
  cases c with
  | false => exact .refl s
  | true => exact .slotWrite s v fun h => Bool.noConfusion (hp h)

theorem State.LeavesSlot.updateFlags (s : State) (e : FlagBits) (ha : a ≠ slotFLAGS) : s.LeavesSlot a (s.updateFlags e) :=
  fun hs => ⟨hs, s.reg_setReg_ne _ ha⟩

theorem State.LeavesSlot.pairFrom (s : State) (p : Byte) : s.LeavesSlot a (pairFrom s p).2 :=
  (State.LeavesSlot.slotRead s p).trans (.slotRead _ _)

theorem State.LeavesSlot.pairInto (s : State) (w : Word) (hp : a ≠ p) (hp1 : a ≠ p + 1) : s.LeavesSlot a (pairInto s p w) :=
  (State.LeavesSlot.slotWrite s _ hp).trans (.slotWrite _ _ hp1)

/-- The operand reads of a two-operand form (`40_cycle_and_alu.md` R137). -/
theorem State.LeavesSlot.of_operandsAt {o : TwoOperands} {v : Byte} (h : OperandsAt s o p v u) : s.LeavesSlot a u :=
  (State.LeavesSlot.charge s _).trans (rel_of_operandsAt (State.LeavesSlot.rel a) .slotRead h)

/-- The operand read of a single-operand form (`40_cycle_and_alu.md` R138). -/
theorem State.LeavesSlot.of_operandAt {o : OneOperand} (h : OperandAt s o p u) : s.LeavesSlot a u := by
  cases o with
  | direct r =>
    obtain ⟨-, rfl⟩ := h
    exact .refl u
  | indirect r =>
    obtain ⟨q, -, -, rfl⟩ := h
    exact .slotRead s q

/-- A bit of FLAGS that the last update does not write, when nothing before it touched FLAGS (`10_state.md` R36). -/
theorem State.LeavesSlot.flagBit {e : FlagBits} {k : Nat} (h : s.LeavesSlot slotFLAGS t) (hk : k < 8) (he : e.at k = none) :
    ((t.updateFlags e).reg 0xFC).getLsbD k = (s.reg 0xFC).getLsbD k := by
  have hflags : (t.updateFlags e).reg 0xFC = applyFlags e (s.reg 0xFC) :=
    (State.flags_updateFlags t e).trans (congrArg (applyFlags e) (h s.still_flags).2)
  rw [hflags]
  exact (bit_applyFlags e _ k hk).trans (by rw [he]; rfl)

/-! ### The ends of the instructions -/

theorem State.LeavesSlot.aluAt (s : State) {op : AluOp} (v : Byte) (ha : a ≠ slotFLAGS) (hp : a = p → aluWrites op = false) :
    s.LeavesSlot a (aluAt s op p v) :=
  ((State.LeavesSlot.slotRead s p).trans (.slotWrite_if _ _ hp)).trans (.updateFlags _ _ ha)

theorem flagBit_aluAt {op : AluOp} {v : Byte} {k : Nat} (h : s.LeavesSlot slotFLAGS u) (hp : p ≠ 0xFC ∨ aluWrites op = false)
    (hk : k < 8) (he : ∀ d f, (aluEval op d v f).2.at k = none) :
    ((aluAt u op p v).reg 0xFC).getLsbD k = (s.reg 0xFC).getLsbD k := by
  have hwrites : slotFLAGS = p → aluWrites op = false := fun hf => hp.resolve_left fun hne => hne hf.symm
  exact ((h.trans (.slotRead u p)).trans (.slotWrite_if _ _ hwrites)).flagBit hk (he _ _)

theorem State.LeavesSlot.unaryAt (s : State) (op : UnaryOp) (ha : a ≠ slotFLAGS) (hp : a ≠ p) :
    s.LeavesSlot a (unaryAt s op p) :=
  ((State.LeavesSlot.slotRead s p).trans (.slotWrite _ _ hp)).trans (.updateFlags _ _ ha)

theorem flagBit_unaryAt {op : UnaryOp} {k : Nat} (h : s.LeavesSlot slotFLAGS u) (hp : p ≠ 0xFC) (hk : k < 8)
    (he : ∀ d f, (unaryEval op d f).2.at k = none) :
    ((unaryAt u op p).reg 0xFC).getLsbD k = (s.reg 0xFC).getLsbD k :=
  ((h.trans (.slotRead u p)).trans (.slotWrite _ _ hp.symm)).flagBit hk (he _ _)

/-! ### The flags an operation does not write (`10_state.md` R37) -/

theorem aluEval_leaves_d_h {op : AluOp} (hadd : op ≠ .add) (hadc : op ≠ .adc) (hsub : op ≠ .sub) (hsbc : op ≠ .sbc)
    (d v f : Byte) : (aluEval op d v f).2.at 2 = none ∧ (aluEval op d v f).2.at 3 = none := by
  cases op with
  | add => exact absurd rfl hadd
  | adc => exact absurd rfl hadc
  | sub => exact absurd rfl hsub
  | sbc => exact absurd rfl hsbc
  | or | and | tcm | tm | cp | xor => exact ⟨rfl, rfl⟩

theorem aluEval_leaves_c {op : AluOp} (hadd : op ≠ .add) (hadc : op ≠ .adc) (hsub : op ≠ .sub) (hsbc : op ≠ .sbc)
    (hcp : op ≠ .cp) (d v f : Byte) : (aluEval op d v f).2.at 7 = none := by
  cases op with
  | add => exact absurd rfl hadd
  | adc => exact absurd rfl hadc
  | sub => exact absurd rfl hsub
  | sbc => exact absurd rfl hsbc
  | cp => exact absurd rfl hcp
  | or | and | tcm | tm | xor => rfl

theorem unaryEval_leaves_low (op : UnaryOp) {k : Nat} (hk : k < 4) (d f : Byte) : (unaryEval op d f).2.at k = none := by
  match k, hk with
  | 0, _ | 1, _ => rfl
  | 2, _ | 3, _ => cases op <;> rfl

theorem unaryEval_leaves_c {op : UnaryOp} (h : op ∈ [UnaryOp.dec, .inc, .com, .swap]) (d f : Byte) :
    (unaryEval op d f).2.at 7 = none := by
  simp only [List.mem_cons, List.not_mem_nil, or_false] at h
  rcases h with rfl | rfl | rfl | rfl <;> rfl

theorem unaryEval_leaves_v {op : UnaryOp} (h : op ∈ [UnaryOp.da, .swap]) (d f : Byte) : (unaryEval op d f).2.at 4 = none := by
  simp only [List.mem_cons, List.not_mem_nil, or_false] at h
  rcases h with rfl | rfl <;> rfl

/-- Z, S and V are the only flags of INC, INCW and DECW. -/
theorem leaves_c_and_low {e : FlagBits} (hc : e.c = none) (hd : e.d = none) (hh : e.h = none) :
    ∀ k ∈ [0, 1, 2, 3, 7], e.at k = none := by
  simp [FlagBits.at, hc, hd, hh]

/-! ### The frames of the forms that compute flags -/

/-- An instruction answers one state. -/
theorem exec_unique {i : Instr} (h : exec i s = .next t) (h' : exec i s = .next u) : t = u :=
  Host.Outcome.next.inj (h.symm.trans h')

theorem aluForm_frame {op : AluOp} {o : TwoOperands} {v : Byte} (hs : s.still a) (h : OperandsAt s o p v u)
    (hexec : exec (aluForm op o) s = .next t) :
    (a ≠ 0xFC → (a = p → aluWrites op = false) → t.reg a = s.reg a) ∧
      (p ≠ 0xFC ∨ aluWrites op = false → ∀ k < 8, (∀ d f, (aluEval op d v f).2.at k = none) →
        (t.reg 0xFC).getLsbD k = (s.reg 0xFC).getLsbD k) := by
  obtain rfl := exec_unique (aluInstructions op o s u p v h) hexec
  exact ⟨fun ha hp => (((State.LeavesSlot.of_operandsAt h).trans (.aluAt u v ha hp)) hs).2,
    fun hp _ hk he => flagBit_aluAt (.of_operandsAt h) hp hk he⟩

/-- A read-modify-write of slot `p` after reads that leave the other slots alone. -/
theorem unaryAt_frame (op : UnaryOp) (hs : s.still a) (hu : ∀ b, s.LeavesSlot b u) :
    (a ≠ 0xFC → a ≠ p → (unaryAt u op p).reg a = s.reg a) ∧
      (p ≠ 0xFC → ∀ k < 8, (∀ d f, (unaryEval op d f).2.at k = none) →
        ((unaryAt u op p).reg 0xFC).getLsbD k = (s.reg 0xFC).getLsbD k) :=
  ⟨fun ha hp => (((hu a).trans (.unaryAt u op ha hp)) hs).2, fun hp _ hk he => flagBit_unaryAt (hu _) hp hk he⟩

/-- FLAGS has an even address, so it is no low byte of a pair. -/
theorem flags_ne_succ_of_even (heven : p.toNat % 2 = 0) : slotFLAGS ≠ p + 1 := by
  unfold slotFLAGS
  bv_omega

/-- The frame of an instruction of the shape of INCW and DECW whose flags are Z, S and V. -/
theorem wordInstruction_frame {i : Instr} (f : Word → Word) (g : Word → FlagBits) {o : OneOperand}
    (hbody : body i = wordInstruction f g o) (hg : ∀ w, ∀ k ∈ [0, 1, 2, 3, 7], (g w).at k = none)
    (hs : s.still a) (h : OperandAt s o p u) (heven : p.toNat % 2 = 0) (hexec : exec i s = .next t) :
    (a ≠ 0xFC → a ≠ p → a ≠ p + 1 → t.reg a = s.reg a) ∧
      (p ≠ 0xFC → ∀ k ∈ [0, 1, 2, 3, 7], (t.reg 0xFC).getLsbD k = (s.reg 0xFC).getLsbD k) := by
  obtain rfl := exec_unique (exec_of_body ((congrFun hbody s).trans (wordInstruction_of_operandAt f g h heven))) hexec
  have hread : ∀ b, s.LeavesSlot b (pairFrom u p).2 := fun b => (State.LeavesSlot.of_operandAt h).trans (.pairFrom u p)
  refine ⟨fun ha hp hp1 => ?_, fun hp k hk => ?_⟩
  · exact ((((hread a).trans (.pairInto _ _ hp hp1)).trans (.updateFlags _ _ ha)) hs).2
  · have hlt : ∀ k ∈ [0, 1, 2, 3, 7], k < 8 := by decide
    exact ((hread slotFLAGS).trans (.pairInto _ _ hp.symm (flags_ne_succ_of_even heven))).flagBit (hlt k hk) (hg _ k hk)

/-! ### The frames of the forms that end in one write -/

/-- An instruction that ends in one write of slot `p`, after reads that leave slot `a` alone. -/
theorem reg_eq_of_store {i : Instr} {v : Byte} (hs : s.still a) (hp : a ≠ p) (hexec : exec i s = .next t)
    (hstore : body i s = .ok () (u.slotWrite p v)) (hu : s.LeavesSlot a u) : t.reg a = s.reg a := by
  obtain rfl := exec_unique (exec_of_body hstore) hexec
  exact ((hu.trans (.slotWrite u v hp)) hs).2

/-- CLR (`43_single_operand.md` R244). -/
theorem reg_eq_of_clearInstruction {i : Instr} {o : OneOperand} (hbody : body i = clearInstruction o) (hs : s.still a)
    (hap : a ≠ p) (h : OperandAt s o p u) (hexec : exec i s = .next t) : t.reg a = s.reg a :=
  reg_eq_of_store hs hap hexec ((congrFun hbody s).trans (clearInstruction_of_operandAt h)) (.of_operandAt h)

/-- The loads of row E (`42_two_operand.md` R203 to R209). -/
theorem reg_eq_of_loadInstruction {i : Instr} {o : TwoOperands} {v : Byte} (hbody : body i = loadInstruction o)
    (hs : s.still a) (hap : a ≠ p) (h : OperandsAt s o p v u) (hexec : exec i s = .next t) : t.reg a = s.reg a :=
  reg_eq_of_store hs hap hexec ((congrFun hbody s).trans (loadInstruction_of_operandsAt h)) (.of_operandsAt h)

/-- A store through a pointer register (`42_two_operand.md` R205, R210). -/
theorem reg_eq_of_storeIndirect {i : Instr} {k : Fin 6} {ptr src q q' : Byte} (hbody : body i = storeIndirect k ptr src)
    (hs : s.still a) (hap : a ≠ p) (hq : Reaches s src q) (hq' : Reaches s ptr q')
    (hp : Reaches s (((moded s k).slotRead q).2.slotRead q').1 p) (hexec : exec i s = .next t) : t.reg a = s.reg a :=
  reg_eq_of_store hs hap hexec ((congrFun hbody s).trans (storeIndirect_of_reaches hq hq' hp))
    (((State.LeavesSlot.charge s _).trans (.slotRead _ q)).trans (.slotRead _ q'))

/-- LD X(r),r (`44_memory_indexed_calls.md` R280). -/
theorem reg_eq_of_ldXW {d x : Nib} {off q q' : Byte} (hs : s.still a) (hap : a ≠ p) (hq : Reaches s (wreg d) q)
    (hq' : Reaches s (wreg x) q') (hp : Reaches s (off + ((s.slotRead q).2.slotRead q').1) p)
    (hexec : exec (.ldXW d x off) s = .next t) : t.reg a = s.reg a :=
  reg_eq_of_store hs hap hexec (ldXW_of_reaches hq hq' hp) ((State.LeavesSlot.slotRead s q).trans (.slotRead _ q'))

/-- Where a working register is reached the window is legal, so every address reaches a slot (`10_state.md` R28). -/
theorem exists_reaches_of_wreg {d : Nib} (h : Reaches s (wreg d) p) (b : Byte) : ∃ q, Reaches s b q := by
  cases hb : resolve (s.reg slotRP) b with
  | some q => exact ⟨q, hb⟩
  | none =>
    have hnone : resolve (s.reg slotRP) (wreg d) = none := resolve_eq_none.mpr ⟨hiNib_ofNibs _ _, (resolve_eq_none.mp hb).2⟩
    rw [Reaches, hnone] at h
    cases h

/-- LD r,R, whose source is reached where its destination is (`41_short_forms.md` R161). -/
theorem reg_eq_of_ldWR {d : Nib} {r : Byte} (hs : s.still a) (hap : a ≠ p) (hd : Reaches s (wreg d) p)
    (hexec : exec (.ldWR d r) s = .next t) : t.reg a = s.reg a := by
  obtain ⟨q, hq⟩ := exists_reaches_of_wreg hd r
  exact reg_eq_of_store hs hap hexec (moveRegister_of_reaches hq hd) (.slotRead s q)

/-- LD r,X(r), whose sources are reached where its destination is (`44_memory_indexed_calls.md` R279). -/
theorem reg_eq_of_ldWX {d x : Nib} {off : Byte} (hs : s.still a) (hap : a ≠ p) (hd : Reaches s (wreg d) p)
    (hexec : exec (.ldWX d x off) s = .next t) : t.reg a = s.reg a := by
  obtain ⟨q, hq⟩ := exists_reaches_of_wreg hd (wreg x)
  obtain ⟨q', hq'⟩ := exists_reaches_of_wreg hd (off + (s.slotRead q).1)
  exact reg_eq_of_store hs hap hexec (ldWX_of_reaches hq hq' hd) ((State.LeavesSlot.slotRead s q).trans (.slotRead _ q'))

/-- A move whose source is refused writes nothing (`10_state.md` R28). -/
theorem moveRegister_none {dst src : Byte} (h : resolve (s.reg slotRP) src = none) :
    moveRegister dst src s = .error .forbiddenRP s := by
  rw [moveRegister, M.bind_apply, regRead_none h]

/-- LD R,r, its source refused or not (`41_short_forms.md` R162). -/
theorem reg_eq_of_ldRW {d : Byte} {w : Nib} (hs : s.still a) (hap : a ≠ p) (hd : Reaches s d p)
    (hexec : exec (.ldRW d w) s = .next t) : t.reg a = s.reg a := by
  cases hw : resolve (s.reg slotRP) (wreg w) with
  | none =>
    obtain rfl := exec_unique ((exec_eq (.ldRW d w) s).trans (M.finish_error (moveRegister_none hw))) hexec
    rfl
  | some q => exact reg_eq_of_store hs hap hexec (moveRegister_of_reaches hw hd) (.slotRead s q)

/-! ### The statement -/

/-- Settles O45: the flag bits by the operation's table of R37; every other slot by the shape of the form, reads and then a
write or two elsewhere. -/
theorem registerFrames : Obligations.RegisterFrames := by
  intro s t u a p v hs
  refine ⟨fun op o h hexec => ?_, fun op o h hexec => ?_, fun w hp hexec => ?_, fun o h heven hexec => ?_,
    fun o h hap hexec => reg_eq_of_clearInstruction (by cases o <;> rfl) hs hap h hexec, fun hap => ?_⟩
  · obtain ⟨hreg, hflags⟩ := aluForm_frame hs h hexec
    refine ⟨hreg, fun hp => ⟨?_, ?_, fun hadd hadc hsub hsbc => ⟨?_, ?_, fun hcp => ?_⟩⟩⟩
    · exact hflags hp 0 (by decide) fun _ _ => rfl
    · exact hflags hp 1 (by decide) fun _ _ => rfl
    · exact hflags hp 2 (by decide) fun d f => (aluEval_leaves_d_h hadd hadc hsub hsbc d v f).1
    · exact hflags hp 3 (by decide) fun d f => (aluEval_leaves_d_h hadd hadc hsub hsbc d v f).2
    · exact hflags hp 7 (by decide) fun d f => aluEval_leaves_c hadd hadc hsub hsbc hcp d v f
  · obtain rfl := exec_unique (exec_unaryForm op h) hexec
    obtain ⟨hreg, hflags⟩ := unaryAt_frame op hs fun _ => .of_operandAt h
    exact ⟨hreg, fun hp => ⟨fun k hk => hflags hp k (by omega) (unaryEval_leaves_low op hk),
      fun hop => hflags hp 7 (by decide) (unaryEval_leaves_c hop), fun hop => hflags hp 4 (by decide) (unaryEval_leaves_v hop)⟩⟩
  · obtain rfl := exec_unique (exec_incW hp) hexec
    obtain ⟨hreg, hflags⟩ := unaryAt_frame .inc hs fun _ => .refl s
    have hlt : ∀ k ∈ [0, 1, 2, 3, 7], k < 8 := by decide
    exact ⟨hreg, fun hp k hk => hflags hp k (hlt k hk) fun _ _ => leaves_c_and_low rfl rfl rfl k hk⟩
  · rcases hexec with hexec | hexec
    · exact wordInstruction_frame (· - 1) decwFlags (by cases o <;> rfl) (fun _ => leaves_c_and_low rfl rfl rfl) hs h heven hexec
    · exact wordInstruction_frame (· + 1) incwFlags (by cases o <;> rfl) (fun _ => leaves_c_and_low rfl rfl rfl) hs h heven hexec
  · exact ⟨fun _ _ h => reg_eq_of_loadInstruction rfl hs hap h, fun _ _ h => reg_eq_of_loadInstruction rfl hs hap h,
      fun _ _ h => reg_eq_of_loadInstruction rfl hs hap h, fun _ _ h => reg_eq_of_loadInstruction rfl hs hap h,
      fun _ _ h => reg_eq_of_loadInstruction rfl hs hap h, fun _ _ hd => reg_eq_of_ldWR hs hap hd,
      fun _ _ hd => reg_eq_of_ldRW hs hap hd,
      fun _ im hd hexec => reg_eq_of_store hs hap hexec (regWrite_some im hd) (.refl s),
      fun _ _ _ hd => reg_eq_of_ldWX hs hap hd, fun _ _ _ _ hq hq' hp => reg_eq_of_storeIndirect rfl hs hap hq hq' hp,
      fun _ _ _ _ hq hq' hp => reg_eq_of_storeIndirect rfl hs hap hq hq' hp,
      fun _ _ _ _ _ hq hq' hp => reg_eq_of_ldXW hs hap hq hq' hp⟩

end Sys2Proof.Machine
end

section
/-! SUPPORT. The single-operand family (`43_single_operand.md` R230 to R248): the read-modify-write forms without devices, INCW and
DECW on an even pair, CLR, PUSH and POP. -/

namespace Sys2Proof.Machine

open Sys2Proof.Statements

/-! ### The read-modify-write forms without devices -/

/-- Without devices the operand routine of a single-operand form changes nothing (`40_cycle_and_alu.md` R138). -/
theorem operandAt_no_devices {s u : State} {o : OneOperand} {p : Byte} (hd : s.cfg.devices = []) (h : OperandAt s o p u) :
    u = s := by
  cases o with
  | direct r => exact h.2
  | indirect r =>
    obtain ⟨q, -, -, rfl⟩ := h
    exact State.SameWithoutDevices.slotRead s q hd

/-- The operand of a single-operand form is outside the window (`10_state.md` R25). -/
theorem operandAt_not_window {s u : State} {o : OneOperand} {p : Byte} (h : OperandAt s o p u) :
    ¬(0xE0#8 ≤ p ∧ p ≤ 0xEF#8) := by
  obtain ⟨a, -, ha⟩ := fetchSingle_of_operandAt h
  exact fun hw => hiNib_of_resolve ha ((hiNib_eq_window p).mpr hw)

/-- A read-modify-write without devices: one slot and the flags (`43_single_operand.md` R230). -/
theorem unaryAt_no_devices {s : State} {p : Byte} (op : UnaryOp) (hd : s.cfg.devices = [])
    (hp : ¬(0xE0#8 ≤ p ∧ p ≤ 0xEF#8)) :
    let e := unaryEval op (s.reg p) (s.reg 0xFC)
    Updated s (unaryAt s op p) p e.1 e.2 ∧ unaryAt s op p = { s with regs := (unaryAt s op p).regs } := by
  have hread := State.slotRead_plain (policy_no_devices hd p)
  simp only [unaryAt, hread]
  refine ⟨updated_slotWrite _ _ hd hp, ?_⟩
  rw [State.updateFlags, State.slotWrite_regs_only p _ hd]
  rfl

/-- Settles O34: each form runs the common shape, which without devices is one write and the flags. -/
theorem unaryInstructions : Obligations.UnaryInstructions := by
  refine ⟨fun op o s u p h => ⟨exec_unaryForm op h, fun hd => ?_⟩, fun w s p h => exec_incW h⟩
  have hp := operandAt_not_window h
  obtain rfl := operandAt_no_devices hd h
  exact unaryAt_no_devices op hd hp

/-! ### INCW and DECW -/

/-- Settles O35: the four forms run the common shape of INCW and DECW. -/
theorem wordInstructions : Obligations.WordInstructions := by
  intro o s u p h heven
  have hdec := wordInstruction_of_operandAt (· - 1) decwFlags h heven
  have hinc := wordInstruction_of_operandAt (· + 1) incwFlags h heven
  cases o with
  | direct r | indirect r => exact ⟨exec_of_body hdec, exec_of_body hinc⟩

/-! ### PUSH and POP -/

/-- A pop leaves RP, so what every address reaches (`20_memory.md` R83, `10_state.md` R24). -/
theorem reaches_of_popAt {s t : State} {v a p : Byte} (h : PopAt s v t) (ha : Reaches s a p) : Reaches t a p := by
  have hrp : t.reg slotRP = s.reg slotRP := by
    unfold PopAt at h
    split at h
    · obtain ⟨q, -, -, rfl⟩ := h
      exact (State.reg_setReg_ne _ _ (by decide)).trans (s.rp_slotRead q)
    · obtain ⟨-, rfl⟩ := h
      exact (State.reg_setReg_ne _ _ (by decide)).trans (State.reg_setReg_ne _ _ (by decide))
  rw [Reaches, hrp]
  exact ha

/-- PUSH at an operand that is reached: the operand read, then the push (`43_single_operand.md` R240). -/
theorem pushInstruction_of_operandAt {s u t : State} {o : OneOperand} {p : Byte} (h : OperandAt s o p u)
    (hpush : PushAt (u.slotRead p).2 (u.slotRead p).1 t) : pushInstruction o s = .ok () t := by
  obtain ⟨a, hfetch, ha⟩ := fetchSingle_of_operandAt h
  rw [pushInstruction, M.bind_apply, hfetch]
  exact (regRead_bind ha push).trans (push_of_pushAt hpush)

/-- POP at an operand that is reached: the operand resolved, the pop, then the write (`43_single_operand.md` R238). -/
theorem popInstruction_of_operandAt {s u t : State} {o : OneOperand} {p v : Byte} (h : OperandAt s o p u)
    (hpop : PopAt u v t) : popInstruction o s = .ok () (t.slotWrite p v) := by
  obtain ⟨a, hfetch, ha⟩ := fetchSingle_of_operandAt h
  rw [popInstruction, M.bind_apply, hfetch]
  dsimp only
  rw [M.bind_apply, pop_of_popAt hpop]
  exact regWrite_some v (reaches_of_popAt hpop ha)

/-- Settles O36: the shapes of CLR, PUSH and POP, each after the operand routine. -/
theorem clearPushPop : Obligations.ClearPushPop := by
  intro o s u p h
  have hclear := clearInstruction_of_operandAt h
  have hpush := fun t => pushInstruction_of_operandAt (t := t) h
  have hpop := fun v t => popInstruction_of_operandAt (v := v) (t := t) h
  cases o with
  | direct r | indirect r =>
    exact ⟨exec_of_body hclear, fun t ht => exec_of_body (hpush t ht), fun v t ht => exec_of_body (hpop v t ht)⟩

end Sys2Proof.Machine
end

section
/-! SUPPORT. The memory forms in the terms of the statements (`44_memory_indexed_calls.md` R270 to R278): the register reads
before an access, the two pointer writes after it, and the four shapes over any memory access. -/

namespace Sys2Proof.Machine

open Sys2Proof.Statements

variable {s t : State} {d p : Nib} {q r : Byte}

/-! ### What register reads leave -/

/-- From `s` to `t` registers were only read: nothing that no register access reaches has changed, and the core's own slots
keep their bytes, the pending register apart (`10_state.md` R24, R26). -/
structure State.OnlyReads (s t : State) : Prop extends State.RegOnly s t where
  core : ∀ a, 0xF8#8 ≤ a → a ≠ slotIRQ → t.reg a = s.reg a
  inv : s.CoreStep t

theorem State.OnlyReads.rel : StateRel State.OnlyReads where
  refl := fun s => ⟨.refl s, fun _ _ _ => rfl, id⟩
  trans := fun h k =>
    ⟨h.toRegOnly.trans k.toRegOnly, fun a ha hq => (k.core a ha hq).trans (h.core a ha hq), k.inv ∘ h.inv⟩

theorem State.OnlyReads.slotRead (s : State) (q : Byte) : s.OnlyReads (s.slotRead q).2 :=
  ⟨.slotRead s q, fun _ ha hq => s.reg_slotRead_core q ha hq, .slotRead s q⟩

theorem State.OnlyReads.trans {u : State} (h : s.OnlyReads t) (k : t.OnlyReads u) : s.OnlyReads u :=
  State.OnlyReads.rel.trans h k

theorem State.OnlyReads.pairFrom (s : State) (q : Byte) : s.OnlyReads (pairFrom s q).2 :=
  (State.OnlyReads.slotRead s q).trans (.slotRead _ _)

theorem State.OnlyReads.reaches {a : Byte} (h : s.OnlyReads t) (ha : Reaches s a q) : Reaches t a q := by
  rw [Reaches, h.core slotRP (by decide) (by decide)]
  exact ha

/-- The core's view of PROGRAM memory is none of the registers (`20_memory.md` R73). -/
theorem State.RegOnly.progView (h : s.RegOnly t) (a : Word) : t.progView a = s.progView a := by
  rw [State.progView, State.progView, h.lines, h.prog]

/-- The two writes of a pair (`10_state.md` R34). -/
theorem State.RegOnly.pairInto (s : State) (q : Byte) (w : Word) : s.RegOnly (pairInto s q w) :=
  (State.RegOnly.slotWrite s q _).trans (.slotWrite _ _ _)

/-! ### The pair and the pointers -/

theorem bit_zero_of_even {a : Byte} (heven : a.toNat % 2 = 0) : bit a 0 = false := by
  simp [bit_zero_eq, heven]

theorem bit_zero_wreg (heven : p.toNat % 2 = 0) : bit (wreg p) 0 = false := by
  revert p
  decide

/-- A read of an even pair that is reached, and what runs after it (`10_state.md` R34). -/
theorem pairRead_bind {α : Type} {a : Byte} (ha : bit a 0 = false) (h : Reaches s a q) (f : Word → M α) :
    (pairRead a >>= f) s = f (pairFrom s q).1 (pairFrom s q).2 := by
  rw [M.bind_apply, pairRead_even ha h]
  rfl

/-- A working register is never RP: the window that would select it is forbidden (`10_state.md` R28). -/
theorem ne_rp_of_reaches_wreg (h : Reaches s (wreg d) r) : r ≠ slotRP := by
  have hlegal : ¬(loNib (s.reg slotRP) = 0xE#4 ∨ loNib (s.reg slotRP) = 0xF#4) := fun hf => by
    have hnone := resolve_eq_none.mpr ⟨hiNib_ofNibs 0xE#4 d, hf⟩
    cases h.symm.trans hnone
  obtain ⟨hE, hF⟩ := not_or.mp hlegal
  have hslot : ofNibs (loNib (s.reg slotRP)) d = r := Option.some.inj ((resolve_wreg d hE hF).symm.trans h)
  rintro rfl
  exact hF ((hiNib_ofNibs _ d).symm.trans (congrArg hiNib hslot))

/-- The two pointer writes: the register pointer, then the pair, which is reached as before
(`44_memory_indexed_calls.md` R273). -/
theorem advancePointers_of_reaches (heven : p.toNat % 2 = 0) (hr : Reaches s (wreg d) r) (hq : Reaches s (wreg p) q)
    (b : Byte) (a : Word) :
    advancePointers d p b a s = .ok () (pairInto (s.slotWrite r (b + 1)) q (a + 1)) := by
  have hq' : Reaches (s.slotWrite r (b + 1)) (wreg p) q := by
    rw [Reaches, s.rp_slotWrite _ (ne_rp_of_reaches_wreg hr)]
    exact hq
  rw [advancePointers, M.bind_apply, regWrite_some _ hr]
  exact pairWrite_even _ (bit_zero_wreg heven) hq'

/-! ### The four shapes -/

section

variable (heven : p.toNat % 2 = 0) (hq : Reaches s (wreg p) q) (hr : Reaches s (wreg d) r)
include heven hq hr

/-- A plain load: the pair, the access, the write (`44_memory_indexed_calls.md` R271, R275). -/
theorem memoryLoad_of_read {read : Word → M Byte} {v : Byte}
    (hread : read (pairFrom s q).1 (pairFrom s q).2 = .ok v t) (ht : t.reg slotRP = (pairFrom s q).2.reg slotRP) :
    memoryLoad read d p s = .ok () (t.slotWrite r v) := by
  have hr' : Reaches t (wreg d) r := by
    rw [Reaches, ht]
    exact (State.OnlyReads.pairFrom s q).reaches hr
  rw [memoryLoad, pairRead_bind (bit_zero_wreg heven) hq, M.bind_apply, hread]
  exact regWrite_some v hr'

/-- A plain store: the register, the pair, the access (`44_memory_indexed_calls.md` R272, R276). -/
theorem memoryStore_of_reaches (write : Word → Byte → M Unit) :
    memoryStore write d p s =
      let v := s.slotRead r
      let a := pairFrom v.2 q
      write a.1 v.1 a.2 := by
  rw [memoryStore, regRead_bind hr, pairRead_bind (bit_zero_wreg heven) (reaches_slotRead r hq)]

/-- An auto-increment load: the pair, the pointer, the access, the write, then the pointers through the window as it stands
(`44_memory_indexed_calls.md` R273, R277). -/
theorem memoryLoadIncrement_of_read {read : Word → M Byte} {v x r' q' : Byte}
    (hread : read (pairFrom s q).1 ((pairFrom s q).2.slotRead r).2 = .ok v t)
    (hx : Reaches t ((pairFrom s q).2.slotRead r).1 x) (hr' : Reaches (t.slotWrite x v) (wreg d) r')
    (hq' : Reaches (t.slotWrite x v) (wreg p) q') :
    memoryLoadIncrement read d p s =
      .ok () (pairInto ((t.slotWrite x v).slotWrite r' (((pairFrom s q).2.slotRead r).1 + 1)) q' ((pairFrom s q).1 + 1)) := by
  rw [memoryLoadIncrement, pairRead_bind (bit_zero_wreg heven) hq,
    regRead_bind ((State.OnlyReads.pairFrom s q).reaches hr), M.bind_apply, hread]
  dsimp only
  rw [M.bind_apply, regWrite_some v hx]
  exact advancePointers_of_reaches heven hr' hq' _ _

/-- An auto-increment store: the pointer, the register it points to, the pair, the access, then the pointers
(`44_memory_indexed_calls.md` R274, R278). -/
theorem memoryStoreIncrement_of_write {write : Word → Byte → M Unit} {x : Byte} (hx : Reaches s (s.slotRead r).1 x)
    (hwrite : let v := (s.slotRead r).2.slotRead x
      write (pairFrom v.2 q).1 v.1 (pairFrom v.2 q).2 = .ok () t) (ht : t.reg slotRP = s.reg slotRP) :
    memoryStoreIncrement write d p s =
      .ok () (pairInto (t.slotWrite r ((s.slotRead r).1 + 1)) q
        ((pairFrom ((s.slotRead r).2.slotRead x).2 q).1 + 1)) := by
  have hr' : Reaches t (wreg d) r := by rw [Reaches, ht]; exact hr
  have hq' : Reaches t (wreg p) q := by rw [Reaches, ht]; exact hq
  rw [memoryStoreIncrement, regRead_bind hr, regRead_bind (reaches_slotRead r hx),
    pairRead_bind (bit_zero_wreg heven) (reaches_slotRead x (reaches_slotRead r hq)), M.bind_apply, hwrite]
  exact advancePointers_of_reaches heven hr' hq' _ _

end

/-! ### DATA memory -/

/-- A DATA load after register reads: every address is legal (`20_memory.md` R63). -/
theorem dataRead_of_onlyReads (h : s.OnlyReads t) (a : Word) : dataRead a t = .ok (Memory.read s.data a) t := by
  rw [← h.data]
  rfl

/-- A DATA store after register reads (`20_memory.md` R64). -/
theorem dataWrite_of_onlyReads (h : s.OnlyReads t) (a : Word) (v : Byte) :
    dataWrite a v t = .ok () { t with data := Memory.write s.data a v } := by
  rw [← h.data]
  rfl

/-- Settles O40: the four shapes over the DATA accesses. -/
theorem dataMemory : Obligations.DataMemory := by
  intro s d p q r heven hq hr
  have hpair := State.OnlyReads.pairFrom s q
  have hstore := (State.OnlyReads.slotRead s r).trans (.pairFrom _ q)
  refine ⟨exec_of_body ?_, exec_of_body ?_, fun x r' q' hx hr' hq' => exec_of_body ?_, fun x hx => exec_of_body ?_⟩
  · exact memoryLoad_of_read heven hq hr (dataRead_of_onlyReads hpair _) rfl
  · exact (memoryStore_of_reaches heven hq hr dataWrite).trans (dataWrite_of_onlyReads hstore _ _)
  · have hloaded := hpair.trans (.slotRead _ r)
    exact memoryLoadIncrement_of_read heven hq hr (dataRead_of_onlyReads hloaded _) (hloaded.reaches hx) hr' hq'
  · have hstored := ((State.OnlyReads.slotRead s r).trans (.slotRead _ x)).trans (.pairFrom _ q)
    exact memoryStoreIncrement_of_write heven hq hr hx (dataWrite_of_onlyReads hstored _ _)
      (hstored.core slotRP (by decide) (by decide))

end Sys2Proof.Machine
end

section
/-! SUPPORT. LDC and LDCI (`44_memory_indexed_calls.md` R275 to R278): a PROGRAM access between register accesses, and the state
it leaves compared with one that has the same registers and another cache. -/

namespace Sys2Proof.Machine

open Sys2Proof.Statements

variable {s t : State}

/-! ### States alike but for the cache -/

/-- `t` is `s` but for the cache lines and the bus memory of PROGRAM. -/
def State.UpToCache (s t : State) : Prop := t = { s with lines := t.lines, prog := t.prog }

theorem State.UpToCache.reg (h : s.UpToCache t) (a : Byte) : t.reg a = s.reg a := by
  rw [h]
  rfl

theorem State.UpToCache.reaches {a q : Byte} (h : s.UpToCache t) (ha : Reaches s a q) : Reaches t a q := by
  rw [Reaches, h.reg]
  exact ha

/-- A register write neither reads nor writes the cache (`10_state.md` R27). -/
theorem State.slotWrite_withCache (s : State) (lines : List CacheLine) (prog : Memory) (q v : Byte) :
    State.slotWrite { s with lines := lines, prog := prog } q v = { s.slotWrite q v with lines := lines, prog := prog } := by
  have hrest := State.RegOnly.slotWrite s q v
  refine (s.slotWrite_recast s.cfg.cost s.pc prog s.data lines s.pred s.run s.cycles s.lastTick q v).trans ?_
  rw [State.recast, ← hrest.cfg, ← hrest.pc, ← hrest.data, ← hrest.pred, ← hrest.run, ← hrest.lastTick,
    ← s.cycles_slotWrite q v]

theorem State.UpToCache.slotWrite (h : s.UpToCache t) (q v : Byte) : (s.slotWrite q v).UpToCache (t.slotWrite q v) := by
  have hwrite := (congrArg (fun u => State.slotWrite u q v) h).trans (s.slotWrite_withCache t.lines t.prog q v)
  rw [State.UpToCache, hwrite]

theorem State.UpToCache.pairInto (h : s.UpToCache t) (q : Byte) (w : Word) : (pairInto s q w).UpToCache (pairInto t q w) :=
  (h.slotWrite q _).slotWrite _ _

/-! ### A PROGRAM access after register reads -/

/-- A PROGRAM load answers the byte the view had before the reads, and leaves the view (`20_memory.md` R73). -/
theorem programRead_of_onlyReads (hs : s.CoreInv) (h : s.OnlyReads t) {a : Word} (ha : a ≠ sentinel) :
    ∃ u, programRead a t = .ok (s.progView a) u ∧ SameProgram s u ∧ t.UpToCache u := by
  obtain ⟨u, hread, hsame, hcache⟩ := programRead_view (h.inv hs) ha
  exact ⟨u, h.progView a ▸ hread, fun b hb => (hsame b hb).trans (h.progView b), hcache⟩

/-- What a store of `v` at `a` makes of the core's view of PROGRAM memory (`20_memory.md` R73). -/
def State.StoredAt (a : Word) (v : Byte) (s t : State) : Prop :=
  t.progView a = v ∧ ∀ b, b ≠ 0xFFFF → b ≠ a → t.progView b = s.progView b

/-- A PROGRAM store leaves the view the reads left, but for its own byte (`20_memory.md` R73). -/
theorem programWrite_of_onlyReads (hs : s.CoreInv) (h : s.OnlyReads t) {a : Word} (ha : a ≠ sentinel) (v : Byte) :
    ∃ u, programWrite a v t = .ok () u ∧ s.StoredAt a v u ∧ t.UpToCache u := by
  obtain ⟨u, hwrite, hself, hother, hcache⟩ := programWrite_view (h.inv hs) ha v
  exact ⟨u, hwrite, ⟨hself, fun b hb hne => (hother b hb hne).trans (h.progView b)⟩, hcache⟩

theorem sameProgram_trans_regOnly {u : State} (h : SameProgram s t) (k : t.RegOnly u) : SameProgram s u :=
  fun b hb => (k.progView b).trans (h b hb)

theorem State.StoredAt.trans_regOnly {a : Word} {v : Byte} {u : State} (h : s.StoredAt a v t) (k : t.RegOnly u) :
    s.StoredAt a v u :=
  ⟨(k.progView a).trans h.1, fun b hb hne => (k.progView b).trans (h.2 b hb hne)⟩

/-- The pointer writes of an auto-increment (`44_memory_indexed_calls.md` R277). -/
theorem regOnly_pointerWrites (s : State) (r v q : Byte) (w : Word) : s.RegOnly (pairInto (s.slotWrite r v) q w) :=
  (State.RegOnly.slotWrite s r v).trans (.pairInto _ q w)

/-- Settles O41: the four shapes over the PROGRAM accesses, whose state differs from that of the reads in the cache alone. -/
theorem programMemory : Obligations.ProgramMemory := by
  intro s d p q r hs heven hq hr
  have hpair := State.OnlyReads.pairFrom s q
  refine ⟨fun ha => ?_, fun ha => ?_, fun x r' q' ha hx hr' hq' => ?_, fun x ha hx => ?_⟩
  · obtain ⟨t, hread, hsame, hcache⟩ := programRead_of_onlyReads hs hpair ha
    exact ⟨_, exec_of_body (memoryLoad_of_read heven hq hr hread (hcache.reg _)),
      sameProgram_trans_regOnly hsame (.slotWrite t r _), hcache.slotWrite r _⟩
  · have hreads := (State.OnlyReads.slotRead s r).trans (.pairFrom _ q)
    obtain ⟨t, hwrite, ⟨hself, hother⟩, hcache⟩ := programWrite_of_onlyReads hs hreads ha (s.slotRead r).1
    exact ⟨t, exec_of_body ((memoryStore_of_reaches heven hq hr programWrite).trans hwrite), hself, hother, hcache⟩
  · have hreads := hpair.trans (.slotRead _ r)
    obtain ⟨t, hread, hsame, hcache⟩ := programRead_of_onlyReads hs hreads ha
    have hloaded := hcache.slotWrite x (s.progView (pairFrom s q).1)
    have hbody := memoryLoadIncrement_of_read heven hq hr hread (hcache.reaches (hreads.reaches hx)) (hloaded.reaches hr')
      (hloaded.reaches hq')
    exact ⟨_, exec_of_body hbody,
      sameProgram_trans_regOnly hsame ((State.RegOnly.slotWrite t x _).trans (regOnly_pointerWrites _ r' _ q' _)),
      (hloaded.slotWrite r' _).pairInto q' _⟩
  · have hreads := ((State.OnlyReads.slotRead s r).trans (.slotRead _ x)).trans (.pairFrom _ q)
    obtain ⟨t, hwrite, hstored, hcache⟩ := programWrite_of_onlyReads hs hreads ha ((s.slotRead r).2.slotRead x).1
    have hrp : t.reg slotRP = s.reg slotRP := (hcache.reg _).trans (hreads.core slotRP (by decide) (by decide))
    obtain ⟨hself, hother⟩ := hstored.trans_regOnly (regOnly_pointerWrites t r ((s.slotRead r).1 + 1) q _)
    exact ⟨_, exec_of_body (memoryStoreIncrement_of_write heven hq hr hx hwrite hrp), hself, hother,
      (hcache.slotWrite r _).pairInto q _⟩

end Sys2Proof.Machine
end

section
/-! SUPPORT. CALL, RET and IRET (`44_memory_indexed_calls.md` R281, R282, `41_short_forms.md` R174, R175): the two pushes and the
two pops of a return address, and the transfer behind them. -/

namespace Sys2Proof.Machine

open Sys2Proof.Statements

variable {s t u : State}

/-- The two pushes of the return address, high byte first (`20_memory.md` R84). -/
theorem pushPc_of_push (ht : push (hiByte s.pc) s = .ok () t) (hu : push (loByte s.pc) t = .ok () u) : pushPc s = .ok () u := by
  rw [pushPc, M.bind_apply, M.get_apply]
  dsimp only
  rw [M.bind_apply, ht]
  exact hu

/-- The two pops of a return address, low byte first (`20_memory.md` R84). -/
theorem popPc_of_pop {h l : Byte} (ht : pop s = .ok l t) (hu : pop t = .ok h u) : popPc s = .ok (ofBytes h l) u := by
  rw [popPc, M.bind_apply, ht]
  dsimp only
  rw [M.bind_apply, hu]
  rfl

/-- A call: the return address pushed, then the transfer (`44_memory_indexed_calls.md` R281, R282). -/
theorem callTo_of_pushPc (a : Word) (h : pushPc s = .ok () t) : callTo a s = .ok () (transferTo t a) := by
  rw [callTo, M.bind_apply, h]
  rfl

/-- CALL @RR: the pair at its even address, then the call (`44_memory_indexed_calls.md` R282). -/
theorem callIRR_of_reaches {rr p : Byte} (heven : rr.toNat % 2 = 0) (h : Reaches s rr p) :
    body (.callIRR rr) s = callTo (pairFrom s p).1 (pairFrom s p).2 := by
  rw [body, pairRead_bind (bit_zero_of_even heven) h]

/-- RET: the return address popped, then the transfer (`41_short_forms.md` R174). -/
theorem exec_ret_of_popPc {a : Word} (h : popPc s = .ok a t) : exec .ret s = .next (transferTo t a) := by
  refine exec_of_body ?_
  rw [body, M.bind_apply, h]
  rfl

/-- IRET: FLAGS popped and written, then the return address popped, IMR bit 7 set, the transfer (`41_short_forms.md` R175). -/
theorem returnFromInterrupt_of_pop {f : Byte} {a : Word} (hf : pop s = .ok f t) (ha : popPc (t.setReg slotFLAGS f) = .ok a u) :
    returnFromInterrupt s = .ok () (transferTo (u.setReg slotIMR (u.reg slotIMR ||| 0x80#8)) a) := by
  rw [returnFromInterrupt, M.bind_apply, hf]
  dsimp only
  rw [M.bind_apply, M.modify_apply]
  dsimp only
  rw [M.bind_apply, ha]
  rfl

/-- Settles O38: the pushes and pops of the statements are the model's, and a transfer follows them. -/
theorem callReturn : Obligations.CallReturn := by
  intro s t u
  refine ⟨fun da ht hu => ?_, fun rr p heven hp ht hu => ?_, fun l h ht hu => ?_, fun f l h v ht hu hv => ?_⟩
  · exact exec_of_body (callTo_of_pushPc da (pushPc_of_push (push_of_pushAt ht) (push_of_pushAt hu)))
  · rw [← (State.OnlyReads.pairFrom s p).pc] at ht hu
    have hpush := pushPc_of_push (push_of_pushAt ht) (push_of_pushAt hu)
    exact exec_of_body ((callIRR_of_reaches heven hp).trans (callTo_of_pushPc _ hpush))
  · exact exec_ret_of_popPc (popPc_of_pop (pop_of_popAt ht) (pop_of_popAt hu))
  · exact exec_of_body (returnFromInterrupt_of_pop (pop_of_popAt ht) (popPc_of_pop (pop_of_popAt hu) (pop_of_popAt hv)))

end Sys2Proof.Machine
end

section
/-! SUPPORT. What the stores of DATA memory change (`20_memory.md` R60, R82): the byte at the address of an LDE or LDEI, the byte
below the external stack pointer of a push. -/

namespace Sys2Proof.Machine

open Sys2Proof.Statements

variable {s t u : State}

/-! ### A push -/

/-- DATA memory after a push of `v`: the byte stored is below the external stack pointer, on the internal stack there is none
(`20_memory.md` R82). -/
def State.dataAfterPush (s : State) (v : Byte) : Memory :=
  match stackByte s with
  | none => s.data
  | some a => Memory.write s.data a v

theorem State.dataAfterPush_internal (v : Byte) (hmode : s.internalStack = true) : s.dataAfterPush v = s.data := by
  have hnone : stackByte s = none := if_pos hmode
  rw [State.dataAfterPush, hnone]

theorem State.dataAfterPush_external (v : Byte) (hmode : s.internalStack = false) :
    s.dataAfterPush v = Memory.write s.data (s.sp - 1) v := by
  have hsome : stackByte s = some (s.sp - 1) := if_neg (ne_true_of_eq_false hmode)
  rw [State.dataAfterPush, hsome]

theorem State.wf_dataAfterPush (hw : Memory.wf s.data = true) (v : Byte) : Memory.wf (s.dataAfterPush v) = true := by
  unfold State.dataAfterPush
  split
  · exact hw
  · exact Memory.wf_write hw _ _

theorem State.read_dataAfterPush (hw : Memory.wf s.data = true) (v : Byte) (b : Word) :
    Memory.read (s.dataAfterPush v) b = if stackByte s = some b then v else Memory.read s.data b := by
  unfold State.dataAfterPush
  split
  · next h => rw [h, if_neg nofun]
  · next a h => simp only [h, Memory.read_write hw, Option.some.injEq, eq_comm]

/-- DATA memory after a push that is finished, refused by the window or not (`20_memory.md` R82). -/
theorem data_of_finish_push {v : Byte} (h : M.finish (push v) s = .next t) : t.data = s.dataAfterPush v := by
  cases hmode : s.internalStack with
  | true =>
    rw [State.dataAfterPush_internal v hmode]
    cases hres : resolve (s.reg slotRP) (s.reg slotSPL - 1) with
    | none =>
      obtain rfl := Host.Outcome.next.inj ((M.finish_error (push_internal_none v hmode hres)).symm.trans h)
      rfl
    | some q =>
      obtain rfl := Host.Outcome.next.inj ((M.finish_ok (push_internal v hmode hres)).symm.trans h)
      exact (State.RegOnly.slotWrite _ q v).data
  | false =>
    rw [State.dataAfterPush_external v hmode]
    obtain rfl := Host.Outcome.next.inj ((M.finish_ok (push_external v hmode)).symm.trans h)
    rfl

theorem data_of_pushAt {v : Byte} (h : PushAt s v t) : t.data = s.dataAfterPush v :=
  data_of_finish_push (M.finish_ok (push_of_pushAt h))

/-- Register reads leave the mode bit and the stack pointer (`10_state.md` R24). -/
theorem State.OnlyReads.stackByte (h : s.OnlyReads t) : stackByte t = stackByte s := by
  simp only [Statements.stackByte, h.core 0xF8 (by decide) (by decide), h.core 0xFE (by decide) (by decide),
    h.core 0xFF (by decide) (by decide)]

/-! ### PUSH and CALL -/

/-- The operand read of a single-operand form (`40_cycle_and_alu.md` R138). -/
theorem State.OnlyReads.of_operandAt {o : OneOperand} {p : Byte} (h : OperandAt s o p u) : s.OnlyReads u := by
  cases o with
  | direct r =>
    obtain ⟨-, rfl⟩ := h
    exact State.OnlyReads.rel.refl u
  | indirect r =>
    obtain ⟨q, -, -, rfl⟩ := h
    exact .slotRead s q

/-- PUSH at an operand that is reached is a push after register reads (`43_single_operand.md` R240). -/
theorem pushInstruction_eq_push {o : OneOperand} {p : Byte} (h : OperandAt s o p u) :
    pushInstruction o s = push (u.slotRead p).1 (u.slotRead p).2 := by
  obtain ⟨a, hfetch, ha⟩ := fetchSingle_of_operandAt h
  rw [pushInstruction, M.bind_apply, hfetch]
  exact regRead_bind ha push

theorem read_data_of_push {i : Instr} {o : OneOperand} {p : Byte} (hbody : body i = pushInstruction o)
    (hw : Memory.wf s.data = true) (h : OperandAt s o p u) (hexec : exec i s = .next t) (b : Word) :
    Memory.read t.data b = if stackByte s = some b then (u.slotRead p).1 else Memory.read s.data b := by
  have hreads := (State.OnlyReads.of_operandAt h).trans (.slotRead u p)
  rw [exec_eq, hbody, M.finish, pushInstruction_eq_push h] at hexec
  have hw' : Memory.wf (u.slotRead p).2.data = true := hreads.data ▸ hw
  rw [data_of_finish_push hexec, State.read_dataAfterPush hw', hreads.stackByte, hreads.data]

/-- The two pushes of a call store to two bytes at most (`44_memory_indexed_calls.md` R281). -/
theorem read_data_of_pushes {h l : Byte} (hw : Memory.wf s.data = true) (ht : PushAt s h t) (hu : PushAt t l u) {b : Word}
    (hb : stackByte s ≠ some b) (hb' : stackByte t ≠ some b) : Memory.read u.data b = Memory.read s.data b := by
  have hdata := data_of_pushAt ht
  have hw' : Memory.wf t.data = true := hdata ▸ State.wf_dataAfterPush hw h
  rw [data_of_pushAt hu, State.read_dataAfterPush hw', if_neg hb', hdata, State.read_dataAfterPush hw, if_neg hb]

/-! ### The statement -/

/-- Settles O44: each form answers the state the earlier statements give it, whose DATA memory has one store, or two. -/
theorem storeFrames : Obligations.StoreFrames := by
  intro s t hw
  refine ⟨fun d p q r heven hq hr => ?_, fun o p u h hexec => ?_, fun da u v hu hv hexec b hb hb' => ?_,
    fun rr p u v heven hp hu hv hexec b hb hb' => ?_⟩
  · obtain ⟨-, hstore, -, hstoreIncrement⟩ := dataMemory s d p q r heven hq hr
    refine ⟨fun hexec b => ?_, fun x hx hexec b => ?_⟩
    · obtain rfl := exec_unique hstore hexec
      exact Memory.read_write hw _ b _
    · obtain rfl := exec_unique (hstoreIncrement x hx) hexec
      rw [(regOnly_pointerWrites _ r _ q _).data]
      exact Memory.read_write hw _ b _
  · cases o with
    | direct r | indirect r => exact read_data_of_push rfl hw h hexec
  · obtain ⟨hcall, -⟩ := callReturn s u v
    obtain rfl := exec_unique (hcall da hu hv) hexec
    exact read_data_of_pushes hw hu hv hb hb'
  · obtain ⟨-, hcall, -⟩ := callReturn s u v
    obtain rfl := exec_unique (hcall rr p heven hp hu hv) hexec
    have hreads := State.OnlyReads.pairFrom s p
    have hw' : Memory.wf (pairFrom s p).2.data = true := hreads.data ▸ hw
    exact (read_data_of_pushes hw' hu hv (hreads.stackByte ▸ hb) hb').trans (congrArg (Memory.read · b) hreads.data)

end Sys2Proof.Machine
end

section
/-! SUPPORT. A return address on each stack (`20_memory.md` R82 to R84): what the two pushes leave, what the two pops answer, and
RET after CALL (`44_memory_indexed_calls.md` R283). -/

namespace Sys2Proof.Machine

open Sys2Proof.Statements

variable {s t u v : State} {a q q' : Byte}

/-! ### The external stack -/

/-- The two pushes move the pointer down by two and store the low byte at it, the high byte above. -/
theorem pushPc_external (hmode : s.internalStack = false) (hw : Memory.wf s.data = true) :
    ∃ t, pushPc s = .ok () t ∧ t.sp + 1 + 1 = s.sp ∧
      Memory.read t.data t.sp = loByte s.pc ∧ Memory.read t.data (t.sp + 1) = hiByte s.pc := by
  have hmode' : (s.pushedExternal (hiByte s.pc)).internalStack = false := (s.internalStack_setSp _).trans hmode
  have hsp := (s.pushedExternal (hiByte s.pc)).sp_pushedExternal (loByte s.pc)
  rw [s.sp_pushedExternal] at hsp
  refine ⟨(s.pushedExternal (hiByte s.pc)).pushedExternal (loByte s.pc), ?_, ?_, ?_, ?_⟩
  · exact pushPc_of_push (push_external _ hmode) (push_external _ hmode')
  · rw [hsp, BitVec.sub_add_cancel, BitVec.sub_add_cancel]
  · rw [hsp, ← s.sp_pushedExternal (hiByte s.pc)]
    exact Memory.read_write_self (Memory.wf_write hw _ _) _ _
  · rw [hsp, BitVec.sub_add_cancel]
    refine (Memory.read_write_ne _ _ ?_).trans (Memory.read_write_self hw _ _)
    rw [s.sp_pushedExternal]
    bv_omega

/-- The two pops answer the two bytes at the pointer and move it up by two. -/
theorem popPc_external (hmode : s.internalStack = false) :
    popPc s = .ok (ofBytes (Memory.read s.data (s.sp + 1)) (Memory.read s.data s.sp))
      ((s.setSp (s.sp + 1)).setSp (s.sp + 1 + 1)) := by
  have hpop := pop_external (s := s.setSp (s.sp + 1)) ((s.internalStack_setSp _).trans hmode)
  rw [State.sp_setSp] at hpop
  exact popPc_of_pop (pop_external hmode) hpop

/-- A return address pushed on the external stack: where the pointer and the two bytes are as the pushes left them, the two pops
answer it and put the pointer back. -/
theorem exists_pushPc_popPc_external (hmode : s.internalStack = false) (hw : Memory.wf s.data = true) :
    ∃ t, pushPc s = .ok () t ∧ ∀ v : State, v.internalStack = false → v.sp = t.sp →
      Memory.read v.data t.sp = Memory.read t.data t.sp → Memory.read v.data (t.sp + 1) = Memory.read t.data (t.sp + 1) →
      ∃ w, popPc v = .ok s.pc w ∧ w.sp = s.sp := by
  obtain ⟨t, hpush, hsp, hlow, hhigh⟩ := pushPc_external hmode hw
  refine ⟨t, hpush, fun v hmode' hvsp hlow' hhigh' => ?_⟩
  have hpop := popPc_external hmode'
  rw [hvsp, hlow', hhigh', hlow, hhigh, ofBytes_hiByte_loByte, hsp] at hpop
  exact ⟨_, hpop, State.sp_setSp _ _⟩

/-! ### The internal stack -/

/-- A return address of the internal stack: its low byte at address `a`, which reaches slot `q'`, its high byte at the next,
which reaches `q`; both are plain slots below the special registers. -/
structure State.StackSlots (s : State) (a q q' : Byte) : Prop where
  mode : s.internalStack = true
  high : Reaches s (a + 1) q
  low : Reaches s a q'
  plain : ∀ c ∈ [q, q'], c < 0xF8#8 ∧ s.policy c = .readWrite

/-- Only the mode bit, RP and the configuration say which slots the stack uses. -/
theorem State.StackSlots.congr (h : s.StackSlots a q q') (hcfg : t.cfg = s.cfg) (hmode : t.reg slotP01M = s.reg slotP01M)
    (hrp : t.reg slotRP = s.reg slotRP) : t.StackSlots a q q' where
  mode := by rw [State.internalStack, hmode]; exact h.mode
  high := by rw [Reaches, hrp]; exact h.high
  low := by rw [Reaches, hrp]; exact h.low
  plain := fun c hc => by rw [policy_congr hcfg]; exact h.plain c hc

/-- Neighbouring addresses reach different slots: resolution keeps the low bit (`10_state.md` R25). -/
theorem State.StackSlots.slots_ne (h : s.StackSlots a q q') : q ≠ q' := by
  have hbit : ∀ a : Byte, bit (a + 1) 0 ≠ bit a 0 := by decide
  rintro rfl
  exact hbit a ((bit_zero_of_resolve h.high).symm.trans (bit_zero_of_resolve h.low))

/-- Neither slot is a special register. -/
theorem State.StackSlots.ne_special (h : s.StackSlots a q q') {c e : Byte} (hc : c ∈ [q, q']) (he : 0xF8#8 ≤ e) :
    e ≠ c := by
  have hlt := (h.plain c hc).1
  bv_omega

/-- The state a push of `b` leaves, SPL moved to `a`, which reaches the plain slot `c`. -/
def State.pushedInternal (s : State) (a c b : Byte) : State := (s.setReg slotSPL a).setReg c b

theorem State.reg_pushedInternal_spl {c : Byte} (s : State) (b : Byte) (hc : slotSPL ≠ c) :
    (s.pushedInternal a c b).reg slotSPL = a :=
  (State.reg_setReg_ne _ _ hc).trans (State.reg_setReg_self _ _ _)

theorem State.reg_pushedInternal_self (s : State) (c b : Byte) : (s.pushedInternal a c b).reg c = b :=
  State.reg_setReg_self _ _ _

theorem State.reg_pushedInternal_ne {c e : Byte} (s : State) (b : Byte) (hspl : e ≠ slotSPL) (hc : e ≠ c) :
    (s.pushedInternal a c b).reg e = s.reg e :=
  (State.reg_setReg_ne _ _ hc).trans (State.reg_setReg_ne _ _ hspl)

theorem push_internal_plain {c : Byte} (b : Byte) (hmode : s.internalStack = true) (hspl : s.reg slotSPL = a + 1)
    (hc : Reaches s a c) (hpol : s.policy c = .readWrite) : push b s = .ok () (s.pushedInternal a c b) := by
  have hdown : s.reg slotSPL - 1 = a := by rw [hspl, BitVec.add_sub_cancel]
  rw [push_internal b hmode (hdown.symm ▸ hc), hdown, State.slotWrite_readWrite (s := s.setReg slotSPL a) b hpol]
  rfl

theorem pop_internal_plain {c : Byte} (hmode : s.internalStack = true) (hspl : s.reg slotSPL = a) (hc : Reaches s a c)
    (hpol : s.policy c = .readWrite) : pop s = .ok (s.reg c) (s.setReg slotSPL (a + 1)) := by
  subst hspl
  rw [pop_internal hmode hc, State.slotRead_plain (by simp [hpol])]

/-- A push to either slot leaves what the stack uses. -/
theorem State.StackSlots.pushedInternal (h : s.StackSlots a q q') {c : Byte} (hc : c ∈ [q, q']) (e b : Byte) :
    (s.pushedInternal e c b).StackSlots a q q' :=
  h.congr rfl (s.reg_pushedInternal_ne b (by decide) (h.ne_special hc (by decide)))
    (s.reg_pushedInternal_ne b (by decide) (h.ne_special hc (by decide)))

/-- The two pushes move SPL down by two and store the low byte in the slot it reaches, the high byte in the one above. -/
theorem pushPc_internal (h : s.StackSlots a q q') (hspl : s.reg slotSPL = a + 1 + 1) :
    ∃ t, pushPc s = .ok () t ∧ t.cfg = s.cfg ∧ t.StackSlots a q q' ∧
      t.reg slotSPL = a ∧ t.reg q' = loByte s.pc ∧ t.reg q = hiByte s.pc := by
  have hq : q ∈ [q, q'] := by simp
  have hq' : q' ∈ [q, q'] := by simp
  have hslots := h.pushedInternal hq (a + 1) (hiByte s.pc)
  have hfirst := push_internal_plain (hiByte s.pc) h.mode hspl h.high (h.plain q hq).2
  have hsecond := push_internal_plain (loByte s.pc) hslots.mode
    (s.reg_pushedInternal_spl _ (h.ne_special hq (by decide))) hslots.low (hslots.plain q' hq').2
  refine ⟨(s.pushedInternal (a + 1) q (hiByte s.pc)).pushedInternal a q' (loByte s.pc), ?_, rfl,
    hslots.pushedInternal hq' a _, State.reg_pushedInternal_spl _ _ (h.ne_special hq' (by decide)),
    State.reg_pushedInternal_self _ _ _, ?_⟩
  · exact pushPc_of_push hfirst hsecond
  · rw [State.reg_pushedInternal_ne _ _ (h.ne_special hq (by decide)).symm h.slots_ne, State.reg_pushedInternal_self]

/-- The two pops answer the two slots and move SPL up by two. -/
theorem popPc_internal (h : s.StackSlots a q q') (hspl : s.reg slotSPL = a) :
    popPc s = .ok (ofBytes (s.reg q) (s.reg q')) ((s.setReg slotSPL (a + 1)).setReg slotSPL (a + 1 + 1)) := by
  have hq : q ∈ [q, q'] := by simp
  have hq' : q' ∈ [q, q'] := by simp
  have hbetween : (s.setReg slotSPL (a + 1)).StackSlots a q q' :=
    h.congr rfl (State.reg_setReg_ne _ _ (by decide)) (State.reg_setReg_ne _ _ (by decide))
  have hsecond := pop_internal_plain hbetween.mode (State.reg_setReg_self _ _ _) hbetween.high (hbetween.plain q hq).2
  rw [State.reg_setReg_ne _ _ (h.ne_special hq (by decide)).symm] at hsecond
  exact popPc_of_pop (pop_internal_plain h.mode hspl h.low (h.plain q' hq').2) hsecond

/-- The same on the internal stack, where the pops leave SPH as it is. -/
theorem exists_pushPc_popPc_internal (h : s.StackSlots a q q') (hspl : s.reg slotSPL = a + 1 + 1) :
    ∃ t, pushPc s = .ok () t ∧ ∀ v : State, v.cfg = s.cfg →
      (∀ c ∈ [slotP01M, slotRP, slotSPL, q, q'], v.reg c = t.reg c) →
      ∃ w, popPc v = .ok s.pc w ∧ w.reg slotSPH = v.reg slotSPH ∧ w.reg slotSPL = s.reg slotSPL := by
  obtain ⟨t, hpush, htcfg, htslots, htspl, hlow, hhigh⟩ := pushPc_internal h hspl
  refine ⟨t, hpush, fun v hcfg hreg => ?_⟩
  have hvslots := htslots.congr (hcfg.trans htcfg.symm) (hreg _ (by simp)) (hreg _ (by simp))
  have hpop := popPc_internal hvslots ((hreg _ (by simp)).trans htspl)
  rw [hreg q (by simp), hreg q' (by simp), hlow, hhigh, ofBytes_hiByte_loByte] at hpop
  exact ⟨_, hpop, (State.reg_setReg_ne _ _ (by decide)).trans (State.reg_setReg_ne _ _ (by decide)),
    (State.reg_setReg_self _ _ _).trans hspl.symm⟩

/-! ### CALL, then RET -/

/-- Either CALL is a call after register reads (`44_memory_indexed_calls.md` R281, R282). -/
theorem exists_callTo {i : Instr}
    (hi : (∃ da, i = .callDA da) ∨ ∃ rr p, i = .callIRR rr ∧ rr.toNat % 2 = 0 ∧ Reaches s rr p) :
    ∃ u target, s.OnlyReads u ∧ body i s = callTo target u := by
  rcases hi with ⟨da, rfl⟩ | ⟨rr, p, rfl, heven, hp⟩
  · exact ⟨s, da, State.OnlyReads.rel.refl s, rfl⟩
  · exact ⟨_, _, .pairFrom s p, callIRR_of_reaches heven hp⟩

/-- What a CALL answers, once its two pushes are known. -/
theorem eq_transferTo_of_call {i : Instr} {target : Word} (hbody : body i s = callTo target u) (hpush : pushPc u = .ok () v)
    (hexec : exec i s = .next t) : t = transferTo v target :=
  exec_unique hexec (exec_of_body (hbody.trans (callTo_of_pushPc target hpush)))

/-- The stack pointer is its two bytes. -/
theorem reg_of_sp_eq (h : t.sp = s.sp) : t.reg slotSPH = s.reg slotSPH ∧ t.reg slotSPL = s.reg slotSPL :=
  ⟨by simpa [State.sp] using congrArg hiByte h, by simpa [State.sp] using congrArg loByte h⟩

/-- Settles O51: the two pops of RET answer what the two pushes of the CALL left, stack by stack. -/
theorem callThenReturn : Obligations.CallThenReturn := by
  intro s t v i hw hi hexec
  obtain ⟨u, target, hreads, hbody⟩ := exists_callTo hi
  have hp01m := hreads.core slotP01M (by decide) (by decide)
  have hsph := hreads.core slotSPH (by decide) (by decide)
  have hspl := hreads.core slotSPL (by decide) (by decide)
  refine ⟨fun hmode hvmode hvsph hvspl hdata => ?_, fun q q' hmode hq hq' hlt hlt' hpol hpol' hcfg hregs => ?_⟩
  · have humode : u.internalStack = false := by
      rw [State.internalStack, hp01m]
      exact hmode
    obtain ⟨x, hpush, hreturn⟩ := exists_pushPc_popPc_external humode (hreads.data ▸ hw)
    obtain rfl := eq_transferTo_of_call hbody hpush hexec
    obtain ⟨w, hpop, hsp⟩ := hreturn v hvmode (congrArg₂ ofBytes hvsph hvspl) hdata.1 hdata.2
    exact ⟨_, exec_ret_of_popPc hpop, hreads.pc, reg_of_sp_eq (hsp.trans (congrArg₂ ofBytes hsph hspl))⟩
  · have hup : s.reg 0xFF - 2 + 1 = s.reg 0xFF - 1 := by bv_omega
    have hup' : s.reg 0xFF - 2 + 1 + 1 = s.reg 0xFF := by bv_omega
    have hslots : s.StackSlots (s.reg 0xFF - 2) q q' := ⟨hmode, hup ▸ hq, hq', by simp [hlt, hlt', hpol, hpol']⟩
    have huslots := hslots.congr hreads.cfg hp01m (hreads.core slotRP (by decide) (by decide))
    obtain ⟨x, hpush, hreturn⟩ := exists_pushPc_popPc_internal huslots (hspl.trans hup'.symm)
    obtain rfl := eq_transferTo_of_call hbody hpush hexec
    obtain ⟨w, hpop, hwsph, hwspl⟩ := hreturn v (hcfg.trans hreads.cfg.symm) hregs
    exact ⟨_, exec_ret_of_popPc hpop, hreads.pc, hwsph, hwspl.trans hspl⟩

end Sys2Proof.Machine
end

section
/-! SUPPORT. The control instructions (`41_short_forms.md` R170 to R179, `43_single_operand.md` R233, `45_predicated_execution.md`
R301): each answers one change of the state. -/

namespace Sys2Proof.Machine

/-! ### Carry as bit 7 of FLAGS (`10_state.md` R36): the masks that clear it, set it and invert it -/

theorem applyFlags_carry_clear : ∀ f : Byte, applyFlags { c := some false } f = f &&& 0x7F#8 := by decide

theorem applyFlags_carry_set : ∀ f : Byte, applyFlags { c := some true } f = f ||| 0x80#8 := by decide

theorem applyFlags_carry_invert : ∀ f : Byte, applyFlags { c := some (!flagC f) } f = f ^^^ 0x80#8 := by decide

/-- An instruction that updates FLAGS alone stores what the update makes of the byte (`10_state.md` R36). -/
theorem exec_of_updateFlags {i : Instr} {s : State} {u : FlagBits} {v : Byte} (hbody : body i s = .ok () (s.updateFlags u))
    (hv : applyFlags u (s.reg 0xFC) = v) : exec i s = .next (s.setReg 0xFC v) :=
  hv ▸ exec_of_body hbody

/-- IF: the condition is evaluated once, on FLAGS, and charged; FLAGS is the snapshot (`45_predicated_execution.md` R301). -/
theorem body_ifPred (cc : CC) (t f : Count) (s : State) :
    body (.ifPred cc t f) s =
      .ok () { s.charge s.cfg.cost.cc with
                pred := { tcnt := t, fcnt := f, cond := condHolds cc (s.reg 0xFC), snap := s.reg 0xFC } } := rfl

/-- Settles O39: each instruction is one change of the state; RCF, SCF and CCF by the mask their flag update is. -/
theorem controlInstructions : Obligations.ControlInstructions := by
  intro s
  have hnibble : ∀ im : Byte, (im >>> 4).toNat = im.toNat / 16 := fun im => by
    rw [BitVec.toNat_ushiftRight, Nat.shiftRight_eq_div_pow]
  exact ⟨fun cc t f => exec_of_body (body_ifPred cc t f s), exec_of_body rfl, exec_of_body rfl, exec_of_body rfl,
    exec_of_body rfl, fun im => ⟨im >>> 4, exec_of_body rfl, hnibble im⟩,
    exec_of_updateFlags rfl (applyFlags_carry_clear _), exec_of_updateFlags rfl (applyFlags_carry_set _),
    exec_of_updateFlags rfl (applyFlags_carry_invert _), exec_of_body rfl⟩

end Sys2Proof.Machine
end

section
/-! SUPPORT. The end-of-cycle bookkeeping (`45_predicated_execution.md` R305, R306, R308): what it does in each predication
context, and where its skips end on the core's view of PROGRAM memory. -/

namespace Sys2Proof.Machine

open Sys2Proof.Statements

variable {s t : State} {wasIf : Bool}

/-! ### The bookkeeping by its cases -/

/-- The end of the bookkeeping under a true condition: the false part skipped where it has become due
(`45_predicated_execution.md` R305). -/
def skipDue (s : State) : EStateM.Result FaultReason State Unit :=
  if s.pred.tcnt = 0 ∧ s.pred.fcnt ≠ 0 then skipPart State.countFalse s.pred.fcnt.toNat s else .ok () s

theorem skipDue_of_due (ht : s.pred.tcnt = 0) (hf : s.pred.fcnt ≠ 0) :
    skipDue s = skipPart State.countFalse s.pred.fcnt.toNat s := if_pos ⟨ht, hf⟩

theorem skipDue_of_not_due (h : s.pred.tcnt ≠ 0 ∨ s.pred.fcnt = 0) : skipDue s = .ok () s :=
  if_neg fun ⟨ht, hf⟩ => h.elim (· ht) hf

/-- Under a true condition an instruction of the true part is counted first (`45_predicated_execution.md` R305). -/
theorem predBookkeeping_of_cond (hc : s.pred.cond = true) :
    predBookkeeping wasIf s = skipDue (if s.pred.tcnt ≠ 0 ∧ wasIf = false then s.countTrue.restoreFlags else s) := by
  have hdue : ∀ u : State, (if u.pred.tcnt = 0 ∧ u.pred.fcnt ≠ 0 then skipPart State.countFalse u.pred.fcnt.toNat else pure () :
      M Unit) u = skipDue u := by
    intro u
    unfold skipDue
    split <;> rfl
  rw [predBookkeeping, M.bind_apply, M.get_apply]
  dsimp only
  rw [if_pos hc]
  split
  · exact hdue _
  · exact hdue s

/-- Under a false condition the true part is skipped as a whole, else an instruction of the false part is counted
(`45_predicated_execution.md` R305). -/
theorem predBookkeeping_of_not_cond (hc : s.pred.cond = false) :
    predBookkeeping wasIf s =
      if s.pred.tcnt ≠ 0 then skipPart State.countTrue s.pred.tcnt.toNat s
      else .ok () (if s.pred.fcnt ≠ 0 ∧ wasIf = false then s.countFalse.restoreFlags else s) := by
  rw [predBookkeeping, M.bind_apply, M.get_apply]
  dsimp only
  rw [if_neg (by simp [hc])]
  split
  · rfl
  · split <;> rfl

/-- Settles O56: in none of these contexts is a skip due. -/
theorem bookkeepingCounts : Obligations.BookkeepingCounts := by
  intro s
  refine ⟨fun wasIf ht hf => ?_, fun hc ht hmore => ?_, fun hc ht hf => ?_, fun hc ht => ?_, fun hc ht => ?_⟩
  · cases hc : s.pred.cond with
    | true =>
      rw [predBookkeeping_of_cond hc, if_neg fun h => h.1 ht]
      exact skipDue_of_not_due (.inr hf)
    | false => rw [predBookkeeping_of_not_cond hc, if_neg (not_not_intro ht), if_neg fun h => h.1 hf]
  · rw [predBookkeeping_of_cond hc, if_pos ⟨ht, rfl⟩]
    exact skipDue_of_not_due (hmore.imp_left sub_ne_zero.mpr)
  · rw [predBookkeeping_of_not_cond hc, if_neg (not_not_intro ht), if_pos ⟨hf, rfl⟩]
    rfl
  · rw [predBookkeeping_of_cond hc, if_neg (by simp)]
    exact skipDue_of_not_due (.inl ht)
  · rw [predBookkeeping_of_not_cond hc, if_neg (not_not_intro ht), if_neg (by simp)]

/-! ### Where skips end -/

/-- The end of skips looks at no byte at 0xFFFF (`20_memory.md` R70). -/
theorem skipEnd_congr (h : SameProgram s t) (n : Nat) (pc : Word) : skipEnd t.progView n pc = skipEnd s.progView n pc := by
  induction n generalizing pc with
  | zero => rfl
  | succ n ih =>
    by_cases hpc : pc = 0xFFFF
    · simp [skipEnd, hpc]
    · simp [skipEnd, h pc hpc, ih]

/-- `t` is `s` after `n` skips that end at `e`: pc and the clock moved, the cache used, the predication context as `t` has it. -/
def State.SkipsTo (n : Nat) (e : Word) (s t : State) : Prop :=
  SameProgram s t ∧
    t = { s with pc := e, cycles := s.cycles + n * s.cfg.cost.skip, pred := t.pred, lines := t.lines, prog := t.prog }

/-- A skip at 0xFFFF faults before anything moves (`20_memory.md` R70). -/
theorem skipOne_sentinel (hpc : s.pc = sentinel) : skipOne s = .error .sentinelAddress s := by
  simp [skipOne, fetch, programRead, hpc, programAccess_sentinel]

/-- A skip of an illegal opcode faults, by the model's choice (log 12). -/
theorem skipOne_illegal (hs : s.CoreInv) (hpc : s.pc ≠ sentinel) (hw : operandWidth (s.progView s.pc) = none) :
    ∃ t, skipOne s = .error .illegalOpcode t := by
  obtain ⟨t, hfetch, -, -⟩ := fetch_view hs hpc
  refine ⟨t, M.bind_eq_error.mpr (.inr ⟨_, t, hfetch, ?_⟩)⟩
  rw [hw]
  rfl

/-- A skip moves pc past one instruction, by the length its first byte has (`45_predicated_execution.md` R308). -/
theorem skipOne_legal (hs : s.CoreInv) (hpc : s.pc ≠ sentinel) (hw : operandWidth (s.progView s.pc) ≠ none) :
    ∃ t, skipOne s = .ok () t ∧ s.SkipsTo 1 (s.pc + BitVec.ofNat 16 (lengthByPosition (s.progView s.pc))) t := by
  obtain ⟨n, hn⟩ := Option.ne_none_iff_exists'.mp hw
  obtain ⟨t, hfetch, hview, ht⟩ := fetch_view hs hpc
  refine ⟨{ t with pc := t.pc + BitVec.ofNat 16 n, cycles := t.cycles + t.cfg.cost.skip },
    M.bind_eq_ok.mpr ⟨_, t, hfetch, ?_⟩, hview, ?_⟩
  · rw [hn]
    rfl
  · rw [ht, ← lengthByPosition_of_operandWidth hn, add_ofNat_succ, Nat.one_mul]

/-- Skips put together. -/
theorem State.SkipsTo.trans {n m : Nat} {a b : Word} {u : State} (h : s.SkipsTo n a t) (k : t.SkipsTo m b u) :
    s.SkipsTo (n + m) b u := by
  obtain ⟨hview, ht⟩ := h
  obtain ⟨kview, hu⟩ := k
  refine ⟨fun c hc => (kview c hc).trans (hview c hc), ?_⟩
  rw [hu, ht, Nat.add_mul, Nat.add_assoc]

theorem State.SkipsTo.pc {n : Nat} {e : Word} (h : s.SkipsTo n e t) : t.pc = e := by rw [h.2]

/-- A change of the predication context is no skip. -/
theorem State.SkipsTo.withPred (s : State) (p : PredContext) : s.SkipsTo 0 s.pc { s with pred := p } :=
  ⟨fun _ _ => rfl, by rw [Nat.zero_mul]; rfl⟩

section

-- What runs after each skip changes the predication context alone, as `countTrue` and `countFalse` do.
variable {count : State → State} (hcount : ∀ s : State, count s = { s with pred := (count s).pred }) {n : Nat}
include hcount

/-- The first of several skips, with the count after it. -/
theorem skipMany_succ_of_legal (hs : s.CoreInv) (hpc : s.pc ≠ sentinel) (hw : operandWidth (s.progView s.pc) ≠ none) :
    ∃ t, skipMany count (n + 1) s = skipMany count n t ∧ t.CoreInv ∧
      s.SkipsTo 1 (s.pc + BitVec.ofNat 16 (lengthByPosition (s.progView s.pc))) t := by
  obtain ⟨t, hone, hskip⟩ := skipOne_legal hs hpc hw
  have hcore : t.CoreInv := (skipOne_keeps State.CoreStep.stepRel.toMachineRel s).1 _ _ hone hs
  refine ⟨count t, ?_, ?_, ?_⟩
  · rw [skipMany, M.bind_apply, hone]
    rfl
  · rw [hcount t]
    exact State.CoreStep.control t t.pc _ t.run hcore
  · rw [hcount t, ← hskip.pc]
    exact hskip.trans (.withPred t _)

/-- WHAT `n` SKIPS DO (`45_predicated_execution.md` R308): they end where the statements' `skipEnd` says, or fault as it says. -/
theorem skipMany_skipEnd (hs : s.CoreInv) :
    (∀ e, skipEnd s.progView n s.pc = .ok e → ∃ t, skipMany count n s = .ok () t ∧ s.SkipsTo n e t) ∧
      ∀ r, skipEnd s.progView n s.pc = .error r → ∃ t, skipMany count n s = .error r t := by
  induction n generalizing s with
  | zero =>
    refine ⟨fun e he => ⟨s, rfl, ?_⟩, nofun⟩
    cases he
    exact .withPred s s.pred
  | succ n ih =>
    rw [skipEnd]
    split
    · next hpc =>
      refine ⟨nofun, fun r hr => ⟨s, ?_⟩⟩
      cases hr
      exact M.bind_eq_error.mpr (.inl (skipOne_sentinel hpc))
    split
    · next hpc hw =>
      refine ⟨nofun, fun r hr => ?_⟩
      cases hr
      obtain ⟨t, ht⟩ := skipOne_illegal hs hpc hw
      exact ⟨t, M.bind_eq_error.mpr (.inl ht)⟩
    · next hpc hw =>
      obtain ⟨t, hmany, hcore, hskip⟩ := skipMany_succ_of_legal hcount hs hpc hw
      obtain ⟨hok, herr⟩ := ih hcore
      rw [skipEnd_congr hskip.1, hskip.pc] at hok herr
      rw [hmany]
      refine ⟨fun e he => ?_, herr⟩
      obtain ⟨u, hu, hrest⟩ := hok e he
      exact ⟨u, hu, Nat.add_comm 1 n ▸ hskip.trans hrest⟩

end

/-! ### A part skipped -/

/-- The result `res` is what skipping a part of `n` instructions from `s` gives: the skips, FLAGS restored once and the
predication context `p`, or the fault of the skips (`45_predicated_execution.md` R305, R306). -/
def SkipsPart (s : State) (n : Nat) (p : PredContext) (res : EStateM.Result FaultReason State Unit) : Prop :=
  (∀ e, skipEnd s.progView n s.pc = .ok e →
    ∃ t, res = .ok () t ∧ SameProgram s t ∧
      t = { s.setReg 0xFC s.pred.snap with
            pc := e, cycles := s.cycles + n * s.cfg.cost.skip, pred := p, lines := t.lines, prog := t.prog }) ∧
    ∀ r, skipEnd s.progView n s.pc = .error r → ∃ t, res = .error r t

/-- A part is skipped by its skips and the restore after them, whatever context `p` with the snapshot of `s` they leave. -/
theorem skipPart_skipsPart {count : State → State} (hcount : ∀ s : State, count s = { s with pred := (count s).pred }) {n : Nat}
    {p : PredContext} (hs : s.CoreInv) (hsnap : p.snap = s.pred.snap) (hp : ∀ {t}, skipPart count n s = .ok () t → t.pred = p) :
    SkipsPart s n p (skipPart count n s) := by
  obtain ⟨hok, herr⟩ := skipMany_skipEnd hcount (n := n) hs
  refine ⟨fun e he => ?_, fun r hr => ?_⟩
  · obtain ⟨t, hmany, hview, ht⟩ := hok e he
    have hpart : skipPart count n s = .ok () t.restoreFlags := M.bind_eq_ok.mpr ⟨_, t, hmany, rfl⟩
    have htp : t.pred = p := t.restoreFlags_pred.symm.trans (hp hpart)
    refine ⟨_, hpart, hview, ?_⟩
    rw [State.restoreFlags, htp, hsnap, ht, htp]
    rfl
  · obtain ⟨t, hmany⟩ := herr r hr
    exact ⟨t, M.bind_eq_error.mpr (.inl hmany)⟩

theorem skipsPart_countTrue (hs : s.CoreInv) :
    SkipsPart s s.pred.tcnt.toNat { s.pred with tcnt := 0 } (skipPart State.countTrue s.pred.tcnt.toNat s) :=
  skipPart_skipsPart (fun _ => rfl) hs rfl skipPart_countTrue_pred

/-- Of two stores to a slot the last one stays (`10_state.md` R21). -/
theorem State.setReg_setReg (s : State) (a v w : Byte) : (s.setReg a v).setReg a w = s.setReg a w := by
  simp [State.setReg]

/-- Skipping after the last true instruction was counted and FLAGS restored leaves what skipping without these would. -/
theorem SkipsPart.of_countTrue {n : Nat} {p : PredContext} {res : EStateM.Result FaultReason State Unit}
    (h : SkipsPart s.countTrue.restoreFlags n p res) : SkipsPart s n p res := by
  obtain ⟨hok, herr⟩ := h
  refine ⟨fun e he => ?_, herr⟩
  obtain ⟨t, hres, hview, ht⟩ := hok e he
  have hflags : s.countTrue.restoreFlags.setReg 0xFC s.countTrue.restoreFlags.pred.snap =
      s.countTrue.setReg 0xFC s.pred.snap := s.countTrue.setReg_setReg _ _ _
  refine ⟨t, hres, hview, ht.trans ?_⟩
  rw [hflags]
  rfl

/-- A false part that has become due is skipped (`45_predicated_execution.md` R305). -/
theorem skipsPart_skipDue (hs : s.CoreInv) (ht : s.pred.tcnt = 0) (hf : s.pred.fcnt ≠ 0) :
    SkipsPart s s.pred.fcnt.toNat { s.pred with tcnt := 0, fcnt := 0 } (skipDue s) := by
  rw [skipDue_of_due ht hf]
  exact skipPart_skipsPart (fun _ => rfl) hs rfl fun h => by simp [skipPart_countFalse_pred h, ht]

/-- The true part has run out: the false part is skipped (`45_predicated_execution.md` R305). -/
theorem skipsPart_of_cond (hs : s.CoreInv) (hc : s.pred.cond = true)
    (hout : s.pred.tcnt = 0 ∨ (s.pred.tcnt = 1 ∧ wasIf = false)) (hf : s.pred.fcnt ≠ 0) :
    SkipsPart s s.pred.fcnt.toNat { s.pred with tcnt := 0, fcnt := 0 } (predBookkeeping wasIf s) := by
  rw [predBookkeeping_of_cond hc]
  rcases hout with ht | ⟨ht, hif⟩
  · rw [if_neg fun h => h.1 ht]
    exact skipsPart_skipDue hs ht hf
  · have hR := State.CoreStep.stepRel.toMachineRel
    have hcore : s.countTrue.restoreFlags.CoreInv := restoreFlags_rel hR _ (countTrue_rel hR s hs)
    have hzero : s.countTrue.restoreFlags.pred.tcnt = 0 := sub_eq_zero.mpr ht
    rw [if_pos ⟨by simp [ht], hif⟩]
    exact (skipsPart_skipDue hcore hzero hf).of_countTrue

/-- Settles O57: the false part is skipped under a true condition, the true part under a false one. -/
theorem bookkeepingSkips : Obligations.BookkeepingSkips := by
  intro s wasIf hs
  refine ⟨fun hc hout hf => skipsPart_of_cond hs hc hout hf, fun hc ht => ?_⟩
  rw [predBookkeeping_of_not_cond hc, if_pos ht]
  exact skipsPart_countTrue hs

end Sys2Proof.Machine
end

section
/-! SUPPORT. The interrupt poll (`60_exceptions.md` R344 to R348): the active sources, and the selection as the first active
source of one list, the six sources in the configured order. -/

namespace Sys2Proof.Machine

open Sys2Proof.Statements

/-! ### The active sources and the poll -/

/-- A source is active under the global enable, its own enable bit and its pending bit (`60_exceptions.md` R342, R345). -/
theorem State.getLsbD_active (s : State) {i : Nat} (hi : i < 6) :
    s.active.getLsbD i = true ↔
      (s.reg slotIMR).getLsbD 7 = true ∧ (s.reg slotIMR).getLsbD i = true ∧ (s.reg slotIRQ).getLsbD i = true := by
  rw [State.active, bit]
  cases (s.reg slotIMR).getLsbD 7 with
  | true => rw [if_pos rfl, BitVec.getLsbD_setWidth, BitVec.getLsbD_and]; simp [hi]
  | false => simp

theorem State.active_eq_zero_iff {s : State} : s.active = 0 ↔ ∀ i : Nat, i < 6 → s.active.getLsbD i = false :=
  ⟨fun h i _ => by rw [h]; exact BitVec.getLsbD_zero, fun h => BitVec.eq_of_getLsbD_eq fun i hi => (h i hi).trans BitVec.getLsbD_zero.symm⟩

theorem poll_of_inactive {s : State} (h : s.active = 0) : poll s = .ok () s := by
  simp [poll, h]

/-- With a source active the poll serves the selected one, or faults where the order is reserved (`60_exceptions.md` R344,
R347). -/
theorem poll_of_active {s : State} (h : s.active ≠ 0) :
    poll s = match selectSource s.active (s.reg slotIPR) with
      | none => .error .reservedIPR s
      | some i => service i s := by
  rw [poll, M.bind_apply, M.get_apply]
  dsimp only
  rw [if_pos h]
  cases selectSource s.active (s.reg slotIPR) <;> rfl

/-- Settles O52: the bits of the active set, and the poll by whether it is empty. -/
theorem activeAndPoll : Obligations.ActiveAndPoll := by
  intro s
  refine ⟨fun i hi => s.getLsbD_active hi, fun h => poll_of_inactive (State.active_eq_zero_iff.mpr h), fun ⟨i, hi, hact⟩ => ?_⟩
  have hne : s.active ≠ 0 := fun h => by rw [State.active_eq_zero_iff.mp h i hi] at hact; cases hact
  refine ⟨fun hsel => ?_, fun j hsel => ?_⟩ <;> rw [poll_of_active hne, show s.reg slotIPR = s.reg 0xF9 from rfl, hsel]

/-! ### The selection -/

/-- Whether source `i` is in the active set. -/
def hasSource (act : Irq6) (i : Fin 6) : Bool := act.getLsbD i.val

theorem mem_activeSources {act : Irq6} {i : Fin 6} : i ∈ activeSources act ↔ act.getLsbD i = true := by
  have hall : i ∈ ([0, 1, 2, 3, 4, 5] : List (Fin 6)) := by revert i; decide
  simp [activeSources, hall]

/-- A single active source is the whole list. -/
theorem activeSources_eq_singleton {act : Irq6} {i : Fin 6} (h : ∀ j : Fin 6, act.getLsbD j = true ↔ j = i) :
    activeSources act = [i] := by
  have hfilter : ∀ i : Fin 6, ([0, 1, 2, 3, 4, 5] : List (Fin 6)).filter (fun j => decide (j = i)) = [i] := by decide
  rw [← hfilter i]
  exact List.filter_congr fun j _ => by rw [Bool.eq_iff_iff, h j, decide_eq_true_iff]

/-- The two sources of a group, the one the winner bit puts first before the other (`60_exceptions.md` R348). -/
def groupMembers (first : Bool) (a b : Fin 6) : List (Fin 6) := if first then [a, b] else [b, a]

/-- The groups in the configured order, each by its members in order; `none` for a reserved order (`60_exceptions.md` R348). -/
def groupsInOrder (ipr : Byte) : Option (List (List (Fin 6))) :=
  groupOrder (orderCode ipr) (groupMembers (bit ipr 5) 3 5) (groupMembers (bit ipr 2) 0 2) (groupMembers (bit ipr 1) 4 1)

/-- The winner of a group is its first active member (`60_exceptions.md` R348). -/
theorem pickSource_eq_find? (first : Bool) (a b : Fin 6) (act : Irq6) :
    (if first then pickSource a b act else pickSource b a act) = (groupMembers first a b).find? (hasSource act) := by
  have hpick : ∀ hi lo : Fin 6, pickSource hi lo act = [hi, lo].find? (hasSource act) := by
    intro hi lo
    change (if hasSource act hi then some hi else if hasSource act lo then some lo else none) = _
    rw [List.find?_cons, List.find?_singleton]
    cases hasSource act hi <;> rfl
  cases first <;> exact hpick _ _

/-- The order of three things does not depend on what they are. -/
theorem groupOrder_map {α β : Type} (f : α → β) (g : Nat) (a b c : α) :
    groupOrder g (f a) (f b) (f c) = (groupOrder g a b c).map (List.map f) := by
  unfold groupOrder
  split <;> rfl

/-- With more than one source active, the selected one is the first active one of the groups in order
(`60_exceptions.md` R346). -/
theorem selectSource_of_several {act : Irq6} (ipr : Byte) (h : ∀ i, activeSources act ≠ [i]) :
    selectSource act ipr = (groupsInOrder ipr).bind fun gs => gs.flatten.find? (hasSource act) := by
  unfold selectSource
  split
  · next i hi => exact absurd hi (h i)
  · rw [winnerA, winnerB, winnerC, pickSource_eq_find?, pickSource_eq_find?, pickSource_eq_find?,
      groupOrder_map (List.find? (hasSource act)), ← groupsInOrder]
    cases groupsInOrder ipr with
    | none => rfl
    | some gs => simp [List.find?_flatten, List.findSome?_map]

/-! ### The configured priority -/

theorem bitNat_bit (b : Byte) (i : Nat) : bitNat (bit b i) = b.toNat / 2 ^ i % 2 := by
  rw [bit_eq_decide, bitNat]
  split <;> simp_all

/-- The order code in the arithmetic of the statements (`60_exceptions.md` R346). -/
theorem orderCode_eq (ipr : Byte) :
    orderCode ipr = 4 * (ipr.toNat / 16 % 2) + 2 * (ipr.toNat / 8 % 2) + ipr.toNat % 2 := by
  simp only [orderCode, bitNat_bit, Nat.reducePow, Nat.div_one]

/-- The order is reserved at the codes 0 and 7 alone (`60_exceptions.md` R347). -/
theorem groupsInOrder_eq_none_iff {ipr : Byte} : groupsInOrder ipr = none ↔ orderCode ipr = 0 ∨ orderCode ipr = 7 := by
  have hlt : orderCode ipr < 8 := by rw [orderCode_eq]; omega
  unfold groupsInOrder
  generalize orderCode ipr = g at hlt
  match g, hlt with
  | 0, _ | 1, _ | 2, _ | 3, _ | 4, _ | 5, _ | 6, _ | 7, _ => simp [groupOrder]

/-- The two members of a group stand next to each other, at the place of the group (`60_exceptions.md` R348). -/
theorem map_priorityRank_groupMembers (ipr : Byte) :
    (groupMembers (bit ipr 5) 3 5).map (priorityRank ipr) =
        [2 * groupPlace (orderCode ipr) 0, 2 * groupPlace (orderCode ipr) 0 + 1] ∧
      (groupMembers (bit ipr 2) 0 2).map (priorityRank ipr) =
        [2 * groupPlace (orderCode ipr) 1, 2 * groupPlace (orderCode ipr) 1 + 1] ∧
      (groupMembers (bit ipr 1) 4 1).map (priorityRank ipr) =
        [2 * groupPlace (orderCode ipr) 2, 2 * groupPlace (orderCode ipr) 2 + 1] := by
  simp only [groupMembers, bit_eq_decide, decide_eq_true_eq, Nat.reducePow, orderCode_eq]
  refine ⟨?_, ?_, ?_⟩ <;> split <;> next h => simp [priorityRank, h]

/-- The groups in order list the sources by their rank, 0 to 5 (`60_exceptions.md` R348). -/
theorem map_priorityRank_groupsInOrder {ipr : Byte} {gs : List (List (Fin 6))} (h : groupsInOrder ipr = some gs) :
    gs.flatten.map (priorityRank ipr) = [0, 1, 2, 3, 4, 5] := by
  have hplaces : ∀ g < 8, ∀ rs, groupOrder g [2 * groupPlace g 0, 2 * groupPlace g 0 + 1]
      [2 * groupPlace g 1, 2 * groupPlace g 1 + 1] [2 * groupPlace g 2, 2 * groupPlace g 2 + 1] = some rs →
      rs.flatten = [0, 1, 2, 3, 4, 5] := by
    intro g hg rs hrs
    match g, hg with
    | 0, _ | 7, _ => cases hrs
    | 1, _ | 2, _ | 3, _ | 4, _ | 5, _ | 6, _ => cases hrs; rfl
  obtain ⟨hA, hB, hC⟩ := map_priorityRank_groupMembers ipr
  rw [List.map_flatten]
  refine hplaces (orderCode ipr) (by rw [orderCode_eq]; omega) _ ?_
  rw [← hA, ← hB, ← hC, groupOrder_map, ← groupsInOrder, h]
  rfl

/-- Six sources of different rank are all the sources. -/
theorem mem_flatten_groupsInOrder {ipr : Byte} {gs : List (List (Fin 6))} (h : groupsInOrder ipr = some gs) (i : Fin 6) :
    i ∈ gs.flatten := by
  have hrank := map_priorityRank_groupsInOrder h
  have hnodup : gs.flatten.Nodup := .of_map (priorityRank ipr) (by rw [hrank]; decide)
  have hlength : gs.flatten.length = 6 := by rw [← List.length_map (f := priorityRank ipr), hrank]; rfl
  have huniv : gs.flatten.toFinset = Finset.univ := by
    rw [← Finset.card_eq_iff_eq_univ, List.toFinset_card_of_nodup hnodup, hlength]
    rfl
  rw [← List.mem_toFinset, huniv]
  exact Finset.mem_univ i

/-- THE FIRST ACTIVE SOURCE OF THE GROUPS IN ORDER stands before every other active one (`60_exceptions.md` R346). -/
theorem exists_find?_groupsInOrder {act : Irq6} {ipr : Byte} {gs : List (List (Fin 6))} (h : groupsInOrder ipr = some gs)
    {i : Fin 6} (hi : act.getLsbD i = true) :
    ∃ k, gs.flatten.find? (hasSource act) = some k ∧ act.getLsbD k = true ∧
      ∀ m : Fin 6, act.getLsbD m = true → m ≠ k → priorityRank ipr k < priorityRank ipr m := by
  obtain ⟨k, hk⟩ : ∃ k, gs.flatten.find? (hasSource act) = some k :=
    Option.isSome_iff_exists.mp (List.find?_isSome.mpr ⟨i, mem_flatten_groupsInOrder h i, hi⟩)
  obtain ⟨hact, before, after, hsplit, hbefore⟩ := List.find?_eq_some_iff_append.mp hk
  have hsorted : gs.flatten.Pairwise fun a b => priorityRank ipr a < priorityRank ipr b := by
    rw [← List.pairwise_map (R := (· < ·)), map_priorityRank_groupsInOrder h]
    decide
  rw [hsplit] at hsorted
  refine ⟨k, hk, hact, fun m hm hne => ?_⟩
  have hmem : m ∈ before ++ k :: after := hsplit ▸ mem_flatten_groupsInOrder h m
  have hnot : m ∉ before := fun hb => by
    have hidle := hbefore m hb
    rw [hasSource, hm] at hidle
    cases hidle
  have hafter : m ∈ after := by simpa [hnot, hne] using hmem
  exact (List.pairwise_cons.mp (List.pairwise_append.mp hsorted).2.1).1 m hafter

/-- Settles O53: one active source is the whole list; with more, the selection is the first active source of the groups in
order, whose ranks ascend. -/
theorem selectPriority : Obligations.SelectPriority := by
  intro act ipr
  dsimp only
  rw [← orderCode_eq]
  refine ⟨fun i h => by rw [selectSource, activeSources_eq_singleton h], fun i j hij hi hj => ?_⟩
  have hseveral : ∀ k, activeSources act ≠ [k] := by
    intro k hk
    have honly : ∀ m : Fin 6, act.getLsbD m = true → m = k := fun m hm => by simpa [hk] using mem_activeSources.mpr hm
    exact hij ((honly i hi).trans (honly j hj).symm)
  rw [selectSource_of_several ipr hseveral, ← groupsInOrder_eq_none_iff]
  refine ⟨fun h => by rw [h]; rfl, fun h => ?_⟩
  obtain ⟨gs, hgs⟩ := Option.ne_none_iff_exists'.mp h
  rw [hgs]
  exact exists_find?_groupsInOrder hgs hi

end Sys2Proof.Machine
end
section
/-! SUPPORT. The reference timer (`60_exceptions.md` R372): the reload value in numbers, a write to TMR as each channel sees it, and
the countdown with the enable bits it drops. -/

namespace Sys2Proof.Machine

open Sys2Proof.Statements

/-! ### The reload value -/

/-- The prescaler count of PRE is its number without the two low bits. -/
theorem timerReload_eq (c : TimerChannel) : timerReload c = reloadCount c := by
  have hp : (c.pre.extractLsb' 2 6).toNat = c.pre.toNat / 4 := by
    have := c.pre.isLt
    rw [BitVec.extractLsb'_toNat, Nat.shiftRight_eq_div_pow]
    omega
  have ht : c.t = 0 ↔ c.t.toNat = 0 := by rw [BitVec.toNat_eq]; rfl
  simp only [timerReload, reloadCount, hp, ht]

/-- Each factor of the reload value counts a stored 0 as its largest number. -/
theorem reloadCount_bounds (c : TimerChannel) : 1 ≤ reloadCount c ∧ reloadCount c ≤ 16384 := by
  have hp : 1 ≤ (if c.pre.toNat / 4 = 0 then 64 else c.pre.toNat / 4) ∧
      (if c.pre.toNat / 4 = 0 then 64 else c.pre.toNat / 4) ≤ 64 := by have := c.pre.isLt; split <;> omega
  have ht : 1 ≤ (if c.t.toNat = 0 then 256 else c.t.toNat) ∧ (if c.t.toNat = 0 then 256 else c.t.toNat) ≤ 256 := by
    have := c.t.isLt; split <;> omega
  exact ⟨Nat.mul_le_mul hp.1 ht.1, Nat.mul_le_mul hp.2 ht.2⟩

/-! ### Accesses -/

/-- TMR is stored with its two load bits cleared. -/
theorem toNat_clearLoadBits : ∀ b : Byte, (b &&& 0xFA#8).toNat = b.toNat - b.toNat % 2 - 4 * (b.toNat / 4 % 2) := by decide

/-- Timer `i` sees its load bit and its enable bit of a byte written to TMR. -/
theorem timerControl_eq (c : TimerChannel) (i : Nat) (b : Byte) :
    timerControl c i b =
      { c with
        cnt := if b.getLsbD (2 * i) = true ∨ (b.getLsbD (2 * i + 1) = true ∧ c.cnt = 0) then reloadCount c else c.cnt
        running := b.getLsbD (2 * i + 1) } := by
  simp only [timerControl, bit, timerReload_eq, Bool.or_eq_true, Bool.and_eq_true, decide_eq_true_eq]

/-- A write to one of the timer slots, by the slot. -/
theorem timerAccess_write (t0 t1 : TimerChannel) (p b : Byte) :
    timerAccess t0 t1 p .write b =
      if p = 0xF1 then (timerControl t0 0 b, timerControl t1 1 b, b &&& 0xFA#8)
      else (if p = 0xF4 then { t0 with t := b } else if p = 0xF5 then { t0 with pre := b } else t0,
        if p = 0xF2 then { t1 with t := b } else if p = 0xF3 then { t1 with pre := b } else t1, b) := by
  by_cases h4 : p = 0xF4
  · subst h4; rfl
  by_cases h5 : p = 0xF5
  · subst h5; rfl
  by_cases h2 : p = 0xF2
  · subst h2; rfl
  by_cases h3 : p = 0xF3
  · subst h3; rfl
  simp only [timerAccess, h4, h5, h2, h3, if_false]

/-! ### The countdown -/

theorem timerExpires_iff {c : TimerChannel} {k : Nat} :
    timerExpires c k = true ↔ c.running = true ∧ 0 < k ∧ c.cnt ≤ k := by
  simp [timerExpires, and_assoc]

/-- A channel after `k` cycles, by whether it runs and whether it expires. -/
theorem timerTick_eq (c : TimerChannel) (k : Nat) :
    timerTick c k =
      if c.running = true ∧ 0 < k then
        if k < c.cnt then { c with cnt := c.cnt - k }
        else if c.pre.getLsbD 0 = true then { c with cnt := reloadCount c - (k - c.cnt) % reloadCount c }
        else { c with cnt := 0, running := false }
      else c := by
  rw [timerTick, timerReload_eq, bit]
  by_cases hrun : c.running = true ∧ 0 < k
  · by_cases hlt : k < c.cnt
    · rw [if_neg fun h => Nat.not_lt.mpr (timerExpires_iff.mp h).2.2 hlt, if_pos hrun.1, if_pos hrun, if_pos hlt]
    · rw [if_pos (timerExpires_iff.mpr ⟨hrun.1, hrun.2, Nat.not_lt.mp hlt⟩), if_pos hrun, if_neg hlt]
  · rw [if_neg fun h => hrun ⟨(timerExpires_iff.mp h).1, (timerExpires_iff.mp h).2.1⟩, if_neg hrun]
    split
    · next h =>
      obtain rfl : k = 0 := Nat.eq_zero_of_not_pos fun hk => hrun ⟨h, hk⟩
      rfl
    · rfl

/-- Clearing a bit of a byte leaves the others, those past the byte among them. -/
theorem getLsbD_putBit_false (b : Byte) (i j : Nat) : (putBit b i false).getLsbD j = (b.getLsbD j && decide (j ≠ i)) := by
  by_cases hj : j < 8
  · rw [← bit, bit_putBit b i j false hj, bit]
    by_cases hij : i = j
    · simp [hij]
    · simp [hij, Ne.symm hij]
  · rw [BitVec.getLsbD_of_ge _ _ (Nat.not_lt.mp hj), BitVec.getLsbD_of_ge _ _ (Nat.not_lt.mp hj), Bool.false_and]

/-- A bit of TMR after the tick of timer `i`: its enable bit drops where it expires in single-pass mode, no other bit. -/
theorem getLsbD_timerTickControl (c : TimerChannel) (i j k : Nat) (tmr : Byte) :
    (timerTickControl c i k tmr).getLsbD j = true ↔
      tmr.getLsbD j = true ∧ ¬(j = 2 * i + 1 ∧ timerExpires c k = true ∧ c.pre.getLsbD 0 = false) := by
  have hdrop : (timerExpires c k && !bit c.pre 0) = true ↔ timerExpires c k = true ∧ c.pre.getLsbD 0 = false := by
    rw [Bool.and_eq_true, Bool.not_eq_true', bit]
  rw [timerTickControl]
  split
  · next h => rw [getLsbD_putBit_false, Bool.and_eq_true, decide_eq_true_eq, and_iff_left (hdrop.mp h)]
  · next h => rw [and_iff_left fun hj => h (hdrop.mpr hj.2)]

/-- TMR after the tick of both timers. -/
theorem getLsbD_timerTickControls (t0 t1 : TimerChannel) (j k : Nat) (tmr : Byte) :
    (timerTickControl t1 1 k (timerTickControl t0 0 k tmr)).getLsbD j = true ↔
      tmr.getLsbD j = true ∧ ¬(j = 1 ∧ timerExpires t0 k = true ∧ t0.pre.getLsbD 0 = false) ∧
        ¬(j = 3 ∧ timerExpires t1 k = true ∧ t1.pre.getLsbD 0 = false) := by
  rw [getLsbD_timerTickControl, getLsbD_timerTickControl, and_assoc]

/-- The sources a tick raises: 4 for timer 0, 5 for timer 1. -/
theorem timerSources_spec (e0 e1 : Bool) :
    let q := (if e0 then 0x10#6 else 0) ||| (if e1 then 0x20#6 else 0)
    q.getLsbD 4 = e0 ∧ q.getLsbD 5 = e1 ∧ q &&& 0x0F#6 = 0 := by
  revert e0 e1
  decide

/-- Settles O59: the device record, an access by its slot, and a tick channel by channel. -/
theorem referenceTimer : Obligations.ReferenceTimer := by
  refine ⟨reloadCount_bounds, fun tmr b1 p1 b0 p0 => ⟨rfl, rfl, rfl⟩, fun t0 t1 p b => ⟨rfl, rfl, ?_, ?_⟩, fun t0 t1 k view => ?_⟩
  · change (timerAccess t0 t1 p .write b).2.2.toNat = _
    rw [timerAccess_write]
    split
    · exact toNat_clearLoadBits b
    · rfl
  · change DevState.refTimer (timerAccess t0 t1 p .write b).1 (timerAccess t0 t1 p .write b).2.1 = _
    rw [timerAccess_write, timerControl_eq, timerControl_eq]
    split <;> rfl
  · obtain ⟨hfour, hfive, hlow⟩ := timerSources_spec (timerExpires t0 k) (timerExpires t1 k)
    have htmr := fun j => getLsbD_timerTickControls t0 t1 j k (viewAt view 0xF1)
    simp only [← timerExpires_iff]
    refine ⟨?_, by rw [← hfour]; rfl, by rw [← hfive]; rfl, hlow, fun a ha => if_neg ha, ?_, ?_, fun j h1 h3 => ?_⟩
    · rw [← timerTick_eq, ← timerTick_eq]
      rfl
    · exact (htmr 1).trans (by simp)
    · exact (htmr 3).trans (by simp)
    · exact Bool.eq_iff_iff.mpr ((htmr j).trans (by simp [h1, h3]))

end Sys2Proof.Machine
end
section
/-! SUPPORT. What an instruction needs to complete (`60_exceptions.md` R330 to R332): a legal window, in which every register
address reaches a slot, and memory accesses that are not refused; shape by shape, then for every instruction. -/

namespace Sys2Proof.Machine

open Sys2Proof.Statements

variable {s t u : State}

/-! ### A legal window -/

/-- Every register address reaches a slot (`10_state.md` R28). -/
def State.WindowLegal (s : State) : Prop := ∀ a : Byte, ∃ p, Reaches s a p

theorem State.windowLegal_of_loNib (hE : loNib (s.reg slotRP) ≠ 0xE#4) (hF : loNib (s.reg slotRP) ≠ 0xF#4) : s.WindowLegal := by
  intro a
  refine Option.ne_none_iff_exists'.mp fun hnone => ?_
  rcases (resolve_eq_none.mp hnone).2 with h | h
  · exact hE h
  · exact hF h

/-- Only RP says whether the window is legal. -/
theorem State.WindowLegal.congr (h : s.WindowLegal) (hrp : t.reg slotRP = s.reg slotRP) : t.WindowLegal := by
  intro a
  obtain ⟨p, hp⟩ := h a
  exact ⟨p, by rw [Reaches, hrp]; exact hp⟩

theorem State.WindowLegal.of_onlyReads (h : s.WindowLegal) (k : s.OnlyReads t) : t.WindowLegal :=
  h.congr (k.core slotRP (by decide) (by decide))

/-- RP is reached by its own address alone (`10_state.md` R25, R28). -/
theorem ne_rp_of_reaches {a p : Byte} (h : Reaches s a p) (ha : a ≠ slotRP) : p ≠ slotRP := by
  by_cases hwin : hiNib a = 0xE#4
  · have hwreg : a = wreg (loNib a) := by rw [wreg, ← hwin, ofNibs_hiNib_loNib]
    rw [hwreg] at h
    exact ne_rp_of_reaches_wreg h
  · obtain rfl : a = p := Option.some.inj ((resolve_direct _ hwin).symm.trans h)
    exact ha

/-! ### Operands and the shapes of register instructions -/

theorem exists_operandsAt (h : s.WindowLegal) (o : TwoOperands) : ∃ p v u, OperandsAt s o p v u := by
  cases o with
  | ww d w =>
    obtain ⟨q, hq⟩ := h (wreg w)
    obtain ⟨p, hp⟩ := h (wreg d)
    exact ⟨p, _, _, q, hq, hp, rfl⟩
  | wiw d w =>
    obtain ⟨q, hq⟩ := h (wreg w)
    obtain ⟨q', hq'⟩ := h ((moded s (TwoOperands.wiw d w).modeIndex).slotRead q).1
    obtain ⟨p, hp⟩ := h (wreg d)
    exact ⟨p, _, _, q, q', hq, hq', hp, rfl⟩
  | rr d r =>
    obtain ⟨q, hq⟩ := h r
    obtain ⟨p, hp⟩ := h d
    exact ⟨p, _, _, q, hq, hp, rfl⟩
  | rir d r =>
    obtain ⟨q, hq⟩ := h r
    obtain ⟨q', hq'⟩ := h ((moded s (TwoOperands.rir d r).modeIndex).slotRead q).1
    obtain ⟨p, hp⟩ := h d
    exact ⟨p, _, _, q, q', hq, hq', hp, rfl⟩
  | rim d im =>
    obtain ⟨p, hp⟩ := h d
    exact ⟨p, _, _, hp, rfl, rfl⟩
  | irim d im =>
    obtain ⟨q, hq⟩ := h d
    obtain ⟨p, hp⟩ := h ((moded s (TwoOperands.irim d im).modeIndex).slotRead q).1
    exact ⟨p, _, _, q, hq, hp, rfl, rfl⟩

theorem exists_operandAt (h : s.WindowLegal) (o : OneOperand) : ∃ p u, OperandAt s o p u := by
  cases o with
  | direct r =>
    obtain ⟨p, hp⟩ := h r
    exact ⟨p, s, hp, rfl⟩
  | indirect r =>
    obtain ⟨q, hq⟩ := h r
    obtain ⟨p, hp⟩ := h (s.slotRead q).1
    exact ⟨p, _, q, hq, hp, rfl⟩

theorem exists_aluInstruction (h : s.WindowLegal) (op : AluOp) (o : TwoOperands) : ∃ t, aluInstruction op o s = .ok () t := by
  obtain ⟨p, v, u, ho⟩ := exists_operandsAt h o
  exact ⟨_, aluInstruction_of_operandsAt ho⟩

theorem exists_loadInstruction (h : s.WindowLegal) (o : TwoOperands) : ∃ t, loadInstruction o s = .ok () t := by
  obtain ⟨p, v, u, ho⟩ := exists_operandsAt h o
  exact ⟨_, loadInstruction_of_operandsAt ho⟩

theorem exists_storeIndirect (h : s.WindowLegal) (k : Fin 6) (ptr src : Byte) : ∃ t, storeIndirect k ptr src s = .ok () t := by
  obtain ⟨q, hq⟩ := h src
  obtain ⟨q', hq'⟩ := h ptr
  obtain ⟨p, hp⟩ := h (((moded s k).slotRead q).2.slotRead q').1
  exact ⟨_, storeIndirect_of_reaches hq hq' hp⟩

theorem exists_modifyRegister (h : s.WindowLegal) (f : Byte → Byte → Byte × FlagBits) (a : Byte) :
    ∃ t, modifyRegister f a s = .ok () t := by
  obtain ⟨p, hp⟩ := h a
  exact ⟨_, modifyRegister_some f hp⟩

theorem exists_singleInstruction (h : s.WindowLegal) (f : Byte → Byte → Byte × FlagBits) (o : OneOperand) :
    ∃ t, singleInstruction f o s = .ok () t := by
  obtain ⟨p, u, ho⟩ := exists_operandAt h o
  obtain ⟨a, hfetch, ha⟩ := fetchSingle_of_operandAt ho
  exact ⟨_, M.bind_eq_ok.mpr ⟨a, u, hfetch, modifyRegister_some f ha⟩⟩

theorem exists_clearInstruction (h : s.WindowLegal) (o : OneOperand) : ∃ t, clearInstruction o s = .ok () t := by
  obtain ⟨p, u, ho⟩ := exists_operandAt h o
  exact ⟨_, clearInstruction_of_operandAt ho⟩

theorem exists_moveRegister (h : s.WindowLegal) (dst src : Byte) : ∃ t, moveRegister dst src s = .ok () t := by
  obtain ⟨q, hq⟩ := h src
  obtain ⟨p, hp⟩ := h dst
  exact ⟨_, moveRegister_of_reaches hq hp⟩

/-- A slot that an even address reaches is even (`10_state.md` R34). -/
theorem even_of_reaches {a p : Byte} (ha : a.toNat % 2 = 0) (h : Reaches s a p) : p.toNat % 2 = 0 := by
  have hbit := (bit_zero_of_resolve h).trans (bit_zero_of_even ha)
  rw [bit_zero_eq, decide_eq_false_iff_not] at hbit
  omega

/-- INCW and DECW of an even pair. -/
theorem exists_wordInstruction_direct (h : s.WindowLegal) (f : Word → Word) (g : Word → FlagBits) {rr : Byte}
    (heven : rr.toNat % 2 = 0) : ∃ t, wordInstruction f g (.direct rr) s = .ok () t := by
  obtain ⟨p, hp⟩ := h rr
  exact ⟨_, wordInstruction_of_operandAt f g (o := .direct rr) ⟨hp, rfl⟩ (even_of_reaches heven hp)⟩

/-- INCW and DECW of an even pair behind a pointer. -/
theorem exists_wordInstruction_indirect (h : s.WindowLegal) (f : Word → Word) (g : Word → FlagBits) {r : Byte}
    (heven : ∀ q, Reaches s r q → (s.slotRead q).1.toNat % 2 = 0) : ∃ t, wordInstruction f g (.indirect r) s = .ok () t := by
  obtain ⟨q, hq⟩ := h r
  obtain ⟨p, hp⟩ := h (s.slotRead q).1
  exact ⟨_, wordInstruction_of_operandAt f g (o := .indirect r) ⟨q, hq, hp, rfl⟩ (even_of_reaches (heven q hq) hp)⟩

/-! ### The stack -/

/-- A push needs the slot below the pointer, on the internal stack (`20_memory.md` R82). -/
theorem exists_pushAt (v : Byte) (h : ∃ q, Reaches s (s.reg slotSPL - 1) q) : ∃ t, PushAt s v t := by
  unfold PushAt
  split
  · obtain ⟨q, hq⟩ := h
    exact ⟨_, q, hq, rfl⟩
  · exact ⟨_, rfl⟩

/-- The push after a push: where the first one overwrote RP, the next slot is FLAGS, which is outside the window
(`20_memory.md` R82, R84). -/
theorem exists_reaches_of_pushAt {v : Byte} (h : s.WindowLegal) (hpush : PushAt s v t) :
    ∃ q, Reaches t (t.reg slotSPL - 1) q := by
  unfold PushAt at hpush
  split at hpush
  · obtain ⟨q, hq, rfl⟩ := hpush
    by_cases hrp : q = slotRP
    · have hspl : s.reg 0xFF - 1 = slotRP := by_contra fun hne => ne_rp_of_reaches hq hne hrp
      have hnext : (s.setReg 0xFF slotRP).reg slotSPL = slotRP := State.reg_setReg_self s _ _
      refine ⟨slotRP - 1, ?_⟩
      rw [hrp, hspl, State.slotWrite_readWrite v (policy_core _ (by decide)), State.reg_setReg_ne _ _ (by decide), hnext]
      exact resolve_direct _ (by decide)
    · refine h.congr ?_ _
      rw [State.rp_slotWrite _ v hrp]
      exact State.reg_setReg_ne _ _ (by decide)
  · obtain rfl := hpush
    refine h.congr ?_ _
    exact (State.reg_setReg_ne _ _ (by decide)).trans (State.reg_setReg_ne _ _ (by decide))

theorem exists_pushPc (h : s.WindowLegal) : ∃ t, pushPc s = .ok () t := by
  obtain ⟨t, ht⟩ := exists_pushAt (hiByte s.pc) (h _)
  obtain ⟨u, hu⟩ := exists_pushAt (loByte s.pc) (exists_reaches_of_pushAt h ht)
  exact ⟨u, pushPc_of_push (push_of_pushAt ht) (push_of_pushAt hu)⟩

theorem exists_callTo_of_windowLegal (h : s.WindowLegal) (a : Word) : ∃ t, callTo a s = .ok () t := by
  obtain ⟨t, ht⟩ := exists_pushPc h
  exact ⟨_, callTo_of_pushPc a ht⟩

theorem exists_pushInstruction (h : s.WindowLegal) (o : OneOperand) : ∃ t, pushInstruction o s = .ok () t := by
  obtain ⟨p, u, ho⟩ := exists_operandAt h o
  have hreads := (State.OnlyReads.of_operandAt ho).trans (.slotRead u p)
  obtain ⟨t, ht⟩ := exists_pushAt (u.slotRead p).1 (h.of_onlyReads hreads _)
  exact ⟨t, pushInstruction_of_operandAt ho ht⟩

/-- A pop leaves the window legal (`20_memory.md` R83). -/
theorem exists_popAt (h : s.WindowLegal) : ∃ v t, PopAt s v t ∧ t.WindowLegal := by
  obtain ⟨v, t, hpop⟩ : ∃ v t, PopAt s v t := by
    unfold PopAt
    split
    · obtain ⟨q, hq⟩ := h (s.reg 0xFF)
      exact ⟨_, _, q, hq, rfl, rfl⟩
    · exact ⟨_, _, rfl, rfl⟩
  refine ⟨v, t, hpop, fun a => ?_⟩
  obtain ⟨p, hp⟩ := h a
  exact ⟨p, reaches_of_popAt hpop hp⟩

theorem exists_popPc (h : s.WindowLegal) : ∃ a t, popPc s = .ok a t := by
  obtain ⟨l, t, ht, hlegal⟩ := exists_popAt h
  obtain ⟨b, u, hu, -⟩ := exists_popAt hlegal
  exact ⟨_, u, popPc_of_pop (pop_of_popAt ht) (pop_of_popAt hu)⟩

theorem exists_popInstruction (h : s.WindowLegal) (o : OneOperand) : ∃ t, popInstruction o s = .ok () t := by
  obtain ⟨p, u, ho⟩ := exists_operandAt h o
  obtain ⟨v, t, hpop, -⟩ := exists_popAt (h.of_onlyReads (.of_operandAt ho))
  exact ⟨_, popInstruction_of_operandAt ho hpop⟩

/-- FLAGS written between the pops is not RP (`41_short_forms.md` R175). -/
theorem exists_returnFromInterrupt (h : s.WindowLegal) : ∃ t, returnFromInterrupt s = .ok () t := by
  obtain ⟨f, t, ht, hlegal⟩ := exists_popAt h
  obtain ⟨a, u, hu⟩ := exists_popPc (hlegal.congr (State.reg_setReg_ne t f (show slotRP ≠ slotFLAGS by decide)))
  exact ⟨_, returnFromInterrupt_of_pop (pop_of_popAt ht) hu⟩

/-! ### The memory forms -/

/-- The computation completes from `s` and leaves RP. -/
def M.CompletesAt {α : Type} (m : M α) (s : State) : Prop := ∃ v t, m s = .ok v t ∧ t.reg slotRP = s.reg slotRP

theorem dataRead_completesAt (a : Word) (s : State) : M.CompletesAt (dataRead a) s := ⟨_, s, rfl, rfl⟩

theorem dataWrite_completesAt (a : Word) (v : Byte) (s : State) : M.CompletesAt (dataWrite a v) s := ⟨(), _, rfl, rfl⟩

/-- Only the address 0xFFFF is refused (`20_memory.md` R70). -/
theorem programAccess_completesAt {a : Word} (ha : a ≠ sentinel) (op : CacheOp) (s : State) :
    M.CompletesAt (programAccess a op) s := ⟨_, _, programAccess_of_cacheAccess ha rfl, rfl⟩

theorem programWrite_completesAt {a : Word} (ha : a ≠ sentinel) (v : Byte) (s : State) :
    M.CompletesAt (programWrite a v) s := by
  obtain ⟨w, t, hacc, hrp⟩ := programAccess_completesAt ha (.write v) s
  exact ⟨(), t, M.bind_eq_ok.mpr ⟨w, t, hacc, rfl⟩, hrp⟩

section

variable {d p : Nib} (h : s.WindowLegal) (heven : p.toNat % 2 = 0)
include h heven

theorem exists_memoryLoad {read : Word → M Byte}
    (hread : ∀ q, Reaches s (wreg p) q → M.CompletesAt (read (pairFrom s q).1) (pairFrom s q).2) :
    ∃ t, memoryLoad read d p s = .ok () t := by
  obtain ⟨q, hq⟩ := h (wreg p)
  obtain ⟨r, hr⟩ := h (wreg d)
  obtain ⟨v, t, hv, hrp⟩ := hread q hq
  exact ⟨_, memoryLoad_of_read heven hq hr hv hrp⟩

theorem exists_memoryStore {write : Word → Byte → M Unit}
    (hwrite : ∀ q r, Reaches s (wreg p) q → Reaches s (wreg d) r →
      let v := s.slotRead r
      M.CompletesAt (write (pairFrom v.2 q).1 v.1) (pairFrom v.2 q).2) :
    ∃ t, memoryStore write d p s = .ok () t := by
  obtain ⟨q, hq⟩ := h (wreg p)
  obtain ⟨r, hr⟩ := h (wreg d)
  obtain ⟨_, t, ht, -⟩ := hwrite q r hq hr
  exact ⟨t, (memoryStore_of_reaches heven hq hr write).trans ht⟩

/-- An auto-increment load whose own store is not of RP finds its pointers where they were (`44_memory_indexed_calls.md`
R273, R277). -/
theorem exists_memoryLoadIncrement {read : Word → M Byte}
    (hne : ∀ q r, Reaches s (wreg p) q → Reaches s (wreg d) r → ((pairFrom s q).2.slotRead r).1 ≠ slotRP)
    (hread : ∀ q r, Reaches s (wreg p) q → Reaches s (wreg d) r →
      M.CompletesAt (read (pairFrom s q).1) ((pairFrom s q).2.slotRead r).2) :
    ∃ t, memoryLoadIncrement read d p s = .ok () t := by
  obtain ⟨q, hq⟩ := h (wreg p)
  obtain ⟨r, hr⟩ := h (wreg d)
  obtain ⟨v, t, hv, hrp⟩ := hread q r hq hr
  have hreads := (State.OnlyReads.pairFrom s q).trans (.slotRead _ r)
  have htrp : t.reg slotRP = s.reg slotRP := hrp.trans (hreads.core slotRP (by decide) (by decide))
  obtain ⟨x, hx⟩ := h.congr htrp ((pairFrom s q).2.slotRead r).1
  have hstored : ∀ {a b : Byte}, Reaches s a b → Reaches (t.slotWrite x v) a b := fun hab => by
    rw [Reaches, State.rp_slotWrite t v (ne_rp_of_reaches hx (hne q r hq hr)), htrp]
    exact hab
  exact ⟨_, memoryLoadIncrement_of_read heven hq hr hv hx (hstored hr) (hstored hq)⟩

theorem exists_memoryStoreIncrement {write : Word → Byte → M Unit}
    (hwrite : ∀ q r x, Reaches s (wreg p) q → Reaches s (wreg d) r → Reaches s (s.slotRead r).1 x →
      let v := (s.slotRead r).2.slotRead x
      M.CompletesAt (write (pairFrom v.2 q).1 v.1) (pairFrom v.2 q).2) :
    ∃ t, memoryStoreIncrement write d p s = .ok () t := by
  obtain ⟨q, hq⟩ := h (wreg p)
  obtain ⟨r, hr⟩ := h (wreg d)
  obtain ⟨x, hx⟩ := h (s.slotRead r).1
  obtain ⟨_, t, ht, hrp⟩ := hwrite q r x hq hr hx
  have hreads := ((State.OnlyReads.slotRead s r).trans (.slotRead _ x)).trans (.pairFrom _ q)
  exact ⟨_, memoryStoreIncrement_of_write heven hq hr hx ht (hrp.trans (hreads.core slotRP (by decide) (by decide)))⟩

end

/-! ### Every instruction -/

theorem even_of_evenPair {rr : Byte} (h : evenPair rr = true) : rr.toNat % 2 = 0 := by
  simp only [evenPair, bit_zero_eq, Bool.not_eq_true', decide_eq_false_iff_not] at h
  omega

theorem even_of_evenWPair : ∀ {p : Nib}, evenWPair p = true → p.toNat % 2 = 0 := by decide

/-- EVERY INSTRUCTION COMPLETES behind a legal window, when its pairs are even and its operands allow it
(`60_exceptions.md` R331, R332). -/
theorem exists_body {i : Instr} (h : s.WindowLegal) (hwf : WellFormed i = true) (hops : operandsAllow i s) :
    ∃ t, body i s = .ok () t := by
  cases i with
  | jpIRR rr =>
    obtain ⟨p, hp⟩ := h rr
    exact ⟨_, jpIRR_of_reaches (even_of_evenPair hwf) hp⟩
  | callIRR rr =>
    obtain ⟨p, hp⟩ := h rr
    obtain ⟨t, ht⟩ := exists_callTo_of_windowLegal (h.of_onlyReads (.pairFrom s p)) (pairFrom s p).1
    exact ⟨t, (callIRR_of_reaches (even_of_evenPair hwf) hp).trans ht⟩
  | callDA da => exact exists_callTo_of_windowLegal h da
  | decwRR rr | incwRR rr => exact exists_wordInstruction_direct h _ _ (even_of_evenPair hwf)
  | decwIR r | incwIR r => exact exists_wordInstruction_indirect h _ _ hops
  | ldeLoad d p => exact exists_memoryLoad h (even_of_evenWPair hwf) fun _ _ => dataRead_completesAt _ _
  | ldeStore d p => exact exists_memoryStore h (even_of_evenWPair hwf) fun _ _ _ _ => dataWrite_completesAt _ _ _
  | ldeiLoad d p => exact exists_memoryLoadIncrement h (even_of_evenWPair hwf) hops fun _ _ _ _ => dataRead_completesAt _ _
  | ldeiStore d p =>
    exact exists_memoryStoreIncrement h (even_of_evenWPair hwf) fun _ _ _ _ _ _ => dataWrite_completesAt _ _ _
  | ldcLoad d p =>
    exact exists_memoryLoad h (even_of_evenWPair hwf) fun q hq => programAccess_completesAt (hops q hq) .read _
  | ldcStore d p =>
    exact exists_memoryStore h (even_of_evenWPair hwf) fun q r hq hr => programWrite_completesAt (hops q r hq hr) _ _
  | ldciLoad d p =>
    exact exists_memoryLoadIncrement h (even_of_evenWPair hwf) (fun q r hq hr => (hops q r hq hr).2)
      fun q r hq hr => programAccess_completesAt (hops q r hq hr).1 .read _
  | ldciStore d p =>
    exact exists_memoryStoreIncrement h (even_of_evenWPair hwf) fun q r x hq hr hx =>
      programWrite_completesAt (hops q r x hq hr hx) _ _
  | ldWX d x off =>
    obtain ⟨q, hq⟩ := h (wreg x)
    obtain ⟨q', hq'⟩ := h (off + (s.slotRead q).1)
    obtain ⟨p, hp⟩ := h (wreg d)
    exact ⟨_, ldWX_of_reaches hq hq' hp⟩
  | ldXW d x off =>
    obtain ⟨q, hq⟩ := h (wreg d)
    obtain ⟨q', hq'⟩ := h (wreg x)
    obtain ⟨p, hp⟩ := h (off + ((s.slotRead q).2.slotRead q').1)
    exact ⟨_, ldXW_of_reaches hq hq' hp⟩
  | ldWR d r => exact exists_moveRegister h _ _
  | ldRW d w => exact exists_moveRegister h _ _
  | ldWIM d im =>
    obtain ⟨p, hp⟩ := h (wreg d)
    exact ⟨_, regWrite_some im hp⟩
  | djnz w ra =>
    obtain ⟨p, hp⟩ := h (wreg w)
    exact ⟨_, djnz_of_reaches ra hp⟩
  | jr cc ra => exact ⟨_, condition_jumpIf cc (fun t => t.pc + sext16 ra) s⟩
  | jp cc da => exact ⟨_, condition_jumpIf cc (fun _ => da) s⟩
  | incW w => exact exists_modifyRegister h opInc (wreg w)
  | ret =>
    obtain ⟨a, t, ht⟩ := exists_popPc h
    exact ⟨_, M.bind_eq_ok.mpr ⟨a, t, ht, rfl⟩⟩
  | iret => exact exists_returnFromInterrupt h
  | ifPred | srp | stop | halt | di | ei | rcf | scf | ccf | nop => exact ⟨_, rfl⟩
  | pushR | pushIR => exact exists_pushInstruction h _
  | popR | popIR => exact exists_popInstruction h _
  | clrR | clrIR => exact exists_clearInstruction h _
  | ldWIW | ldRR | ldRIR | ldRIM | ldIRIM => exact exists_loadInstruction h _
  | ldIWW | ldIRR => exact exists_storeIndirect h _ _ _
  | decR | decIR | rlcR | rlcIR | incR | incIR | daR | daIR | comR | comIR | rlR | rlIR | rrcR | rrcIR | sraR | sraIR |
      rrR | rrIR | swapR | swapIR => exact exists_singleInstruction h _ _
  | _ => exact exists_aluInstruction h _ _

/-- Settles O42: the computation completes, and the frame of control gives the run state, but in STOP and HALT. -/
theorem everyInstructionCompletes : Obligations.EveryInstructionCompletes := by
  intro i s hE hF hwf hops
  obtain ⟨t, ht⟩ := exists_body (State.windowLegal_of_loNib hE hF) hwf hops
  have hrun := ((body_keeps_control (ControlFrame.controlRel i) s).1 _ _ ht).run
  by_cases hstop : i = .stop
  · subst hstop
    exact ⟨_, rfl, rfl⟩
  by_cases hhalt : i = .halt
  · subst hhalt
    exact ⟨_, rfl, rfl⟩
  refine ⟨t, exec_of_body ht, ?_⟩
  split
  · exact absurd rfl hstop
  · exact absurd rfl hhalt
  · exact hrun hstop hhalt

end Sys2Proof.Machine
end

section
/-! SUPPORT. Where an operand faults (`60_exceptions.md` R331): the odd pair, the PROGRAM address 0xFFFF and the forbidden window,
shape by shape, each with the state at the raise. -/

namespace Sys2Proof.Machine

open Sys2Proof.Statements

variable {s t u : State} {α β : Type}

/-- A computation whose first part faults ends there (`40_cycle_and_alu.md` R133). -/
theorem M.bind_of_error {x : M α} (f : α → M β) {r : FaultReason} (h : x s = .error r t) : (x >>= f) s = .error r t :=
  M.bind_eq_error.mpr (.inl h)

/-- The fault of an instruction leaves the state as at the raise, Faulted (`40_cycle_and_alu.md` R133). -/
theorem exec_of_fault {i : Instr} {r : FaultReason} (h : body i s = .error r t) :
    exec i s = .next { t with run := .faulted r } :=
  (exec_eq i s).trans (M.finish_error h)

/-- An instruction whose first act is a register read that is refused (`10_state.md` R28). -/
theorem exec_of_regRead_refused {i : Instr} {a : Byte} {f : Byte → M Unit} (hbody : body i = regRead a >>= f)
    (ha : resolve (s.reg slotRP) a = none) : exec i s = .next { s with run := .faulted .forbiddenRP } :=
  exec_of_fault ((congrFun hbody s).trans (M.bind_of_error f (regRead_none ha)))

/-- An instruction whose first act is a read of a pair that faults (`10_state.md` R34). -/
theorem exec_of_pairRead_fault {i : Instr} {a : Byte} {f : Word → M Unit} {r : FaultReason}
    (hbody : body i = pairRead a >>= f) (ha : pairRead a s = .error r s) : exec i s = .next { s with run := .faulted r } :=
  exec_of_fault ((congrFun hbody s).trans (M.bind_of_error f ha))

/-! ### Odd pairs -/

theorem bit_zero_of_odd {a : Byte} (h : a.toNat % 2 = 1) : bit a 0 = true := by
  simp [bit_zero_eq, h]

theorem bit_zero_wreg_of_odd : ∀ {p : Nib}, p.toNat % 2 = 1 → bit (wreg p) 0 = true := by decide

/-- INCW and DECW of an odd address, after the operand routine (`43_single_operand.md` R241, R243). -/
theorem wordInstruction_odd (f : Word → Word) (g : Word → FlagBits) {o : OneOperand} {a : Byte}
    (hfetch : fetchSingle o s = .ok a u) (ha : bit a 0 = true) :
    wordInstruction f g o s = .error .oddRegisterPair u :=
  M.bind_eq_error.mpr (.inr ⟨a, u, hfetch, M.bind_of_error _ (pairRead_odd u ha)⟩)

/-- The loads read their pair first (`44_memory_indexed_calls.md` R270). -/
theorem memoryLoad_odd (read : Word → M Byte) (d : Nib) {p : Nib} (hp : bit (wreg p) 0 = true) :
    memoryLoad read d p s = .error .oddRegisterPair s ∧ memoryLoadIncrement read d p s = .error .oddRegisterPair s :=
  ⟨M.bind_of_error _ (pairRead_odd s hp), M.bind_of_error _ (pairRead_odd s hp)⟩

/-- The stores read the byte before their pair (`44_memory_indexed_calls.md` R270). -/
theorem memoryStore_odd (write : Word → Byte → M Unit) {d p : Nib} {r : Byte} (hp : bit (wreg p) 0 = true)
    (hr : Reaches s (wreg d) r) :
    memoryStore write d p s = .error .oddRegisterPair (s.slotRead r).2 ∧
      ∀ x, Reaches s (s.slotRead r).1 x →
        memoryStoreIncrement write d p s = .error .oddRegisterPair ((s.slotRead r).2.slotRead x).2 := by
  refine ⟨?_, fun x hx => ?_⟩
  · rw [memoryStore, regRead_bind hr]
    exact M.bind_of_error _ (pairRead_odd _ hp)
  · rw [memoryStoreIncrement, regRead_bind hr, regRead_bind (reaches_slotRead r hx)]
    exact M.bind_of_error _ (pairRead_odd _ hp)

/-! ### The address 0xFFFF -/

theorem programWrite_sentinel (v : Byte) (s : State) : programWrite sentinel v s = .error .sentinelAddress s :=
  M.bind_of_error _ (programAccess_sentinel _ s)

section

variable {d p : Nib} {q r : Byte} (heven : p.toNat % 2 = 0) (hq : Reaches s (wreg p) q) (hr : Reaches s (wreg d) r)
include heven hq hr

/-- A refused load, after the register reads (`20_memory.md` R70). -/
theorem programLoad_sentinel (ha : (pairFrom s q).1 = sentinel) :
    memoryLoad programRead d p s = .error .sentinelAddress (pairFrom s q).2 ∧
      memoryLoadIncrement programRead d p s = .error .sentinelAddress ((pairFrom s q).2.slotRead r).2 := by
  have hread : ∀ t, programRead (pairFrom s q).1 t = .error .sentinelAddress t := fun t => by
    rw [ha]; exact programAccess_sentinel _ t
  constructor
  · rw [memoryLoad, pairRead_bind (bit_zero_wreg heven) hq]
    exact M.bind_of_error _ (hread _)
  · rw [memoryLoadIncrement, pairRead_bind (bit_zero_wreg heven) hq,
      regRead_bind ((State.OnlyReads.pairFrom s q).reaches hr)]
    exact M.bind_of_error _ (hread _)

/-- A refused store, after the register reads (`20_memory.md` R70). -/
theorem programStore_sentinel (ha : (pairFrom (s.slotRead r).2 q).1 = sentinel) :
    memoryStore programWrite d p s = .error .sentinelAddress (pairFrom (s.slotRead r).2 q).2 := by
  rw [memoryStore_of_reaches heven hq hr]
  dsimp only
  rw [ha]
  exact programWrite_sentinel _ _

theorem programStoreIncrement_sentinel {x : Byte} (hx : Reaches s (s.slotRead r).1 x)
    (ha : (pairFrom ((s.slotRead r).2.slotRead x).2 q).1 = sentinel) :
    memoryStoreIncrement programWrite d p s =
      .error .sentinelAddress (pairFrom ((s.slotRead r).2.slotRead x).2 q).2 := by
  rw [memoryStoreIncrement, regRead_bind hr, regRead_bind (reaches_slotRead r hx),
    pairRead_bind (bit_zero_wreg heven) (reaches_slotRead x (reaches_slotRead r hq)), ha]
  exact M.bind_of_error _ (programWrite_sentinel _ _)

end

/-! ### The forbidden window -/

/-- Behind a forbidden RP no working register is reached (`10_state.md` R28). -/
theorem resolve_wreg_forbidden (h : loNib (s.reg slotRP) = 0xE#4 ∨ loNib (s.reg slotRP) = 0xF#4) (n : Nib) :
    resolve (s.reg slotRP) (wreg n) = none :=
  resolve_eq_none.mpr ⟨hiNib_ofNibs 0xE#4 n, h⟩

/-- The address register a two-operand form reads first; an immediate to a register has none (`40_cycle_and_alu.md` R137). -/
def firstRead (o : TwoOperands) : Option Byte :=
  match o with
  | .ww _ w | .wiw _ w => some (wreg w)
  | .rr _ r | .rir _ r => some r
  | .rim _ _ => none
  | .irim d _ => some d

/-- The mode is charged before the first read is refused (`40_cycle_and_alu.md` R137). -/
theorem fetchOperands_refused {o : TwoOperands} {a : Byte} (ho : firstRead o = some a)
    (ha : resolve (s.reg slotRP) a = none) : fetchOperands o s = .error .forbiddenRP (moded s o.modeIndex) := by
  have hread : regRead a (moded s o.modeIndex) = .error .forbiddenRP (moded s o.modeIndex) := regRead_none ha
  unfold fetchOperands
  rw [chargeMode_bind]
  cases o with
  | ww d w | rr d w | irim d im => cases ho; exact M.bind_of_error _ hread
  | wiw d w | rir d w => cases ho; exact M.bind_of_error _ (M.bind_of_error _ hread)
  | rim d im => cases ho

theorem storeIndirect_refused (k : Fin 6) (ptr : Byte) {src : Byte} (h : resolve (s.reg slotRP) src = none) :
    storeIndirect k ptr src s = .error .forbiddenRP (moded s k) := by
  have hread : regRead src (moded s k) = .error .forbiddenRP (moded s k) := regRead_none h
  rw [storeIndirect, chargeMode_bind]
  exact M.bind_of_error _ hread

section

variable {a : Byte} (ha : resolve (s.reg slotRP) a = none)
include ha

/-- A single-operand form at a refused register: a pointer is refused by the operand routine, the register itself where what
follows it accesses it first (`40_cycle_and_alu.md` R138). -/
theorem fetchSingle_bind_refused {k : Byte → M Unit} (hk : k a s = .error .forbiddenRP s) {o : OneOperand}
    (ho : o ∈ [OneOperand.direct a, .indirect a]) : (fetchSingle o >>= k) s = .error .forbiddenRP s := by
  simp only [List.mem_cons, List.not_mem_nil, or_false] at ho
  rcases ho with rfl | rfl
  · exact hk
  · exact M.bind_of_error _ (regRead_none ha)

theorem singleInstruction_refused (f : Byte → Byte → Byte × FlagBits) {o : OneOperand}
    (ho : o ∈ [OneOperand.direct a, .indirect a]) : singleInstruction f o s = .error .forbiddenRP s :=
  fetchSingle_bind_refused ha (M.bind_of_error _ (regRead_none ha)) ho

theorem exec_unaryForm_refused (op : UnaryOp) {o : OneOperand} (ho : o ∈ [OneOperand.direct a, .indirect a]) :
    exec (unaryForm op o) s = .next { s with run := .faulted .forbiddenRP } :=
  exec_of_fault ((congrFun (body_unaryForm op o) s).trans (singleInstruction_refused ha _ ho))

theorem clearInstruction_refused {o : OneOperand} (ho : o ∈ [OneOperand.direct a, .indirect a]) :
    clearInstruction o s = .error .forbiddenRP s :=
  fetchSingle_bind_refused ha (k := fun p => regWrite p 0x00) (regWrite_none _ ha) ho

theorem pushInstruction_refused {o : OneOperand} (ho : o ∈ [OneOperand.direct a, .indirect a]) :
    pushInstruction o s = .error .forbiddenRP s :=
  fetchSingle_bind_refused ha (M.bind_of_error _ (regRead_none ha)) ho

/-- POP is refused before the pop behind a pointer alone: a register is written after it (`43_single_operand.md` R238). -/
theorem popInstruction_refused : popInstruction (.indirect a) s = .error .forbiddenRP s :=
  M.bind_of_error _ (x := fetchSingle (.indirect a)) (regRead_none ha)

/-- An odd address is refused as a pair before the window is looked at (`10_state.md` R34). -/
theorem wordInstruction_refused (f : Word → Word) (g : Word → FlagBits) :
    wordInstruction f g (.indirect a) s = .error .forbiddenRP s ∧
      (bit a 0 = false → wordInstruction f g (.direct a) s = .error .forbiddenRP s) :=
  ⟨M.bind_of_error _ (x := fetchSingle (.indirect a)) (regRead_none ha), fun heven =>
    fetchSingle_bind_refused ha (M.bind_of_error _ (pairRead_none heven ha)) (by simp)⟩

end

/-- A load of row E: the operand routine is refused, or the destination of an immediate (`42_two_operand.md` R203 to R209). -/
theorem loadInstruction_refused {o : TwoOperands} {a : Byte} (ho : firstRead o = some a ∨ ∃ im, o = .rim a im)
    (ha : resolve (s.reg slotRP) a = none) : loadInstruction o s = .error .forbiddenRP (moded s o.modeIndex) := by
  rcases ho with ho | ⟨im, rfl⟩
  · exact M.bind_of_error _ (fetchOperands_refused ho ha)
  · have hwrite : regWrite a im (moded s 4) = .error .forbiddenRP (moded s 4) := regWrite_none im ha
    exact hwrite

/-- The same of an ALU instruction, which reads its destination (`42_two_operand.md` R190). -/
theorem aluInstruction_refused (op : AluOp) {o : TwoOperands} {a : Byte} (ho : firstRead o = some a ∨ ∃ im, o = .rim a im)
    (ha : resolve (s.reg slotRP) a = none) : aluInstruction op o s = .error .forbiddenRP (moded s o.modeIndex) := by
  rcases ho with ho | ⟨im, rfl⟩
  · exact M.bind_of_error _ (fetchOperands_refused ho ha)
  · have hread : regRead a (moded s 4) = .error .forbiddenRP (moded s 4) := regRead_none ha
    exact M.bind_eq_error.mpr (.inr ⟨_, _, rfl, M.bind_of_error _ hread⟩)

theorem exec_aluForm_refused (op : AluOp) {o : TwoOperands} {a : Byte} (ho : firstRead o = some a ∨ ∃ im, o = .rim a im)
    (ha : resolve (s.reg slotRP) a = none) :
    exec (aluForm op o) s = .next { moded s o.modeIndex with run := .faulted .forbiddenRP } :=
  exec_of_fault ((congrFun (body_aluForm op o) s).trans (aluInstruction_refused op ho ha))

/-- LD r,R at a refused destination, its source read (`41_short_forms.md` R161). -/
theorem moveRegister_refused {dst src q : Byte} (hq : Reaches s src q) (hdst : resolve (s.reg slotRP) dst = none) :
    moveRegister dst src s = .error .forbiddenRP (s.slotRead q).2 := by
  rw [moveRegister, regRead_bind hq]
  refine regWrite_none _ ?_
  rw [s.rp_slotRead]
  exact hdst

/-- Settles O47: each form faults at its first refused access, in the state its reads have left. -/
theorem operandFaults : Obligations.OperandFaults := by
  intro s
  simp only [List.forall_mem_cons, List.not_mem_nil, false_imp_iff, implies_true, and_true]
  refine ⟨fun rr hodd => ?_, fun r q hq hodd => ?_, fun d p hodd => ?_, fun d p q r heven hq hr => ?_, fun n w b hrp => ?_⟩
  · have hbit := bit_zero_of_odd hodd
    have hpair := pairRead_odd s hbit
    have hword := fun f g => wordInstruction_odd f g (o := .direct rr) (s := s) rfl hbit
    exact ⟨exec_of_pairRead_fault rfl hpair, exec_of_pairRead_fault rfl hpair, exec_of_fault (hword _ _),
      exec_of_fault (hword _ _)⟩
  · have hfetch := fetchSingle_indirect hq
    have hbit := bit_zero_of_odd hodd
    exact ⟨exec_of_fault (wordInstruction_odd _ _ hfetch hbit), exec_of_fault (wordInstruction_odd _ _ hfetch hbit)⟩
  · have hbit := bit_zero_wreg_of_odd hodd
    refine ⟨⟨exec_of_fault (memoryLoad_odd _ d hbit).1, exec_of_fault (memoryLoad_odd _ d hbit).1,
      exec_of_fault (memoryLoad_odd _ d hbit).2, exec_of_fault (memoryLoad_odd _ d hbit).2⟩, fun r hr => ?_⟩
    exact ⟨⟨exec_of_fault (memoryStore_odd _ hbit hr).1, exec_of_fault (memoryStore_odd _ hbit hr).1⟩, fun x hx =>
      ⟨exec_of_fault ((memoryStore_odd _ hbit hr).2 x hx), exec_of_fault ((memoryStore_odd _ hbit hr).2 x hx)⟩⟩
  · refine ⟨fun ha => ?_, fun ha => exec_of_fault (programStore_sentinel heven hq hr ha),
      fun x hx ha => exec_of_fault (programStoreIncrement_sentinel heven hq hr hx ha)⟩
    obtain ⟨hload, hincrement⟩ := programLoad_sentinel heven hq hr ha
    exact ⟨exec_of_fault hload, exec_of_fault hincrement⟩
  · have hnone := resolve_wreg_forbidden hrp
    have hmove : ∀ dst m, moveRegister dst (wreg m) s = .error .forbiddenRP s := fun _ m => moveRegister_none (hnone m)
    have hread : ∀ {i : Instr} {f : Byte → M Unit}, body i = regRead (wreg n) >>= f →
        exec i s = .next { s with run := .faulted .forbiddenRP } := fun hbody => exec_of_regRead_refused hbody (hnone n)
    refine ⟨⟨hread rfl, hread rfl, exec_of_fault (regWrite_none b (hnone n)), exec_of_fault (hmove b n),
      exec_of_fault (hmove _ w), hread rfl, hread rfl, hread rfl, hread rfl, hread rfl, hread rfl,
      exec_of_fault (clearInstruction_refused (hnone n) (by simp)), exec_of_fault (clearInstruction_refused (hnone n) (by simp)),
      exec_of_fault (pushInstruction_refused (hnone n) (by simp)), exec_of_fault (pushInstruction_refused (hnone n) (by simp)),
      exec_of_fault (popInstruction_refused (hnone n)), exec_of_fault (wordInstruction_refused (hnone n) _ _).1,
      exec_of_fault (wordInstruction_refused (hnone n) _ _).1⟩, fun heven => ?_,
      fun op => ⟨exec_unaryForm_refused (hnone n) op (by simp), exec_unaryForm_refused (hnone n) op (by simp)⟩,
      fun op => ?_, ?_, fun q hq => exec_of_fault (moveRegister_refused hq (hnone n))⟩
    · have hbit := bit_zero_wreg heven
      have hpair : ∀ {i : Instr} {f : Word → M Unit}, body i = pairRead (wreg w) >>= f →
          exec i s = .next { s with run := .faulted .forbiddenRP } := fun hbody =>
        exec_of_pairRead_fault hbody (pairRead_none hbit (hnone w))
      exact ⟨hpair rfl, hpair rfl, hpair rfl, hpair rfl, exec_of_fault ((wordInstruction_refused (hnone w) _ _).2 hbit),
        exec_of_fault ((wordInstruction_refused (hnone w) _ _).2 hbit), hpair rfl, hpair rfl⟩
    · exact ⟨exec_aluForm_refused op (.inl rfl) (hnone w), exec_aluForm_refused op (.inl rfl) (hnone w),
        exec_aluForm_refused op (.inl rfl) (hnone n), exec_aluForm_refused op (.inl rfl) (hnone n),
        exec_aluForm_refused op (.inr ⟨b, rfl⟩) (hnone n), exec_aluForm_refused op (.inl rfl) (hnone n)⟩
    · exact ⟨exec_of_fault (loadInstruction_refused (.inl rfl) (hnone n)), exec_of_fault (storeIndirect_refused 1 _ (hnone n)),
        exec_of_fault (loadInstruction_refused (.inl rfl) (hnone n)), exec_of_fault (loadInstruction_refused (.inl rfl) (hnone n)),
        exec_of_fault (storeIndirect_refused 3 _ (hnone n)), exec_of_fault (loadInstruction_refused (.inr ⟨b, rfl⟩) (hnone n)),
        exec_of_fault (loadInstruction_refused (.inl rfl) (hnone n))⟩

end Sys2Proof.Machine
end

section
/-! SUPPORT. The entry of an interrupt (`60_exceptions.md` R352 to R355): the two pushes of pc, the vector through the cache, the
push of FLAGS and what is cleared after it; where a push is refused; the entry on the external stack. -/

namespace Sys2Proof.Machine

open Sys2Proof.Statements

variable {s t a b c : State} {i : Fin 6} {v : Byte}

/-! ### What a push leaves -/

/-- `t` differs from `s` in register memory, DATA memory and the devices at most. -/
structure State.PushFrame (s t : State) : Prop where
  cfg : t.cfg = s.cfg
  pc : t.pc = s.pc
  prog : t.prog = s.prog
  lines : t.lines = s.lines
  pred : t.pred = s.pred
  run : t.run = s.run
  cycles : t.cycles = s.cycles
  lastTick : t.lastTick = s.lastTick

theorem State.PushFrame.trans (h : s.PushFrame t) (k : t.PushFrame a) : s.PushFrame a :=
  ⟨k.cfg.trans h.cfg, k.pc.trans h.pc, k.prog.trans h.prog, k.lines.trans h.lines, k.pred.trans h.pred, k.run.trans h.run,
    k.cycles.trans h.cycles, k.lastTick.trans h.lastTick⟩

theorem State.PushFrame.of_pushAt (h : PushAt s v t) : s.PushFrame t := by
  unfold PushAt at h
  split at h
  · obtain ⟨q, -, rfl⟩ := h
    have hw := (State.RegOnly.setReg s 0xFF (s.reg 0xFF - 1)).trans (.slotWrite _ q v)
    exact ⟨hw.cfg, hw.pc, hw.prog, hw.lines, hw.pred, hw.run, State.cycles_slotWrite _ q v, hw.lastTick⟩
  · obtain rfl := h
    exact ⟨rfl, rfl, rfl, rfl, rfl, rfl, rfl, rfl⟩

theorem State.PushFrame.progView (h : s.PushFrame t) (x : Word) : t.progView x = s.progView x := by
  rw [State.progView, State.progView, h.lines, h.prog]

theorem State.CoreStep.of_pushAt (h : PushAt s v t) : s.CoreStep t :=
  (push_keeps State.CoreStep.stackRel dataWrite_core v s).1 _ _ (push_of_pushAt h)

/-- `s` at another clock and with another cache. -/
def State.withClock (s : State) (cycles : Nat) (lines : List CacheLine) (prog : Memory) : State :=
  { s with cycles := cycles, lines := lines, prog := prog }

theorem State.slotWrite_withClock (s : State) (cycles : Nat) (lines : List CacheLine) (prog : Memory) (q v : Byte) :
    (s.withClock cycles lines prog).slotWrite q v = (s.slotWrite q v).withClock cycles lines prog := by
  have hrest := State.RegOnly.slotWrite s q v
  refine (s.slotWrite_recast s.cfg.cost s.pc prog s.data lines s.pred s.run cycles s.lastTick q v).trans ?_
  rw [State.recast, State.withClock, ← hrest.cfg, ← hrest.pc, ← hrest.data, ← hrest.pred, ← hrest.run, ← hrest.lastTick]

/-- A push looks at neither the clock nor the cache (`20_memory.md` R82). -/
theorem pushAt_withClock (h : PushAt s v t) (cycles : Nat) (lines : List CacheLine) (prog : Memory) :
    PushAt (s.withClock cycles lines prog) v (t.withClock cycles lines prog) := by
  unfold PushAt at h ⊢
  split at h
  · next hmode =>
    obtain ⟨q, hq, rfl⟩ := h
    refine (if_pos hmode).mpr ?_
    exact ⟨q, hq, (State.slotWrite_withClock (s.setReg 0xFF (s.reg 0xFF - 1)) cycles lines prog q v).symm⟩
  · next hmode =>
    obtain rfl := h
    exact (if_neg hmode).mpr rfl

/-! ### The parts of an entry -/

/-- The vector of source `i` as the core sees it, big-endian (`60_exceptions.md` R352). -/
def State.vector (s : State) (i : Fin 6) : Word :=
  s.progView (BitVec.ofNat 16 (2 * i.val)) ++ s.progView (BitVec.ofNat 16 (2 * i.val + 1))

/-- pc at the vector and the global enable cleared (`60_exceptions.md` R352). -/
def State.vectored (s : State) (x : Word) : State := State.setReg { s with pc := x } 0xFB (s.reg 0xFB &&& 0x7F#8)

/-- The entry from the push of FLAGS on (`60_exceptions.md` R352). -/
def pushFlagsAndClean (i : Fin 6) : M Unit := do
  let s ← get
  push s.flags
  modify fun s => s.charge s.cfg.cost.irqPushFlags
  modify fun s => s.setReg slotIRQ (putBit (s.reg slotIRQ) i.val false)
  modify fun s => s.charge s.cfg.cost.irqCleanup
  modify fun s => { s with pred := s.pred.zero, run := if s.run = .waiting then .running else s.run }

/-- What stands after the push of FLAGS: the pending bit of the source cleared, the costs charged, the predication context
zeroed, a waiting machine woken (`60_exceptions.md` R352, R354). -/
def State.cleaned (s : State) (i : Fin 6) : State :=
  { s.setReg 0xFA (s.reg 0xFA &&& ~~~(1#8 <<< i.val)) with
    cycles := s.cycles + s.cfg.cost.irqPushFlags + s.cfg.cost.irqCleanup
    pred := s.pred.zero
    run := if s.run = .waiting then .running else s.run }

theorem pushFlagsAndClean_of_push (h : push s.flags s = .ok () t) : pushFlagsAndClean i s = .ok () (t.cleaned i) := by
  rw [pushFlagsAndClean, M.bind_apply, M.get_apply]
  dsimp only
  rw [M.bind_apply, h]
  rfl

theorem pushFlagsAndClean_of_refused {r : FaultReason} (h : push s.flags s = .error r t) :
    pushFlagsAndClean i s = .error r t := by
  rw [pushFlagsAndClean, M.bind_apply, M.get_apply]
  exact M.bind_of_error _ h

/-- No vector is at 0xFFFF (`60_exceptions.md` R355). -/
theorem vector_ne_sentinel : ∀ i : Fin 6,
    BitVec.ofNat 16 (2 * i.val) ≠ sentinel ∧ BitVec.ofNat 16 (2 * i.val + 1) ≠ sentinel := by decide

/-- THE ENTRY AFTER ITS FIRST TWO PUSHES: one cost charged, the vector read through the cache, pc and the global enable
(`60_exceptions.md` R352). -/
theorem service_of_pushPc (hs : s.CoreInv) (hframe : s.PushFrame b) (hb : s.CoreStep b) (hpush : pushPc s = .ok () b) :
    ∃ lines prog, (∀ x, x ≠ 0xFFFF → cacheView lines prog x = s.progView x) ∧
      service i s = pushFlagsAndClean i
        ((b.vectored (s.vector i)).withClock (s.cycles + s.cfg.cost.irqPushPc) lines prog) := by
  obtain ⟨hhigh, hlow⟩ := vector_ne_sentinel i
  have hcharged : (b.charge b.cfg.cost.irqPushPc).CoreInv := State.CoreStep.stepRel.charge b _ (hb hs)
  obtain ⟨x, hx, hxview, hxrest⟩ := programRead_view hcharged hhigh
  obtain ⟨y, hy, hyview, hyrest⟩ := programRead_view ((programAccess_core _ _ _).1 _ _ hx hcharged) hlow
  have hview : ∀ z, z ≠ 0xFFFF → y.progView z = s.progView z := fun z hz =>
    (hyview z hz).trans ((hxview z hz).trans (hframe.progView z))
  refine ⟨y.lines, y.prog, hview, ?_⟩
  have hvector : ofBytes ((b.charge b.cfg.cost.irqPushPc).progView (BitVec.ofNat 16 (2 * i.val)))
      (x.progView (BitVec.ofNat 16 (2 * i.val + 1))) = s.vector i := by
    rw [hxview _ hlow]
    exact congrArg₂ _ (hframe.progView _) (hframe.progView _)
  have hrest : y = b.withClock (b.cycles + b.cfg.cost.irqPushPc) y.lines y.prog :=
    hyrest.trans (congrArg (fun z : State => { z with lines := y.lines, prog := y.prog }) hxrest)
  rw [hframe.cycles, hframe.cfg] at hrest
  rw [service, M.bind_apply, hpush]
  dsimp only
  rw [M.bind_apply, M.modify_apply]
  dsimp only
  rw [M.bind_apply, hx]
  dsimp only
  rw [M.bind_apply, hy]
  change pushFlagsAndClean i (y.vectored (ofBytes _ _)) = _
  rw [hvector]
  exact congrArg (fun z : State => pushFlagsAndClean i (z.vectored (s.vector i))) hrest

/-- The first two pushes, with what they leave. -/
theorem pushPc_of_pushAt (ha : PushAt s (hiByte s.pc) a) (hb : PushAt a (loByte s.pc) b) :
    pushPc s = .ok () b ∧ s.PushFrame b ∧ s.CoreStep b :=
  ⟨pushPc_of_push (push_of_pushAt ha) (push_of_pushAt hb), (State.PushFrame.of_pushAt ha).trans (.of_pushAt hb),
    State.CoreStep.rel.trans (.of_pushAt ha) (.of_pushAt hb)⟩

/-- An entry whose three pushes are made (`60_exceptions.md` R352). -/
theorem service_of_pushAt (hs : s.CoreInv) (ha : PushAt s (hiByte s.pc) a) (hb : PushAt a (loByte s.pc) b)
    (hc : PushAt (b.vectored (s.vector i)) (b.reg 0xFC) c) :
    ∃ lines prog, (∀ x, x ≠ 0xFFFF → cacheView lines prog x = s.progView x) ∧
      service i s = .ok () ((c.withClock (s.cycles + s.cfg.cost.irqPushPc) lines prog).cleaned i) := by
  obtain ⟨hpush, hframe, hcore⟩ := pushPc_of_pushAt ha hb
  obtain ⟨lines, prog, hview, hservice⟩ := service_of_pushPc (i := i) hs hframe hcore hpush
  have hthird := push_of_pushAt (pushAt_withClock hc (s.cycles + s.cfg.cost.irqPushPc) lines prog)
  have hflags : ((b.vectored (s.vector i)).withClock (s.cycles + s.cfg.cost.irqPushPc) lines prog).flags = b.reg 0xFC :=
    State.reg_setReg_ne { b with pc := s.vector i } _ (by decide)
  exact ⟨lines, prog, hview, hservice.trans (pushFlagsAndClean_of_push (by rwa [hflags]))⟩

/-! ### A refused push (`60_exceptions.md` R355) -/

/-- The next push is on the internal stack, at an address that reaches no slot. -/
def State.RefusesPush (s : State) : Prop := (s.reg 0xF8).getLsbD 2 = true ∧ resolve (s.reg 0xFD) (s.reg 0xFF - 1) = none

theorem push_of_refused (h : s.RefusesPush) (v : Byte) :
    push v s = .error .forbiddenRP (s.setReg 0xFF (s.reg 0xFF - 1)) := push_internal_none v h.1 h.2

theorem service_of_refused_first (h : s.RefusesPush) :
    service i s = .error .forbiddenRP (s.setReg 0xFF (s.reg 0xFF - 1)) := by
  refine M.bind_of_error _ ?_
  rw [pushPc, M.bind_apply, M.get_apply]
  exact M.bind_of_error _ (push_of_refused h _)

theorem service_of_refused_second (ha : PushAt s (hiByte s.pc) a) (h : a.RefusesPush) :
    service i s = .error .forbiddenRP (a.setReg 0xFF (a.reg 0xFF - 1)) := by
  refine M.bind_of_error _ ?_
  rw [pushPc, M.bind_apply, M.get_apply]
  dsimp only
  rw [M.bind_apply, push_of_pushAt ha]
  exact push_of_refused h _

theorem service_of_refused_third (hs : s.CoreInv) (ha : PushAt s (hiByte s.pc) a) (hb : PushAt a (loByte s.pc) b)
    (h : (b.vectored (s.vector i)).RefusesPush) :
    ∃ lines prog, (∀ x, x ≠ 0xFFFF → cacheView lines prog x = s.progView x) ∧
      service i s = .error .forbiddenRP
        (((b.vectored (s.vector i)).setReg 0xFF ((b.vectored (s.vector i)).reg 0xFF - 1)).withClock
          (s.cycles + s.cfg.cost.irqPushPc) lines prog) := by
  obtain ⟨hpush, hframe, hcore⟩ := pushPc_of_pushAt ha hb
  obtain ⟨lines, prog, hview, hservice⟩ := service_of_pushPc (i := i) hs hframe hcore hpush
  have hrefused : ((b.vectored (s.vector i)).withClock (s.cycles + s.cfg.cost.irqPushPc) lines prog).RefusesPush := h
  exact ⟨lines, prog, hview, hservice.trans (pushFlagsAndClean_of_refused (push_of_refused hrefused _))⟩

/-! ### The external stack -/

theorem pushAt_pushedExternal (v : Byte) (hmode : s.internalStack = false) : PushAt s v (s.pushedExternal v) :=
  (if_neg (ne_true_of_eq_false hmode)).mpr rfl

theorem State.reg_pushedExternal_ne (s : State) (v : Byte) {x : Byte} (hx : x ∉ [slotSPH, slotSPL]) :
    (s.pushedExternal v).reg x = s.reg x := by
  simp only [List.mem_cons, List.not_mem_nil, or_false, not_or] at hx
  refine (State.reg_setSp s (s.sp - 1) x).trans ?_
  rw [if_neg hx.2, if_neg hx.1]

theorem State.internalStack_pushedExternal (s : State) (v : Byte) : (s.pushedExternal v).internalStack = s.internalStack :=
  s.internalStack_setSp _

theorem State.reg_vectored_ne (s : State) (x : Word) {r : Byte} (hr : r ≠ slotIMR) : (s.vectored x).reg r = s.reg r :=
  State.reg_setReg_ne { s with pc := x } _ hr

theorem State.reg_vectored_imr (s : State) (x : Word) : (s.vectored x).reg slotIMR = s.reg slotIMR &&& 0x7F#8 :=
  State.reg_setReg_self { s with pc := x } _ _

theorem State.internalStack_vectored (s : State) (x : Word) : (s.vectored x).internalStack = s.internalStack :=
  congrArg (bit · 2) (s.reg_vectored_ne x (by decide))

theorem State.sp_vectored (s : State) (x : Word) : (s.vectored x).sp = s.sp :=
  congrArg₂ ofBytes (s.reg_vectored_ne x (by decide)) (s.reg_vectored_ne x (by decide))

theorem State.reg_cleaned_ne (s : State) (i : Fin 6) {r : Byte} (hr : r ≠ slotIRQ) : (s.cleaned i).reg r = s.reg r :=
  State.reg_setReg_ne s _ hr

theorem State.reg_cleaned_irq (s : State) (i : Fin 6) : (s.cleaned i).reg slotIRQ = s.reg slotIRQ &&& ~~~(1#8 <<< i.val) :=
  State.reg_setReg_self s _ _

theorem State.sp_cleaned (s : State) (i : Fin 6) : (s.cleaned i).sp = s.sp :=
  congrArg₂ ofBytes (s.reg_cleaned_ne i (by decide)) (s.reg_cleaned_ne i (by decide))

/-- The three pushes of an entry on the external stack. -/
def State.entryExternal (s : State) (i : Fin 6) : State :=
  (((s.pushedExternal (hiByte s.pc)).pushedExternal (loByte s.pc)).vectored (s.vector i)).pushedExternal s.flags

theorem State.reg_entryExternal_ne (s : State) (i : Fin 6) {r : Byte} (hr : r ∉ [slotIMR, slotSPH, slotSPL]) :
    (s.entryExternal i).reg r = s.reg r := by
  obtain ⟨himr, hsp⟩ := List.ne_and_not_mem_of_not_mem_cons hr
  rw [State.entryExternal, State.reg_pushedExternal_ne _ _ hsp, State.reg_vectored_ne _ _ himr,
    State.reg_pushedExternal_ne _ _ hsp, State.reg_pushedExternal_ne _ _ hsp]

theorem State.reg_entryExternal_imr (s : State) (i : Fin 6) : (s.entryExternal i).reg slotIMR = s.reg slotIMR &&& 0x7F#8 := by
  rw [State.entryExternal, State.reg_pushedExternal_ne _ _ (by decide), State.reg_vectored_imr,
    State.reg_pushedExternal_ne _ _ (by decide), State.reg_pushedExternal_ne _ _ (by decide)]

theorem State.sp_entryExternal (s : State) (i : Fin 6) : (s.entryExternal i).sp = s.sp - 3 := by
  rw [State.entryExternal, State.sp_pushedExternal, State.sp_vectored, State.sp_pushedExternal, State.sp_pushedExternal]
  bv_omega

theorem State.read_entryExternal (hw : Memory.wf s.data = true) (i : Fin 6) (x : Word) :
    Memory.read (s.entryExternal i).data x =
      if x = s.sp - 1 then hiByte s.pc else if x = s.sp - 2 then loByte s.pc
      else if x = s.sp - 3 then s.flags else Memory.read s.data x := by
  have hsecond : s.sp - 1 - 1 = s.sp - 2 := by bv_omega
  have hthird : s.sp - 2 - 1 = s.sp - 3 := by bv_omega
  have hdata : (s.entryExternal i).data = Memory.write (Memory.write (Memory.write s.data (s.sp - 1) (hiByte s.pc))
      (s.sp - 2) (loByte s.pc)) (s.sp - 3) s.flags := by
    change Memory.write (Memory.write _ (_ - 1) _) (State.sp _ - 1) _ = _
    simp only [State.sp_vectored, State.sp_pushedExternal, hsecond, hthird]
    rfl
  have hw' := Memory.wf_write hw (s.sp - 1) (hiByte s.pc)
  rw [hdata, Memory.read_write (Memory.wf_write hw' _ _), Memory.read_write hw', Memory.read_write hw]
  split
  · next h =>
    subst h
    rw [if_neg (by bv_omega), if_neg (by bv_omega)]
  · split
    · next h =>
      subst h
      rw [if_neg (by bv_omega)]
    · rfl

/-- AN ENTRY ON THE EXTERNAL STACK (`60_exceptions.md` R352). -/
theorem service_external (hs : s.CoreInv) (hmode : s.internalStack = false) :
    ∃ lines prog, service i s =
      .ok () (((s.entryExternal i).withClock (s.cycles + s.cfg.cost.irqPushPc) lines prog).cleaned i) := by
  have hfirst : (s.pushedExternal (hiByte s.pc)).internalStack = false := (s.internalStack_setSp _).trans hmode
  have hsecond : (((s.pushedExternal (hiByte s.pc)).pushedExternal (loByte s.pc)).vectored (s.vector i)).internalStack = false :=
    (State.internalStack_vectored _ _).trans ((State.internalStack_setSp _ _).trans hfirst)
  have hflags : ((s.pushedExternal (hiByte s.pc)).pushedExternal (loByte s.pc)).reg slotFLAGS = s.flags := by
    rw [State.reg_pushedExternal_ne _ _ (by decide), State.reg_pushedExternal_ne _ _ (by decide)]
    rfl
  obtain ⟨lines, prog, -, hservice⟩ := service_of_pushAt (i := i) (c := s.entryExternal i) hs (pushAt_pushedExternal _ hmode)
    (pushAt_pushedExternal _ hfirst) (hflags ▸ pushAt_pushedExternal s.flags hsecond)
  exact ⟨lines, prog, hservice⟩

/-- Settles O54: the entry on three pushes that are made, on the external stack, and with each push refused. -/
theorem interruptEntry : Obligations.InterruptEntry := by
  intro s i hs
  refine ⟨fun a b c ha hb hc => ?_, fun hmode => ?_, service_of_refused_first, fun a ha =>
    ⟨service_of_refused_second ha, fun b hb hrefused => ?_⟩⟩
  · obtain ⟨lines, prog, hview, hservice⟩ := service_of_pushAt (i := i) hs ha hb hc
    have hframe : s.PushFrame b := (State.PushFrame.of_pushAt ha).trans (.of_pushAt hb)
    have hthird := State.PushFrame.of_pushAt hc
    refine ⟨_, hservice, hview, ?_⟩
    have hcfg : c.cfg = s.cfg := hthird.cfg.trans hframe.cfg
    have hpred : c.pred = s.pred := hthird.pred.trans hframe.pred
    have hrun : c.run = s.run := hthird.run.trans hframe.run
    rw [← hcfg, ← hpred, ← hrun]
    rfl
  · obtain ⟨lines, prog, hservice⟩ := service_external (i := i) hs hmode
    refine ⟨_, hservice, rfl, ?_, ?_, fun r hr => ?_,
      (State.sp_cleaned _ i).trans (s.sp_entryExternal i), s.read_entryExternal hs.dataWf i⟩
    · exact (State.reg_cleaned_ne _ i (by decide)).trans (s.reg_entryExternal_imr i)
    · exact (State.reg_cleaned_irq _ i).trans (congrArg (· &&& _) (s.reg_entryExternal_ne i (by decide)))
    · obtain ⟨hirq, hrest⟩ := List.ne_and_not_mem_of_not_mem_cons hr
      exact (State.reg_cleaned_ne _ i hirq).trans (s.reg_entryExternal_ne i hrest)
  · obtain ⟨lines, prog, hview, hservice⟩ := service_of_refused_third hs ha hb hrefused
    exact ⟨_, hservice, hview, rfl⟩

end Sys2Proof.Machine
end

section
/-! SUPPORT. IRET after the entry of an interrupt (`60_exceptions.md` R357, `41_short_forms.md` R175): the pops of IRET, stack by
stack, and what an entry left for them. -/

namespace Sys2Proof.Machine

open Sys2Proof.Statements

variable {s t v : State} {i : Fin 6} {a q q' q'' : Byte}

/-- The mask of the global enable sets bit 7 (`41_short_forms.md` R175). -/
theorem getLsbD_or_globalEnable : ∀ b : Byte, (b ||| 0x80#8).getLsbD 7 = true := by decide

/-- IRET from its pops: what the registers and pc hold afterwards (`41_short_forms.md` R175). -/
theorem exec_iret_of_pop {f : Byte} {x : Word} (hf : pop v = .ok f s) (hx : popPc (s.setReg slotFLAGS f) = .ok x t) :
    ∃ w, exec .iret v = .next w ∧ w.pc = x ∧ (w.reg slotIMR).getLsbD 7 = true ∧ ∀ r, r ≠ slotIMR → w.reg r = t.reg r := by
  refine ⟨_, exec_of_body (returnFromInterrupt_of_pop hf hx), rfl, ?_, fun r hr => State.reg_setReg_ne t _ hr⟩
  exact (congrArg (·.getLsbD 7) (State.reg_setReg_self t _ _)).trans (getLsbD_or_globalEnable _)

/-! ### The external stack -/

/-- IRET on the external stack answers the three bytes at the pointer and moves it up by three. -/
theorem exec_iret_external (hmode : v.internalStack = false) :
    ∃ w, exec .iret v = .next w ∧ w.pc = ofBytes (Memory.read v.data (v.sp + 2)) (Memory.read v.data (v.sp + 1)) ∧
      w.reg slotFLAGS = Memory.read v.data v.sp ∧ w.sp = v.sp + 3 ∧ (w.reg slotIMR).getLsbD 7 = true := by
  have hsp : ((v.setSp (v.sp + 1)).setReg slotFLAGS (Memory.read v.data v.sp)).sp = v.sp + 1 := by
    refine (congrArg₂ ofBytes ?_ ?_).trans (v.sp_setSp (v.sp + 1)) <;> exact State.reg_setReg_ne _ _ (by decide)
  have hmode' : ((v.setSp (v.sp + 1)).setReg slotFLAGS (Memory.read v.data v.sp)).internalStack = false :=
    (congrArg (bit · 2) (State.reg_setReg_ne _ _ (by decide))).trans ((v.internalStack_setSp _).trans hmode)
  have hpop := popPc_external hmode'
  rw [hsp] at hpop
  obtain ⟨w, hexec, hpc, hime, hreg⟩ := exec_iret_of_pop (pop_external hmode) hpop
  refine ⟨w, hexec, hpc.trans ?_, ?_, ?_, hime⟩
  · rw [BitVec.add_assoc]
    rfl
  · rw [hreg _ (by decide), State.reg_setSp, State.reg_setSp, State.reg_setReg_self]
    rfl
  · rw [State.sp, hreg _ (by decide), hreg _ (by decide)]
    refine (State.sp_setSp _ _).trans ?_
    bv_omega

/-- The entry's three bytes, where they stand: FLAGS at the pointer, pc above it. -/
theorem read_entryExternal_sp (hw : Memory.wf s.data = true) (i : Fin 6) :
    Memory.read (s.entryExternal i).data (s.sp - 3) = s.flags ∧
      Memory.read (s.entryExternal i).data (s.sp - 3 + 1) = loByte s.pc ∧
      Memory.read (s.entryExternal i).data (s.sp - 3 + 2) = hiByte s.pc := by
  refine ⟨?_, ?_, ?_⟩ <;> rw [s.read_entryExternal hw]
  · rw [if_neg (by bv_omega), if_neg (by bv_omega), if_pos rfl]
  · rw [if_neg (by bv_omega), if_pos (by bv_omega)]
  · rw [if_pos (by bv_omega)]

/-! ### The internal stack -/

/-- Resolution keeps the low nibble (`10_state.md` R25). -/
theorem loNib_of_resolve {rp b p : Byte} (h : resolve rp b = some p) : loNib p = loNib b := by
  unfold resolve at h
  split at h
  · split at h
    · exact absurd h (by simp)
    · injection h with h
      rw [← h, loNib_ofNibs]
  · injection h with h
    rw [h]

/-- The slots of an entry on the internal stack: FLAGS at address `a`, which reaches `q''`, the return address above it in `q'`
and `q`; all plain slots below the special registers. -/
structure State.EntrySlots (s : State) (a q q' q'' : Byte) : Prop where
  pc : s.StackSlots (a + 1) q q'
  flags : s.StackSlots a q' q''

theorem State.EntrySlots.congr (h : s.EntrySlots a q q' q'') (hcfg : t.cfg = s.cfg) (hmode : t.reg slotP01M = s.reg slotP01M)
    (hrp : t.reg slotRP = s.reg slotRP) : t.EntrySlots a q q' q'' :=
  ⟨h.pc.congr hcfg hmode hrp, h.flags.congr hcfg hmode hrp⟩

/-- No slot is a special register. -/
theorem State.EntrySlots.ne_special (h : s.EntrySlots a q q' q'') {c e : Byte} (hc : c ∈ [q, q', q'']) (he : 0xF8#8 ≤ e) :
    e ≠ c := by
  rcases List.mem_cons.mp hc with rfl | hc
  · exact h.pc.ne_special List.mem_cons_self he
  · exact h.flags.ne_special hc he

/-- The slots two addresses apart differ too. -/
theorem State.EntrySlots.high_ne_flags (h : s.EntrySlots a q q' q'') : q ≠ q'' := by
  have hnib : ∀ a : Byte, loNib (a + 1 + 1) ≠ loNib a := by decide
  rintro rfl
  exact hnib a ((loNib_of_resolve h.pc.high).symm.trans (loNib_of_resolve h.flags.low))

theorem pushAt_pushedInternal {c : Byte} (b : Byte) (hmode : s.internalStack = true) (hspl : s.reg slotSPL = a + 1)
    (hc : Reaches s a c) (hpol : s.policy c = .readWrite) : PushAt s b (s.pushedInternal a c b) := by
  have hdown : s.reg 0xFF - 1 = a := (congrArg (· - 1) hspl).trans (BitVec.add_sub_cancel a 1)
  refine (if_pos hmode).mpr ?_
  rw [hdown]
  exact ⟨c, hc, (State.slotWrite_readWrite (s := s.setReg slotSPL a) b hpol).symm⟩

/-- The three pushes of an entry on the internal stack. -/
def State.entryInternal (s : State) (i : Fin 6) (a q q' q'' : Byte) : State :=
  (((s.pushedInternal (a + 1 + 1) q (hiByte s.pc)).pushedInternal (a + 1) q' (loByte s.pc)).vectored (s.vector i)).pushedInternal
    a q'' s.flags

/-- It changes the three slots, SPL and IMR. -/
theorem State.reg_entryInternal_ne (s : State) (i : Fin 6) {r : Byte} (hr : r ∉ [slotIMR, slotSPL, q, q', q'']) :
    (s.entryInternal i a q q' q'').reg r = s.reg r := by
  simp only [List.mem_cons, List.not_mem_nil, or_false, not_or] at hr
  obtain ⟨himr, hspl, hq, hq', hq''⟩ := hr
  rw [State.entryInternal, State.reg_pushedInternal_ne _ _ hspl hq'', State.reg_vectored_ne _ _ himr,
    State.reg_pushedInternal_ne _ _ hspl hq', State.reg_pushedInternal_ne _ _ hspl hq]

/-- A special register other than IMR and SPL is as before. -/
theorem State.EntrySlots.reg_entryInternal_special (h : s.EntrySlots a q q' q'') (i : Fin 6) {r : Byte} (hr : 0xF8#8 ≤ r)
    (himr : r ≠ slotIMR) (hspl : r ≠ slotSPL) : (s.entryInternal i a q q' q'').reg r = s.reg r := by
  refine s.reg_entryInternal_ne i fun hmem => ?_
  rcases List.mem_cons.mp hmem with rfl | hmem
  · exact himr rfl
  · rcases List.mem_cons.mp hmem with rfl | hmem
    · exact hspl rfl
    · exact h.ne_special hmem hr rfl

theorem State.EntrySlots.reg_entryInternal_spl (h : s.EntrySlots a q q' q'') (i : Fin 6) :
    (s.entryInternal i a q q' q'').reg slotSPL = a :=
  State.reg_pushedInternal_spl _ _ (h.ne_special (by simp) (by decide))

/-- pc and FLAGS as they were are in the three slots. -/
theorem State.EntrySlots.reg_entryInternal_slots (h : s.EntrySlots a q q' q'') (i : Fin 6) :
    (s.entryInternal i a q q' q'').reg q = hiByte s.pc ∧ (s.entryInternal i a q q' q'').reg q' = loByte s.pc ∧
      (s.entryInternal i a q q' q'').reg q'' = s.flags := by
  have hspecial : ∀ e : Byte, 0xF8#8 ≤ e → q ≠ e ∧ q' ≠ e := fun e he =>
    ⟨(h.ne_special (by simp) he).symm, (h.ne_special (by simp) he).symm⟩
  obtain ⟨hspl, hspl'⟩ := hspecial slotSPL (by decide)
  obtain ⟨himr, himr'⟩ := hspecial slotIMR (by decide)
  refine ⟨?_, ?_, State.reg_pushedInternal_self _ _ _⟩
  · rw [State.entryInternal, State.reg_pushedInternal_ne _ _ hspl h.high_ne_flags, State.reg_vectored_ne _ _ himr,
      State.reg_pushedInternal_ne _ _ hspl h.pc.slots_ne, State.reg_pushedInternal_self]
  · rw [State.entryInternal, State.reg_pushedInternal_ne _ _ hspl' h.flags.slots_ne, State.reg_vectored_ne _ _ himr',
      State.reg_pushedInternal_self]

/-- A push to one of the slots leaves what the stack uses. -/
theorem State.EntrySlots.pushedInternal (h : s.EntrySlots a q q' q'') {c : Byte} (hc : c ∈ [q, q', q'']) (e b : Byte) :
    (s.pushedInternal e c b).EntrySlots a q q' q'' :=
  h.congr rfl (s.reg_pushedInternal_ne b (by decide) (h.ne_special hc (by decide)))
    (s.reg_pushedInternal_ne b (by decide) (h.ne_special hc (by decide)))

theorem State.EntrySlots.vectored (h : s.EntrySlots a q q' q'') (x : Word) : (s.vectored x).EntrySlots a q q' q'' :=
  h.congr rfl (s.reg_vectored_ne x (by decide)) (s.reg_vectored_ne x (by decide))

/-- AN ENTRY ON THE INTERNAL STACK (`60_exceptions.md` R352), into plain slots. -/
theorem service_internal (hs : s.CoreInv) (h : s.EntrySlots a q q' q'') (hspl : s.reg slotSPL = a + 1 + 1 + 1) :
    ∃ lines prog, service i s =
      .ok () (((s.entryInternal i a q q' q'').withClock (s.cycles + s.cfg.cost.irqPushPc) lines prog).cleaned i) := by
  have hfirst := h.pushedInternal (c := q) (by simp) (a + 1 + 1) (hiByte s.pc)
  have hsecond := hfirst.pushedInternal (c := q') (by simp) (a + 1) (loByte s.pc)
  have hthird := hsecond.vectored (s.vector i)
  have hflags : ((s.pushedInternal (a + 1 + 1) q (hiByte s.pc)).pushedInternal (a + 1) q' (loByte s.pc)).reg slotFLAGS =
      s.flags := by
    rw [State.reg_pushedInternal_ne _ _ (by decide) (h.ne_special (by simp) (by decide)),
      State.reg_pushedInternal_ne _ _ (by decide) (h.ne_special (by simp) (by decide))]
    rfl
  have hspl' := s.reg_pushedInternal_spl (a := a + 1 + 1) (hiByte s.pc) (h.ne_special (c := q) (by simp) (by decide))
  have hspl'' := (s.pushedInternal (a + 1 + 1) q (hiByte s.pc)).reg_pushedInternal_spl (a := a + 1) (loByte s.pc)
    (h.ne_special (c := q') (by simp) (by decide))
  have hsplVectored := (State.reg_vectored_ne _ (s.vector i) (by decide)).trans hspl''
  obtain ⟨lines, prog, -, hservice⟩ := service_of_pushAt (i := i) (c := s.entryInternal i a q q' q'') hs
    (pushAt_pushedInternal _ h.pc.mode hspl h.pc.high (h.pc.plain q (by simp)).2)
    (pushAt_pushedInternal _ hfirst.pc.mode hspl' hfirst.pc.low (hfirst.pc.plain q' (by simp)).2)
    (hflags ▸ pushAt_pushedInternal s.flags hthird.flags.mode hsplVectored hthird.flags.low (hthird.flags.plain q'' (by simp)).2)
  exact ⟨lines, prog, hservice⟩

/-- IRET on the internal stack answers the three slots and moves SPL up by three. -/
theorem exec_iret_internal (h : v.EntrySlots a q q' q'') (hspl : v.reg slotSPL = a) :
    ∃ w, exec .iret v = .next w ∧ w.pc = ofBytes (v.reg q) (v.reg q') ∧ w.reg slotFLAGS = v.reg q'' ∧
      w.reg slotSPL = a + 1 + 1 + 1 ∧ (w.reg slotIMR).getLsbD 7 = true := by
  have hreg : ∀ r, r ≠ slotSPL → r ≠ slotFLAGS →
      ((v.setReg slotSPL (a + 1)).setReg slotFLAGS (v.reg q'')).reg r = v.reg r := fun r hr hr' =>
    (State.reg_setReg_ne _ _ hr').trans (State.reg_setReg_ne _ _ hr)
  have hslots := h.congr (t := (v.setReg slotSPL (a + 1)).setReg slotFLAGS (v.reg q'')) rfl
    (hreg _ (by decide) (by decide)) (hreg _ (by decide) (by decide))
  have hplain : ∀ c ∈ [q, q', q''],
      ((v.setReg slotSPL (a + 1)).setReg slotFLAGS (v.reg q'')).reg c = v.reg c := fun c hc =>
    hreg c (h.ne_special hc (by decide)).symm (h.ne_special hc (by decide)).symm
  have hpop := popPc_internal hslots.pc ((State.reg_setReg_ne _ _ (by decide)).trans (State.reg_setReg_self _ _ _))
  rw [hplain q (by simp), hplain q' (by simp)] at hpop
  have hfirst := pop_internal_plain h.flags.mode hspl h.flags.low (h.flags.plain q'' (by simp)).2
  obtain ⟨w, hexec, hpc, hime, hwreg⟩ := exec_iret_of_pop hfirst hpop
  refine ⟨w, hexec, hpc, ?_, ?_, hime⟩
  · rw [hwreg _ (by decide), State.reg_setReg_ne _ _ (by decide), State.reg_setReg_ne _ _ (by decide), State.reg_setReg_self]
  · rw [hwreg _ (by decide), State.reg_setReg_self]

/-! ### The entry, then IRET -/

/-- The three bytes of the entry on the external stack give pc, FLAGS and the pointer back. -/
theorem exec_iret_of_entryExternal (hw : Memory.wf s.data = true) (hmode : v.internalStack = false) (hsp : v.sp = s.sp - 3)
    (hbytes : ∀ k : Word, k < 3 →
      Memory.read v.data (s.sp - 3 + k) = Memory.read (s.entryExternal i).data (s.sp - 3 + k)) :
    ∃ w, exec .iret v = .next w ∧ w.pc = s.pc ∧ w.reg slotFLAGS = s.flags ∧ w.sp = s.sp ∧
      (w.reg slotIMR).getLsbD 7 = true := by
  obtain ⟨hflags, hlow, hhigh⟩ := read_entryExternal_sp hw i
  obtain ⟨w, hexec, hpc, hwflags, hwsp, hime⟩ := exec_iret_external hmode
  have hbyte : Memory.read v.data (s.sp - 3) = Memory.read (s.entryExternal i).data (s.sp - 3) := by
    simpa using hbytes 0 (by decide)
  rw [hsp] at hpc hwflags hwsp
  rw [hbytes 2 (by decide), hbytes 1 (by decide), hhigh, hlow, ofBytes_hiByte_loByte] at hpc
  exact ⟨w, hexec, hpc, hwflags.trans (hbyte.trans hflags), hwsp.trans (BitVec.sub_add_cancel s.sp 3), hime⟩

/-- The three slots of the entry on the internal stack give pc, FLAGS and SPL back. -/
theorem exec_iret_of_entryInternal (h : s.EntrySlots a q q' q'') (hcfg : v.cfg = s.cfg)
    (hreg : ∀ r ∈ [slotP01M, slotRP, slotSPL, q, q', q''], v.reg r = (s.entryInternal i a q q' q'').reg r) :
    ∃ w, exec .iret v = .next w ∧ w.pc = s.pc ∧ w.reg slotFLAGS = s.flags ∧ w.reg slotSPL = a + 1 + 1 + 1 ∧
      (w.reg slotIMR).getLsbD 7 = true := by
  have hslots := h.congr hcfg
    ((hreg slotP01M (by simp)).trans (h.reg_entryInternal_special i (by decide) (by decide) (by decide)))
    ((hreg slotRP (by simp)).trans (h.reg_entryInternal_special i (by decide) (by decide) (by decide)))
  obtain ⟨hhigh, hlow, hflags⟩ := h.reg_entryInternal_slots i
  obtain ⟨w, hexec, hpc, hwflags, hwspl, hime⟩ :=
    exec_iret_internal hslots ((hreg slotSPL (by simp)).trans (h.reg_entryInternal_spl i))
  rw [hreg q (by simp), hreg q' (by simp), hhigh, hlow, ofBytes_hiByte_loByte] at hpc
  exact ⟨w, hexec, hpc, hwflags.trans ((hreg q'' (by simp)).trans hflags), hwspl, hime⟩

theorem service_ok_unique (h : service i s = .ok () t) (h' : service i s = .ok () v) : t = v := by
  rw [h] at h'
  injection h'

/-- Settles O55: the three pops of IRET answer what the three pushes of the entry left, stack by stack. -/
theorem interruptReturn : Obligations.InterruptReturn := by
  intro s t v i hs hservice
  refine ⟨fun hmode hvmode hvsph hvspl hdata => ?_, fun q q' q'' hmode hq hq' hq'' hplain hcfg hregs => ?_⟩
  · obtain ⟨lines, prog, hentry⟩ := service_external (i := i) hs hmode
    obtain rfl := service_ok_unique hentry hservice
    have htsp : State.sp (State.cleaned _ i) = s.sp - 3 := (State.sp_cleaned _ i).trans (s.sp_entryExternal i)
    obtain ⟨w, hexec, hpc, hflags, hsp, hime⟩ := exec_iret_of_entryExternal (i := i) hs.dataWf hvmode
      ((congrArg₂ ofBytes hvsph hvspl).trans htsp) fun k hk => htsp ▸ hdata k hk
    obtain ⟨hsph, hspl⟩ := reg_of_sp_eq hsp
    exact ⟨w, hexec, hpc, hflags, hsph, hspl, hime⟩
  · have hup : s.reg 0xFF - 3 + 1 = s.reg 0xFF - 2 := by bv_omega
    have hup' : s.reg 0xFF - 3 + 1 + 1 = s.reg 0xFF - 1 := by bv_omega
    have hup'' : s.reg 0xFF - 3 + 1 + 1 + 1 = s.reg 0xFF := by bv_omega
    have hslots : s.EntrySlots (s.reg 0xFF - 3) q q' q'' :=
      ⟨⟨hmode, hup'.symm ▸ hq, hup.symm ▸ hq', fun c hc => hplain c (List.mem_append_left [q''] hc)⟩,
        ⟨hmode, hup.symm ▸ hq', hq'', fun c hc => hplain c (List.mem_cons_of_mem _ hc)⟩⟩
    obtain ⟨lines, prog, hentry⟩ := service_internal (i := i) hs hslots hup''.symm
    obtain rfl := service_ok_unique hentry hservice
    have hirq : slotIRQ ∉ [slotP01M, slotRP, slotSPL, q, q', q''] := fun hmem =>
      hslots.ne_special (e := slotIRQ) (by simpa [slotIRQ, slotP01M, slotRP, slotSPL] using hmem) (by decide) rfl
    obtain ⟨w, hexec, hpc, hflags, hspl, hime⟩ := exec_iret_of_entryInternal (i := i) hslots hcfg fun r hr =>
      (hregs r hr).trans (State.reg_cleaned_ne _ i (ne_of_mem_of_not_mem hr hirq))
    exact ⟨w, hexec, hpc, hflags, hspl.trans hup'', hime⟩

end Sys2Proof.Machine
end

section
/-! SUPPORT. What the cost table reaches (`70_reset_and_hazards.md` R419): two runs from states that differ in costs and clock
alone, side by side. The relation is equality once costs, clock and last tick are erased; a computation is blind to costs when
it answers the same from two such states. -/

namespace Sys2Proof.Machine

open Sys2Proof.Statements

variable {α β : Type}

/-! ### Erasing the costs and the clock -/

/-- The state with the reference costs and the clock at 0: what is left to compare when costs are open. -/
def State.untimed (s : State) : State :=
  { s with cfg := { s.cfg with cost := CostTable.reference }, cycles := 0, lastTick := 0 }

theorem sameButCosts_iff {s t : State} : SameButCosts s t ↔ s.untimed = t.untimed := by
  refine ⟨fun h => (congrArg State.untimed h).symm, fun h => ?_⟩
  exact congrArg (fun u : State =>
    { u with cfg := { u.cfg with cost := t.cfg.cost }, cycles := t.cycles, lastTick := t.lastTick }) h.symm

/-- A result with its state untimed. -/
def untimedResult (r : EStateM.Result FaultReason State α) : EStateM.Result FaultReason State α :=
  match r with
  | .ok a s => .ok a s.untimed
  | .error e s => .error e s.untimed

/-- Two results that agree untimed are two values or two faults. -/
theorem untimedResult_cases {x y : EStateM.Result FaultReason State α} (h : untimedResult x = untimedResult y) :
    (∃ a u v, x = .ok a u ∧ y = .ok a v ∧ u.untimed = v.untimed) ∨
      ∃ r u v, x = .error r u ∧ y = .error r v ∧ u.untimed = v.untimed := by
  cases x <;> cases y <;> simp_all [untimedResult]

/-- An outcome with its state untimed. -/
def untimedOut (o : Out) : Out :=
  match o with
  | .next s => .next s.untimed
  | .fault f => .fault f
  | .refused f => .refused f

theorem untimedOut_next {o : Out} {s : State} (h : untimedOut (.next s) = untimedOut o) :
    ∃ t, o = .next t ∧ s.untimed = t.untimed := by
  cases o with
  | next t => exact ⟨t, rfl, Host.Outcome.next.inj h⟩
  | fault | refused => cases h

theorem untimedOut_fault {o : Out} {f : Fault} (h : untimedOut (.fault f) = untimedOut o) : o = .fault f := by
  cases o with
  | fault g => exact h.symm
  | next | refused => cases h

/-- From two states that differ in costs and clock alone, the computation answers the same value or the same fault, in states
that again differ in nothing else. -/
def M.CostBlind (m : M α) : Prop := ∀ s t, s.untimed = t.untimed → untimedResult (m s) = untimedResult (m t)

/-! ### How cost-blind computations compose -/

/-- It is enough to compare each state with its own untimed one. -/
theorem M.CostBlind.of_untimed {m : M α} (h : ∀ s : State, untimedResult (m s.untimed) = untimedResult (m s)) :
    M.CostBlind m := fun s t hst => (h s).symm.trans (hst ▸ h t)

theorem M.CostBlind.pure (a : α) : M.CostBlind (Pure.pure a : M α) := .of_untimed fun _ => rfl

theorem M.CostBlind.throw (r : FaultReason) : M.CostBlind (MonadExcept.throw r : M α) := .of_untimed fun _ => rfl

theorem M.CostBlind.modify {f : State → State} (h : ∀ s : State, (f s.untimed).untimed = (f s).untimed) :
    M.CostBlind (modify f : M PUnit) := .of_untimed fun s => by
  simp only [M.modify_apply, untimedResult, h]

/-- A sequence at two states: its parts need to agree only where the run gets to. -/
theorem untimedResult_bind {x : M α} {f : α → M β} {s t : State} (hx : untimedResult (x s) = untimedResult (x t))
    (hf : ∀ a u v, x s = .ok a u → u.untimed = v.untimed → untimedResult (f a u) = untimedResult (f a v)) :
    untimedResult ((x >>= f) s) = untimedResult ((x >>= f) t) := by
  rw [M.bind_apply, M.bind_apply]
  obtain ⟨a, u, v, hs, ht, huv⟩ | ⟨r, u, v, hs, ht, huv⟩ := untimedResult_cases hx
  · rw [hs, ht]
    exact hf a u v hs huv
  · rw [hs, ht]
    exact congrArg (EStateM.Result.error r) huv

theorem M.CostBlind.bind {x : M α} {f : α → M β} (hx : M.CostBlind x) (hf : ∀ a, M.CostBlind (f a)) :
    M.CostBlind (x >>= f) := fun s t hst => untimedResult_bind (hx s t hst) fun a u v _ => hf a u v

/-- What a computation reads of the whole state must not be costs or clock. -/
theorem M.CostBlind.get_bind {f : State → M β} (hread : ∀ s : State, f s.untimed = f s) (hf : ∀ s, M.CostBlind (f s)) :
    M.CostBlind (Bind.bind (MonadState.get : M State) f) := by
  intro s t hst
  have hsame : f s = f t := (hread s).symm.trans (hst ▸ hread t)
  simpa [hsame] using hf t s t hst

theorem M.CostBlind.ite {c : Prop} [Decidable c] {x y : M α} (hx : M.CostBlind x) (hy : M.CostBlind y) :
    M.CostBlind (if c then x else y) := by
  split
  · exact hx
  · exact hy

/-- An optional action before the rest, in the shape a `do` block gives it. -/
theorem M.CostBlind.ite_bind {c : Prop} [Decidable c] {x : M PUnit} {rest : PUnit → M β} (hx : M.CostBlind x)
    (hrest : ∀ u, M.CostBlind (rest u)) : M.CostBlind (if c then x >>= rest else rest ⟨⟩) :=
  .ite (.bind hx hrest) (hrest _)

/-! ### Registers and memory -/

theorem State.untimed_slotRead (s : State) (p : Byte) :
    (s.untimed.slotRead p).1 = (s.slotRead p).1 ∧ (s.untimed.slotRead p).2.untimed = (s.slotRead p).2.untimed := by
  have hpolicy : s.untimed.policy p = s.policy p := rfl
  unfold State.slotRead
  rw [hpolicy]
  cases s.policy p
  case deviceBacked i =>
    have hdev : s.untimed.dev[i]? = s.dev[i]? := rfl
    simp only [State.deviceAccess, hdev]
    cases s.dev[i]? <;> exact ⟨rfl, rfl⟩
  all_goals exact ⟨rfl, rfl⟩

theorem regRead_costBlind (a : Byte) : M.CostBlind (regRead a) := .of_untimed fun s => by
  have hrp : s.untimed.reg slotRP = s.reg slotRP := rfl
  rw [regRead_eq, regRead_eq, hrp]
  cases resolve (s.reg slotRP) a with
  | none => rfl
  | some p => exact congrArg₂ EStateM.Result.ok (s.untimed_slotRead p).1 (s.untimed_slotRead p).2

theorem State.untimed_slotWrite (s : State) (p v : Byte) : (s.untimed.slotWrite p v).untimed = (s.slotWrite p v).untimed := by
  have hpolicy : s.untimed.policy p = s.policy p := rfl
  unfold State.slotWrite
  rw [hpolicy]
  cases s.policy p
  case deviceBacked i =>
    have hdev : (s.untimed.setReg p v).dev[i]? = (s.setReg p v).dev[i]? := rfl
    simp only [State.deviceAccess, hdev]
    cases (s.setReg p v).dev[i]? <;> rfl
  all_goals rfl

theorem regWrite_costBlind (a v : Byte) : M.CostBlind (regWrite a v) := .of_untimed fun s => by
  have hrp : s.untimed.reg slotRP = s.reg slotRP := rfl
  rw [regWrite_eq, regWrite_eq, hrp]
  cases resolve (s.reg slotRP) a with
  | none => rfl
  | some p => exact congrArg (EStateM.Result.ok ()) (s.untimed_slotWrite p v)

theorem pairRead_costBlind (a : Byte) : M.CostBlind (pairRead a) := by
  unfold pairRead
  exact .ite_bind (.throw _) fun _ => .bind (regRead_costBlind _) fun _ => .bind (regRead_costBlind _) fun _ => .pure _

theorem pairWrite_costBlind (a : Byte) (w : Word) : M.CostBlind (pairWrite a w) :=
  .ite_bind (.throw _) fun _ => .bind (regWrite_costBlind _ _) fun _ => regWrite_costBlind _ _

theorem updateFlags_costBlind (u : FlagBits) : M.CostBlind (modify fun t => t.updateFlags u : M PUnit) := .modify fun _ => rfl

/-- The cost of a condition code reaches the clock alone (`40_cycle_and_alu.md` R151). -/
theorem condition_costBlind (cc : CC) : M.CostBlind (condition cc) := .of_untimed fun _ => rfl

/-- The cache controller reads no cost (`20_memory.md` R65 to R67). -/
theorem programAccess_costBlind (a : Word) (op : CacheOp) : M.CostBlind (programAccess a op) := .of_untimed fun s => by
  unfold programAccess
  split <;> rfl

theorem programWrite_costBlind (a : Word) (v : Byte) : M.CostBlind (programWrite a v) :=
  .bind (programAccess_costBlind a _) fun _ => .pure _

theorem dataRead_costBlind (a : Word) : M.CostBlind (dataRead a) := .of_untimed fun _ => rfl

theorem dataWrite_costBlind (a : Word) (v : Byte) : M.CostBlind (dataWrite a v) := .of_untimed fun _ => rfl

/-! ### The stack -/

theorem push_costBlind (v : Byte) : M.CostBlind (push v) := .of_untimed fun s => by
  have hmode : s.untimed.internalStack = s.internalStack := rfl
  unfold push
  simp only [M.bind_apply, M.get_apply, hmode]
  cases s.internalStack with
  | true => exact regWrite_costBlind (s.reg slotSPL - 1) v _ _ rfl
  | false => rfl

theorem pop_costBlind : M.CostBlind pop :=
  .get_bind (fun _ => rfl) fun _ => .ite
    (.bind (regRead_costBlind _) fun _ => .bind (.modify fun _ => rfl) fun _ => .pure _)
    (.bind (dataRead_costBlind _) fun _ => .bind (.modify fun _ => rfl) fun _ => .pure _)

theorem pushPc_costBlind : M.CostBlind pushPc :=
  .get_bind (fun _ => rfl) fun _ => .bind (push_costBlind _) fun _ => push_costBlind _

theorem popPc_costBlind : M.CostBlind popPc := .bind pop_costBlind fun _ => .bind pop_costBlind fun _ => .pure _

/-! ### The shapes of the instructions -/

theorem chargeMode_costBlind (k : Fin 6) : M.CostBlind (chargeMode k) := .modify fun _ => rfl

theorem regReadIndirect_costBlind (a : Byte) : M.CostBlind (regReadIndirect a) :=
  .bind (regRead_costBlind a) fun _ => regRead_costBlind _

theorem fetchOperands_costBlind (o : TwoOperands) : M.CostBlind (fetchOperands o) := by
  refine .bind (chargeMode_costBlind _) fun _ => ?_
  cases o with
  | ww | rr | irim => exact .bind (regRead_costBlind _) fun _ => .pure _
  | wiw | rir => exact .bind (regReadIndirect_costBlind _) fun _ => .pure _
  | rim => exact .pure _

theorem fetchSingle_costBlind (o : OneOperand) : M.CostBlind (fetchSingle o) := by
  cases o with
  | direct => exact .pure _
  | indirect => exact regRead_costBlind _

theorem aluInstruction_costBlind (op : AluOp) (o : TwoOperands) : M.CostBlind (aluInstruction op o) :=
  .bind (fetchOperands_costBlind o) fun _ => .bind (regRead_costBlind _) fun _ => .get_bind (fun _ => rfl) fun _ =>
    .ite_bind (regWrite_costBlind _ _) fun _ => updateFlags_costBlind _

theorem loadInstruction_costBlind (o : TwoOperands) : M.CostBlind (loadInstruction o) :=
  .bind (fetchOperands_costBlind o) fun _ => regWrite_costBlind _ _

theorem storeIndirect_costBlind (k : Fin 6) (ptr src : Byte) : M.CostBlind (storeIndirect k ptr src) :=
  .bind (chargeMode_costBlind k) fun _ => .bind (regRead_costBlind _) fun _ => .bind (regRead_costBlind _) fun _ =>
    regWrite_costBlind _ _

theorem modifyRegister_costBlind (f : Byte → Byte → Byte × FlagBits) (p : Byte) : M.CostBlind (modifyRegister f p) :=
  .bind (regRead_costBlind p) fun _ => .get_bind (fun _ => rfl) fun _ => .bind (regWrite_costBlind _ _) fun _ =>
    updateFlags_costBlind _

theorem singleInstruction_costBlind (f : Byte → Byte → Byte × FlagBits) (o : OneOperand) :
    M.CostBlind (singleInstruction f o) :=
  .bind (fetchSingle_costBlind o) fun _ => modifyRegister_costBlind f _

theorem wordInstruction_costBlind (f : Word → Word) (flags : Word → FlagBits) (o : OneOperand) :
    M.CostBlind (wordInstruction f flags o) :=
  .bind (fetchSingle_costBlind o) fun _ => .bind (pairRead_costBlind _) fun _ => .bind (pairWrite_costBlind _ _) fun _ =>
    updateFlags_costBlind _

theorem pushInstruction_costBlind (o : OneOperand) : M.CostBlind (pushInstruction o) :=
  .bind (fetchSingle_costBlind o) fun _ => .bind (regRead_costBlind _) fun _ => push_costBlind _

theorem popInstruction_costBlind (o : OneOperand) : M.CostBlind (popInstruction o) :=
  .bind (fetchSingle_costBlind o) fun _ => .bind pop_costBlind fun _ => regWrite_costBlind _ _

theorem clearInstruction_costBlind (o : OneOperand) : M.CostBlind (clearInstruction o) :=
  .bind (fetchSingle_costBlind o) fun _ => regWrite_costBlind _ _

theorem moveRegister_costBlind (dst src : Byte) : M.CostBlind (moveRegister dst src) :=
  .bind (regRead_costBlind src) fun _ => regWrite_costBlind _ _

theorem advancePointers_costBlind (d p : Nib) (r : Byte) (a : Word) : M.CostBlind (advancePointers d p r a) :=
  .bind (regWrite_costBlind _ _) fun _ => pairWrite_costBlind _ _

theorem memoryLoad_costBlind {read : Word → M Byte} (hread : ∀ a, M.CostBlind (read a)) (d p : Nib) :
    M.CostBlind (memoryLoad read d p) :=
  .bind (pairRead_costBlind _) fun _ => .bind (hread _) fun _ => regWrite_costBlind _ _

theorem memoryStore_costBlind {write : Word → Byte → M Unit} (hwrite : ∀ a v, M.CostBlind (write a v)) (d p : Nib) :
    M.CostBlind (memoryStore write d p) :=
  .bind (regRead_costBlind _) fun _ => .bind (pairRead_costBlind _) fun _ => hwrite _ _

theorem memoryLoadIncrement_costBlind {read : Word → M Byte} (hread : ∀ a, M.CostBlind (read a)) (d p : Nib) :
    M.CostBlind (memoryLoadIncrement read d p) :=
  .bind (pairRead_costBlind _) fun _ => .bind (regRead_costBlind _) fun _ => .bind (hread _) fun _ =>
    .bind (regWrite_costBlind _ _) fun _ => advancePointers_costBlind _ _ _ _

theorem memoryStoreIncrement_costBlind {write : Word → Byte → M Unit} (hwrite : ∀ a v, M.CostBlind (write a v)) (d p : Nib) :
    M.CostBlind (memoryStoreIncrement write d p) :=
  .bind (regRead_costBlind _) fun _ => .bind (regRead_costBlind _) fun _ => .bind (pairRead_costBlind _) fun _ =>
    .bind (hwrite _ _) fun _ => advancePointers_costBlind _ _ _ _

theorem jumpIf_costBlind (c : Prop) [Decidable c] {f : State → Word} (hf : ∀ s : State, f s.untimed = f s) :
    M.CostBlind (if c then modify fun t => t.jump (f t) else pure () : M PUnit) :=
  .ite (.modify fun s => congrArg (fun w => (s.jump w).untimed) (hf s)) (.pure _)

theorem callTo_costBlind (t : Word) : M.CostBlind (callTo t) := .bind pushPc_costBlind fun _ => .modify fun _ => rfl

theorem returnFromInterrupt_costBlind : M.CostBlind returnFromInterrupt :=
  .bind pop_costBlind fun _ => .bind (.modify fun _ => rfl) fun _ => .bind popPc_costBlind fun _ =>
    .bind (.modify fun _ => rfl) fun _ => .modify fun _ => rfl

/-- NO INSTRUCTION SEES THE COSTS: each is made of operations that charge the clock and never read it. -/
theorem body_costBlind (i : Instr) : M.CostBlind (body i) := by
  cases i <;> simp only [body]
  case jpIRR => exact .bind (pairRead_costBlind _) fun _ => .modify fun _ => rfl
  case callIRR => exact .bind (pairRead_costBlind _) fun _ => callTo_costBlind _
  case callDA => exact callTo_costBlind _
  case djnz =>
    exact .bind (regRead_costBlind _) fun _ => .bind (regWrite_costBlind _ _) fun _ => jumpIf_costBlind _ fun _ => rfl
  case jr | jp => exact .bind (condition_costBlind _) fun _ => jumpIf_costBlind _ fun _ => rfl
  case ret => exact .bind popPc_costBlind fun _ => .modify fun _ => rfl
  case iret => exact returnFromInterrupt_costBlind
  case ifPred => exact .bind (condition_costBlind _) fun _ => .modify fun _ => rfl
  case stop | halt | srp | di | ei | rcf | scf | ccf => exact .modify fun _ => rfl
  case nop => exact .pure _
  case ldeLoad => exact memoryLoad_costBlind dataRead_costBlind _ _
  case ldeStore => exact memoryStore_costBlind dataWrite_costBlind _ _
  case ldeiLoad => exact memoryLoadIncrement_costBlind dataRead_costBlind _ _
  case ldeiStore => exact memoryStoreIncrement_costBlind dataWrite_costBlind _ _
  case ldcLoad => exact memoryLoad_costBlind (programAccess_costBlind · .read) _ _
  case ldcStore => exact memoryStore_costBlind programWrite_costBlind _ _
  case ldciLoad => exact memoryLoadIncrement_costBlind (programAccess_costBlind · .read) _ _
  case ldciStore => exact memoryStoreIncrement_costBlind programWrite_costBlind _ _
  case ldWX | ldXW =>
    exact .bind (regRead_costBlind _) fun _ => .bind (regRead_costBlind _) fun _ => regWrite_costBlind _ _
  case ldWR | ldRW => exact moveRegister_costBlind _ _
  case ldWIM => exact regWrite_costBlind _ _
  case incW => exact modifyRegister_costBlind _ _
  case pushR | pushIR => exact pushInstruction_costBlind _
  case popR | popIR => exact popInstruction_costBlind _
  case decwRR | decwIR | incwRR | incwIR => exact wordInstruction_costBlind _ _ _
  case clrR | clrIR => exact clearInstruction_costBlind _
  case ldWIW | ldRR | ldRIR | ldRIM | ldIRIM => exact loadInstruction_costBlind _
  case ldIWW | ldIRR => exact storeIndirect_costBlind _ _ _
  case decR | decIR | rlcR | rlcIR | incR | incIR | daR | daIR | comR | comIR | rlR | rlIR | rrcR | rrcIR | sraR | sraIR |
      rrR | rrIR | swapR | swapIR => exact singleInstruction_costBlind _ _
  all_goals exact aluInstruction_costBlind _ _

/-! ### The phases around an instruction -/

theorem fetch_costBlind : M.CostBlind fetch :=
  .get_bind (fun _ => rfl) fun _ => .bind (programAccess_costBlind _ .read) fun _ => .bind (.modify fun _ => rfl) fun _ =>
    .pure _

theorem fetchMany_costBlind (n : Nat) : M.CostBlind (fetchMany n) := by
  induction n with
  | zero => exact .pure _
  | succ n ih => exact .bind fetch_costBlind fun _ => .bind ih fun _ => .pure _

/-- The mode constant a faulting operand fetch leaves charged reaches the clock alone (`40_cycle_and_alu.md` R137). -/
theorem fetchOperandBytes_costBlind (b0 : Byte) (n : Nat) : M.CostBlind (fetchOperandBytes b0 n) := by
  have hcharge : ∀ u : State, untimedResult (fetchOperandBytes b0 n u) = untimedResult (fetchMany n u) := fun u => by
    unfold fetchOperandBytes
    cases fetchMany n u <;> rfl
  intro s t hst
  exact (hcharge s).trans ((fetchMany_costBlind n s t hst).trans (hcharge t).symm)

theorem fetchInstr_costBlind : M.CostBlind fetchInstr := by
  refine .bind fetch_costBlind fun b0 => ?_
  split
  · exact .throw _
  · refine .bind (.modify fun _ => rfl) fun _ => .bind (fetchOperandBytes_costBlind _ _) fun rest => ?_
    split
    · exact .pure _
    · exact .throw _

theorem skipOne_costBlind : M.CostBlind skipOne := by
  refine .bind fetch_costBlind fun b => ?_
  split
  · exact .throw _
  · exact .modify fun _ => rfl

theorem skipPart_costBlind {count : State → State} (hc : ∀ s : State, (count s.untimed).untimed = (count s).untimed) (n : Nat) :
    M.CostBlind (skipPart count n) := by
  refine .bind ?_ fun _ => .modify fun _ => rfl
  induction n with
  | zero => exact .pure _
  | succ n ih => exact .bind skipOne_costBlind fun _ => .bind (.modify hc) fun _ => ih

theorem predBookkeeping_costBlind (wasIf : Bool) : M.CostBlind (predBookkeeping wasIf) := by
  have hdue : M.CostBlind (do
      let s ← get
      if s.pred.tcnt = 0 ∧ s.pred.fcnt ≠ 0 then skipPart State.countFalse s.pred.fcnt.toNat : M Unit) :=
    .get_bind (fun _ => rfl) fun _ => .ite (skipPart_costBlind (fun _ => rfl) _) (.pure _)
  exact .get_bind (fun _ => rfl) fun _ => .ite
    (.ite_bind (.modify fun _ => rfl) fun _ => hdue)
    (.ite (skipPart_costBlind (fun _ => rfl) _) (.ite (.modify fun _ => rfl) (.pure _)))

theorem service_costBlind (i : Fin 6) : M.CostBlind (service i) := by
  refine .bind pushPc_costBlind fun _ => .bind (.modify fun _ => rfl) fun _ => ?_
  refine .bind (programAccess_costBlind _ .read) fun _ => .bind (programAccess_costBlind _ .read) fun _ => ?_
  refine .bind (.modify fun _ => rfl) fun _ => .bind (.modify fun _ => rfl) fun _ => .get_bind (fun _ => rfl) fun _ => ?_
  refine .bind (push_costBlind _) fun _ => .bind (.modify fun _ => rfl) fun _ => .bind (.modify fun _ => rfl) fun _ => ?_
  exact .bind (.modify fun _ => rfl) fun _ => .modify fun _ => rfl

theorem poll_costBlind : M.CostBlind poll := by
  refine .get_bind (fun _ => rfl) fun s => .ite ?_ (.pure _)
  split
  · exact .throw _
  · exact service_costBlind _

/-! ### The configuration, and the step of a machine without devices -/

/-- The configuration is the same, costs included. -/
def State.SameConfig (s t : State) : Prop := t.cfg = s.cfg

theorem State.SameConfig.rel : StateRel State.SameConfig := ⟨fun _ => rfl, fun h k => Eq.trans k h⟩

/-- Every operation keeps the configuration (log 1). -/
theorem State.SameConfig.machineRel : MachineRel State.SameConfig where
  toStateRel := State.SameConfig.rel
  read := fun s p => (State.RegOnly.slotRead s p).cfg
  write := fun s p v => (State.RegOnly.slotWrite s p v).cfg
  flags := fun _ _ => rfl
  charge := fun _ _ => rfl
  spl := fun _ _ => rfl
  setSp := fun _ _ => rfl
  core := fun _ _ _ _ => rfl
  control := fun _ _ _ _ => rfl
  program := fun _ _ => programAccess_keeps State.SameConfig.rel fun _ _ _ _ _ _ => rfl
  store := fun _ _ _ => ⟨fun _ _ h => by cases h; rfl, fun _ _ h => by cases h⟩

/-- Without devices the tick moves `lastTick` alone (`40_cycle_and_alu.md` R135). -/
theorem State.untimed_tick {s : State} (h : s.cfg.devices = []) : s.tick.untimed = s.untimed := by
  rw [State.tick_no_devices h]; rfl

theorem tick_bind_untimed {m : M Unit} (hm : M.CostBlind m) {s t : State} (hs : s.cfg.devices = [])
    (hst : s.untimed = t.untimed) :
    untimedResult ((modify State.tick >>= fun _ => m) s) = untimedResult ((modify State.tick >>= fun _ => m) t) := by
  have ht : t.cfg.devices = [] := (congrArg (fun u : State => u.cfg.devices) hst :).symm.trans hs
  have htick : s.tick.untimed = t.tick.untimed := by rw [State.untimed_tick hs, State.untimed_tick ht, hst]
  simpa using hm _ _ htick

theorem flushIfStopped_costBlind : M.CostBlind (modify fun s => if s.run = .stopped then s.flushAll else s : M PUnit) :=
  .modify fun s => by
    have hrun : s.untimed.run = s.run := rfl
    rw [hrun]
    split <;> rfl

theorem endOfCycle_untimed (wasIf : Bool) {s t : State} (hs : s.cfg.devices = []) (hst : s.untimed = t.untimed) :
    untimedResult (endOfCycle wasIf s) = untimedResult (endOfCycle wasIf t) :=
  untimedResult_bind (predBookkeeping_costBlind wasIf s t hst) fun _ u _ hbook huv =>
    have hcfg : u.cfg = s.cfg := (predBookkeeping_keeps State.SameConfig.machineRel wasIf s).1 _ _ hbook
    tick_bind_untimed (.bind poll_costBlind fun _ => flushIfStopped_costBlind) (hcfg ▸ hs) huv

theorem waitingStep_untimed {s t : State} (hs : s.cfg.devices = []) (hst : s.untimed = t.untimed) :
    untimedResult (waitingStep s) = untimedResult (waitingStep t) :=
  tick_bind_untimed (s := s.charge _) (t := t.charge _) poll_costBlind hs hst

theorem untimedOut_finish {m : M Unit} {s t : State} (h : untimedResult (m s) = untimedResult (m t)) :
    untimedOut (M.finish m s) = untimedOut (M.finish m t) := by
  have hfinish : ∀ u : State, untimedOut (M.finish m u) = M.finish (fun _ => untimedResult (m u)) u := fun u => by
    unfold M.finish
    cases m u <;> rfl
  rw [hfinish s, hfinish t, h]
  rfl

theorem closeCycle_untimed (i : Instr) {s t : State} (hs : s.cfg.devices = []) (hst : s.untimed = t.untimed) :
    untimedOut (closeCycle i (.next s)) = untimedOut (closeCycle i (.next t)) := by
  have hrun : s.run = t.run := (congrArg State.run hst :)
  simp only [closeCycle, hrun]
  split
  · exact congrArg Host.Outcome.next hst
  · exact untimedOut_finish (endOfCycle_untimed (isIf i) hs hst)

/-- The rest of a cycle after the fetch, from two states that differ in costs and clock alone. -/
theorem closeCycle_exec_untimed (i : Instr) {s t : State} (hs : s.cfg.devices = []) (hst : s.untimed = t.untimed) :
    untimedOut (closeCycle i (exec i s)) = untimedOut (closeCycle i (exec i t)) := by
  have hexec : untimedOut (exec i s) = untimedOut (exec i t) := by
    rw [exec_eq, exec_eq]
    exact untimedOut_finish (body_costBlind i s t hst)
  obtain ⟨u, hu⟩ := exec_next i s
  obtain ⟨v, hv⟩ := exec_next i t
  have hcfg : u.cfg = s.cfg := exec_keeps State.SameConfig.machineRel hu
  rw [hu, hv] at hexec ⊢
  exact closeCycle_untimed i (hcfg ▸ hs) (Host.Outcome.next.inj hexec)

theorem instructionCycle_untimed {s t : State} (hs : s.cfg.devices = []) (hst : s.untimed = t.untimed) :
    untimedOut (instructionCycle s) = untimedOut (instructionCycle t) := by
  unfold instructionCycle
  obtain ⟨i, u, v, hu, hv, huv⟩ | ⟨r, u, v, hu, hv, huv⟩ := untimedResult_cases (fetchInstr_costBlind s t hst)
  · have hcfg : u.cfg = s.cfg := (fetchInstr_keeps State.SameConfig.machineRel s).1 _ _ hu
    rw [hu, hv]
    exact closeCycle_exec_untimed i (hcfg ▸ hs) huv
  · rw [hu, hv]
    exact congrArg (fun w : State => (.next (w.raise r) : Out)) huv

/-- THE STEP SEES NO COST, without devices and a ceiling. -/
theorem step_untimed {s t : State} (hs : s.cfg.devices = []) (hceiling : s.cfg.ceiling = none) (hst : s.untimed = t.untimed) :
    untimedOut (step s) = untimedOut (step t) := by
  have hrun : s.run = t.run := (congrArg State.run hst :)
  have hceiling' : t.cfg.ceiling = none := (congrArg (fun u : State => u.cfg.ceiling) hst :).symm.trans hceiling
  have hbelow : ∀ {u : State}, u.cfg.ceiling = none → u.ceilingReached = false := fun h => by
    simp [State.ceilingReached, h]
  unfold step
  rw [hbelow hceiling, hbelow hceiling', hrun]
  cases t.run with
  | running => exact instructionCycle_untimed hs hst
  | waiting => exact untimedOut_finish (waitingStep_untimed hs hst)
  | stopped | exhausted | faulted => rfl

/-- Settles O60: with costs, clock and last tick erased the two steps are one. -/
theorem costIndependence : Obligations.CostIndependence := by
  intro s t hdevices hceiling hst
  have h : untimedOut (step s) = untimedOut (step t) := step_untimed hdevices hceiling (sameButCosts_iff.mp hst)
  refine ⟨fun s' hs => ?_, fun f hs => untimedOut_fault (hs ▸ h)⟩
  obtain ⟨t', ht, hst'⟩ := untimedOut_next (hs ▸ h)
  exact ⟨t', ht, sameButCosts_iff.mpr hst'⟩

end Sys2Proof.Machine
end

section
/-! SUPPORT. The reset state as a launch (`70_reset_and_hazards.md` R390, `10_state.md` R55; logs 2 to 5). -/

namespace Sys2Proof.Machine

/-- Register memory of reset by slot: 0xFF in the ReadOnly range, zero outside (`10_state.md` R55). -/
theorem State.getElem_resetRegs {i : Nat} (hi : i < 256) :
    State.resetRegs[i] = if 128 ≤ i ∧ i < 224 then 0xFF#8 else 0x00#8 := by
  simp only [State.resetRegs, Vector.getElem_mk, List.getElem_toArray, List.getElem_append, List.getElem_replicate,
    List.length_append, List.length_replicate]
  grind

/-- Slot by slot, a launch of the reference configuration fills register memory as reset has it. -/
theorem launchRegs_reference : launchRegs Config.reference zeroImage.reg = State.resetRegs := by
  refine Vector.ext fun i hi => ?_
  have hrange : (0x80#8 ≤ BitVec.ofNat 8 i ∧ BitVec.ofNat 8 i ≤ 0xDF#8) ↔ 128 ≤ i ∧ i < 224 := by
    simp only [BitVec.le_def, BitVec.toNat_ofNat]
    omega
  have hreadOnly : slotPolicy [] (BitVec.ofNat 8 i) = .readOnly ↔ 128 ≤ i ∧ i < 224 :=
    (policy_readOnly (s := State.reset)).trans hrange
  rw [State.getElem_resetRegs hi, launchRegs, Vector.getElem_ofFn]
  dsimp only
  cases hp : slotPolicy Config.reference.devices (BitVec.ofNat 8 i) with
  | readOnly => exact (if_pos (hreadOnly.mp hp)).symm
  | deviceBacked j => exact absurd hp (policy_no_devices (s := State.reset) rfl _ j)
  | readWrite | windowedPointer =>
    rw [if_neg fun h => by rw [Config.reference, hreadOnly.mpr h] at hp; cases hp]
    simp [zeroImage, Vector.get]

theorem launch_reference : launch Config.reference zeroImage = some State.reset := by
  have hvalid : Config.valid Config.reference = true := by decide
  rw [launch, if_pos hvalid, launchRegs_reference]
  rfl

/-- Settles O11: reset is a launch from canonical memories, so it has the invariant every such launch has. -/
theorem invReset : Obligations.InvReset :=
  ⟨launch_reference, launchInv Config.reference zeroImage State.reset rfl rfl launch_reference⟩

end Sys2Proof.Machine
end
